-- ==== Sys2Proof/Word.lean ====
section
/-! DEFINITION. The word of the part: 32 bits (00_scope.md, section 3). Byte order and bit fields stand in
Machine/Ops.lean. -/

namespace Sys2Proof

/-- A word: 32 bits. -/
abbrev Word := BitVec 32

/-- A byte of the DRAM. -/
abbrev Byte := BitVec 8

end Sys2Proof
end

