-- ==== Sys2Proof/Syntax.lean ====
section
/-! DEFINITION. The commands of the part: one constructor of `Instr` per row of spec/opcode_table.json, with the row's
operands. -/

namespace Sys2Proof

/-- A record as a request command carries it: the words that a record read returns beside CODE (the command's own) and
RESULT, which is 0 in a record that is taken (R98, R101). -/
structure Request where
  link : Word
  control : Word
  p0 : Word
  p1 : Word
  p2 : Word
  p3 : Word
  p4 : Word
  p5 : Word
  p6 : Word
  p7 : Word
deriving DecidableEq, Repr

/-- What an access asks for: a read of `len` words, or a write of one 32-bit value for each word (R125). -/
inductive AccessOp where
  | read (len : Nat)
  | write (data : List Word)
deriving DecidableEq, Repr

/-- An access as a master presents it on a port's bus: its first word address and what it asks for (R125). -/
structure AccessReq where
  addr : Word
  op : AccessOp
deriving DecidableEq, Repr

/-- The levels of the strap pins SZ1, SZ0 (`size`) and WID (`wide`): R142 and 00_scope.md, section 7. -/
structure Straps where
  /-- 0 is 32 MiB, 1 is 64 MiB, 2 is 128 MiB, 3 is 256 MiB. -/
  size : BitVec 2
  /-- true is 32 bits, false is 16 bits. -/
  wide : Bool
deriving DecidableEq, Repr

/-- The commands. -/
inductive Instr where
  /-- OPEN (R20, R21): the record read completes and returns this record with CODE 'OPEN'. The other requests likewise. -/
  | openWindow (r : Request)
  /-- CLOS (R22). -/
  | closeWindow (r : Request)
  /-- LOCK (R23). -/
  | lock (r : Request)
  /-- LOOK (R24 to R26). -/
  | look (r : Request)
  /-- LEAS (R31 to R35). -/
  | lease (r : Request)
  /-- RENW (R40). -/
  | renew (r : Request)
  /-- FREE (R42). -/
  | freeLease (r : Request)
  /-- POLI (R51, R52). -/
  | policy (r : Request)
  /-- WAIT (R62, R63). -/
  | waitWord (r : Request)
  /-- FILL (R77, R80). -/
  | fill (r : Request)
  /-- COPY (R78, R80). -/
  | copy (r : Request)
  /-- SCAN (R79, R80). -/
  | scan (r : Request)
  /-- ABRT (R113). -/
  | abort (r : Request)
  /-- NOOP (R115). -/
  | noop (r : Request)
  /-- UNKN (R115): a record with a CODE that the part does not recognise. -/
  | unknown (code : Word) (r : Request)
  /-- PORT (R133 to R135). -/
  | port (r : Request)
  /-- PRST (R137). -/
  | portReset (r : Request)
  /-- RFSH (R149). -/
  | refreshInterval (r : Request)
  /-- SPED (R164). -/
  | speed (r : Request)
  /-- SLEP (R172, R173). -/
  | sleep (r : Request)
  /-- GO: the word `w` is written to CTRL with bit 0 set (R119, R181). -/
  | go (w : Word)
  /-- STOP: the word `w` is written to CTRL with bit 1 set (R121, R181). -/
  | stop (w : Word)
  /-- SRST: the word `w` is written to CTRL with bit 2 set (R181). -/
  | softReset (w : Word)
  /-- WSET: the word `w` is written to CTRL with bit 7 set (R181). -/
  | wset (w : Word)
  /-- A write of `v` to ANCH (R182). -/
  | anchWrite (v : Word)
  /-- A write of `v` to EMSK (R183). -/
  | emskWrite (v : Word)
  /-- A write of `v` to ECLR (R184). -/
  | eclrWrite (v : Word)
  /-- A write of `v` to STAT, EVNT or an unused offset of register space (R180). -/
  | registerWriteOther (offset : Word) (v : Word)
  /-- Power-on or assertion of RESET, with the strap pins' levels (R160, R142). -/
  | fullReset (pins : Straps)
  /-- An access is presented on the bus of port `p` (R126). -/
  | accessArrival (p : Fin 4) (a : AccessReq)
  /-- The port access that holds the DRAM completes (R129). -/
  | accessComplete
  /-- The FILL burst that holds the DRAM completes (R84). -/
  | fillBurstComplete
  /-- The COPY read burst that holds the DRAM completes (R85). -/
  | copyReadBurstComplete
  /-- The COPY write burst that holds the DRAM completes (R85). -/
  | copyWriteBurstComplete
  /-- The SCAN burst that holds the DRAM completes (R86). -/
  | scanBurstComplete
  /-- The record read completes and returns what the DRAM holds (R101). -/
  | recordReadComplete
  /-- The arming read of a WAIT completes (R63). -/
  | waitArmingReadComplete
  /-- The arming read of slot 0 completes (R70, R106). -/
  | chainWatchArmingReadComplete
  /-- An engine write of header words other than RETIRED completes (R97). -/
  | headerWriteComplete
  /-- The RESULT write of a final code completes (R104). -/
  | resultWriteComplete
  /-- Another engine write completes: 'TAKN', reply words or RETIRED (R100). -/
  | engineWriteComplete
  /-- The lease timer of entry `i` reaches 0 (R36, R37). -/
  | leaseExpiry (i : Fin 16)
  /-- The timeout timer of slot `k` reaches 0 (R66). -/
  | watchTimeout (k : Fin 8)
  /-- The step timer ends RAISING (R165). -/
  | raisingEnd
  /-- The step timer ends LOCKING; `present` is the PLL's lock indication at that moment (R166). -/
  | lockingEnd (present : Bool)
  /-- The step timer ends LOWERING (R168). -/
  | loweringEnd
  /-- The switch cycle of an up sequence completes (R167). -/
  | switchUpComplete
  /-- The switch cycle of a down sequence completes (R168). -/
  | switchDownComplete
  /-- The refresh timer ends an interval (R148). -/
  | refreshIntervalEnd
  /-- A granted refresh completes (R148). -/
  | refreshComplete
  /-- A wake cycle completes (R145, R146). -/
  | wakeCycleComplete
  /-- The engine hands the controller into ENTERING_STANDBY (R122, R174). -/
  | standbyHandoff
  /-- The final refresh completes (R174). -/
  | finalRefreshComplete
  /-- The entry to self-refresh completes (R174). -/
  | selfRefreshEntryComplete
  /-- The exit from self-refresh completes (R177). -/
  | selfRefreshExitComplete
  /-- The exit refresh completes (R177). -/
  | exitRefreshComplete
  /-- The drain set of port `p` is empty (R138). -/
  | prstDrainComplete (p : Fin 4)
  /-- Entry `i` is RETIRING and its in-flight count is 0 (R17). -/
  | entryRetired (i : Fin 16)
  /-- The reason of the engine's stall has ended (R101, R107). -/
  | stallEnd
  /-- One lease tick (R36, R66, R162). -/
  | leaseTick
  /-- The full reset ends, with the strap pins' levels (R142, R145). -/
  | fullResetEnd (pins : Straps)
deriving DecidableEq, Repr

end Sys2Proof
end

