-- ==== Sys2Proof/Config.lean ====
section
/-! DEFINITION. The free values: what the manual leaves open and the machine goes on with. Each is opaque: nothing can
prove which value it has, so a statement about it holds for every value. -/

namespace Sys2Proof

/-- What a byte of the DRAM holds after the `epoch`-th full reset when nothing has written it since. R145: "The DRAM
contents are undefined throughout INIT and stay undefined after it". FREE VALUE, safe; log 2. -/
opaque Config.undefinedByte : (epoch : Nat) → (addr : Nat) → Byte

/-- Whether the RETIRED write that a STOP appends in a standby state wakes the controller. R100 and R176 say that an
operation joining the list is a wake cause; R176 also lists a STOP among the events that are none. FREE VALUE, safe;
log 13. -/
opaque Config.stopRetirementWakes : Bool

/-- Whether the arbiter's choice at the completion of the `n`-th record read comes before what the examination of the record
does. R136: the grant and the withdrawal of an access "are decided at the access, in the order in which they are taken",
and R153 lets a claim that is presented and a grant of the same moment come in either order. FREE VALUE, safe; log 18. -/
opaque Config.grantFirst : (n : Nat) → Bool

end Sys2Proof
end

