-- ==== Sys2Proof/Machine/State.lean ====
section
/-! DEFINITION. The state of the part, block by block as the manual's chapters give it, and the state after full reset.
Everything is plain data. A take-list record is named by a number (`RecId`; log 11). -/

namespace Sys2Proof.Machine

/-- Names one record of the take list: the spec's "take-list record" (R56, R75, R109). -/
abbrev RecId := Nat

/-! ## The region table (R1 to R55) -/

/-- The right an access or burst needs (R5, R7). -/
inductive Dir where
  | read
  | write
deriving DecidableEq, Repr

/-- R1: end cause. -/
inductive EndCause where
  | released
  | expired
  | closed
  | port
deriving DecidableEq, Repr

/-- R11: the mode of a lease. -/
inductive LeaseMode where
  | exclusive
  | sharedRead
  | holderWrite
deriving DecidableEq, Repr

/-- R49: the class of a lease, of an allowed access and of its claim. -/
inductive BwClass where
  | default
  | priority
deriving DecidableEq, Repr

/-- R50: the class policy. -/
inductive Policy where
  | shared
  | single
deriving DecidableEq, Repr

/-- A running timer of lease ticks (R36, R66, R162). A stopped timer is `none`. -/
structure Timer where
  /-- ms remaining. -/
  remaining : Nat
  /-- The first lease tick after the start, which is not counted, has not come yet. -/
  fresh : Bool
  /-- The tick that brings the count to 0 has come and what the timer does then has not been taken yet (log 5). -/
  due : Bool
deriving DecidableEq, Repr

/-- A range of granules (R1). -/
structure Range where
  base : Nat
  size : Nat
deriving DecidableEq, Repr

/-- What a window holds beside its range (R1). -/
structure WindowDef where
  /-- In the layout of OPEN's P3 bits 0 to 7 (R20). -/
  rights : BitVec 8
  locked : Bool
deriving DecidableEq, Repr

/-- What a lease holds beside its range (R1, R29). -/
structure LeaseDef where
  /-- Bit p is set for port p (R31). -/
  holders : BitVec 4
  mode : LeaseMode
  cls : BwClass
  demoted : Bool
  expiry : Option Timer
  serial : Word
deriving DecidableEq, Repr

/-- What a RETIRING entry keeps of its definition: its kind with the kind's fields (R2, R16). -/
inductive Kind where
  | window (w : WindowDef)
  | lease (l : LeaseDef)
deriving DecidableEq, Repr

/-- A waiting request: the record of the CLOS or FREE, and the in-flight count when it was taken, which its RW0 gives
(R16, R22, R42). -/
structure Waiter where
  request : RecId
  count : Nat
deriving DecidableEq, Repr

/-- R1, R2: the state of an entry with the fields present in it. -/
inductive EntryStatus where
  | free (cause : Option EndCause)
  | opened (r : Range) (w : WindowDef)
  | leased (r : Range) (l : LeaseDef)
  | retiring (r : Range) (k : Kind) (cause : EndCause) (waiting : Option Waiter)
deriving DecidableEq, Repr

/-- R3, R26: the cause field of a fault record. -/
inductive FaultCause where
  | entry
  | noMatch
  | workArea
  | beyondDram
deriving DecidableEq, Repr

/-- R5: a fault record. -/
structure FaultRecord where
  port : Fin 4
  transfer : Bool
  dir : Dir
  addr : Word
  cause : FaultCause
  denied : Nat
deriving DecidableEq, Repr

/-- R1: an entry. -/
structure Entry where
  status : EntryStatus
  inflight : Nat
  fault : Option FaultRecord
deriving DecidableEq, Repr

/-- The region table. -/
structure RegionTable where
  entries : Vector Entry 16
  /-- Pseudo-entry 16 (R3). -/
  unclaimed : Option FaultRecord
  /-- The grant serial counter (R30). -/
  serial : Word
  policy : Policy
deriving DecidableEq, Repr

/-! ## The watch unit (R56 to R74) -/

/-- R57: the two armed states. -/
inductive ArmedState where
  | matching
  | waiting
deriving DecidableEq, Repr

/-- R56: an armed slot; a FREE slot is `none`. -/
structure WatchSlot where
  armed : ArmedState
  addr : Word
  mask : Word
  compare : Word
  timeout : Option Timer
  release : Option (Fin 16)
  owner : RecId
deriving DecidableEq, Repr

/-! ## The transfer unit (R75 to R95) -/

/-- R75: the kind of a transfer with its addresses, pattern and mask. -/
inductive Job where
  | fill (dst pattern : Word)
  | copy (src dst : Word)
  | scan (addr pattern mask : Word)
deriving DecidableEq, Repr

/-- R75: the state of a transfer. -/
inductive TransferState where
  | waiting
  | running
  | stopping
deriving DecidableEq, Repr

/-- R75: the outstanding burst. -/
structure Burst where
  addr : Word
  len : Nat
  half : Dir
  /-- Its deciding entry, if it has one and is not detached. -/
  entry : Option (Fin 16)
  granted : Bool
deriving DecidableEq, Repr

/-- R75: a transfer. -/
structure Transfer where
  job : Job
  port : Fin 4
  count : Nat
  done : Nat
  state : TransferState
  burst : Option Burst
  buffer : List Word
  /-- SCAN: address and value of the first mismatching word, once found. -/
  mismatch : Option (Word × Word)
  owner : RecId
deriving DecidableEq, Repr

/-- R94: a granted burst that outlives a soft reset, detached, with what it writes. -/
inductive OrphanBurst where
  | fill (addr : Word) (data : List Word)
  | copyRead
  | copyWrite (addr : Word) (data : List Word)
  | scan
deriving DecidableEq, Repr

/-! ## The request engine (R96 to R124) -/

/-- 05, section 5.8: the final result codes. -/
inductive ResultCode where
  | okay
  | unkn
  | parm
  | area
  | used
  | lked
  | noen
  | ovlp
  | clas
  | late
  | busy
  | refu
  | fenc
  | time
  | canc
  | none
  | fail
deriving DecidableEq, Repr

/-- The reply words RW0 to RW3 (R98). -/
structure Replies where
  rw0 : Word
  rw1 : Word
  rw2 : Word
  rw3 : Word
deriving DecidableEq, Repr

/-- R108: the stage of a take-list record, with the final code and reply words once known. -/
inductive Stage where
  | taking
  | active
  | writing (code : ResultCode) (rw : Replies)
  | final (code : ResultCode) (rw : Replies)
deriving DecidableEq, Repr

/-- R108: a record of the take list. -/
structure TakeRecord where
  id : RecId
  addr : Word
  code : Word
  tag : BitVec 16
  notify : Bool
  stage : Stage
deriving DecidableEq, Repr

/-- R103, R109: the block that carries a long request out. -/
inductive Block where
  | regionTable
  | watchUnit
  | transferUnit
  | agentPorts
  | speedControl
deriving DecidableEq, Repr

/-- R109: a request of the active table. -/
structure ActiveRequest where
  id : RecId
  code : Word
  tag : BitVec 16
  block : Block
deriving DecidableEq, Repr

/-- What a WAIT that passed its checks asks of the watch unit (R62, R63). -/
structure WatchSpec where
  addr : Word
  mask : Word
  compare : Word
  timeout : Nat
  release : Option (Fin 16)
  immediate : Bool
deriving DecidableEq, Repr

/-- R117: a chain fault that is reported in header words 3 and 4 by a write of its own. -/
inductive ChainFault where
  | badLink
  | notFresh
deriving DecidableEq, Repr

/-- R97, R100: an operation of the engine's operation list. `live = false` marks a read that a STOP or a soft reset has
left without a use: its data is discarded (R121, R123). -/
inductive EngineOp where
  | recordRead (addr : Word) (live : Bool)
  | armWait (id : RecId) (w : WatchSpec) (live : Bool)
  | armTail (id : RecId) (addr : Word) (live : Bool)
  | taknWrite (id : RecId) (addr : Word)
  | replyWrite (id : RecId) (addr : Word) (rw : Replies)
  | resultWrite (id : RecId) (addr : Word) (code : ResultCode) (notify : Bool)
  /-- The whole header, at GO; `badAnchor` holds ANCH for the chain fault BAD_ANCHOR. -/
  | headerGo (badAnchor : Option Word)
  /-- Words 1 and 2, at a take. -/
  | headerTake (id : RecId) (taken : Word) (last : Word)
  /-- Word 0, at a retirement. -/
  | headerRetired (addr : Word)
  /-- Words 3 and 4, at a chain fault other than BAD_ANCHOR. -/
  | headerFault (kind : ChainFault) (addr : Word)
deriving DecidableEq, Repr

/-- R99: the stall reasons. -/
inductive StallReason where
  | tableFull
  | queueFull
  | barrier
  | retireFull
  | waking
deriving DecidableEq, Repr

/-- R102: the operation at whose completion a take ends: the header write of a long request, the arming read of a WAIT,
the RESULT write of an instant request. -/
inductive TakeEnd where
  | header
  | arming
  | result
deriving DecidableEq, Repr

/-- R99: the engine state, with what the chain reader is doing in READING and the next address where there is one. -/
inductive Reader where
  | stopped
  /-- READING: the record at `addr` is being examined (R101). -/
  | examining (addr : Word)
  /-- READING: the take of `id` is under way; `link` is its LINK as read (R102). -/
  | taking (id : RecId) (addr : Word) (link : Word) (ends : TakeEnd)
  /-- READING: the arming read of slot 0 is outstanding (R106). -/
  | arming (id : RecId)
  | atTail (id : RecId)
  | stalled (reason : StallReason) (next : Word)
  | faulted
deriving DecidableEq, Repr

/-- R99: the request engine. -/
structure Engine where
  reader : Reader
  tail : Option RecId
  stopPending : Bool
  taken : Word
  takeList : List TakeRecord
  active : List ActiveRequest
  ops : List EngineOp
  /-- The SLEP whose standby hand-off is pending (R122, R173). -/
  handoff : Option RecId
  /-- A record read of the stalled reader's next address is held for the hand-off (R122). -/
  heldRead : Bool
  /-- The next take-list record's number (log 11). -/
  nextId : RecId
deriving DecidableEq, Repr

/-! ## The agent ports (R125 to R141) -/

/-- R127: the five outcomes. -/
inductive PortOutcome where
  | done
  | denied
  | retry
  | aborted
  | unclaimed
deriving DecidableEq, Repr

/-- R125: the stage of an access, with its outcome, class and deciding entry, or the data read. -/
inductive AccessStage where
  | decided (o : PortOutcome)
  | waiting (cls : BwClass) (entry : Option (Fin 16))
  | inProgress (cls : BwClass) (entry : Option (Fin 16))
  | done (data : List Word)
deriving DecidableEq, Repr

/-- R125: an access of the outstanding list. -/
structure Access where
  req : AccessReq
  stage : AccessStage
deriving DecidableEq, Repr

/-- R125: the former state of a RESETTING port. -/
inductive FormerState where
  | active
  | quiesced
deriving DecidableEq, Repr

/-- R125, R137, R138: what a RESETTING port holds. The accesses of the drain set are the first `drainAccesses` of the
outstanding list, since they arrived before every other. -/
structure Resetting where
  former : FormerState
  request : RecId
  drainAccesses : Nat
  drainTransfers : List RecId
  withdrawn : Nat
  released : Nat
  cancelled : Nat
deriving DecidableEq, Repr

/-- R125, R132: the port state. -/
inductive PortState where
  | active
  | quiesced
  | disabled
  | resetting (r : Resetting)
deriving DecidableEq, Repr

/-- R125: a port; `bus` holds the accesses presented on its bus and not accepted yet (R126; log 9). -/
structure Port where
  state : PortState
  outstanding : List Access
  bus : List AccessReq
deriving DecidableEq, Repr

/-- A response delivered to a master (R127, R128). -/
structure Response where
  port : Fin 4
  outcome : PortOutcome
  data : List Word
deriving DecidableEq, Repr

/-! ## Speed control (R161 to R171) -/

inductive SpeedState where
  | base
  | raising
  | locking
  | switchingUp
  | full
  | switchingDown
  | lowering
deriving DecidableEq, Repr

inductive Supply where
  | low
  | high
deriving DecidableEq, Repr

inductive Pll where
  | off
  | running
deriving DecidableEq, Repr

inductive InterfaceSpeed where
  | base
  | full
deriving DecidableEq, Repr

/-- R161: speed control. -/
structure SpeedControl where
  state : SpeedState
  supply : Supply
  pll : Pll
  iface : InterfaceSpeed
  timer : Option Timer
  owner : Option RecId
  demoted : Nat
  /-- The SWITCH claim is presented and not granted (R143, R156). -/
  switchWaiting : Bool
deriving DecidableEq, Repr

/-! ## The DRAM controller and the arbiter (R142 to R160, R172 to R179) -/

/-- R174: what the controller does in ENTERING_STANDBY. -/
inductive EnterStep where
  /-- The claim that held the DRAM at the hand-off completes. -/
  | draining
  | finalRefresh
  | selfRefreshEntry
deriving DecidableEq, Repr

/-- R177: what the controller does in LEAVING_STANDBY. -/
inductive LeaveStep where
  | selfRefreshExit
  | exitRefresh
deriving DecidableEq, Repr

/-- R143, R144: the controller state; `cycling` says that a wake cycle is in progress (R145). -/
inductive ControllerState where
  | init (cycling : Bool)
  | run
  | entering (e : EnterStep)
  | standby
  | leaving (l : LeaveStep)
deriving DecidableEq, Repr

/-- R143, R174: the controller beside its arbiter. -/
structure Controller where
  state : ControllerState
  wakeCount : Nat
  released : Bool
  wakeRecorded : Bool
  code : BitVec 2
  /-- The refresh timer: stopped, or counting an interval of the given code (R148, R149; log 8). -/
  timer : Option (BitVec 2)
  refreshDue : Bool
deriving DecidableEq, Repr

/-- R150: the claim that holds the DRAM, by its claimant. -/
inductive Holder where
  | refresh
  | switch
  | port (p : Fin 4)
  | chain
  | transfer
  /-- A transfer burst that outlives a soft reset (R94). -/
  | orphan (b : OrphanBurst)
deriving DecidableEq, Repr

/-- R143, R152: the default claimants. -/
inductive Claimant where
  | port (p : Fin 4)
  | chain
  | transfer
deriving DecidableEq, Repr

/-- R143: the arbiter. The waiting claims are computed from the claimants' own state (`waitingClaim`). -/
structure Arbiter where
  holder : Option Holder
  prioPtr : Fin 4
  defPtr : Claimant
  /-- The passover count of each default claimant's waiting claim, 0 where none waits: ports 0 to 3, chain reader,
  transfer unit (R153). -/
  pass : Vector Nat 6
  /-- The model's own: the number of record reads completed, which names the free value of each one's order (log 18). -/
  reads : Nat
deriving DecidableEq, Repr

/-! ## The register window (R180 to R185) -/

/-- The registers that hold something of their own. -/
structure RegisterWindow where
  /-- 0 is 64 KiB, 1 is 128 KiB, 2 is 256 KiB, 3 is 512 KiB (R181). -/
  wsize : BitVec 2
  wsizeFixed : Bool
  anch : Word
  evnt : BitVec 9
  emsk : BitVec 9
deriving DecidableEq, Repr

/-! ## The whole -/

/-- The bytes of the DRAM written since the last full reset: addresses strictly rising. An unlisted byte has no value of
its own: it reads as `Config.undefinedByte` (log 2). -/
abbrev Memory := List Host.Cell

/-- The state of the part. -/
structure State where
  table : RegionTable
  slots : Vector (Option WatchSlot) 8
  queue : List Transfer
  eng : Engine
  ports : Vector Port 4
  /-- The responses delivered to the masters since the last full reset, oldest first (log 10). -/
  delivered : List Response
  speed : SpeedControl
  ctl : Controller
  arb : Arbiter
  win : RegisterWindow
  straps : Straps
  /-- A full reset is in progress: it was asserted and has not ended (R141). -/
  inReset : Bool
  mem : Memory
  /-- Which undefined contents the DRAM has: the number of full resets taken (log 2). -/
  epoch : Nat
  /-- The commands that wait, first in first out (log 1). -/
  pending : List Instr
deriving DecidableEq, Repr

/-- Why a step stops with a fault: for no reason. The manual names no condition that stops the part (INVENTORY.md,
Faults), and no meaning raises a fault. -/
inductive Fault where
deriving DecidableEq, Repr

/-- Why a step is refused. -/
inductive Refusal where
  /-- A command that has no meaning yet; raised by its arm in Dispatch.lean. Safe. No arm raises it. -/
  | notModelled (mnemonic : String)
deriving DecidableEq, Repr

/-! ## Reset -/

/-- R27: an entry after full reset. -/
def Entry.reset : Entry := { status := .free none, inflight := 0, fault := none }

/-- R27. -/
def RegionTable.reset : RegionTable :=
  { entries := Vector.replicate 16 Entry.reset, unclaimed := none, serial := 0, policy := .shared }

/-- R124. -/
def Engine.reset : Engine :=
  { reader := .stopped, tail := none, stopPending := false, taken := 0, takeList := [], active := [], ops := [],
    handoff := none, heldRead := false, nextId := 0 }

/-- R141: a port after full reset, with its state. -/
def Port.reset (st : PortState) : Port := { state := st, outstanding := [], bus := [] }

/-- R161, R171. -/
def SpeedControl.reset : SpeedControl :=
  { state := .base, supply := .low, pll := .off, iface := .base, timer := none, owner := none, demoted := 0,
    switchWaiting := false }

/-- R143, R160, R174; the first wake cycle is in progress (R145). -/
def Controller.reset : Controller :=
  { state := .init true, wakeCount := 0, released := false, wakeRecorded := false, code := 1, timer := none,
    refreshDue := false }

/-- R143, R160. -/
def Arbiter.reset : Arbiter :=
  { holder := none, prioPtr := 3, defPtr := .transfer, pass := Vector.replicate 6 0, reads := 0 }

/-- R185. -/
def RegisterWindow.reset : RegisterWindow := { wsize := 0, wsizeFixed := false, anch := 0, evnt := 0, emsk := 0 }

/-- The part right after a full reset has ended. DESIGN CHOICE: the strap pins show the standard example system, 64 MiB
and 32 bits (log 14), and the reset has ended, so that the first wake cycle is in progress (log 15). -/
def State.reset : State :=
  { table := RegionTable.reset
    slots := Vector.replicate 8 none
    queue := []
    eng := Engine.reset
    ports := #v[Port.reset .active, Port.reset .quiesced, Port.reset .quiesced, Port.reset .quiesced]
    delivered := []
    speed := SpeedControl.reset
    ctl := Controller.reset
    arb := Arbiter.reset
    win := RegisterWindow.reset
    straps := { size := 1, wide := true }
    inReset := false
    mem := []
    epoch := 0
    pending := [] }

end Sys2Proof.Machine
end

