-- ==== Sys2Proof/Machine/Flags.lean ====
section
/-! DEFINITION. The event register: raising, enabling and clearing the nine events, and the IRQ pin (R183, R184). -/

namespace Sys2Proof.Machine

/-- The nine events (10_event_reporting_and_register_window.md, section 10.2). -/
inductive Event where
  | done
  | watch
  | expire
  | fence
  | cls
  | chain
  | port
  | wake
  | speed
deriving DecidableEq, Repr

/-- The bit position of an event in EVNT, EMSK and ECLR (section 10.2). -/
def Event.bit : Event → Nat
  | .done => 0
  | .watch => 1
  | .expire => 2
  | .fence => 3
  | .cls => 4
  | .chain => 5
  | .port => 6
  | .wake => 7
  | .speed => 8

/-- The word with an event's flag alone. -/
def Event.flag (e : Event) : BitVec 9 := 1#9 <<< e.bit

/-- R183: raising an event sets its flag if its enable is set at that moment; otherwise the raising is not recorded. -/
def RegisterWindow.raise (e : Event) (w : RegisterWindow) : RegisterWindow :=
  if w.emsk.getLsbD e.bit then { w with evnt := w.evnt ||| e.flag } else w

/-- R183. -/
def raise (e : Event) (s : State) : State := { s with win := s.win.raise e }

/-- Raises an event if a condition holds. -/
def raiseIf (c : Bool) (e : Event) (s : State) : State := if c then raise e s else s

/-- R184: the IRQ pin is asserted while any EVNT flag is set. -/
def State.irq (s : State) : Bool := s.win.evnt != 0#9

end Sys2Proof.Machine
end

