-- ==== Sys2Proof/Machine/Ops.lean ====
section
/-! DEFINITION. The shared operations: DRAM bytes and words, the address map, timers, the entries of the region table, the
engine's lists. -/

namespace Sys2Proof.Machine

/-! ## Vectors -/

/-- Applies `f` to every element. -/
def mapVec {α β : Type} {n : Nat} (f : α → β) (v : Vector α n) : Vector β n := ⟨⟨v.toList.map f⟩, by simp⟩

/-- The sixteen entry indices, lowest first. -/
def entryIndices : List (Fin 16) := [0, 1, 2, 3, 4, 5, 6, 7, 8, 9, 10, 11, 12, 13, 14, 15]

/-- The eight watch slots, lowest first. -/
def slotIndices : List (Fin 8) := [0, 1, 2, 3, 4, 5, 6, 7]

/-- The slots that serve WAIT requests, lowest first (R56). -/
def waitSlots : List (Fin 8) := [1, 2, 3, 4, 5, 6, 7]

/-- The four ports. -/
def portIndices : List (Fin 4) := [0, 1, 2, 3]

/-! ## Memory -/

/-- The byte listed at an address, if one is. -/
def byte? : Memory → Nat → Option Byte
  | [], _ => none
  | (a, b) :: m, k => if a = k then some b else byte? m k

/-- Writes one byte, keeping the addresses rising. -/
def setByte : Memory → Nat → Byte → Memory
  | [], k, v => [(k, v)]
  | (a, b) :: m, k, v =>
    if k < a then (k, v) :: (a, b) :: m
    else if k = a then (k, v) :: m
    else (a, b) :: setByte m k v

/-- The canonical form of a memory: addresses strictly rising. -/
def Memory.wf : Memory → Bool
  | [] => true
  | [_] => true
  | c :: d :: m => decide (c.1 < d.1) && Memory.wf (d :: m)

/-- Byte `k` of a word, byte 0 the least significant. -/
def wordByte (w : Word) (k : Nat) : Byte := w.extractLsb' (8 * k) 8

/-- Stores a word, little-endian (00_scope.md, section 3). -/
def storeWord (m : Memory) (a : Nat) (w : Word) : Memory :=
  setByte (setByte (setByte (setByte m a (wordByte w 0)) (a + 1) (wordByte w 1)) (a + 2) (wordByte w 2)) (a + 3)
    (wordByte w 3)

/-- Stores words at ascending addresses. -/
def storeWords : Memory → Nat → List Word → Memory
  | m, _, [] => m
  | m, a, w :: ws => storeWords (storeWord m a w) (a + 4) ws

/-- The byte the DRAM holds at an address: the byte written there since the last full reset, else a free value (R145). -/
def State.byteAt (s : State) (a : Nat) : Byte :=
  match byte? s.mem a with
  | some b => b
  | none => Config.undefinedByte s.epoch a

/-- The word the DRAM holds at an address, little-endian. -/
def State.wordAt (s : State) (a : Nat) : Word :=
  s.byteAt (a + 3) ++ s.byteAt (a + 2) ++ s.byteAt (a + 1) ++ s.byteAt a

/-- `n` words from an address upward. -/
def State.wordsAt (s : State) : Nat → Nat → List Word
  | _, 0 => []
  | a, n + 1 => s.wordAt a :: s.wordsAt (a + 4) n

/-- Stores words into the DRAM (R151: a completed write has stored all its words). -/
def State.store (s : State) (a : Nat) (ws : List Word) : State := { s with mem := storeWords s.mem a ws }

/-! ## The address map -/

/-- R142: the strapped DRAM size in bytes. -/
def State.dramBytes (s : State) : Nat := 33554432 * 2 ^ s.straps.size.toNat

/-- R96: WSIZE in bytes. -/
def State.workBytes (s : State) : Nat := 65536 * 2 ^ s.win.wsize.toNat

/-- R96: the work-area base. -/
def State.workBase (s : State) : Nat := s.dramBytes - s.workBytes

/-- The number of DRAM granules (00_scope.md, section 3). -/
def State.granules (s : State) : Nat := s.dramBytes / 4096

/-- The granule number of the work-area base (R20). -/
def State.workGranule (s : State) : Nat := s.workBase / 4096

/-- R105: the link test, also the anchor test (R119). -/
def State.linkValid (s : State) (a : Word) : Bool :=
  decide (s.workBase + 64 ≤ a.toNat) && decide (a.toNat < s.dramBytes) && decide (a.toNat % 64 = 0)

/-! ## Timers (R36) -/

/-- A timer loaded with `d` ms and started: the first lease tick is not counted. -/
def Timer.start (d : Nat) : Timer := { remaining := d, fresh := true, due := false }

/-- A duration of 0 ms gives no timer (R35, R40, R63). -/
def Timer.ofDuration (d : Nat) : Option Timer := if d = 0 then none else some (Timer.start d)

/-- One lease tick at a running timer. The tick on which the count reaches 0 leaves the count at 1 and makes the timer
due: what it does then is a step of its own (log 5). -/
def Timer.tick (t : Timer) : Timer :=
  if t.due then t
  else if t.fresh then { t with fresh := false }
  else if t.remaining ≤ 1 then { t with due := true }
  else { t with remaining := t.remaining - 1 }

/-- Whether a timer is running and due. -/
def timerDue : Option Timer → Bool
  | some t => t.due
  | none => false

/-! ## Entries of the region table -/

/-- Entry `i`. -/
def State.entry (s : State) (i : Fin 16) : Entry := s.table.entries[i]

/-- Replaces entry `i`. -/
def State.setEntry (s : State) (i : Fin 16) (e : Entry) : State :=
  { s with table := { s.table with entries := s.table.entries.set i e } }

/-- Replaces the state of entry `i`, keeping its count and fault record. -/
def State.setStatus (s : State) (i : Fin 16) (st : EntryStatus) : State :=
  s.setEntry i { s.entry i with status := st }

/-- Replaces the in-flight count of entry `i`. -/
def State.setInflight (s : State) (i : Fin 16) (n : Nat) : State := s.setEntry i { s.entry i with inflight := n }

/-- Port `p`. -/
def State.port (s : State) (p : Fin 4) : Port := s.ports[p]

/-- Replaces port `p`. -/
def State.setPort (s : State) (p : Fin 4) (q : Port) : State := { s with ports := s.ports.set p q }

/-- Slot `k`. -/
def State.slot (s : State) (k : Fin 8) : Option WatchSlot := s.slots[k]

/-- Replaces slot `k`. -/
def State.setSlot (s : State) (k : Fin 8) (w : Option WatchSlot) : State := { s with slots := s.slots.set k w }

/-! ## The engine's lists -/

/-- R176: what a wake cause does, by the controller state. -/
def Controller.wake (c : Controller) : Controller :=
  match c.state with
  | .entering _ => { c with wakeRecorded := true }
  | .standby => { c with state := .leaving .selfRefreshExit }
  | .init _ => c
  | .run => c
  | .leaving _ => c

/-- R176. -/
def wakeCause (s : State) : State := { s with ctl := s.ctl.wake }

/-- Appends operations to the operation list without the wake cause. -/
def pushOps (ops : List EngineOp) (s : State) : State := { s with eng := { s.eng with ops := s.eng.ops ++ ops } }

/-- R100: appends operations to the operation list, which is a wake cause (R176). -/
def appendOps (ops : List EngineOp) (s : State) : State := if ops.isEmpty then s else wakeCause (pushOps ops s)

/-- A take-list record with its final result (R104). -/
def TakeRecord.withResult (code : ResultCode) (rw : Replies) (r : TakeRecord) : TakeRecord :=
  { r with stage := .writing code rw }

/-- R104, steps 1 and 2: the request leaves the active table and its record goes to WRITING with its result. -/
def Engine.handOver (id : RecId) (code : ResultCode) (rw : Replies) (e : Engine) : Engine :=
  { e with
    active := e.active.filter (fun a => a.id != id)
    takeList := e.takeList.map (fun r => if r.id = id then r.withResult code rw else r) }

/-- The take-list record with a number. -/
def Engine.record? (e : Engine) (id : RecId) : Option TakeRecord := e.takeList.find? (fun r => r.id == id)

/-- R104: a request's final result becomes known. Its reply-word write and RESULT write join the operation list. -/
def complete (id : RecId) (code : ResultCode) (rw : Replies) (s : State) : State :=
  match s.eng.record? id with
  | none => s
  | some r =>
    appendOps [.replyWrite id r.addr rw, .resultWrite id r.addr code r.notify]
      { s with eng := s.eng.handOver id code rw }

/-- R102: what ends the take of `id` under way. -/
def Reader.endsAt (id : RecId) (e : TakeEnd) : Reader → Reader
  | .taking i a l e0 => if i = id then .taking i a l e else .taking i a l e0
  | .stopped => .stopped
  | .examining a => .examining a
  | .arming i => .arming i
  | .atTail i => .atTail i
  | .stalled r a => .stalled r a
  | .faulted => .faulted

/-- Sets what ends the take of `id` under way. -/
def setTakeEnd (id : RecId) (e : TakeEnd) (s : State) : State :=
  { s with eng := { s.eng with reader := s.eng.reader.endsAt id e } }

/-- R102: an instant request's final result; its take ends with its RESULT write. -/
def instant (id : RecId) (code : ResultCode) (rw : Replies) (s : State) : State :=
  complete id code rw (setTakeEnd id .result s)

/-- R102, R109: a request enters the active table as a long request. -/
def Engine.enterActive (id : RecId) (block : Block) (e : Engine) : Engine :=
  match e.record? id with
  | none => e
  | some r =>
    { e with
      active := e.active ++ [{ id := id, code := r.code, tag := r.tag, block := block }]
      takeList := e.takeList.map (fun r => if r.id = id then { r with stage := .active } else r) }

/-- R102, R109. -/
def enterActive (id : RecId) (block : Block) (s : State) : State :=
  { s with eng := s.eng.enterActive id block }

/-- The oldest records of the take list that are FINAL and not the tail record, and the rest (R110). -/
def splitRetired (tail : Option RecId) : List TakeRecord → List TakeRecord × List TakeRecord
  | [] => ([], [])
  | r :: rs =>
    match r.stage with
    | .final _ _ =>
      if tail = some r.id then ([], r :: rs)
      else ((r :: (splitRetired tail rs).1), (splitRetired tail rs).2)
    | .taking => ([], r :: rs)
    | .active => ([], r :: rs)
    | .writing _ _ => ([], r :: rs)

/-- The RETIRED writes of retired records, in order (R110). -/
def retiredWrites (rs : List TakeRecord) : List EngineOp := rs.map (fun r => .headerRetired r.addr)

/-- R110: the retirements that the present take list gives; the RETIRED writes join the operation list. -/
def retire (s : State) : State :=
  appendOps (retiredWrites (splitRetired s.eng.tail s.eng.takeList).1)
    { s with eng := { s.eng with takeList := (splitRetired s.eng.tail s.eng.takeList).2 } }

/-- R111: the tail record, if there is one, stops being the tail, and retirement is tested. -/
def endTail (s : State) : State :=
  match s.eng.tail with
  | none => s
  | some _ => retire { s with eng := { s.eng with tail := none } }

end Sys2Proof.Machine
end

