-- ==== Sys2Proof/Machine/Operands.lean ====
section
/-! DEFINITION. The layouts of records: request codes and result codes as 4CC, the CONTROL word, the reply words, and the
parameter checks that several requests share. -/

namespace Sys2Proof.Machine

/-- A 4CC: the first character in the lowest-addressed byte (00_scope.md, section 3; R186). -/
def fourCC (a b c d : Char) : Word :=
  BitVec.ofNat 32 (a.toNat + 256 * b.toNat + 65536 * c.toNat + 16777216 * d.toNat)

/-- The codes the part recognises (R103). -/
inductive Code where
  | openWindow
  | closeWindow
  | lock
  | look
  | lease
  | renew
  | freeLease
  | policy
  | waitWord
  | fill
  | copy
  | scan
  | abort
  | noop
  | port
  | portReset
  | refreshInterval
  | speed
  | sleep
deriving DecidableEq, Repr

/-- R103: every recognised code. -/
def Code.all : List Code :=
  [.openWindow, .closeWindow, .lock, .look, .lease, .renew, .freeLease, .policy, .waitWord, .fill, .copy, .scan, .abort,
    .noop, .port, .portReset, .refreshInterval, .speed, .sleep]

/-- R103: the 4CC of a code. -/
def Code.word : Code → Word
  | .openWindow => fourCC 'O' 'P' 'E' 'N'
  | .closeWindow => fourCC 'C' 'L' 'O' 'S'
  | .lock => fourCC 'L' 'O' 'C' 'K'
  | .look => fourCC 'L' 'O' 'O' 'K'
  | .lease => fourCC 'L' 'E' 'A' 'S'
  | .renew => fourCC 'R' 'E' 'N' 'W'
  | .freeLease => fourCC 'F' 'R' 'E' 'E'
  | .policy => fourCC 'P' 'O' 'L' 'I'
  | .waitWord => fourCC 'W' 'A' 'I' 'T'
  | .fill => fourCC 'F' 'I' 'L' 'L'
  | .copy => fourCC 'C' 'O' 'P' 'Y'
  | .scan => fourCC 'S' 'C' 'A' 'N'
  | .abort => fourCC 'A' 'B' 'R' 'T'
  | .noop => fourCC 'N' 'O' 'O' 'P'
  | .port => fourCC 'P' 'O' 'R' 'T'
  | .portReset => fourCC 'P' 'R' 'S' 'T'
  | .refreshInterval => fourCC 'R' 'F' 'S' 'H'
  | .speed => fourCC 'S' 'P' 'E' 'D'
  | .sleep => fourCC 'S' 'L' 'E' 'P'

/-- R103: a code is matched as the four bytes of the CODE word, exactly as written. -/
def Code.ofWord (w : Word) : Option Code := Code.all.find? (fun c => c.word == w)

/-- R101: the codes that need room in the transfer queue. -/
def Code.needsRoom : Option Code → Bool
  | some .fill => true
  | some .copy => true
  | some .scan => true
  | _ => false

/-- 05, section 5.8: a result code as its 4CC. -/
def ResultCode.word : ResultCode → Word
  | .okay => fourCC 'O' 'K' 'A' 'Y'
  | .unkn => fourCC 'U' 'N' 'K' 'N'
  | .parm => fourCC 'P' 'A' 'R' 'M'
  | .area => fourCC 'A' 'R' 'E' 'A'
  | .used => fourCC 'U' 'S' 'E' 'D'
  | .lked => fourCC 'L' 'K' 'E' 'D'
  | .noen => fourCC 'N' 'O' 'E' 'N'
  | .ovlp => fourCC 'O' 'V' 'L' 'P'
  | .clas => fourCC 'C' 'L' 'A' 'S'
  | .late => fourCC 'L' 'A' 'T' 'E'
  | .busy => fourCC 'B' 'U' 'S' 'Y'
  | .refu => fourCC 'R' 'E' 'F' 'U'
  | .fenc => fourCC 'F' 'E' 'N' 'C'
  | .time => fourCC 'T' 'I' 'M' 'E'
  | .canc => fourCC 'C' 'A' 'N' 'C'
  | .none => fourCC 'N' 'O' 'N' 'E'
  | .fail => fourCC 'F' 'A' 'I' 'L'

/-- 'TAKN', the word 4E4B4154H (R186). -/
def taknWord : Word := fourCC 'T' 'A' 'K' 'N'

/-- A record as a record read returns it (R98): the request with its CODE and RESULT. -/
structure Record where
  code : Word
  result : Word
  req : Request
deriving DecidableEq, Repr

/-- R98: the record held at an address of the DRAM. -/
def State.recordAt (s : State) (a : Nat) : Record :=
  { code := s.wordAt (a + 4)
    result := s.wordAt (a + 8)
    req :=
      { link := s.wordAt a
        control := s.wordAt (a + 12)
        p0 := s.wordAt (a + 16)
        p1 := s.wordAt (a + 20)
        p2 := s.wordAt (a + 24)
        p3 := s.wordAt (a + 28)
        p4 := s.wordAt (a + 32)
        p5 := s.wordAt (a + 36)
        p6 := s.wordAt (a + 40)
        p7 := s.wordAt (a + 44) } }

end Sys2Proof.Machine

namespace Sys2Proof

/-- R186: TAG. -/
def Request.tag (r : Request) : BitVec 16 := r.control.extractLsb' 0 16

/-- R186: NOTIFY. -/
def Request.notify (r : Request) : Bool := r.control.getLsbD 16

/-- R186: BARRIER. -/
def Request.barrier (r : Request) : Bool := r.control.getLsbD 17

/-- R186: OPTION. -/
def Request.opt (r : Request) : Bool := r.control.getLsbD 18

/-- FFFFFFFFH. -/
def Machine.allOnes : Word := BitVec.allOnes 32

/-- The right an access needs. -/
def AccessReq.dir (a : AccessReq) : Machine.Dir :=
  match a.op with
  | .read _ => .read
  | .write _ => .write

/-- The length of an access in words. -/
def AccessReq.len (a : AccessReq) : Nat :=
  match a.op with
  | .read n => n
  | .write ws => ws.length

/-- R126: a malformed access. -/
def AccessReq.malformed (a : AccessReq) : Bool :=
  decide (a.addr.toNat % 4 ≠ 0) || decide (a.len = 0) || decide (16 < a.len) || decide (64 < a.addr.toNat % 64 + 4 * a.len)

/-- R127: the data returned with an outcome other than DONE: FFFFFFFFH in every word of a read. -/
def AccessReq.refusedData (a : AccessReq) : List Word :=
  match a.op with
  | .read n => List.replicate n Machine.allOnes
  | .write _ => []

end Sys2Proof

namespace Sys2Proof.Machine

/-- Reply words from numbers. -/
def replies (a b c d : Nat) : Replies :=
  { rw0 := BitVec.ofNat 32 a, rw1 := BitVec.ofNat 32 b, rw2 := BitVec.ofNat 32 c, rw3 := BitVec.ofNat 32 d }

/-- Reply words all 0. -/
def noReplies : Replies := replies 0 0 0 0

/-- The four reply words in order. -/
def Replies.words (r : Replies) : List Word := [r.rw0, r.rw1, r.rw2, r.rw3]

/-- An entry index from a parameter, if it is 15 or below. -/
def entryIndex? (w : Word) : Option (Fin 16) := if h : w.toNat < 16 then some ⟨w.toNat, h⟩ else none

/-- A port from a parameter, if it is 3 or below. -/
def portIndex? (w : Word) : Option (Fin 4) := if h : w.toNat < 4 then some ⟨w.toNat, h⟩ else none

/-- Whether a number is a power of two. -/
def isPow2 (n : Nat) : Bool := n != 0 && 2 ^ n.log2 == n

/-- R20, R31: whether base and size in granules are refused with 'PARM'. -/
def State.badRange (s : State) (base size : Nat) : Bool :=
  size == 0 || !isPow2 size || decide (s.granules < size) || base % size != 0 || decide (s.granules < base + size)

/-- R20, R32: whether a range touches the work area. -/
def State.touchesWork (s : State) (base size : Nat) : Bool := decide (s.workGranule < base + size)

/-- The code of a port state in reply words: 0 ACTIVE, 1 QUIESCED, 2 DISABLED, 3 RESETTING (R133). -/
def PortState.code : PortState → Nat
  | .active => 0
  | .quiesced => 1
  | .disabled => 2
  | .resetting _ => 3

/-- The code of an end cause (R25). -/
def EndCause.code : EndCause → Nat
  | .released => 1
  | .expired => 2
  | .closed => 3
  | .port => 4

/-- The code of a speed state (R161). -/
def SpeedState.code : SpeedState → Nat
  | .base => 0
  | .raising => 1
  | .locking => 2
  | .switchingUp => 3
  | .full => 4
  | .switchingDown => 5
  | .lowering => 6

/-- The code of an access kind: 0 READ, 1 WRITE (R26, R88). -/
def Dir.code : Dir → Nat
  | .read => 0
  | .write => 1

/-- The code of a slot's armed state in reply words: 1 ARMED_MATCHING, 2 ARMED_WAITING (R66, R68). -/
def ArmedState.code : ArmedState → Nat
  | .matching => 1
  | .waiting => 2

end Sys2Proof.Machine
end

