-- ==== Sys2Proof/Machine/RegionTable.lean ====
section
/-! DEFINITION. The region table: lookup, in-flight counts, fault records, the ending of entries, and the requests OPEN,
CLOS, LOCK and LOOK (R1 to R28). -/

namespace Sys2Proof.Machine

/-! ## Lookup (R7 to R14) -/

/-- R1: whether a byte address lies in a range. -/
def Range.contains (r : Range) (a : Nat) : Bool := decide (r.base * 4096 ≤ a) && decide (a < (r.base + r.size) * 4096)

/-- R9: whether an entry is compared and contains the address. -/
def Entry.covers (e : Entry) (a : Nat) : Bool :=
  match e.status with
  | .free _ => false
  | .opened r _ => r.contains a
  | .leased r _ => r.contains a
  | .retiring r _ _ _ => r.contains a

/-- R11: what a mode allows a holder or a non-holder. -/
def LeaseMode.allows : LeaseMode → (holder : Bool) → Dir → Bool
  | .exclusive, h, _ => h
  | .sharedRead, h, .read => h
  | .sharedRead, _, .write => false
  | .holderWrite, _, .read => true
  | .holderWrite, h, .write => h

/-- R10: the bit of a window's rights for a port and a right. -/
def WindowDef.allows (w : WindowDef) (p : Fin 4) (d : Dir) : Bool := w.rights.getLsbD (2 * p.val + d.code)

/-- Whether a port is among a lease's holders. -/
def LeaseDef.holds (l : LeaseDef) (p : Fin 4) : Bool := l.holders.getLsbD p.val

/-- R11: the class of an access that a lease allows. -/
def LeaseDef.grantClass (l : LeaseDef) (p : Fin 4) (transfer : Bool) : BwClass :=
  if l.cls = .priority ∧ l.holds p = true ∧ transfer = false then .priority else .default

/-- R9 to R11: how the deciding entry decides; `none` denies. -/
def Entry.decides (e : Entry) (p : Fin 4) (transfer : Bool) (d : Dir) : Option BwClass :=
  match e.status with
  | .free _ => none
  | .retiring _ _ _ _ => none
  | .opened _ w => if w.allows p d then some .default else none
  | .leased _ l => if l.mode.allows (l.holds p) d then some (l.grantClass p transfer) else none

/-- The record that a denial is kept in: an entry, or pseudo-entry 16 with its cause (R3). -/
inductive DenyRecord where
  | entry (i : Fin 16)
  | unclaimed (c : FaultCause)
deriving DecidableEq, Repr

/-- R7: the decision of a lookup. -/
inductive Decision where
  | allowed (cls : BwClass) (entry : Option (Fin 16))
  | denied (r : DenyRecord)
deriving DecidableEq, Repr

/-- R9: the entry that decides, the one of lowest index whose range contains the address. -/
def State.decider (s : State) (a : Nat) : Option (Fin 16) := entryIndices.find? (fun i => (s.entry i).covers a)

/-- R8 to R12: the lookup. -/
def State.lookup (s : State) (p : Fin 4) (transfer : Bool) (d : Dir) (a : Nat) : Decision :=
  if s.dramBytes ≤ a then .denied (.unclaimed .beyondDram)
  else if s.workBase ≤ a then
    if p = 0 then .allowed .default none else .denied (.unclaimed .workArea)
  else
    match s.decider a with
    | some i =>
      match (s.entry i).decides p transfer d with
      | some c => .allowed c (some i)
      | none => .denied (.entry i)
    | none => if p = 0 then .allowed .default none else .denied (.unclaimed .noMatch)

/-- R5: a fault record after one more denial. -/
def FaultRecord.next (old : Option FaultRecord) (p : Fin 4) (transfer : Bool) (d : Dir) (a : Word) (c : FaultCause) :
    FaultRecord :=
  { port := p, transfer := transfer, dir := d, addr := a, cause := c
    denied := match old with
      | none => 1
      | some f => min 255 (f.denied + 1) }

/-- R5: overwrites the deciding record's fault record. -/
def recordDenial (r : DenyRecord) (p : Fin 4) (transfer : Bool) (d : Dir) (a : Word) (s : State) : State :=
  match r with
  | .entry i =>
    s.setEntry i { s.entry i with fault := some (FaultRecord.next (s.entry i).fault p transfer d a .entry) }
  | .unclaimed c =>
    { s with table :=
        { s.table with unclaimed := some (FaultRecord.next s.table.unclaimed p transfer d a c) } }

/-- R4: an allowed access or burst is counted in its deciding entry. -/
def countIn (e : Option (Fin 16)) (s : State) : State :=
  match e with
  | none => s
  | some i => s.setInflight i ((s.entry i).inflight + 1)

/-- R4, R5, R14: what a decision does to the table; a denial raises FENCE. -/
def applyDecision (dec : Decision) (p : Fin 4) (transfer : Bool) (d : Dir) (a : Word) (s : State) : State :=
  match dec with
  | .allowed _ e => countIn e s
  | .denied r => raise .fence (recordDenial r p transfer d a s)

/-! ## Ending an entry (R16 to R19) -/

/-- R17: a RETIRING entry becomes FREE; its waiting request completes and EXPIRE is raised for end cause EXPIRED. -/
def retireEntry (i : Fin 16) (s : State) : State :=
  match (s.entry i).status with
  | .retiring _ _ cause waiting =>
    raiseIf (cause == .expired) .expire
      (match waiting with
        | some w => complete w.request .okay (replies w.count 0 0 0) (s.setStatus i (.free (some cause)))
        | none => s.setStatus i (.free (some cause)))
  | .free _ => s
  | .opened _ _ => s
  | .leased _ _ => s

/-- R17: retires the entry if its count is 0. -/
def settleEntry (i : Fin 16) (s : State) : State := if (s.entry i).inflight = 0 then retireEntry i s else s

/-- R4: an access or burst leaves its deciding entry's count; a RETIRING entry left with count 0 becomes FREE. -/
def countOut (e : Option (Fin 16)) (s : State) : State :=
  match e with
  | none => s
  | some i => settleEntry i (s.setInflight i ((s.entry i).inflight - 1))

/-- R16: an ending reaches entry `i` with its end cause and, for a CLOS or a FREE, the request that becomes its waiting
request. R18: an entry FREE or RETIRING is not changed. R37: EXPIRE is raised if it becomes FREE at once by expiry. -/
def endEntry (i : Fin 16) (cause : EndCause) (request : Option RecId) (s : State) : State :=
  let e := s.entry i
  let ending (r : Range) (k : Kind) : State :=
    if e.inflight = 0 then raiseIf (cause == .expired) .expire (s.setStatus i (.free (some cause)))
    else s.setStatus i (.retiring r k cause (request.map (fun q => { request := q, count := e.inflight })))
  match e.status with
  | .opened r w => ending r (.window w)
  | .leased r l => ending r (.lease { l with expiry := none })
  | .free _ => s
  | .retiring _ _ _ _ => s

/-- R113: whether an entry's waiting request is `id`. -/
def Entry.waitsFor (e : Entry) (id : RecId) : Bool :=
  match e.status with
  | .retiring _ _ _ (some w) => w.request == id
  | .retiring _ _ _ none => false
  | .free _ => false
  | .opened _ _ => false
  | .leased _ _ => false

/-- R19, R44: a waiting request is cancelled: it completes 'CANC' and leaves the entry, which goes on retiring. -/
def cancelWaiter (i : Fin 16) (s : State) : State :=
  match (s.entry i).status with
  | .retiring r k c (some w) =>
    complete w.request .canc (replies w.count 0 0 0) (s.setStatus i (.retiring r k c none))
  | .retiring _ _ _ none => s
  | .free _ => s
  | .opened _ _ => s
  | .leased _ _ => s

/-! ## Window requests (R20 to R26) -/

/-- Clears an entry and defines it: the fault record is cleared, the count is 0 (R6, R21, R35). -/
def defineEntry (i : Fin 16) (st : EntryStatus) (s : State) : State :=
  s.setEntry i { status := st, inflight := 0, fault := none }

/-- Whether an entry is FREE. -/
def Entry.isFree (e : Entry) : Bool :=
  match e.status with
  | .free _ => true
  | .opened _ _ => false
  | .leased _ _ => false
  | .retiring _ _ _ _ => false

/-- R20, R21: OPEN. -/
def takeOpen (id : RecId) (r : Request) (s : State) : State :=
  match entryIndex? r.p0 with
  | none => instant id .parm noReplies s
  | some i =>
    if s.badRange r.p1.toNat r.p2.toNat ∨ 256 ≤ r.p3.toNat then instant id .parm noReplies s
    else if s.touchesWork r.p1.toNat r.p2.toNat then instant id .area noReplies s
    else if (s.entry i).isFree = false then instant id .used noReplies s
    else
      instant id .okay noReplies
        (defineEntry i
          (.opened { base := r.p1.toNat, size := r.p2.toNat } { rights := r.p3.extractLsb' 0 8, locked := false }) s)

/-- R22: CLOS. -/
def takeClose (id : RecId) (r : Request) (s : State) : State :=
  match entryIndex? r.p0 with
  | none => instant id .parm noReplies s
  | some i =>
    match (s.entry i).status with
    | .opened _ w =>
      if w.locked then instant id .lked noReplies s
      else if (s.entry i).inflight = 0 then instant id .okay noReplies (endEntry i .closed none s)
      else enterActive id .regionTable (endEntry i .closed (some id) s)
    | .free _ => instant id .noen noReplies s
    | .leased _ _ => instant id .noen noReplies s
    | .retiring _ _ _ _ => instant id .noen noReplies s

/-- R23: LOCK. -/
def takeLock (id : RecId) (r : Request) (s : State) : State :=
  match entryIndex? r.p0 with
  | none => instant id .parm noReplies s
  | some i =>
    match (s.entry i).status with
    | .opened g w => instant id .okay noReplies (s.setStatus i (.opened g { w with locked := true }))
    | .free _ => instant id .noen noReplies s
    | .leased _ _ => instant id .noen noReplies s
    | .retiring _ _ _ _ => instant id .noen noReplies s

/-- The code of a mode (R25, R31). -/
def LeaseMode.code : LeaseMode → Nat
  | .exclusive => 1
  | .sharedRead => 2
  | .holderWrite => 3

/-- The code of a class (R25, R35). -/
def BwClass.code : BwClass → Nat
  | .default => 0
  | .priority => 1

/-- The code of an end cause in RW0 of view 0: 0 absent (R25). -/
def causeCode : Option EndCause → Nat
  | none => 0
  | some c => c.code

/-- R25: the kind's part of RW0: kind, locked, mode, class, demoted mark, expiry present, rights or holders. -/
def Kind.look : Kind → Nat
  | .window w => 1 * 4 + w.locked.toNat * 16 + w.rights.toNat * 16777216
  | .lease l =>
    2 * 4 + l.mode.code * 32 + l.cls.code * 128 + l.demoted.toNat * 256 + l.expiry.isSome.toNat * 512
      + l.holders.toNat * 16777216

/-- R25: base and size in RW1. -/
def Range.look (r : Range) : Nat := r.base + r.size.log2 * 65536

/-- R25: the expiry remaining, RW2. -/
def Kind.lookExpiry : Kind → Nat
  | .window _ => 0
  | .lease l =>
    match l.expiry with
    | none => 0
    | some t => t.remaining

/-- R25: the grant serial, RW3. -/
def Kind.lookSerial : Kind → Nat
  | .window _ => 0
  | .lease l => l.serial.toNat

/-- R25: the reply of LOOK with view 0. -/
def Entry.lookDefinition (e : Entry) : Replies :=
  let n := e.inflight * 65536
  match e.status with
  | .free c => replies (causeCode c * 4096 + n) 0 0 0
  | .opened r w => replies (1 + (Kind.window w).look + n) r.look 0 0
  | .leased r l => replies (2 + (Kind.lease l).look + n) r.look (Kind.lease l).lookExpiry (Kind.lease l).lookSerial
  | .retiring r k c _ => replies (3 + k.look + c.code * 4096 + n) r.look k.lookExpiry k.lookSerial

/-- The code of a fault cause (R26). -/
def FaultCause.code : FaultCause → Nat
  | .entry => 0
  | .noMatch => 1
  | .workArea => 2
  | .beyondDram => 3

/-- R26: the reply of LOOK with view 1. -/
def lookFault : Option FaultRecord → Replies
  | none => noReplies
  | some f =>
    replies
      (1 + f.port.val * 16 + f.transfer.toNat * 64 + f.dir.code * 128 + f.cause.code * 256 + f.denied * 65536)
      f.addr.toNat 0 0

/-- R26: CLEAR makes the record absent. -/
def clearFault (i : Option (Fin 16)) (s : State) : State :=
  match i with
  | some i => s.setEntry i { s.entry i with fault := none }
  | none => { s with table := { s.table with unclaimed := none } }

/-- R26: the fault record of an entry, or of pseudo-entry 16 (`none`). -/
def State.faultOf (s : State) : Option (Fin 16) → Option FaultRecord
  | some i => (s.entry i).fault
  | none => s.table.unclaimed

/-- R24 to R26: LOOK. -/
def takeLook (id : RecId) (r : Request) (s : State) : State :=
  if 16 < r.p0.toNat then instant id .parm noReplies s
  else if 1 < r.p1.toNat then instant id .parm noReplies s
  else if r.p1.toNat = 0 ∧ r.p0.toNat = 16 then instant id .parm noReplies s
  else if r.opt = true ∧ r.p1.toNat = 0 then instant id .parm noReplies s
  else if r.p1.toNat = 0 then
    match entryIndex? r.p0 with
    | some i => instant id .okay (s.entry i).lookDefinition s
    | none => instant id .parm noReplies s
  else
    instant id .okay (lookFault (s.faultOf (entryIndex? r.p0)))
      (if r.opt then clearFault (entryIndex? r.p0) s else s)

end Sys2Proof.Machine
end

