-- ==== Sys2Proof/Machine/Leases.lean ====
section
/-! DEFINITION. Leases and bandwidth class: LEAS, RENW, FREE, POLI, expiry, releases by ports and watches, demotion
(R29 to R55). -/

namespace Sys2Proof.Machine

/-! ## LEAS (R31 to R35) -/

/-- R31: the mode named by P4. -/
def leaseMode? (w : Word) : Option LeaseMode :=
  if w = 1#32 then some .exclusive
  else if w = 2#32 then some .sharedRead
  else if w = 3#32 then some .holderWrite
  else none

/-- R31: whether LEAS is refused with 'PARM' for its range, holder set, class or duration. -/
def State.badLease (s : State) (r : Request) : Bool :=
  s.badRange r.p1.toNat r.p2.toNat || decide (r.p3.toNat = 0) || decide (16 ≤ r.p3.toNat)
    || decide (1 < r.p5.toNat) || decide (65535 < r.p6.toNat)

/-- Whether a port may not be made a holder or act for a transfer (R32, R80). -/
def PortState.shutOut : PortState → Bool
  | .active => false
  | .quiesced => false
  | .disabled => true
  | .resetting _ => true

/-- R32: the lowest-numbered port of a holder set that is DISABLED or RESETTING. -/
def State.shutHolder (s : State) (holders : BitVec 4) : Option (Fin 4) :=
  portIndices.find? (fun p => holders.getLsbD p.val && (s.port p).state.shutOut)

/-- Whether two ranges overlap: one granule or more in common. -/
def Range.overlaps (a b : Range) : Bool := decide (a.base < b.base + b.size) && decide (b.base < a.base + a.size)

/-- R33: whether an entry refuses a new lease of this range and mode. -/
def Entry.refusesLease (e : Entry) (g : Range) (m : LeaseMode) : Bool :=
  match e.status with
  | .free _ => false
  | .opened _ _ => false
  | .leased r l => r.overlaps g && !(l.mode == .sharedRead && m == .sharedRead)
  | .retiring _ (.window _) _ _ => false
  | .retiring r (.lease l) _ _ => r.overlaps g && !(l.mode == .sharedRead && m == .sharedRead)

/-- R33: the lowest index among the entries that cause the refusal. -/
def State.overlapWith (s : State) (g : Range) (m : LeaseMode) : Option (Fin 16) :=
  entryIndices.find? (fun i => (s.entry i).refusesLease g m)

/-- R51: whether an entry holds PRIORITY: state LEASED or RETIRING with class PRIORITY. -/
def Entry.holdsPriority (e : Entry) : Bool :=
  match e.status with
  | .free _ => false
  | .opened _ _ => false
  | .leased _ l => l.cls == .priority
  | .retiring _ (.window _) _ _ => false
  | .retiring _ (.lease l) _ _ => l.cls == .priority

/-- The entries that hold PRIORITY, lowest index first. -/
def State.priorityHolders (s : State) : List (Fin 16) := entryIndices.filter (fun i => (s.entry i).holdsPriority)

/-- R34: why PRIORITY is not available: 1 speed control not in FULL, 2 another holder under SINGLE, 0 available. -/
def State.priorityReason (s : State) : Nat :=
  if s.speed.state ≠ .full then 1
  else if s.table.policy = .single ∧ s.priorityHolders ≠ [] then 2
  else 0

/-- R34: the reason for a lower class than asked; 0 when the class asked for is given. -/
def State.classReason (s : State) (asked : Word) : Nat := if asked = 1#32 then s.priorityReason else 0

/-- R34: the class given. -/
def State.leaseClass (s : State) (asked : Word) : BwClass :=
  if asked = 1#32 ∧ s.priorityReason = 0 then .priority else .default

/-- R35: the lease as granted. -/
def State.grantedLease (s : State) (r : Request) (m : LeaseMode) : LeaseDef :=
  { holders := r.p3.extractLsb' 0 4, mode := m, cls := s.leaseClass r.p5, demoted := false
    expiry := Timer.ofDuration r.p6.toNat, serial := s.table.serial + 1#32 }

/-- R35: the grant. -/
def grantLease (i : Fin 16) (r : Request) (m : LeaseMode) (s : State) : State :=
  defineEntry i (.leased { base := r.p1.toNat, size := r.p2.toNat } (s.grantedLease r m))
    { s with table := { s.table with serial := s.table.serial + 1#32 } }

/-- R31 to R35: LEAS. -/
def takeLease (id : RecId) (r : Request) (s : State) : State :=
  match entryIndex? r.p0, leaseMode? r.p4 with
  | some i, some m =>
    if s.badLease r then instant id .parm noReplies s
    else if s.touchesWork r.p1.toNat r.p2.toNat then instant id .area noReplies s
    else if (s.entry i).isFree = false then instant id .used noReplies s
    else
      match s.shutHolder (r.p3.extractLsb' 0 4) with
      | some p => instant id .refu (replies p.val 0 0 0) s
      | none =>
        match s.overlapWith { base := r.p1.toNat, size := r.p2.toNat } m with
        | some j => instant id .ovlp (replies j.val 0 0 0) s
        | none =>
          if r.opt = true ∧ s.classReason r.p5 ≠ 0 then instant id .clas (replies (s.classReason r.p5) 0 0 0) s
          else
            instant id .okay
              (replies i.val (s.leaseClass r.p5).code (s.table.serial + 1#32).toNat (s.classReason r.p5))
              (grantLease i r m s)
  | none, _ => instant id .parm noReplies s
  | some _, none => instant id .parm noReplies s

/-! ## RENW, FREE and expiry (R36 to R44) -/

/-- R40: RW0 and RW1 of a renewal: the remaining count and whether there was an expiry. -/
def expiryReport : Option Timer → Nat × Nat
  | none => (0, 0)
  | some t => (t.remaining, 1)

/-- R40: RENW. -/
def takeRenew (id : RecId) (r : Request) (s : State) : State :=
  match entryIndex? r.p0 with
  | none => instant id .parm noReplies s
  | some i =>
    if 65535 < r.p1.toNat then instant id .parm noReplies s
    else
      match (s.entry i).status with
      | .leased g l =>
        instant id .okay
          (replies (expiryReport l.expiry).1 (expiryReport l.expiry).2 l.serial.toNat 0)
          (s.setStatus i (.leased g { l with expiry := Timer.ofDuration r.p1.toNat }))
      | .retiring _ _ .expired _ => instant id .late noReplies s
      | .free (some .expired) => instant id .late noReplies s
      | .retiring _ _ _ _ => instant id .noen noReplies s
      | .free _ => instant id .noen noReplies s
      | .opened _ _ => instant id .noen noReplies s

/-- R42: FREE. -/
def takeFree (id : RecId) (r : Request) (s : State) : State :=
  match entryIndex? r.p0 with
  | none => instant id .parm noReplies s
  | some i =>
    match (s.entry i).status with
    | .leased _ _ =>
      if (s.entry i).inflight = 0 then instant id .okay noReplies (endEntry i .released none s)
      else enterActive id .regionTable (endEntry i .released (some id) s)
    | .retiring _ _ .expired _ => instant id .late noReplies s
    | .free (some .expired) => instant id .late noReplies s
    | .retiring _ (.lease _) c _ => instant id .busy (replies c.code 0 0 0) s
    | .retiring _ (.window _) _ _ => instant id .noen noReplies s
    | .free _ => instant id .noen noReplies s
    | .opened _ _ => instant id .noen noReplies s

/-- R37: the expiry of a lease whose timer is due. -/
def expireLease (i : Fin 16) (s : State) : State :=
  match (s.entry i).status with
  | .leased _ l => if timerDue l.expiry then endEntry i .expired none s else s
  | .free _ => s
  | .opened _ _ => s
  | .retiring _ _ _ _ => s

/-- R36: one lease tick at an entry's timer. -/
def Entry.tick (e : Entry) : Entry :=
  match e.status with
  | .leased r l => { e with status := .leased r { l with expiry := l.expiry.map Timer.tick } }
  | .free _ => e
  | .opened _ _ => e
  | .retiring _ _ _ _ => e

/-! ## Releases (R45 to R48) -/

/-- R45: whether an entry is LEASED with the port among its holders. -/
def Entry.heldBy (e : Entry) (p : Fin 4) : Bool :=
  match e.status with
  | .leased _ l => l.holds p
  | .free _ => false
  | .opened _ _ => false
  | .retiring _ _ _ _ => false

/-- R45: the number of entries from which the port would be released. -/
def State.leasesOf (s : State) (p : Fin 4) : Nat := (entryIndices.filter (fun i => (s.entry i).heldBy p)).length

/-- The set with port `p` alone. -/
def onlyPort (p : Fin 4) : BitVec 4 := 1#4 <<< p.val

/-- R45: the release of port `p` from one entry. -/
def releaseFrom (p : Fin 4) (s : State) (i : Fin 16) : State :=
  match (s.entry i).status with
  | .leased g l =>
    if l.holds p then
      if l.holders = onlyPort p then endEntry i .port none s
      else s.setStatus i (.leased g { l with holders := l.holders &&& ~~~(onlyPort p) })
    else s
  | .free _ => s
  | .opened _ _ => s
  | .retiring _ _ _ _ => s

/-- R45: port `p` is released from its leases. -/
def releasePort (p : Fin 4) (s : State) : State := entryIndices.foldl (releaseFrom p) s

/-- R47: the outcome of a WAIT's release at the entry as it stands: 0 none asked, 1 freed now, 2 now retiring, 3 not a
leased entry. -/
def State.releaseOutcome (s : State) : Option (Fin 16) → Nat
  | none => 0
  | some i =>
    match (s.entry i).status with
    | .leased _ _ => if (s.entry i).inflight = 0 then 1 else 2
    | .free _ => 3
    | .opened _ _ => 3
    | .retiring _ _ _ _ => 3

/-- R47: the release of a WAIT's fire. -/
def watchRelease (i : Option (Fin 16)) (s : State) : State :=
  match i with
  | none => s
  | some i =>
    match (s.entry i).status with
    | .leased _ _ => endEntry i .released none s
    | .free _ => s
    | .opened _ _ => s
    | .retiring _ _ _ _ => s

/-! ## Bandwidth class (R49 to R55) -/

/-- R52, R53: a demoted lease. -/
def LeaseDef.demote (l : LeaseDef) : LeaseDef := { l with cls := .default, demoted := true }

/-- R52, R53: an entry that holds PRIORITY is demoted; any other is left alone. -/
def Entry.demote (e : Entry) : Entry :=
  match e.status with
  | .leased r l => if l.cls = .priority then { e with status := .leased r l.demote } else e
  | .retiring r (.lease l) c w => if l.cls = .priority then { e with status := .retiring r (.lease l.demote) c w } else e
  | .retiring _ (.window _) _ _ => e
  | .free _ => e
  | .opened _ _ => e

/-- R53: every entry that holds PRIORITY is demoted. -/
def demoteAll (s : State) : State :=
  { s with table := { s.table with entries := mapVec Entry.demote s.table.entries } }

/-- The grant serial of an entry that holds a lease, else 0. -/
def Entry.serial (e : Entry) : Nat :=
  match e.status with
  | .leased _ l => l.serial.toNat
  | .retiring _ (.lease l) _ _ => l.serial.toNat
  | .retiring _ (.window _) _ _ => 0
  | .free _ => 0
  | .opened _ _ => 0

/-- R52: of a list of entries, the one with the lowest grant serial, and of equal serials the first. -/
def State.lowestSerial (s : State) : List (Fin 16) → Option (Fin 16)
  | [] => none
  | i :: is =>
    match s.lowestSerial is with
    | none => some i
    | some j => if (s.entry j).serial < (s.entry i).serial then some j else some i

/-- R52: the demotions of a change to SINGLE: every holder of PRIORITY but the one of lowest serial. -/
def demoteOthers (s : State) : State :=
  let kept := s.lowestSerial s.priorityHolders
  let demoteOne (t : State) (i : Fin 16) : State := if kept = some i then t else t.setEntry i (t.entry i).demote
  s.priorityHolders.foldl demoteOne s

/-- The code of a class policy (R51). -/
def Policy.code : Policy → Nat
  | .shared => 0
  | .single => 1

/-- Sets the class policy. -/
def setPolicy (p : Policy) (s : State) : State := { s with table := { s.table with policy := p } }

/-- R51, R52: POLI. -/
def takePolicy (id : RecId) (r : Request) (s : State) : State :=
  if 1 < r.p0.toNat then instant id .parm noReplies s
  else if r.p0 = 0#32 then
    instant id .okay (replies 0 s.table.policy.code 0 0) (setPolicy .shared s)
  else if s.table.policy = .single then instant id .okay (replies 0 1 0 0) s
  else
    instant id .okay (replies (s.priorityHolders.length - 1) 0 0 0)
      (raiseIf (decide (2 ≤ s.priorityHolders.length)) .cls (setPolicy .single (demoteOthers s)))

end Sys2Proof.Machine
end

