-- ==== Sys2Proof/Machine/ChainReader.lean ====
section
/-! DEFINITION. The chain reader: chain faults, the stalls, the link step, GO and STOP (R99 to R122). -/

namespace Sys2Proof.Machine

/-- Sets the engine state. -/
def setReader (r : Reader) (s : State) : State := { s with eng := { s.eng with reader := r } }

/-- R121: the engine reaches STOPPED, which clears stop pending. -/
def stopReader (s : State) : State := { s with eng := { s.eng with reader := .stopped, stopPending := false } }

/-- R117: the chain faults BAD_LINK and NOT_FRESH. With a stop pending the engine goes to STOPPED instead (R121). -/
def chainFault (k : ChainFault) (a : Word) (s : State) : State :=
  appendOps [.headerFault k a] (endTail (if s.eng.stopPending then stopReader s else setReader .faulted s))

/-- R107, third test: the record read joins the operation list, or is held for a pending standby hand-off (R122). -/
def readRecord (a : Word) (s : State) : State :=
  if s.eng.handoff.isSome then
    { s with eng := { s.eng with reader := .stalled .waking a, heldRead := true } }
  else
    appendOps [.recordRead a true]
      (setReader (if s.ctl.state = .run then .examining a else .stalled .waking a) s)

/-- R107: the tests before the record read of a new record. -/
def examineNext (a : Word) (s : State) : State :=
  if 8 ≤ s.eng.active.length then setReader (.stalled .tableFull a) s
  else if 32 ≤ s.eng.takeList.length then setReader (.stalled .retireFull a) s
  else readRecord a s

/-- R105: a link that is not 0 is checked and followed, or is the chain fault BAD_LINK. -/
def followLink (link : Word) (s : State) : State :=
  if s.linkValid link then examineNext link s else chainFault .badLink link s

/-- R102, R105, R106: the link step after the take of `id` at `addr`; a pending stop takes its place (R121). -/
def linkStep (id : RecId) (addr link : Word) (s : State) : State :=
  if s.eng.stopPending then stopReader s
  else if link = 0#32 then
    appendOps [.armTail id addr true] { s with eng := { s.eng with reader := .arming id, tail := some id } }
  else followLink link s

/-- R102: the take of `id` ends if `e` is what ends it. -/
def endTakeAt (id : RecId) (e : TakeEnd) (s : State) : State :=
  match s.eng.reader with
  | .taking i a l e0 => if i = id ∧ e0 = e then linkStep i a l s else s
  | .stopped => s
  | .examining _ => s
  | .arming _ => s
  | .atTail _ => s
  | .stalled _ _ => s
  | .faulted => s

/-- R101, R107: the end of the present stall, if its reason has ended. A stall with reason WAKING ends at the grant of
its record read (`grantChain`). -/
def endStall (s : State) : State :=
  match s.eng.reader with
  | .stalled .tableFull a => if s.eng.active.length < 8 then examineNext a s else s
  | .stalled .retireFull a => if s.eng.takeList.length < 32 then examineNext a s else s
  | .stalled .barrier a => if s.eng.active = [] then readRecord a s else s
  | .stalled .queueFull a => if s.queue.length < 4 then readRecord a s else s
  | .stalled .waking _ => s
  | .stopped => s
  | .examining _ => s
  | .taking _ _ _ _ => s
  | .arming _ => s
  | .atTail _ => s
  | .faulted => s

/-! ## GO (R119, R120) -/

/-- R146: a release cause in INIT is recorded. -/
def Controller.release (c : Controller) : Controller :=
  match c.state with
  | .init _ => { c with released := true }
  | .run => c
  | .entering _ => c
  | .standby => c
  | .leaving _ => c

/-- R146. -/
def releaseCause (s : State) : State := { s with ctl := s.ctl.release }

/-- R119, steps 1 and 3, with the hand-off cancelled (R122) and the release cause (R146). -/
def goPrepare (s : State) : State :=
  releaseCause
    { s with
      win := { s.win with wsizeFixed := true }
      eng := { s.eng with taken := 0#32, handoff := none, heldRead := false } }

/-- R119: a GO that acts. -/
def goAct (s : State) : State :=
  let t := goPrepare s
  if t.linkValid t.win.anch then examineNext t.win.anch (appendOps [.headerGo none] t)
  else appendOps [.headerGo (some t.win.anch)] (setReader .faulted t)

/-- R119: GO acts while the engine is STOPPED or FAULTED and is ignored otherwise. -/
def goCommand (s : State) : State :=
  match s.eng.reader with
  | .stopped => goAct s
  | .faulted => goAct s
  | .examining _ => s
  | .taking _ _ _ _ => s
  | .arming _ => s
  | .atTail _ => s
  | .stalled _ _ => s

/-! ## STOP (R121) -/

/-- R123: a read of the engine whose data will be discarded. -/
def EngineOp.discard : EngineOp → EngineOp
  | .recordRead a _ => .recordRead a false
  | .armWait id w _ => .armWait id w false
  | .armTail id a _ => .armTail id a false
  | .taknWrite id a => .taknWrite id a
  | .replyWrite id a rw => .replyWrite id a rw
  | .resultWrite id a c n => .resultWrite id a c n
  | .headerGo b => .headerGo b
  | .headerTake id t l => .headerTake id t l
  | .headerRetired a => .headerRetired a
  | .headerFault k a => .headerFault k a

/-- Whether an operation is a record read. -/
def EngineOp.isRecordRead : EngineOp → Bool
  | .recordRead _ _ => true
  | .armWait _ _ _ => false
  | .armTail _ _ _ => false
  | .taknWrite _ _ => false
  | .replyWrite _ _ _ => false
  | .resultWrite _ _ _ _ => false
  | .headerGo _ => false
  | .headerTake _ _ _ => false
  | .headerRetired _ => false
  | .headerFault _ _ => false

/-- The place of a default claimant in the default order (R152) and among the passover counts. -/
def Claimant.index : Claimant → Fin 6
  | .port p => ⟨p.val, by omega⟩
  | .chain => 4
  | .transfer => 5

/-- Sets the passover count of a claimant's claim. -/
def setPass (c : Claimant) (n : Nat) (s : State) : State :=
  { s with arb := { s.arb with pass := s.arb.pass.set c.index n } }

/-- R121, R155: the record read of a stall with reason WAKING leaves the operation list; granted already, its data is
discarded. Every other operation stays, the header write of the GO among them (DESIGN CHOICE, log 34). -/
def withdrawRead (s : State) : State :=
  match s.eng.ops with
  | [] => s
  | op :: rest =>
    if s.arb.holder = some .chain then
      { s with eng :=
          { s.eng with ops := (if op.isRecordRead then op.discard else op) :: rest.filter (fun o => !o.isRecordRead) } }
    else
      let t := { s with eng := { s.eng with ops := (op :: rest).filter (fun o => !o.isRecordRead) } }
      if op.isRecordRead then setPass .chain 0 t else t

/-- Log 13: whether the RETIRED writes that a STOP appends are a wake cause is a free value; it matters in
ENTERING_STANDBY and STANDBY alone. -/
def wakeOfStop (s : State) : State :=
  match s.ctl.state with
  | .entering _ => if Config.stopRetirementWakes then wakeCause s else s
  | .standby => if Config.stopRetirementWakes then wakeCause s else s
  | .init _ => s
  | .run => s
  | .leaving _ => s

/-- R111, R121: STOP ends the tail restriction, and retirement is tested. -/
def endTailAtStop (s : State) : State :=
  let split := splitRetired none s.eng.takeList
  match s.eng.tail, split.1 with
  | none, _ => s
  | some _, [] => { s with eng := { s.eng with tail := none } }
  | some _, rs =>
    wakeOfStop (pushOps (retiredWrites rs) { s with eng := { s.eng with tail := none, takeList := split.2 } })

/-- R121: STOP. -/
def stopCommand (s : State) : State :=
  match s.eng.reader with
  | .stopped => s
  | .examining _ => endTailAtStop { s with eng := { s.eng with stopPending := true } }
  | .taking _ _ _ _ => endTailAtStop { s with eng := { s.eng with stopPending := true } }
  | .arming _ => endTailAtStop { s with eng := { s.eng with stopPending := true } }
  | .atTail _ => endTailAtStop (stopReader (s.setSlot 0 none))
  | .stalled .waking _ =>
    let t := endTailAtStop (stopReader (withdrawRead s))
    { t with eng := { t.eng with heldRead := false } }
  | .stalled .tableFull _ => endTailAtStop (stopReader s)
  | .stalled .queueFull _ => endTailAtStop (stopReader s)
  | .stalled .barrier _ => endTailAtStop (stopReader s)
  | .stalled .retireFull _ => endTailAtStop (stopReader s)
  | .faulted => endTailAtStop (stopReader s)

end Sys2Proof.Machine
end

