-- ==== Sys2Proof/Machine/Watches.lean ====
section
/-! DEFINITION. The watch unit: evaluation of writes, fires, WAIT, timeouts and cancellation (R56 to R74). -/

namespace Sys2Proof.Machine

/-- R58: whether a word value matches a mask and compare value. -/
def wordMatches (v mask compare : Word) : Bool := v &&& mask == compare &&& mask

/-- R64: the reply words of a fire of slot `k` with value `v`. -/
def fireReplies (k : Fin 8) (v : Word) (outcome : Nat) : Replies :=
  { rw0 := v, rw1 := BitVec.ofNat 32 outcome, rw2 := BitVec.ofNat 32 k.val, rw3 := 0#32 }

/-- R64: a slot among 1 to 7 fires at an evaluated write. -/
def fireWait (k : Fin 8) (w : WatchSlot) (v : Word) (s : State) : State :=
  raise .watch
    (complete w.owner .okay (fireReplies k v (s.releaseOutcome w.release))
      (watchRelease w.release (s.setSlot k none)))

/-- R71: slot 0 fires: the value is handed to the chain reader as the link of the tail record. -/
def fireChainWatch (v : Word) (s : State) : State := followLink v (s.setSlot 0 none)

/-- R60: one word of an evaluated write at one slot. -/
def evaluateSlot (a : Nat) (v : Word) (s : State) (k : Fin 8) : State :=
  match s.slot k with
  | none => s
  | some w =>
    if w.addr.toNat = a then
      match w.armed, wordMatches v w.mask w.compare with
      | .matching, true => s
      | .matching, false => if k = 0 then fireChainWatch v s else fireWait k w v s
      | .waiting, true => s.setSlot k (some { w with armed := .matching })
      | .waiting, false => s
    else s

/-- R59: one word of an evaluated write, at every slot, lowest first (log 12). -/
def evaluateWord (a : Nat) (v : Word) (s : State) : State := slotIndices.foldl (evaluateSlot a v) s

/-- R59: the words of a completed write, ascending (log 12). -/
def evaluate : Nat → List Word → State → State
  | _, [], s => s
  | a, v :: vs, s => evaluate (a + 4) vs (evaluateWord a v s)

/-- R59, R151: a completed write stores its words and is evaluated. -/
def storeAndEvaluate (a : Nat) (ws : List Word) (s : State) : State := evaluate a ws (s.store a ws)

/-! ## WAIT (R62 to R69) -/

/-- R62, R63: what a WAIT asks of the watch unit. -/
def watchSpec (r : Request) : WatchSpec :=
  { addr := r.p0, mask := r.p1, compare := r.p2, timeout := r.p3.toNat, release := entryIndex? r.p4, immediate := r.opt }

/-- R62, R63: WAIT at its take: refused, or its arming read joins the operation list. Where conditions of 'PARM' and of 'AREA'
both hold, 'PARM' is answered (DESIGN CHOICE, log 33). -/
def takeWait (id : RecId) (r : Request) (s : State) : State :=
  if r.p0.toNat % 4 ≠ 0 ∨ 65535 < r.p3.toNat then instant id .parm noReplies s
  else if s.dramBytes ≤ r.p0.toNat then instant id .area noReplies s
  else appendOps [.armWait id (watchSpec r) true] (setTakeEnd id .arming s)

/-- R63: the lowest-numbered FREE slot among 1 to 7. -/
def State.freeSlot (s : State) : Option (Fin 8) := waitSlots.find? (fun k => (s.slot k).isNone)

/-- R63: an armed slot. -/
def WatchSpec.slot (w : WatchSpec) (st : ArmedState) (owner : RecId) : WatchSlot :=
  { armed := st, addr := w.addr, mask := w.mask, compare := w.compare, timeout := Timer.ofDuration w.timeout
    release := w.release, owner := owner }

/-- R63, steps 3 and 4: the WAIT stands armed, enters the active table, and its take ends. -/
def armSlot (id : RecId) (k : Fin 8) (w : WatchSpec) (st : ArmedState) (s : State) : State :=
  endTakeAt id .arming (enterActive id .watchUnit (s.setSlot k (some (w.slot st id))))

/-- R63, R64: a WAIT that fires at its arming, as an instant request. -/
def fireAtArming (id : RecId) (k : Fin 8) (w : WatchSpec) (v : Word) (s : State) : State :=
  raise .watch
    (instant id .okay (fireReplies k v (s.releaseOutcome w.release)) (watchRelease w.release s))

/-- R63: the arming read of a WAIT has returned `v`. -/
def armWait (id : RecId) (w : WatchSpec) (v : Word) (s : State) : State :=
  match s.freeSlot with
  | none => instant id .busy noReplies s
  | some k =>
    if wordMatches v w.mask w.compare then armSlot id k w .matching s
    else if w.immediate then fireAtArming id k w v s
    else armSlot id k w .waiting s

/-- R66, R68: a slot is freed with no release, and its WAIT completes with the given code. -/
def dropSlot (k : Fin 8) (w : WatchSlot) (c : ResultCode) (s : State) : State :=
  complete w.owner c (replies w.armed.code 0 k.val 0) (s.setSlot k none)

/-- R66: the timeout of a slot whose timer is due. -/
def timeoutSlot (k : Fin 8) (s : State) : State :=
  match s.slot k with
  | none => s
  | some w => if timerDue w.timeout then dropSlot k w .time s else s

/-- R68: the cancellation of the WAIT that owns a slot. -/
def cancelWait (id : RecId) (s : State) : State :=
  match waitSlots.find? (fun k => (s.slot k).any (fun w => w.owner == id)) with
  | none => s
  | some k =>
    match s.slot k with
    | none => s
    | some w => dropSlot k w .canc s

/-- R66: one lease tick at a slot's timeout timer. -/
def WatchSlot.tick (w : WatchSlot) : WatchSlot := { w with timeout := w.timeout.map Timer.tick }

/-! ## Slot 0 (R70, R106) -/

/-- R70: slot 0 armed on a link word. -/
def chainWatchSlot (id : RecId) (addr : Word) : WatchSlot :=
  { armed := .matching, addr := addr, mask := allOnes, compare := 0#32, timeout := none, release := none, owner := id }

/-- R70, R106, R121: the arming read of slot 0 has returned `v`. -/
def armTail (id : RecId) (addr v : Word) (s : State) : State :=
  if s.eng.stopPending then stopReader s
  else if v = 0#32 then setReader (.atTail id) (s.setSlot 0 (some (chainWatchSlot id addr)))
  else followLink v s

end Sys2Proof.Machine
end

