-- ==== Sys2Proof/Machine/Transfers.lean ====
section
/-! DEFINITION. The transfer unit: FILL, COPY, SCAN, their bursts, completion, refusal and cancellation (R75 to R95). -/

namespace Sys2Proof.Machine

/-! ## Cutting into bursts (R82) -/

/-- Words from a byte address to the next 64-byte boundary. -/
def wordsToBoundary (a : Nat) : Nat := (64 - a % 64) / 4

/-- The address `n` words on. -/
def wordAddr (a : Word) (n : Nat) : Word := a + BitVec.ofNat 32 (4 * n)

/-- R82: the burst a transfer forms next. A COPY with words in its buffer forms the write burst of that piece. -/
def Transfer.nextBurst (t : Transfer) : Burst :=
  match t.job with
  | .fill dst _ =>
    { addr := wordAddr dst t.done
      len := min (t.count - t.done) (wordsToBoundary (wordAddr dst t.done).toNat)
      half := .write, entry := none, granted := false }
  | .scan a _ _ =>
    { addr := wordAddr a t.done
      len := min (t.count - t.done) (wordsToBoundary (wordAddr a t.done).toNat)
      half := .read, entry := none, granted := false }
  | .copy src dst =>
    if t.buffer = [] then
      { addr := wordAddr src t.done
        len := min (t.count - t.done)
          (min (wordsToBoundary (wordAddr src t.done).toNat) (wordsToBoundary (wordAddr dst t.done).toNat))
        half := .read, entry := none, granted := false }
    else { addr := wordAddr dst t.done, len := t.buffer.length, half := .write, entry := none, granted := false }

/-! ## Running the queue (R81, R83, R88) -/

/-- R93, R138: a transfer that has ended leaves every port's drain set. -/
def Port.dropTransfer (id : RecId) (p : Port) : Port :=
  match p.state with
  | .resetting r => { p with state := .resetting { r with drainTransfers := r.drainTransfers.filter (fun i => i != id) } }
  | .active => p
  | .quiesced => p
  | .disabled => p

/-- A transfer completes and its completion is handed to the engine; the ports are told (R87, R93). -/
def finishTransfer (id : RecId) (c : ResultCode) (rw : Replies) (s : State) : State :=
  let t := complete id c rw s
  { t with ports := mapVec (Port.dropTransfer id) t.ports }

/-- R88: the index of the deciding record in RW3. -/
def DenyRecord.code : DenyRecord → Nat
  | .entry i => i.val
  | .unclaimed _ => 16

/-- R88: the reply words of 'FENC'. -/
def fencReplies (t : Transfer) (b : Burst) (r : DenyRecord) : Replies :=
  { rw0 := BitVec.ofNat 32 t.done, rw1 := b.addr, rw2 := BitVec.ofNat 32 b.half.code, rw3 := BitVec.ofNat 32 r.code }

/-- R81, R83, R88: the transfer at the head of the given queue becomes (or stays) RUNNING and forms its next burst; a
denied burst ends it with 'FENC', and the next transfer becomes the head. -/
def runQueue : List Transfer → State → State
  | [], s => { s with queue := [] }
  | t :: rest, s =>
    let b := t.nextBurst
    match s.lookup t.port true b.half b.addr.toNat with
    | .allowed c e =>
      let u := applyDecision (.allowed c e) t.port true b.half b.addr s
      { u with queue := { t with state := .running, burst := some { b with entry := e } } :: rest }
    | .denied r =>
      runQueue rest
        (finishTransfer t.owner .fenc (fencReplies t b r) (applyDecision (.denied r) t.port true b.half b.addr s))

/-! ## The requests (R77 to R80) -/

/-- R80: a range ends beyond the DRAM or touches the work area. -/
def State.badArea (s : State) (a : Word) (count : Nat) : Bool :=
  decide (s.dramBytes < a.toNat + 4 * count) || decide (s.workBase < a.toNat + 4 * count)

/-- A transfer as it is accepted (R80). -/
def newTransfer (id : RecId) (j : Job) (p : Fin 4) (count : Nat) : Transfer :=
  { job := j, port := p, count := count, done := 0, state := .waiting, burst := none, buffer := [], mismatch := none
    owner := id }

/-- R80: a transfer that passes its checks joins the queue; at the head of an empty queue it becomes RUNNING. -/
def acceptTransfer (t : Transfer) (s : State) : State :=
  let u := enterActive t.owner .transferUnit s
  match s.queue with
  | [] => runQueue [t] u
  | _ => { u with queue := s.queue ++ [t] }

/-- R80: whether a count of words is out of range. -/
def badCount (n : Nat) : Bool := n == 0 || decide (4194304 < n)

/-- R80: the third check and the acceptance. -/
def startTransfer (id : RecId) (j : Job) (p : Fin 4) (count : Nat) (s : State) : State :=
  if (s.port p).state.shutOut then instant id .refu noReplies s
  else acceptTransfer (newTransfer id j p count) s

/-- R77, R80: FILL. -/
def takeFill (id : RecId) (r : Request) (s : State) : State :=
  match portIndex? r.p3 with
  | none => instant id .parm noReplies s
  | some p =>
    if r.p0.toNat % 4 ≠ 0 ∨ badCount r.p1.toNat = true then instant id .parm noReplies s
    else if s.badArea r.p0 r.p1.toNat then instant id .area (replies 1 0 0 0) s
    else startTransfer id (.fill r.p0 r.p2) p r.p1.toNat s

/-- R78: the destination lies inside the source range, above its start. -/
def copyOverlap (src dst : Word) (count : Nat) : Bool :=
  decide (src.toNat < dst.toNat) && decide (dst.toNat < src.toNat + 4 * count)

/-- R78, R80: COPY. -/
def takeCopy (id : RecId) (r : Request) (s : State) : State :=
  match portIndex? r.p3 with
  | none => instant id .parm noReplies s
  | some p =>
    if r.p0.toNat % 4 ≠ 0 ∨ r.p1.toNat % 4 ≠ 0 ∨ badCount r.p2.toNat = true ∨ copyOverlap r.p0 r.p1 r.p2.toNat = true then
      instant id .parm noReplies s
    else if s.badArea r.p0 r.p2.toNat then instant id .area (replies 1 0 0 0) s
    else if s.badArea r.p1 r.p2.toNat then instant id .area (replies 2 0 0 0) s
    else startTransfer id (.copy r.p0 r.p1) p r.p2.toNat s

/-- R79, R80: SCAN. -/
def takeScan (id : RecId) (r : Request) (s : State) : State :=
  match portIndex? r.p4 with
  | none => instant id .parm noReplies s
  | some p =>
    if r.p0.toNat % 4 ≠ 0 ∨ badCount r.p1.toNat = true then instant id .parm noReplies s
    else if s.badArea r.p0 r.p1.toNat then instant id .area (replies 1 0 0 0) s
    else startTransfer id (.scan r.p0 r.p2 r.p3) p r.p1.toNat s

/-! ## Completion (R84 to R87, R91) -/

/-- R87, R91: the address and value of a mismatch in two reply words. -/
def mismatchWords : Option (Word × Word) → Word × Word
  | none => (allOnes, 0#32)
  | some m => m

/-- R87: the reply words of 'OKAY'. -/
def Transfer.okayReplies (t : Transfer) : Replies :=
  match t.job with
  | .fill _ _ => replies t.count 0 0 0
  | .copy _ _ => replies t.count 0 0 0
  | .scan _ _ _ =>
    { rw0 := (mismatchWords t.mismatch).1, rw1 := (mismatchWords t.mismatch).2, rw2 := BitVec.ofNat 32 t.done
      rw3 := 0#32 }

/-- R91: the reply words of 'CANC'. -/
def Transfer.cancReplies (t : Transfer) : Replies :=
  match t.job with
  | .fill _ _ => replies t.done 0 0 0
  | .copy _ _ => replies t.done 0 0 0
  | .scan _ _ _ =>
    { rw0 := BitVec.ofNat 32 t.done, rw1 := (mismatchWords t.mismatch).1, rw2 := (mismatchWords t.mismatch).2
      rw3 := 0#32 }

/-- R84 to R87, R91: after a burst, the head `t` (with its work counted) completes 'CANC' if it is STOPPING, completes
'OKAY' if its work is done, and forms its next burst otherwise. -/
def afterBurst (t : Transfer) (finished : Bool) (rest : List Transfer) (s : State) : State :=
  if t.state = .stopping then runQueue rest (finishTransfer t.owner .canc t.cancReplies s)
  else if finished then runQueue rest (finishTransfer t.owner .okay t.okayReplies s)
  else runQueue (t :: rest) s

/-- R84: a granted FILL burst completes. -/
def fillBurstDone (t : Transfer) (b : Burst) (pattern : Word) (rest : List Transfer) (s : State) : State :=
  let u := storeAndEvaluate b.addr.toNat (List.replicate b.len pattern) (countOut b.entry s)
  let t' := { t with done := t.done + b.len, burst := none }
  afterBurst t' (decide (t'.done = t.count)) rest u

/-- R85: a granted COPY read burst completes; a STOPPING COPY drops its buffer (R91). -/
def copyReadDone (t : Transfer) (b : Burst) (rest : List Transfer) (s : State) : State :=
  let u := countOut b.entry s
  afterBurst { t with buffer := if t.state = .stopping then [] else s.wordsAt b.addr.toNat b.len, burst := none } false
    rest u

/-- R85: a granted COPY write burst completes. -/
def copyWriteDone (t : Transfer) (b : Burst) (rest : List Transfer) (s : State) : State :=
  let u := storeAndEvaluate b.addr.toNat t.buffer (countOut b.entry s)
  let t' := { t with done := t.done + b.len, burst := none, buffer := [] }
  afterBurst t' (decide (t'.done = t.count)) rest u

/-- R79, R86: the first mismatch among words read from an address: how many are examined, and the mismatch. -/
def scanWords (pattern mask : Word) : Word → List Word → Nat × Option (Word × Word)
  | _, [] => (0, none)
  | a, v :: vs =>
    if wordMatches v mask pattern then
      ((scanWords pattern mask (a + 4#32) vs).1 + 1, (scanWords pattern mask (a + 4#32) vs).2)
    else (1, some (a, v))

/-- R86: a granted SCAN burst completes. -/
def scanBurstDone (t : Transfer) (b : Burst) (pattern mask : Word) (rest : List Transfer) (s : State) : State :=
  let u := countOut b.entry s
  let found := scanWords pattern mask b.addr (s.wordsAt b.addr.toNat b.len)
  let t' := { t with done := t.done + found.1, burst := none, mismatch := found.2 }
  afterBurst t' (found.2.isSome || decide (t'.done = t.count)) rest u

/-! ## Cancellation (R91 to R93) -/

/-- R91: RUNNING becomes STOPPING. -/
def Transfer.stop (t : Transfer) : Transfer := { t with state := .stopping }

/-- R91: whether a transfer is WAITING. -/
def Transfer.isWaiting (t : Transfer) : Bool := t.state == .waiting

/-- R91: whether a transfer is RUNNING. -/
def Transfer.isRunning (t : Transfer) : Bool := t.state == .running

/-- R91: the cancelled transfers that are WAITING complete 'CANC' in queue order and leave the queue; a RUNNING one
becomes STOPPING. `hit` says which are cancelled. -/
def cancelTransfers (hit : Transfer → Bool) (s : State) : State :=
  let t := { s with queue :=
      (s.queue.filter (fun t => !(hit t && t.isWaiting))).map (fun t => if hit t then t.stop else t) }
  (s.queue.filter (fun t => hit t && t.isWaiting)).foldl (fun u x => finishTransfer x.owner .canc x.cancReplies u) t

/-- R133, R138: the number of transfers a cancellation for port `p` cancels: WAITING and RUNNING, not STOPPING. -/
def State.cancelCount (s : State) (p : Fin 4) : Nat :=
  (s.queue.filter (fun t => t.port == p && (t.isWaiting || t.isRunning))).length

/-- R93. -/
def cancelForPort (p : Fin 4) (s : State) : State := cancelTransfers (fun t => t.port == p) s

end Sys2Proof.Machine
end

