-- ==== Sys2Proof/Machine/Ports.lean ====
section
/-! DEFINITION. The agent ports: acceptance, decision and answers of accesses, and the requests PORT and PRST (R125 to
R141). -/

namespace Sys2Proof.Machine

/-! ## Accesses (R125 to R131) -/

/-- R128: the response of an access whose outcome is known and which, if allowed, has completed. -/
def Access.answer (a : Access) : Option (PortOutcome × List Word) :=
  match a.stage with
  | .decided o => some (o, a.req.refusedData)
  | .done ws => some (.done, ws)
  | .waiting _ _ => none
  | .inProgress _ _ => none

/-- R128: the responses that can be delivered, in arrival order, and the accesses that stay. -/
def splitAnswered (p : Fin 4) : List Access → List Response × List Access
  | [] => ([], [])
  | a :: as =>
    match a.answer with
    | some (o, ws) => ({ port := p, outcome := o, data := ws } :: (splitAnswered p as).1, (splitAnswered p as).2)
    | none => ([], a :: as)

/-- R138: `n` accesses leave the drain set, which holds the oldest. -/
def PortState.drain (n : Nat) : PortState → PortState
  | .resetting r => .resetting { r with drainAccesses := r.drainAccesses - n }
  | .active => .active
  | .quiesced => .quiesced
  | .disabled => .disabled

/-- R128: port `p` delivers every response whose turn has come. -/
def flush (p : Fin 4) (s : State) : State :=
  let split := splitAnswered p (s.port p).outstanding
  { s.setPort p
      { s.port p with state := (s.port p).state.drain split.1.length, outstanding := split.2 } with
    delivered := s.delivered ++ split.1 }

/-- R146, R176: what an allowed access of port 0 causes: the release from INIT is recorded, or the controller wakes. -/
def hostCause (p : Fin 4) (s : State) : State := if p = 0 then wakeCause (releaseCause s) else s

/-- R126, R130: the stage of an access decided without a lookup, or none if it is looked up. -/
def decidedAtArrival (st : PortState) (a : AccessReq) : Option PortOutcome :=
  if a.malformed then some .aborted
  else
    match st with
    | .active => none
    | .quiesced => some .retry
    | .disabled => some .unclaimed
    | .resetting _ => some .aborted

/-- Puts an access at the tail of the outstanding list. -/
def pushAccess (p : Fin 4) (a : Access) (s : State) : State :=
  s.setPort p { s.port p with outstanding := (s.port p).outstanding ++ [a] }

/-- R130: the stage that a lookup's decision gives. -/
def Decision.stage : Decision → AccessStage
  | .allowed c e => .waiting c e
  | .denied _ => .decided .denied

/-- What an allowed access causes beside its count. -/
def Decision.cause (p : Fin 4) : Decision → State → State
  | .allowed _ _, s => hostCause p s
  | .denied _, s => s

/-- R126, R130: an access arrives at port `p` and is decided at once. -/
def arrive (p : Fin 4) (a : AccessReq) (s : State) : State :=
  match decidedAtArrival (s.port p).state a with
  | some o => pushAccess p { req := a, stage := .decided o } s
  | none =>
    let dec := s.lookup p false a.dir a.addr.toNat
    dec.cause p (pushAccess p { req := a, stage := dec.stage } (applyDecision dec p false a.dir a.addr s))

/-- R126: the accesses held on the bus of port `p` arrive one by one while the outstanding list holds fewer than 2. -/
def acceptHeld (p : Fin 4) : List AccessReq → State → State
  | [], s => s.setPort p { s.port p with bus := [] }
  | a :: as, s =>
    if (s.port p).outstanding.length < 2 then acceptHeld p as (flush p (arrive p a s))
    else s.setPort p { s.port p with bus := a :: as }

/-- R126, R128: responses are delivered, and accesses held on the bus are accepted as places become free. -/
def answer (p : Fin 4) (s : State) : State := acceptHeld p (s.port p).bus (flush p s)

/-- R126: an access is presented on the bus of port `p`. No bus presents an access during a full reset (R141; log 20). -/
def present (p : Fin 4) (a : AccessReq) (s : State) : State :=
  if s.inReset then s else acceptHeld p ((s.port p).bus ++ [a]) s

/-! ## Withdrawal (R135, R136, R140) -/

/-- Whether an access is WAITING. -/
def Access.isWaiting (a : Access) : Bool :=
  match a.stage with
  | .waiting _ _ => true
  | .decided _ => false
  | .inProgress _ _ => false
  | .done _ => false

/-- The deciding entry of an access that is WAITING. -/
def Access.waitingEntry (a : Access) : Option (Fin 16) :=
  match a.stage with
  | .waiting _ e => e
  | .decided _ => none
  | .inProgress _ _ => none
  | .done _ => none

/-- R136: a WAITING access is answered `o`; any other is passed by. -/
def Access.withdraw (o : PortOutcome) (a : Access) : Access := if a.isWaiting then { a with stage := .decided o } else a

/-- The number of WAITING accesses of a port. -/
def Port.waitingCount (q : Port) : Nat := (q.outstanding.filter Access.isWaiting).length

/-- R135 step 2, R137 step 2: every WAITING access of port `p` is answered ABORTED and its deciding entry's count is
decremented; the port's claim is withdrawn. -/
def withdrawPort (p : Fin 4) (s : State) : State :=
  let q := s.port p
  (q.outstanding.map Access.waitingEntry).foldl (fun t e => countOut e t)
    (setPass (.port p) 0 (s.setPort p { q with outstanding := q.outstanding.map (Access.withdraw .aborted) }))

/-! ## PORT (R133 to R135) -/

/-- R133: the target state named by P1. -/
def targetState? (w : Word) : Option PortState :=
  if w = 0#32 then some .active
  else if w = 1#32 then some .quiesced
  else if w = 2#32 then some .disabled
  else none

/-- Sets the state of port `p`. -/
def setPortState (p : Fin 4) (st : PortState) (s : State) : State := s.setPort p { s.port p with state := st }

/-- R135: PORT to DISABLED, steps 1 to 4. -/
def disablePort (p : Fin 4) (s : State) : State :=
  cancelForPort p (releasePort p (answer p (withdrawPort p (setPortState p .disabled s))))

/-- R133 to R135: PORT. -/
def takePort (id : RecId) (r : Request) (s : State) : State :=
  match portIndex? r.p0, targetState? r.p1 with
  | some p, some target =>
    if p = 0 then instant id .parm noReplies s
    else
      match (s.port p).state with
      | .resetting _ => instant id .busy (replies 3 0 0 0) s
      | .active =>
        if target = .disabled then
          instant id .okay (replies 0 (s.port p).waitingCount (s.leasesOf p) (s.cancelCount p)) (disablePort p s)
        else instant id .okay (replies 0 0 0 0) (setPortState p target s)
      | .quiesced =>
        if target = .disabled then
          instant id .okay (replies 1 (s.port p).waitingCount (s.leasesOf p) (s.cancelCount p)) (disablePort p s)
        else instant id .okay (replies 1 0 0 0) (setPortState p target s)
      | .disabled => instant id .okay (replies 2 0 0 0) (setPortState p target s)
  | none, _ => instant id .parm noReplies s
  | some _, none => instant id .parm noReplies s

/-! ## PRST (R137, R138) -/

/-- R138: the state a port returns to. -/
def FormerState.back : FormerState → PortState
  | .active => .active
  | .quiesced => .quiesced

/-- R138: RW0 of a PRST. -/
def FormerState.code : FormerState → Nat
  | .active => 0
  | .quiesced => 1

/-- R137: a port as PRST puts it into RESETTING, its drain set not yet formed. -/
def startResetting (id : RecId) (f : FormerState) (withdrawn released cancelled : Nat) : PortState :=
  .resetting
    { former := f, request := id, drainAccesses := 0, drainTransfers := [], withdrawn := withdrawn, released := released
      cancelled := cancelled }

/-- R137, step 2: the accesses still in the outstanding list form the access part of the drain set. -/
def formDrainAccesses (p : Fin 4) (s : State) : State :=
  match (s.port p).state with
  | .resetting r => setPortState p (.resetting { r with drainAccesses := (s.port p).outstanding.length }) s
  | .active => s
  | .quiesced => s
  | .disabled => s

/-- R137, step 3: the transfers of port `p` that are STOPPING join the drain set. -/
def formDrainTransfers (p : Fin 4) (s : State) : State :=
  match (s.port p).state with
  | .resetting r =>
    setPortState p
      (.resetting
        { r with drainTransfers :=
            (s.queue.filter (fun t => t.port == p && t.state == .stopping)).map Transfer.owner }) s
  | .active => s
  | .quiesced => s
  | .disabled => s

/-- R138: if the drain set of port `p` is empty, the port returns to its former state, the PRST completes and PORT is
raised. -/
def drainPort (p : Fin 4) (s : State) : State :=
  match (s.port p).state with
  | .resetting r =>
    if r.drainAccesses = 0 ∧ r.drainTransfers = [] then
      raise .port
        (complete r.request .okay (replies r.former.code r.withdrawn r.released r.cancelled)
          (setPortState p r.former.back s))
    else s
  | .active => s
  | .quiesced => s
  | .disabled => s

/-- R137: PRST, steps 1 to 4, and the drain at the end of its take (R138). The withdrawn accesses' answers are delivered
before the drain set is formed and accesses held on the bus arrive after it (log 28). -/
def resetPort (id : RecId) (p : Fin 4) (f : FormerState) (s : State) : State :=
  let st := startResetting id f (s.port p).waitingCount (s.leasesOf p) (s.cancelCount p)
  let a := formDrainAccesses p (flush p (withdrawPort p (setPortState p st (enterActive id .agentPorts s))))
  let b := formDrainTransfers p (cancelForPort p (answer p a))
  drainPort p (releasePort p b)

/-- R137: PRST. -/
def takePortReset (id : RecId) (r : Request) (s : State) : State :=
  match portIndex? r.p0 with
  | none => instant id .parm noReplies s
  | some p =>
    if p = 0 then instant id .refu (replies 1 0 0 0) s
    else
      match (s.port p).state with
      | .disabled => instant id .refu (replies 2 0 0 0) s
      | .resetting _ => instant id .busy (replies 3 0 0 0) s
      | .active => resetPort id p .active s
      | .quiesced => resetPort id p .quiesced s

/-! ## Completion (R129) -/

/-- The access IN_PROGRESS of an outstanding list, with its deciding entry. -/
def inProgress? : List Access → Option (AccessReq × Option (Fin 16))
  | [] => none
  | a :: as =>
    match a.stage with
    | .inProgress _ e => some (a.req, e)
    | .decided _ => inProgress? as
    | .waiting _ _ => inProgress? as
    | .done _ => inProgress? as

/-- R129: the access IN_PROGRESS goes to DONE with the data read. -/
def Access.finish (ws : List Word) (a : Access) : Access :=
  match a.stage with
  | .inProgress _ _ => { a with stage := .done ws }
  | .decided _ => a
  | .waiting _ _ => a
  | .done _ => a

/-- R127: the data that a completed access returns: the words as the DRAM held them at its grant (log 17). -/
def State.accessData (s : State) (a : AccessReq) : List Word :=
  match a.op with
  | .read n => s.wordsAt a.addr.toNat n
  | .write _ => []

/-- R129, R151: a completed write stores its words and is evaluated; a read stores nothing. -/
def accessStore (a : AccessReq) (s : State) : State :=
  match a.op with
  | .read _ => s
  | .write ws => storeAndEvaluate a.addr.toNat ws s

/-- R129: the granted access of port `p` completes. -/
def portAccessDone (p : Fin 4) (s : State) : State :=
  match inProgress? (s.port p).outstanding with
  | none => s
  | some (a, e) =>
    let ws := s.accessData a
    let t := accessStore a (countOut e s)
    answer p (t.setPort p { t.port p with outstanding := (t.port p).outstanding.map (Access.finish ws) })

end Sys2Proof.Machine
end

