-- ==== Sys2Proof/Machine/Arbiter.lean ====
section
/-! DEFINITION. The arbiter: the waiting claims, the choice, the grant (R150 to R157). -/

namespace Sys2Proof.Machine

/-! ## Waiting claims (R150) -/

/-- The class of the oldest WAITING access of a list. -/
def waitingClass? : List Access → Option BwClass
  | [] => none
  | a :: as =>
    match a.stage with
    | .waiting c _ => some c
    | .decided _ => waitingClass? as
    | .inProgress _ _ => waitingClass? as
    | .done _ => waitingClass? as

/-- R129: the claim of port `p`: the class of its oldest WAITING access. -/
def State.portClaim (s : State) (p : Fin 4) : Option BwClass := waitingClass? (s.port p).outstanding

/-- R100: the chain reader's claim: the head of the operation list, behind the granted operation if one is. -/
def State.chainClaim (s : State) : Bool :=
  match s.arb.holder with
  | some .chain => !(s.eng.ops.tail.isEmpty)
  | _ => !s.eng.ops.isEmpty

/-- R81: the transfer unit's claim: the outstanding burst, not granted. -/
def State.transferClaim (s : State) : Bool :=
  match s.queue with
  | [] => false
  | t :: _ => t.burst.any (fun b => !b.granted)

/-- R150: the class of a default claimant's waiting claim, if one waits. -/
def State.waitingClaim (s : State) : Claimant → Option BwClass
  | .port p => s.portClaim p
  | .chain => if s.chainClaim then some .default else none
  | .transfer => if s.transferClaim then some .default else none

/-! ## The choice (R151, R152) -/

/-- R152: the default claimants in their cyclic order, port 0 first. -/
def claimants : List Claimant := [.port 0, .port 1, .port 2, .port 3, .chain, .transfer]

/-- R152: the default claimants cyclically, starting after the given one. -/
def claimantsAfter (c : Claimant) : List Claimant :=
  claimants.drop (c.index.val + 1) ++ claimants.take (c.index.val + 1)

/-- R152: the ports cyclically, starting after the given one. -/
def portsAfter (p : Fin 4) : List (Fin 4) := portIndices.drop (p.val + 1) ++ portIndices.take (p.val + 1)

/-- Whether a claimant has a default claim waiting. -/
def State.defaultWaits (s : State) (c : Claimant) : Bool := s.waitingClaim c == some .default

/-- The passover count of a claimant's claim. -/
def State.passOf (s : State) (c : Claimant) : Nat := s.arb.pass[c.index]

/-- R151, step 3: the first passed-over default claim. -/
def State.passedOver (s : State) : Option Claimant :=
  (claimantsAfter s.arb.defPtr).find? (fun c => s.defaultWaits c && s.passOf c == 8)

/-- R151, step 4: the first port with a priority claim. -/
def State.firstPriority (s : State) : Option (Fin 4) :=
  (portsAfter s.arb.prioPtr).find? (fun p => s.portClaim p == some .priority)

/-- R151, step 5: the first default claim. -/
def State.firstDefault (s : State) : Option Claimant := (claimantsAfter s.arb.defPtr).find? s.defaultWaits

/-- What the arbiter can grant (R151). -/
inductive Choice where
  | refresh
  | switch
  | priority (p : Fin 4)
  | default (c : Claimant)
deriving DecidableEq, Repr

/-- R151: the order of the choice. -/
def State.choice (s : State) : Option Choice :=
  if s.ctl.refreshDue then some .refresh
  else if s.speed.switchWaiting then some .switch
  else
    match s.passedOver with
    | some c => some (.default c)
    | none =>
      match s.firstPriority with
      | some p => some (.priority p)
      | none => s.firstDefault.map .default

/-! ## The grant (R129, R148, R153) -/

/-- Makes a claim the holder. -/
def setHolder (h : Option Holder) (s : State) : State := { s with arb := { s.arb with holder := h } }

/-- R129: the oldest WAITING access goes to IN_PROGRESS. -/
def grantOldest : List Access → List Access
  | [] => []
  | a :: as =>
    match a.stage with
    | .waiting c e => { a with stage := .inProgress c e } :: as
    | .decided _ => a :: grantOldest as
    | .inProgress _ _ => a :: grantOldest as
    | .done _ => a :: grantOldest as

/-- R129: the claim of port `p` is granted. -/
def grantPort (p : Fin 4) (s : State) : State :=
  setHolder (some (.port p))
    (setPass (.port p) 0 (s.setPort p { s.port p with outstanding := grantOldest (s.port p).outstanding }))

/-- R107: the stall with reason WAKING ends at the grant of the record read. -/
def wakeReader (e : Engine) : Engine :=
  match e.ops, e.reader with
  | .recordRead _ true :: _, .stalled .waking a => { e with reader := .examining a }
  | _, _ => e

/-- R100: the head of the operation list is granted. -/
def grantChain (s : State) : State :=
  setHolder (some .chain) (setPass .chain 0 { s with eng := wakeReader s.eng })

/-- The outstanding burst of a transfer is granted. -/
def Transfer.grant (t : Transfer) : Transfer := { t with burst := t.burst.map (fun b => { b with granted := true }) }

/-- R81: the transfer unit's claim is granted. -/
def grantTransfer (s : State) : State :=
  setHolder (some .transfer)
    (setPass .transfer 0
      (match s.queue with
        | [] => s
        | t :: rest => { s with queue := t.grant :: rest }))

/-- R153: a passover count after one more priority grant. -/
def bump (n : Nat) : Nat := min 8 (n + 1)

/-- R153: at the priority grant of port `p`, the count of every default claim waiting is incremented. The claims are those
before the grant: the one that port `p` presents after it starts with count 0. -/
def bumpPasses (p : Fin 4) (s : State) : State :=
  claimants.foldl
    (fun t c => if c ≠ .port p ∧ s.defaultWaits c = true then setPass c (bump (s.passOf c)) t else t) s

/-- R152: sets the priority pointer. -/
def setPrioPtr (p : Fin 4) (s : State) : State := { s with arb := { s.arb with prioPtr := p } }

/-- R152: sets the default pointer. -/
def setDefPtr (c : Claimant) (s : State) : State := { s with arb := { s.arb with defPtr := c } }

/-- R148, R151 to R153: the chosen claim is granted. -/
def grant (c : Choice) (s : State) : State :=
  match c with
  | .refresh => setHolder (some .refresh) { s with ctl := { s.ctl with refreshDue := false } }
  | .switch => setHolder (some .switch) { s with speed := { s.speed with switchWaiting := false } }
  | .priority p => setPrioPtr p (grantPort p (bumpPasses p s))
  | .default (.port p) => setDefPtr (.port p) (grantPort p s)
  | .default .chain => setDefPtr .chain (grantChain s)
  | .default .transfer => setDefPtr .transfer (grantTransfer s)

/-- R174: the final refresh starts; refresh due becomes no. -/
def startFinalRefresh (s : State) : State :=
  { s with ctl := { s.ctl with state := .entering .finalRefresh, refreshDue := false } }

/-- R151, R157, R174: with the DRAM idle, the arbiter chooses in RUN; in ENTERING_STANDBY the final refresh starts; no
claim is granted in any other state. -/
def arbitrate (s : State) : State :=
  match s.ctl.state, s.arb.holder with
  | .run, none =>
    match s.choice with
    | some c => grant c s
    | none => s
  | .entering .draining, none => startFinalRefresh s
  | _, _ => s

end Sys2Proof.Machine
end

