-- ==== Sys2Proof/Machine/Speed.lean ====
section
/-! DEFINITION. Interface speed: SPED and the steps of the up and down sequences (R161 to R171). -/

namespace Sys2Proof.Machine

/-- R165: RAISING. -/
def SpeedControl.raise (id : RecId) (c : SpeedControl) : SpeedControl :=
  { c with state := .raising, supply := .high, timer := some (Timer.start 2), owner := some id }

/-- R168, steps 1 to 3: SWITCHING_DOWN with its demotions and its SWITCH claim. -/
def startDown (id : RecId) (s : State) : State :=
  let n := s.priorityHolders.length
  let t := raiseIf (decide (1 ≤ n)) .cls (demoteAll s)
  { t with speed := { t.speed with state := .switchingDown, owner := some id, demoted := n, switchWaiting := true } }

/-- R164, R165, R168: SPED. -/
def takeSpeed (id : RecId) (r : Request) (s : State) : State :=
  if 1 < r.p0.toNat then instant id .parm noReplies s
  else
    match s.speed.state with
    | .base =>
      if r.p0 = 0#32 then raise .speed (instant id .okay (replies 0 0 0 0) s)
      else enterActive id .speedControl { s with speed := s.speed.raise id }
    | .full =>
      if r.p0 = 1#32 then raise .speed (instant id .okay (replies 1 0 0 0) s)
      else enterActive id .speedControl (startDown id s)
    | .raising => instant id .busy (replies SpeedState.raising.code 0 0 0) s
    | .locking => instant id .busy (replies SpeedState.locking.code 0 0 0) s
    | .switchingUp => instant id .busy (replies SpeedState.switchingUp.code 0 0 0) s
    | .switchingDown => instant id .busy (replies SpeedState.switchingDown.code 0 0 0) s
    | .lowering => instant id .busy (replies SpeedState.lowering.code 0 0 0) s

/-- R169: the SPED's completion is handed to the engine and SPEED is raised; a sequence abandoned by a soft reset has no
owner and hands none. -/
def finishSpeed (c : ResultCode) (rw : Replies) (s : State) : State :=
  match s.speed.owner with
  | none => s
  | some id => raise .speed (complete id c rw { s with speed := { s.speed with owner := none } })

/-- R165: the end of RAISING. -/
def endRaising (s : State) : State :=
  if s.speed.state = .raising ∧ timerDue s.speed.timer = true then
    { s with speed := { s.speed with state := .locking, pll := .running, timer := some (Timer.start 4) } }
  else s

/-- BASE with supply LOW and the PLL OFF, the step timer stopped (R166, R168, R170). -/
def SpeedControl.settleBase (c : SpeedControl) : SpeedControl :=
  { c with state := .base, supply := .low, pll := .off, timer := none }

/-- R166: the end of LOCKING with the lock indication present or absent. -/
def endLocking (present : Bool) (s : State) : State :=
  if s.speed.state = .locking ∧ timerDue s.speed.timer = true then
    if present then
      { s with speed := { s.speed with state := .switchingUp, timer := none, switchWaiting := true } }
    else finishSpeed .fail noReplies { s with speed := s.speed.settleBase }
  else s

/-- R168: the end of LOWERING. -/
def endLowering (s : State) : State :=
  if s.speed.state = .lowering ∧ timerDue s.speed.timer = true then
    finishSpeed .okay (replies 0 s.speed.demoted 0 0)
      { s with speed := { s.speed with state := .base, timer := none, demoted := 0 } }
  else s

/-- R167: the up switch cycle, holding the DRAM, completes. -/
def switchUpDone (s : State) : State :=
  if s.arb.holder = some .switch ∧ s.speed.state = .switchingUp then
    finishSpeed .okay (replies 1 0 0 0)
      (setHolder none { s with speed := { s.speed with state := .full, iface := .full } })
  else s

/-- R168: the down switch cycle, holding the DRAM, completes. -/
def switchDownDone (s : State) : State :=
  if s.arb.holder = some .switch ∧ s.speed.state = .switchingDown then
    setHolder none
      { s with speed :=
          { s.speed with state := .lowering, iface := .base, pll := .off, supply := .low
                         timer := some (Timer.start 1) } }
  else s

/-- R170: a soft reset at speed control; `switching` says that the switch cycle holds the DRAM. -/
def SpeedControl.softReset (switching : Bool) (c : SpeedControl) : SpeedControl :=
  let d := { c with owner := none, demoted := 0 }
  match c.state with
  | .base => d
  | .full => d
  | .raising => d.settleBase
  | .locking => d.settleBase
  | .switchingUp => if switching then d else { d.settleBase with switchWaiting := false }
  | .switchingDown => d
  | .lowering => d

end Sys2Proof.Machine
end

