-- ==== Sys2Proof/Machine/EngineOps.lean ====
section
/-! DEFINITION. The engine's operations complete: records are examined and taken, requests handed to their blocks, results
and header words written (R97 to R104, R115), and SLEP (R172, R173). -/

namespace Sys2Proof.Machine

/-! ## The requests of the engine itself, of the controller and of standby -/

/-- R113, R114: the oldest active request with a tag. -/
def State.activeWithTag (s : State) (tag : Word) : Option ActiveRequest :=
  s.eng.active.find? (fun a => a.tag.toNat == tag.toNat)

/-- R113: the cancellation handed to a request's block. -/
def cancelRequest (a : ActiveRequest) (s : State) : State :=
  match a.block with
  | .watchUnit => cancelWait a.id s
  | .transferUnit => cancelTransfers (fun t => t.owner == a.id) s
  | .regionTable =>
    match entryIndices.find? (fun i => (s.entry i).waitsFor a.id) with
    | none => s
    | some i => cancelWaiter i s
  | .agentPorts => s
  | .speedControl => s

/-- R113: whether ABRT refuses a request: PRST and SPED. -/
def Block.cannotCancel : Block → Bool
  | .agentPorts => true
  | .speedControl => true
  | .regionTable => false
  | .watchUnit => false
  | .transferUnit => false

/-- R113: RW0 and RW1 of an ABRT that found a request: its record address and its code. -/
def State.abortReplies (s : State) (a : ActiveRequest) : Replies :=
  { rw0 := match s.eng.record? a.id with
      | some r => r.addr
      | none => 0#32
    rw1 := a.code, rw2 := 0#32, rw3 := 0#32 }

/-- R113: ABRT. -/
def takeAbort (id : RecId) (r : Request) (s : State) : State :=
  if 65535 < r.p0.toNat then instant id .parm noReplies s
  else
    match s.activeWithTag r.p0 with
    | none => instant id .none noReplies s
    | some a =>
      if a.block.cannotCancel then instant id .refu (s.abortReplies a) s
      else instant id .okay (s.abortReplies a) (cancelRequest a s)

/-- R115: NOOP. -/
def takeNoop (id : RecId) (_ : Request) (s : State) : State := instant id .okay noReplies s

/-- R115: a record whose code is not recognised. -/
def takeUnknown (id : RecId) (_ : Request) (s : State) : State := instant id .unkn noReplies s

/-- R149: RFSH. -/
def takeRefreshInterval (id : RecId) (r : Request) (s : State) : State :=
  if 3 < r.p0.toNat then instant id .parm noReplies s
  else
    instant id .okay (replies s.ctl.code.toNat 0 0 0)
      { s with ctl := { s.ctl with code := r.p0.extractLsb' 0 2 } }

/-- R172, reason 1: whether a port fails the test: ACTIVE or RESETTING, or with an access in its outstanding list. -/
def Port.notIdle (q : Port) : Bool :=
  match q.state with
  | .active => true
  | .resetting _ => true
  | .quiesced => !q.outstanding.isEmpty
  | .disabled => !q.outstanding.isEmpty

/-- R172: the lowest-numbered agent port that is not idle. -/
def State.busyAgent (s : State) : Option (Fin 4) := [1, 2, 3].find? (fun p : Fin 4 => (s.port p).notIdle)

/-- R172, R173: SLEP. -/
def takeSleep (id : RecId) (_ : Request) (s : State) : State :=
  match s.busyAgent with
  | some p => instant id .busy (replies 1 p.val 0 0) s
  | none =>
    if s.queue ≠ [] then instant id .busy (replies 2 0 0 0) s
    else if s.speed.state ≠ .base then instant id .busy (replies 3 0 0 0) s
    else instant id .okay noReplies { s with eng := { s.eng with handoff := some id } }

/-! ## Taking a record (R101 to R103) -/

/-- R103: the request is handed to the block that carries it out. -/
def handOff (c : Option Code) (id : RecId) (r : Request) (s : State) : State :=
  match c with
  | some .openWindow => takeOpen id r s
  | some .closeWindow => takeClose id r s
  | some .lock => takeLock id r s
  | some .look => takeLook id r s
  | some .lease => takeLease id r s
  | some .renew => takeRenew id r s
  | some .freeLease => takeFree id r s
  | some .policy => takePolicy id r s
  | some .waitWord => takeWait id r s
  | some .fill => takeFill id r s
  | some .copy => takeCopy id r s
  | some .scan => takeScan id r s
  | some .abort => takeAbort id r s
  | some .noop => takeNoop id r s
  | some .port => takePort id r s
  | some .portReset => takePortReset id r s
  | some .refreshInterval => takeRefreshInterval id r s
  | some .speed => takeSpeed id r s
  | some .sleep => takeSleep id r s
  | none => takeUnknown id r s

/-- R108: a record as it joins the take list. -/
def newRecord (id : RecId) (addr : Word) (code : Word) (r : Request) : TakeRecord :=
  { id := id, addr := addr, code := code, tag := r.tag, notify := r.notify, stage := .taking }

/-- R102, steps 1 to 4: the record at `addr` is taken. Until its block says otherwise the take ends with its header write,
as for a long request. -/
def takeRecord (addr code : Word) (r : Request) (s : State) : State :=
  let id := s.eng.nextId
  endTail
    (appendOps [.taknWrite id addr, .headerTake id (s.eng.taken + 1#32) addr]
      { s with eng :=
          { s.eng with
            takeList := s.eng.takeList ++ [newRecord id addr code r]
            taken := s.eng.taken + 1#32
            nextId := id + 1
            reader := .taking id addr r.link .header } })

/-- R101, R121: a record that stalls; with a stop pending the engine goes to STOPPED instead. -/
def stallReader (reason : StallReason) (addr : Word) (s : State) : State :=
  if s.eng.stopPending then stopReader s else setReader (.stalled reason addr) s

/-- R101: the examination of the record read from `addr`. -/
def examine (rec : Record) (addr : Word) (s : State) : State :=
  if rec.result ≠ 0#32 then chainFault .notFresh addr s
  else if rec.req.barrier = true ∧ s.eng.active ≠ [] then stallReader .barrier addr s
  else if Code.needsRoom (Code.ofWord rec.code) = true ∧ 4 ≤ s.queue.length then stallReader .queueFull addr s
  else handOff (Code.ofWord rec.code) s.eng.nextId rec.req (takeRecord addr rec.code rec.req s)

/-! ## Completions (R100) -/

/-- R100: the engine's operation that holds the DRAM. -/
def State.grantedOp (s : State) : Option EngineOp :=
  match s.arb.holder with
  | some .chain => s.eng.ops.head?
  | _ => none

/-- R100, R151: the granted operation leaves the list and the DRAM is idle. -/
def finishOp (s : State) : State := setHolder none { s with eng := { s.eng with ops := s.eng.ops.tail } }

/-- R100, R151, R136: a record read that is still wanted completes: the read leaves the list and the DRAM is idle. Where a
claim waits, a free value of each read says whether the arbiter's choice comes before the examination of the record
(log 18); where it does not, the choice at the end of the command follows the examination. -/
def readComplete (s : State) : State :=
  let t := finishOp { s with arb := { s.arb with reads := s.arb.reads + 1 } }
  if t.choice = none then t
  else if Config.grantFirst s.arb.reads then arbitrate t
  else t

/-- R101: the record read completes; it returns the record `rec`, or, where none is given, what the DRAM holds (log 4). -/
def recordReadReturns (rec : Option Record) (s : State) : State :=
  match s.grantedOp with
  | some (.recordRead a true) => examine (rec.getD (s.recordAt a.toNat)) a (readComplete s)
  | some (.recordRead _ false) => finishOp s
  | _ => s

/-- The record that a request command carries: RESULT is 0 (log 4). -/
def requestRecord (code : Word) (r : Request) : Record := { code := code, result := 0#32, req := r }

/-- R63: the arming read of a WAIT completes. -/
def waitArmingDone (s : State) : State :=
  match s.grantedOp with
  | some (.armWait id w true) => armWait id w (s.wordAt w.addr.toNat) (finishOp s)
  | some (.armWait _ _ false) => finishOp s
  | _ => s

/-- R70: the arming read of slot 0 completes. -/
def tailArmingDone (s : State) : State :=
  match s.grantedOp with
  | some (.armTail id a true) => armTail id a (s.wordAt a.toNat) (finishOp s)
  | some (.armTail _ _ false) => finishOp s
  | _ => s

/-- R117: FAULT_KIND of a chain fault reported in words 3 and 4. -/
def ChainFault.word : ChainFault → Word
  | .badLink => 2#32
  | .notFresh => 3#32

/-- R97, R119: the sixteen words of the header at GO. -/
def headerWords (badAnchor : Option Word) : List Word :=
  match badAnchor with
  | none => List.replicate 16 0#32
  | some a => [0#32, 0#32, 0#32, a, 1#32] ++ List.replicate 11 0#32

/-- R97: the address and words of an engine write. -/
def EngineOp.burst? (base : Nat) : EngineOp → Option (Nat × List Word)
  | .recordRead _ _ => none
  | .armWait _ _ _ => none
  | .armTail _ _ _ => none
  | .taknWrite _ a => some (a.toNat + 8, [taknWord])
  | .replyWrite _ a rw => some (a.toNat + 48, rw.words)
  | .resultWrite _ a c _ => some (a.toNat + 8, [c.word])
  | .headerGo b => some (base, headerWords b)
  | .headerTake _ n l => some (base + 4, [n, l])
  | .headerRetired a => some (base, [a])
  | .headerFault k a => some (base + 12, [a, k.word])

/-- An engine write completes: its words are stored and evaluated (R59). -/
def engineWrite (op : EngineOp) (s : State) : State :=
  match op.burst? s.workBase with
  | none => s
  | some (a, ws) => storeAndEvaluate a ws (finishOp s)

/-- R97, R102, R117: an engine write of header words other than RETIRED completes. The watch unit evaluates it before the
take ends or CHAIN is raised (DESIGN CHOICE, log 32). -/
def headerWriteDone (s : State) : State :=
  match s.grantedOp with
  | some (.headerGo b) => raiseIf b.isSome .chain (engineWrite (.headerGo b) s)
  | some (.headerTake id n l) => endTakeAt id .header (engineWrite (.headerTake id n l) s)
  | some (.headerFault k a) => raise .chain (engineWrite (.headerFault k a) s)
  | _ => s

/-- R104: a record whose RESULT write has completed goes to FINAL. -/
def TakeRecord.toFinal (id : RecId) (r : TakeRecord) : TakeRecord :=
  if r.id = id then
    match r.stage with
    | .writing c rw => { r with stage := .final c rw }
    | .taking => r
    | .active => r
    | .final _ _ => r
  else r

/-- R104: the RESULT write of `id` has completed: the record goes to FINAL and DONE is raised if NOTIFY is set. -/
def finalize (id : RecId) (notify : Bool) (s : State) : State :=
  raiseIf notify .done { s with eng := { s.eng with takeList := s.eng.takeList.map (TakeRecord.toFinal id) } }

/-- R104, R110: the RESULT write of a final code completes; for an instant request it ends the take (R102). The watch unit
evaluates the write first, with all that a fire does (DESIGN CHOICE, log 32). The link step is made before retirement is
tested, so that a record whose LINK is 0 is the tail record by then (log 31). -/
def resultWriteDone (s : State) : State :=
  match s.grantedOp with
  | some (.resultWrite id a c n) =>
    retire (endTakeAt id .result (finalize id n (engineWrite (.resultWrite id a c n) s)))
  | _ => s

/-- R100: a 'TAKN', reply-word or RETIRED write completes. -/
def otherWriteDone (s : State) : State :=
  match s.grantedOp with
  | some (.taknWrite id a) => engineWrite (.taknWrite id a) s
  | some (.replyWrite id a rw) => engineWrite (.replyWrite id a rw) s
  | some (.headerRetired a) => engineWrite (.headerRetired a) s
  | _ => s

end Sys2Proof.Machine
end

