-- ==== Sys2Proof/Machine/Controller.lean ====
section
/-! DEFINITION. The DRAM controller: INIT, refresh, standby (R145 to R149, R172 to R178). -/

namespace Sys2Proof.Machine

/-- The refresh timer starts with a full interval of the current code (R147, R177). -/
def Controller.enterRun (c : Controller) : Controller := { c with state := .run, timer := some c.code }

/-- R145, R146: a wake cycle completes: the wake count, held at 8, and the entry to RUN. -/
def Controller.wakeCycle (c : Controller) : Controller :=
  let n := min 8 (c.wakeCount + 1)
  if n = 8 ∧ c.released = true then { c.enterRun with wakeCount := n, released := false } else { c with wakeCount := n }

/-- R145 to R147. -/
def wakeCycleDone (s : State) : State :=
  if s.ctl.state = .init true then { s with ctl := s.ctl.wakeCycle } else s

/-- R148, R149: an interval ends: refresh becomes due and the next interval starts with the current code. -/
def refreshInterval (s : State) : State :=
  match s.ctl.timer with
  | none => s
  | some _ => { s with ctl := { s.ctl with refreshDue := true, timer := some s.ctl.code } }

/-- R148: the refresh that holds the DRAM completes. -/
def refreshDone (s : State) : State := if s.arb.holder = some .refresh then setHolder none s else s

/-- R122: whether the reader has ended its take with the link step and examines nothing. -/
def Reader.settled : Reader → Bool
  | .stopped => true
  | .atTail _ => true
  | .stalled _ _ => true
  | .faulted => true
  | .examining _ => false
  | .taking _ _ _ _ => false
  | .arming _ => false

/-- R122, R173: whether the pending hand-off can be made. -/
def State.handoffReady (s : State) : Bool :=
  s.eng.handoff.isSome && s.eng.ops.isEmpty && s.eng.reader.settled && s.ctl.state == .run

/-- R122: the held record read is appended at the hand-off. -/
def releaseHeldRead (s : State) : State :=
  match s.eng.heldRead, s.eng.reader with
  | true, .stalled .waking a => appendOps [.recordRead a true] { s with eng := { s.eng with heldRead := false } }
  | _, _ => s

/-- R122, R174: the hand-off: ENTERING_STANDBY, the refresh timer stops, wake recorded is set. -/
def handoff (s : State) : State :=
  if s.handoffReady then
    releaseHeldRead
      { s with
        ctl := { s.ctl with state := .entering .draining, timer := none, wakeRecorded := (s.portClaim 0).isSome }
        eng := { s.eng with handoff := none } }
  else s

/-- R174: the final refresh completes and the entry to self-refresh starts. -/
def finalRefreshDone (s : State) : State :=
  if s.ctl.state = .entering .finalRefresh then
    { s with ctl := { s.ctl with state := .entering .selfRefreshEntry } }
  else s

/-- R174: self-refresh is entered: STANDBY, left at once if a wake is recorded. -/
def selfRefreshEntered (s : State) : State :=
  if s.ctl.state = .entering .selfRefreshEntry then
    if s.ctl.wakeRecorded then
      { s with ctl := { s.ctl with state := .leaving .selfRefreshExit, wakeRecorded := false } }
    else { s with ctl := { s.ctl with state := .standby } }
  else s

/-- R177: self-refresh is left and the exit refresh starts. -/
def selfRefreshLeft (s : State) : State :=
  if s.ctl.state = .leaving .selfRefreshExit then
    { s with ctl := { s.ctl with state := .leaving .exitRefresh } }
  else s

/-- R177: the exit refresh completes: RUN, the refresh timer starts, WAKE. -/
def exitRefreshDone (s : State) : State :=
  if s.ctl.state = .leaving .exitRefresh then
    raise .wake { s with ctl := { s.ctl.enterRun with refreshDue := false } }
  else s

end Sys2Proof.Machine
end

