-- ==== Sys2Proof/Machine/Resets.lean ====
section
/-! DEFINITION. Soft reset and full reset, block by block. -/

namespace Sys2Proof.Machine

/-- R28: an entry after soft reset: a locked window is kept, with count 0 and no fault record; any other is FREE. -/
def Entry.softReset (e : Entry) : Entry :=
  match e.status with
  | .opened r w => if w.locked then { status := .opened r w, inflight := 0, fault := none } else Entry.reset
  | .free _ => Entry.reset
  | .leased _ _ => Entry.reset
  | .retiring _ _ _ _ => Entry.reset

/-- R28. -/
def RegionTable.softReset (t : RegionTable) : RegionTable :=
  { entries := mapVec Entry.softReset t.entries, unclaimed := none, serial := 0#32, policy := .shared }

/-- R94: what a granted burst goes on to do after a soft reset. -/
def Transfer.orphan (t : Transfer) (b : Burst) : OrphanBurst :=
  match t.job with
  | .fill _ pattern => .fill b.addr (List.replicate b.len pattern)
  | .scan _ _ _ => .scan
  | .copy _ _ =>
    match b.half with
    | .read => .copyRead
    | .write => .copyWrite b.addr t.buffer

/-- R94, R158: the holder after a soft reset: a burst of the transfer unit is detached from its transfer. -/
def State.softResetHolder (s : State) : Option Holder :=
  match s.arb.holder, s.queue with
  | some .transfer, t :: _ =>
    match t.burst with
    | some b => some (.orphan (t.orphan b))
    | none => some .transfer
  | h, _ => h

/-- R123: the operation list after a soft reset: an operation already granted, whose data (if it is a read) is
discarded. -/
def State.softResetOps (s : State) : List EngineOp :=
  match s.arb.holder, s.eng.ops with
  | some .chain, op :: _ => [op.discard]
  | _, _ => []

/-- R123. -/
def State.softResetEngine (s : State) : Engine :=
  { Engine.reset with ops := s.softResetOps, nextId := s.eng.nextId }

/-- R140: an access after soft reset: a WAITING one is answered RETRY, one IN_PROGRESS is detached from its entry. -/
def Access.softReset (a : Access) : Access :=
  match a.stage with
  | .waiting _ _ => { a with stage := .decided .retry }
  | .inProgress c _ => { a with stage := .inProgress c none }
  | .decided _ => a
  | .done _ => a

/-- R140: a port after soft reset, in the given state. -/
def Port.softReset (st : PortState) (q : Port) : Port :=
  { state := st, outstanding := q.outstanding.map Access.softReset, bus := q.bus }

/-- R185: the register window after soft reset. -/
def RegisterWindow.softReset (w : RegisterWindow) : RegisterWindow :=
  { w with anch := 0#32, evnt := 0#9, emsk := 0#9 }

/-- R28, R74, R94, R123, R140, R159, R170, R185: every block at the moment of the soft reset. -/
def softResetBlocks (s : State) : State :=
  { s with
    table := s.table.softReset
    slots := Vector.replicate 8 none
    queue := []
    eng := s.softResetEngine
    ports :=
      #v[(s.port 0).softReset .active, (s.port 1).softReset .quiesced, (s.port 2).softReset .quiesced,
        (s.port 3).softReset .quiesced]
    speed := s.speed.softReset (s.arb.holder == some .switch)
    arb := { s.arb with holder := s.softResetHolder, pass := Vector.replicate 6 0 }
    win := s.win.softReset }

/-- R181: the soft reset. Then the ports deliver the responses whose turn has come and accept accesses held on their buses
(R140; log 24). -/
def softReset (s : State) : State := portIndices.foldl (fun t p => answer p t) (softResetBlocks s)

/-- R27, R73, R95, R124, R141, R160, R171, R179, R185: a full reset is asserted. The straps are sampled (R160), INIT
starts, and the first wake cycle waits for the end of the reset (R145). The queue of commands and the numbers of the free
values are not part of the part (logs 2, 18 and 22). -/
def fullReset (pins : Straps) (s : State) : State :=
  { State.reset with
    ctl := { Controller.reset with state := .init false }
    arb := { Arbiter.reset with reads := s.arb.reads }
    straps := pins
    inReset := true
    epoch := s.epoch + 1
    pending := s.pending }

/-- R142, R145: the full reset ends: the straps' values are the strapped values, and the first wake cycle starts. -/
def fullResetEnds (pins : Straps) (s : State) : State :=
  if s.inReset then { s with straps := pins, inReset := false, ctl := { s.ctl with state := .init true } } else s

end Sys2Proof.Machine
end

