-- ==== Sys2Proof/Machine/Registers.lean ====
section
/-! DEFINITION. The register window: reads and writes of CTRL, STAT, ANCH, EVNT, EMSK and ECLR (R180 to R185). -/

namespace Sys2Proof.Machine

/-- R181: GO and STOP of a CTRL write. -/
def ctrlAction (w : Word) (s : State) : State :=
  if w.getLsbD 0 then goCommand s else if w.getLsbD 1 then stopCommand s else s

/-- R181: WSET of a CTRL write. -/
def ctrlWsize (w : Word) (s : State) : State :=
  if w.getLsbD 7 = true ∧ s.win.wsizeFixed = false then
    { s with win := { s.win with wsize := w.extractLsb' 4 2 } }
  else s

/-- R181: a write to CTRL. -/
def ctrlWrite (w : Word) (s : State) : State :=
  if w.getLsbD 2 then softReset s
  else if w.getLsbD 0 = true ∧ w.getLsbD 1 = true then s
  else ctrlAction w (ctrlWsize w s)

/-- R182: a write to ANCH is taken while the engine is STOPPED or FAULTED. -/
def anchStore (v : Word) (s : State) : State :=
  match s.eng.reader with
  | .stopped => { s with win := { s.win with anch := v } }
  | .faulted => { s with win := { s.win with anch := v } }
  | .examining _ => s
  | .taking _ _ _ _ => s
  | .arming _ => s
  | .atTail _ => s
  | .stalled _ _ => s

/-- R183: a write to EMSK replaces all nine enables. -/
def emskStore (v : Word) (s : State) : State := { s with win := { s.win with emsk := v.extractLsb' 0 9 } }

/-- R184: a write to ECLR clears each flag whose bit in the written value is 1. -/
def eclrStore (v : Word) (s : State) : State :=
  { s with win := { s.win with evnt := s.win.evnt &&& ~~~(v.extractLsb' 0 9) } }

/-- R180: a write to register space. During a full reset no bus presents one (R141; log 20). -/
def regWrite (offset v : Word) (s : State) : State :=
  if s.inReset then s
  else if offset = 0x00#32 then ctrlWrite v s
  else if offset = 0x08#32 then anchStore v s
  else if offset = 0x10#32 then emskStore v s
  else if offset = 0x14#32 then eclrStore v s
  else s

/-- R182: the engine state in STAT. -/
def Reader.code : Reader → Nat
  | .stopped => 0
  | .examining _ => 1
  | .taking _ _ _ _ => 1
  | .arming _ => 1
  | .atTail _ => 2
  | .stalled _ _ => 3
  | .faulted => 4

/-- R182: a stall reason in STAT. -/
def StallReason.code : StallReason → Nat
  | .tableFull => 1
  | .queueFull => 2
  | .barrier => 3
  | .retireFull => 4
  | .waking => 5

/-- R182: the stall reason field, 0 except in STALLED. -/
def Reader.stallCode : Reader → Nat
  | .stalled r _ => r.code
  | .stopped => 0
  | .examining _ => 0
  | .taking _ _ _ _ => 0
  | .arming _ => 0
  | .atTail _ => 0
  | .faulted => 0

/-- R182: the controller state in STAT. -/
def ControllerState.code : ControllerState → Nat
  | .init _ => 0
  | .run => 1
  | .entering _ => 2
  | .standby => 3
  | .leaving _ => 4

/-- R182: STAT. -/
def State.stat (s : State) : Word :=
  BitVec.ofNat 32
    (s.eng.reader.code + s.eng.reader.stallCode * 8 + s.ctl.state.code * 64 + s.speed.state.code * 512
      + s.eng.active.length * 4096 + s.queue.length * 65536 + s.eng.takeList.length * 524288
      + s.win.wsizeFixed.toNat * 33554432 + s.straps.size.toNat * 67108864 + s.straps.wide.toNat * 268435456)

/-- R180 to R182: what a read of register space returns; it changes nothing (log 27). -/
def State.regRead (s : State) (offset : Word) : Word :=
  if offset = 0x00#32 then BitVec.ofNat 32 (s.win.wsize.toNat * 16)
  else if offset = 0x04#32 then s.stat
  else if offset = 0x08#32 then s.win.anch
  else if offset = 0x0C#32 then s.win.evnt.zeroExtend 32
  else if offset = 0x10#32 then s.win.emsk.zeroExtend 32
  else 0#32

end Sys2Proof.Machine
end

