-- ==== Sys2Proof/Machine/Bursts.lean ====
section
/-! DEFINITION. What the DRAM completes for the ports and the transfer unit, and the lease tick: each finds what is under
way from the holder and leaves the state alone where the named event is not under way (log 3). -/

namespace Sys2Proof.Machine

/-- R129: the port access that holds the DRAM completes. -/
def accessDone (s : State) : State :=
  match s.arb.holder with
  | some (.port p) => portAccessDone p (setHolder none s)
  | _ => s

/-- R81, R150: the transfer whose granted burst holds the DRAM, its burst, and the rest of the queue. -/
def State.grantedBurst (s : State) : Option (Transfer × Burst × List Transfer) :=
  match s.arb.holder, s.queue with
  | some .transfer, t :: rest => t.burst.map (fun b => (t, b, rest))
  | _, _ => none

/-- R94: a transfer burst that has outlived a soft reset and holds the DRAM. -/
def State.orphanBurst (s : State) : Option OrphanBurst :=
  match s.arb.holder with
  | some (.orphan b) => some b
  | _ => none

/-- R84: the FILL burst that holds the DRAM completes; R94: a detached one completes as a write of the DRAM. -/
def fillBurst (s : State) : State :=
  match s.grantedBurst, s.orphanBurst with
  | some (t, b, rest), _ =>
    match t.job with
    | .fill _ pattern => fillBurstDone t b pattern rest (setHolder none s)
    | .copy _ _ => s
    | .scan _ _ _ => s
  | none, some (.fill a ws) => storeAndEvaluate a.toNat ws (setHolder none s)
  | none, _ => s

/-- R85: the COPY read burst that holds the DRAM completes; R94: the data of a detached one is discarded. -/
def copyReadBurst (s : State) : State :=
  match s.grantedBurst, s.orphanBurst with
  | some (t, b, rest), _ =>
    match t.job, b.half with
    | .copy _ _, .read => copyReadDone t b rest (setHolder none s)
    | _, _ => s
  | none, some .copyRead => setHolder none s
  | none, _ => s

/-- R85: the COPY write burst that holds the DRAM completes; R94: a detached one completes as a write of the DRAM. -/
def copyWriteBurst (s : State) : State :=
  match s.grantedBurst, s.orphanBurst with
  | some (t, b, rest), _ =>
    match t.job, b.half with
    | .copy _ _, .write => copyWriteDone t b rest (setHolder none s)
    | _, _ => s
  | none, some (.copyWrite a ws) => storeAndEvaluate a.toNat ws (setHolder none s)
  | none, _ => s

/-- R86: the SCAN burst that holds the DRAM completes; R94: the data of a detached one is discarded. -/
def scanBurst (s : State) : State :=
  match s.grantedBurst, s.orphanBurst with
  | some (t, b, rest), _ =>
    match t.job with
    | .scan _ pattern mask => scanBurstDone t b pattern mask rest (setHolder none s)
    | .fill _ _ => s
    | .copy _ _ => s
  | none, some .scan => setHolder none s
  | none, _ => s

/-- R36, R66, R162: one lease tick at every running timer. -/
def tickTimers (s : State) : State :=
  { s with
    table := { s.table with entries := mapVec Entry.tick s.table.entries }
    slots := mapVec (Option.map WatchSlot.tick) s.slots
    speed := { s.speed with timer := s.speed.timer.map Timer.tick } }

end Sys2Proof.Machine
end

