-- ==== Sys2Proof/Machine/RequestCommands.lean ====
section
/-! DEFINITION. The meanings of the request commands: the record read that holds the DRAM completes and returns the
request's record, which is examined and, if it is not stalled, taken and handed to its block (R101 to R103; log 4). -/

namespace Sys2Proof.Machine

/-- The answer of a command that changes the claims or the DRAM: its effect, then the arbiter's choice (R151). -/
def answerNext (s : State) : Host.Outcome State Fault Refusal := .next (arbitrate s)

/-- R101 to R103: the record read returns a record with a code of the table. -/
def requestReturns (c : Code) (r : Request) (s : State) : State := recordReadReturns (some (requestRecord c.word r)) s

/-- OPEN (R20, R21). -/
def execOpen (r : Request) (s : State) : Host.Outcome State Fault Refusal := answerNext (requestReturns .openWindow r s)

/-- CLOS (R22). -/
def execClose (r : Request) (s : State) : Host.Outcome State Fault Refusal := answerNext (requestReturns .closeWindow r s)

/-- LOCK (R23). -/
def execLock (r : Request) (s : State) : Host.Outcome State Fault Refusal := answerNext (requestReturns .lock r s)

/-- LOOK (R24 to R26). -/
def execLook (r : Request) (s : State) : Host.Outcome State Fault Refusal := answerNext (requestReturns .look r s)

/-- LEAS (R31 to R35). -/
def execLease (r : Request) (s : State) : Host.Outcome State Fault Refusal := answerNext (requestReturns .lease r s)

/-- RENW (R40). -/
def execRenew (r : Request) (s : State) : Host.Outcome State Fault Refusal := answerNext (requestReturns .renew r s)

/-- FREE (R42). -/
def execFree (r : Request) (s : State) : Host.Outcome State Fault Refusal := answerNext (requestReturns .freeLease r s)

/-- POLI (R51, R52). -/
def execPolicy (r : Request) (s : State) : Host.Outcome State Fault Refusal := answerNext (requestReturns .policy r s)

/-- WAIT (R62, R63). -/
def execWait (r : Request) (s : State) : Host.Outcome State Fault Refusal := answerNext (requestReturns .waitWord r s)

/-- FILL (R77, R80). -/
def execFill (r : Request) (s : State) : Host.Outcome State Fault Refusal := answerNext (requestReturns .fill r s)

/-- COPY (R78, R80). -/
def execCopy (r : Request) (s : State) : Host.Outcome State Fault Refusal := answerNext (requestReturns .copy r s)

/-- SCAN (R79, R80). -/
def execScan (r : Request) (s : State) : Host.Outcome State Fault Refusal := answerNext (requestReturns .scan r s)

/-- ABRT (R113). -/
def execAbort (r : Request) (s : State) : Host.Outcome State Fault Refusal := answerNext (requestReturns .abort r s)

/-- NOOP (R115). -/
def execNoop (r : Request) (s : State) : Host.Outcome State Fault Refusal := answerNext (requestReturns .noop r s)

/-- PORT (R133 to R135). -/
def execPort (r : Request) (s : State) : Host.Outcome State Fault Refusal := answerNext (requestReturns .port r s)

/-- PRST (R137). -/
def execPortReset (r : Request) (s : State) : Host.Outcome State Fault Refusal := answerNext (requestReturns .portReset r s)

/-- RFSH (R149). -/
def execRefreshInterval (r : Request) (s : State) : Host.Outcome State Fault Refusal := answerNext (requestReturns .refreshInterval r s)

/-- SPED (R164). -/
def execSpeed (r : Request) (s : State) : Host.Outcome State Fault Refusal := answerNext (requestReturns .speed r s)

/-- SLEP (R172, R173). -/
def execSleep (r : Request) (s : State) : Host.Outcome State Fault Refusal := answerNext (requestReturns .sleep r s)

/-- UNKN (R115). -/
def execUnknown (code : Word) (r : Request) (s : State) : Host.Outcome State Fault Refusal :=
  answerNext (recordReadReturns (some (requestRecord code r)) s)

end Sys2Proof.Machine
end

