-- ==== Sys2Proof/Machine/RegisterCommands.lean ====
section
/-! DEFINITION. The meanings of the register writes and of full reset (R119, R121, R180 to R185, R160). -/

namespace Sys2Proof.Machine

/-- GO: the word is written to CTRL with bit 0 set (R119, R181; log 19). -/
def execGo (w : Word) (s : State) : Host.Outcome State Fault Refusal :=
  answerNext (regWrite 0x00#32 (w ||| 0x01#32) s)

/-- STOP: the word is written to CTRL with bit 1 set (R121, R181; log 19). -/
def execStop (w : Word) (s : State) : Host.Outcome State Fault Refusal :=
  answerNext (regWrite 0x00#32 (w ||| 0x02#32) s)

/-- SRST: the word is written to CTRL with bit 2 set (R181; log 19). -/
def execSoftReset (w : Word) (s : State) : Host.Outcome State Fault Refusal :=
  answerNext (regWrite 0x00#32 (w ||| 0x04#32) s)

/-- WSET: the word is written to CTRL with bit 7 set (R181; log 19). -/
def execWset (w : Word) (s : State) : Host.Outcome State Fault Refusal :=
  answerNext (regWrite 0x00#32 (w ||| 0x80#32) s)

/-- ANCH_WRITE (R182). -/
def execAnchWrite (v : Word) (s : State) : Host.Outcome State Fault Refusal := .next (regWrite 0x08#32 v s)

/-- EMSK_WRITE (R183). -/
def execEmskWrite (v : Word) (s : State) : Host.Outcome State Fault Refusal := .next (regWrite 0x10#32 v s)

/-- ECLR_WRITE (R184). -/
def execEclrWrite (v : Word) (s : State) : Host.Outcome State Fault Refusal := .next (regWrite 0x14#32 v s)

/-- REGISTER_WRITE_OTHER (R180). -/
def execRegisterWriteOther (offset v : Word) (s : State) : Host.Outcome State Fault Refusal :=
  answerNext (regWrite offset v s)

/-- FULL_RESET (R160). -/
def execFullReset (pins : Straps) (s : State) : Host.Outcome State Fault Refusal := .next (fullReset pins s)

/-- FULL_RESET_END (R142, R145). -/
def execFullResetEnd (pins : Straps) (s : State) : Host.Outcome State Fault Refusal := .next (fullResetEnds pins s)

end Sys2Proof.Machine
end

