-- ==== Sys2Proof/Machine/MemoryCommands.lean ====
section
/-! DEFINITION. The meanings of an access's arrival and of every completion on the DRAM (R100, R126, R129, R84 to R86, R148, R167,
R168). -/

namespace Sys2Proof.Machine

/-- ACCESS_ARRIVAL (R126). -/
def execAccessArrival (p : Fin 4) (a : AccessReq) (s : State) : Host.Outcome State Fault Refusal :=
  answerNext (present p a s)

/-- ACCESS_COMPLETE (R129). -/
def execAccessComplete (s : State) : Host.Outcome State Fault Refusal := answerNext (accessDone s)

/-- FILL_BURST_COMPLETE (R84). -/
def execFillBurstComplete (s : State) : Host.Outcome State Fault Refusal := answerNext (fillBurst s)

/-- COPY_READ_BURST_COMPLETE (R85). -/
def execCopyReadBurstComplete (s : State) : Host.Outcome State Fault Refusal := answerNext (copyReadBurst s)

/-- COPY_WRITE_BURST_COMPLETE (R85). -/
def execCopyWriteBurstComplete (s : State) : Host.Outcome State Fault Refusal := answerNext (copyWriteBurst s)

/-- SCAN_BURST_COMPLETE (R86). -/
def execScanBurstComplete (s : State) : Host.Outcome State Fault Refusal := answerNext (scanBurst s)

/-- RECORD_READ_COMPLETE: the record read returns what the DRAM holds (R101). -/
def execRecordReadComplete (s : State) : Host.Outcome State Fault Refusal := answerNext (recordReadReturns none s)

/-- WAIT_ARMING_READ_COMPLETE (R63). -/
def execWaitArmingReadComplete (s : State) : Host.Outcome State Fault Refusal := answerNext (waitArmingDone s)

/-- CHAIN_WATCH_ARMING_READ_COMPLETE (R70). -/
def execChainWatchArmingReadComplete (s : State) : Host.Outcome State Fault Refusal := answerNext (tailArmingDone s)

/-- HEADER_WRITE_COMPLETE (R97). -/
def execHeaderWriteComplete (s : State) : Host.Outcome State Fault Refusal := answerNext (headerWriteDone s)

/-- RESULT_WRITE_COMPLETE (R104). -/
def execResultWriteComplete (s : State) : Host.Outcome State Fault Refusal := answerNext (resultWriteDone s)

/-- ENGINE_WRITE_COMPLETE (R100). -/
def execEngineWriteComplete (s : State) : Host.Outcome State Fault Refusal := answerNext (otherWriteDone s)

/-- REFRESH_COMPLETE (R148). -/
def execRefreshComplete (s : State) : Host.Outcome State Fault Refusal := answerNext (refreshDone s)

/-- SWITCH_UP_COMPLETE (R167). -/
def execSwitchUpComplete (s : State) : Host.Outcome State Fault Refusal := answerNext (switchUpDone s)

/-- SWITCH_DOWN_COMPLETE (R168). -/
def execSwitchDownComplete (s : State) : Host.Outcome State Fault Refusal := answerNext (switchDownDone s)

end Sys2Proof.Machine
end

