-- ==== Sys2Proof/Machine/TimeCommands.lean ====
section
/-! DEFINITION. The meanings of the timers, of the controller's own steps and of the steps inside the part (R17, R36, R37, R66, R107,
R122, R138, R145 to R149, R165 to R168, R174, R177). -/

namespace Sys2Proof.Machine

/-- LEASE_TICK (R36, R66, R162). -/
def execLeaseTick (s : State) : Host.Outcome State Fault Refusal := .next (tickTimers s)

/-- LEASE_EXPIRY (R37). -/
def execLeaseExpiry (i : Fin 16) (s : State) : Host.Outcome State Fault Refusal := .next (expireLease i s)

/-- WATCH_TIMEOUT (R66). -/
def execWatchTimeout (k : Fin 8) (s : State) : Host.Outcome State Fault Refusal := answerNext (timeoutSlot k s)

/-- RAISING_END (R165). -/
def execRaisingEnd (s : State) : Host.Outcome State Fault Refusal := .next (endRaising s)

/-- LOCKING_END (R166). -/
def execLockingEnd (present : Bool) (s : State) : Host.Outcome State Fault Refusal :=
  answerNext (endLocking present s)

/-- LOWERING_END (R168). -/
def execLoweringEnd (s : State) : Host.Outcome State Fault Refusal := answerNext (endLowering s)

/-- REFRESH_INTERVAL_END (R148). -/
def execRefreshIntervalEnd (s : State) : Host.Outcome State Fault Refusal := answerNext (refreshInterval s)

/-- WAKE_CYCLE_COMPLETE (R145, R146). -/
def execWakeCycleComplete (s : State) : Host.Outcome State Fault Refusal := answerNext (wakeCycleDone s)

/-- STANDBY_HANDOFF (R122, R174). -/
def execStandbyHandoff (s : State) : Host.Outcome State Fault Refusal := answerNext (handoff s)

/-- FINAL_REFRESH_COMPLETE (R174). -/
def execFinalRefreshComplete (s : State) : Host.Outcome State Fault Refusal := .next (finalRefreshDone s)

/-- SELF_REFRESH_ENTRY_COMPLETE (R174). -/
def execSelfRefreshEntryComplete (s : State) : Host.Outcome State Fault Refusal := .next (selfRefreshEntered s)

/-- SELF_REFRESH_EXIT_COMPLETE (R177). -/
def execSelfRefreshExitComplete (s : State) : Host.Outcome State Fault Refusal := .next (selfRefreshLeft s)

/-- EXIT_REFRESH_COMPLETE (R177). -/
def execExitRefreshComplete (s : State) : Host.Outcome State Fault Refusal := answerNext (exitRefreshDone s)

/-- PRST_DRAIN_COMPLETE (R138). -/
def execPrstDrainComplete (p : Fin 4) (s : State) : Host.Outcome State Fault Refusal := answerNext (drainPort p s)

/-- ENTRY_RETIRED (R17). -/
def execEntryRetired (i : Fin 16) (s : State) : Host.Outcome State Fault Refusal := answerNext (settleEntry i s)

/-- STALL_END (R101, R107). -/
def execStallEnd (s : State) : Host.Outcome State Fault Refusal := answerNext (endStall s)

end Sys2Proof.Machine
end

