-- ==== Sys2Proof/Machine/Dispatch.lean ====
section
/-! DEFINITION. One arm per command: its meaning. -/

namespace Sys2Proof.Machine

/-- The effect of a command on everything but the queue. -/
def exec (i : Instr) (s : State) : Host.Outcome State Fault Refusal :=
  match i with
  | .openWindow r => Sys2Proof.Machine.execOpen r s
  | .closeWindow r => Sys2Proof.Machine.execClose r s
  | .lock r => Sys2Proof.Machine.execLock r s
  | .look r => Sys2Proof.Machine.execLook r s
  | .lease r => Sys2Proof.Machine.execLease r s
  | .renew r => Sys2Proof.Machine.execRenew r s
  | .freeLease r => Sys2Proof.Machine.execFree r s
  | .policy r => Sys2Proof.Machine.execPolicy r s
  | .waitWord r => Sys2Proof.Machine.execWait r s
  | .fill r => Sys2Proof.Machine.execFill r s
  | .copy r => Sys2Proof.Machine.execCopy r s
  | .scan r => Sys2Proof.Machine.execScan r s
  | .abort r => Sys2Proof.Machine.execAbort r s
  | .noop r => Sys2Proof.Machine.execNoop r s
  | .port r => Sys2Proof.Machine.execPort r s
  | .portReset r => Sys2Proof.Machine.execPortReset r s
  | .refreshInterval r => Sys2Proof.Machine.execRefreshInterval r s
  | .speed r => Sys2Proof.Machine.execSpeed r s
  | .sleep r => Sys2Proof.Machine.execSleep r s
  | .unknown code r => Sys2Proof.Machine.execUnknown code r s
  | .go w => Sys2Proof.Machine.execGo w s
  | .stop w => Sys2Proof.Machine.execStop w s
  | .softReset w => Sys2Proof.Machine.execSoftReset w s
  | .wset w => Sys2Proof.Machine.execWset w s
  | .anchWrite v => Sys2Proof.Machine.execAnchWrite v s
  | .emskWrite v => Sys2Proof.Machine.execEmskWrite v s
  | .eclrWrite v => Sys2Proof.Machine.execEclrWrite v s
  | .registerWriteOther offset v => Sys2Proof.Machine.execRegisterWriteOther offset v s
  | .fullReset pins => Sys2Proof.Machine.execFullReset pins s
  | .accessArrival p a => Sys2Proof.Machine.execAccessArrival p a s
  | .accessComplete => Sys2Proof.Machine.execAccessComplete s
  | .fillBurstComplete => Sys2Proof.Machine.execFillBurstComplete s
  | .copyReadBurstComplete => Sys2Proof.Machine.execCopyReadBurstComplete s
  | .copyWriteBurstComplete => Sys2Proof.Machine.execCopyWriteBurstComplete s
  | .scanBurstComplete => Sys2Proof.Machine.execScanBurstComplete s
  | .recordReadComplete => Sys2Proof.Machine.execRecordReadComplete s
  | .waitArmingReadComplete => Sys2Proof.Machine.execWaitArmingReadComplete s
  | .chainWatchArmingReadComplete => Sys2Proof.Machine.execChainWatchArmingReadComplete s
  | .headerWriteComplete => Sys2Proof.Machine.execHeaderWriteComplete s
  | .resultWriteComplete => Sys2Proof.Machine.execResultWriteComplete s
  | .engineWriteComplete => Sys2Proof.Machine.execEngineWriteComplete s
  | .leaseExpiry n => Sys2Proof.Machine.execLeaseExpiry n s
  | .watchTimeout k => Sys2Proof.Machine.execWatchTimeout k s
  | .raisingEnd => Sys2Proof.Machine.execRaisingEnd s
  | .lockingEnd present => Sys2Proof.Machine.execLockingEnd present s
  | .loweringEnd => Sys2Proof.Machine.execLoweringEnd s
  | .switchUpComplete => Sys2Proof.Machine.execSwitchUpComplete s
  | .switchDownComplete => Sys2Proof.Machine.execSwitchDownComplete s
  | .refreshIntervalEnd => Sys2Proof.Machine.execRefreshIntervalEnd s
  | .refreshComplete => Sys2Proof.Machine.execRefreshComplete s
  | .wakeCycleComplete => Sys2Proof.Machine.execWakeCycleComplete s
  | .standbyHandoff => Sys2Proof.Machine.execStandbyHandoff s
  | .finalRefreshComplete => Sys2Proof.Machine.execFinalRefreshComplete s
  | .selfRefreshEntryComplete => Sys2Proof.Machine.execSelfRefreshEntryComplete s
  | .selfRefreshExitComplete => Sys2Proof.Machine.execSelfRefreshExitComplete s
  | .exitRefreshComplete => Sys2Proof.Machine.execExitRefreshComplete s
  | .prstDrainComplete p => Sys2Proof.Machine.execPrstDrainComplete p s
  | .entryRetired n => Sys2Proof.Machine.execEntryRetired n s
  | .stallEnd => Sys2Proof.Machine.execStallEnd s
  | .leaseTick => Sys2Proof.Machine.execLeaseTick s
  | .fullResetEnd pins => Sys2Proof.Machine.execFullResetEnd pins s

end Sys2Proof.Machine
end

