-- ==== Sys2Proof/Safety.lean ====
section
/-! DEFINITION. The terms that claims use: the invariants, the states a run reaches, and what a take leaves behind, said from
the rules and not from the meanings. -/

namespace Sys2Proof.Machine

/-! ## Invariants -/

/-- Whether an entry is RETIRING. -/
def Entry.isRetiring (e : Entry) : Bool :=
  match e.status with
  | .retiring _ _ _ _ => true
  | .free _ => false
  | .opened _ _ => false
  | .leased _ _ => false

/-- The range and mode of an entry of kind LEASE that is LEASED or RETIRING. -/
def Entry.lease? (e : Entry) : Option (Range × LeaseMode) :=
  match e.status with
  | .leased r l => some (r, l.mode)
  | .retiring r (.lease l) _ _ => some (r, l.mode)
  | .retiring _ (.window _) _ _ => none
  | .free _ => none
  | .opened _ _ => none

/-- Whether an entry is LEASED to a holder set with port `p` in it. -/
def Entry.leasedTo (e : Entry) (p : Fin 4) : Bool := e.heldBy p

/-- R17: an entry is RETIRING only while its in-flight count is at least 1. -/
abbrev State.retiringBusy (s : State) : Prop := ∀ i : Fin 16, (s.entry i).isRetiring = true → 1 ≤ (s.entry i).inflight

/-- R53: no entry has class PRIORITY unless speed control is in state FULL. -/
abbrev State.priorityFast (s : State) : Prop :=
  ∀ i : Fin 16, (s.entry i).holdsPriority = true → s.speed.state = .full

/-- R50: while the class policy is SINGLE, at most one entry has class PRIORITY. -/
abbrev State.singleHolder (s : State) : Prop :=
  s.table.policy = .single →
    ∀ i j : Fin 16, (s.entry i).holdsPriority = true → (s.entry j).holdsPriority = true → i = j

/-- R33: two entries' leases overlap only if both are SHARED_READ. -/
def Entry.apart (e f : Entry) : Bool :=
  match e.lease?, f.lease? with
  | some a, some b => !(a.1.overlaps b.1) || (a.2 == .sharedRead && b.2 == .sharedRead)
  | _, _ => true

/-- R33: two entries of kind LEASE in state LEASED or RETIRING overlap only if both are SHARED_READ. -/
abbrev State.leasesApart (s : State) : Prop := ∀ i j : Fin 16, i ≠ j → (s.entry i).apart (s.entry j) = true

/-- R45: no LEASED entry has among its holders a port that is DISABLED. -/
abbrev State.holdersPresent (s : State) : Prop :=
  ∀ (i : Fin 16) (p : Fin 4), (s.entry i).leasedTo p = true → (s.port p).state ≠ .disabled

/-- R131: port 0 is always ACTIVE. -/
abbrev State.portZeroActive (s : State) : Prop := (s.port 0).state = .active

/-- R76, R125: at most 4 transfers are queued, and at most 2 accesses are outstanding at a port. -/
abbrev State.listsBounded (s : State) : Prop :=
  s.queue.length ≤ 4 ∧ ∀ p : Fin 4, (s.port p).outstanding.length ≤ 2

/-- R76: the transfer at the head of the queue is RUNNING or STOPPING, and every other is WAITING. -/
abbrev State.queueOrdered (s : State) : Prop :=
  match s.queue with
  | [] => True
  | t :: rest => t.state ≠ .waiting ∧ ∀ x ∈ rest, x.state = .waiting

/-- Whether a slot is not in ARMED_WAITING. -/
def slotNotWaiting : Option WatchSlot → Bool
  | none => true
  | some w => w.armed == .matching

/-- R70: slot 0 never stands in ARMED_WAITING. -/
abbrev State.slotZeroMatching (s : State) : Prop := slotNotWaiting (s.slot 0) = true

/-- The model's numbers of take-list records are below the next one (log 11). -/
abbrev State.numbered (s : State) : Prop :=
  (s.eng.takeList.all (fun r => decide (r.id < s.eng.nextId)) &&
    s.eng.active.all (fun a => decide (a.id < s.eng.nextId))) = true

/-- Whether an operation is a read of the engine whose data is still wanted (R121, R123). -/
def EngineOp.isWantedRead : EngineOp → Bool
  | .recordRead _ wanted => wanted
  | .armWait _ _ wanted => wanted
  | .armTail _ _ wanted => wanted
  | .taknWrite _ _ => false
  | .replyWrite _ _ _ => false
  | .resultWrite _ _ _ _ => false
  | .headerGo _ => false
  | .headerTake _ _ _ => false
  | .headerRetired _ => false
  | .headerFault _ _ => false

/-- R99 to R102, R106, R107, R122: the wanted reads of the operation list are the one that the reader waits for, if it waits
for one; a record read is held for a standby hand-off only in a stall with reason WAKING. -/
def Engine.readsFit (e : Engine) : Prop :=
  let reads := e.ops.filter EngineOp.isWantedRead
  (match e.reader with
    | .examining a => reads = [.recordRead a true]
    | .stalled .waking a => reads = if e.heldRead then [] else [.recordRead a true]
    | .taking id _ _ .arming => ∃ w, reads = [.armWait id w true]
    | .arming id => ∃ a, reads = [.armTail id a true]
    | _ => reads = []) ∧
  (e.heldRead = true → ∃ a, e.reader = .stalled .waking a)

/-- R107: the reader is about to take a record, or a WAIT that it has taken can still enter the active table: there is
room. -/
def Engine.hasRoom (e : Engine) : Prop :=
  match e.reader with
  | .examining _ => e.active.length < 8 ∧ e.takeList.length < 32
  | .stalled .waking _ => e.active.length < 8 ∧ e.takeList.length < 32
  | .stalled .barrier _ => e.active.length < 8 ∧ e.takeList.length < 32
  | .stalled .queueFull _ => e.active.length < 8 ∧ e.takeList.length < 32
  | .taking _ _ _ .arming => e.active.length < 8
  | _ => True

/-- R70, R106: slot 0 is armed exactly at AT_TAIL, for the tail record, on a word, firing at a value that is not 0. -/
def State.chainWatchFits (s : State) : Prop :=
  match s.eng.reader with
  | .atTail id =>
    ∃ a, s.slot 0 =
      some
        { armed := .matching, addr := a, mask := 0xFFFFFFFF#32, compare := 0#32, timeout := none, release := none
          owner := id }
  | _ => s.slot 0 = none

/-- R70, R99, R107 to R109: the engine's state, its lists and slot 0 go together. -/
def State.engineConsistent (s : State) : Prop :=
  s.eng.readsFit ∧ s.chainWatchFits ∧ s.eng.hasRoom ∧ s.eng.active.length ≤ 8 ∧ s.eng.takeList.length ≤ 32

/-- The waiting request of an entry (R16). -/
def Entry.waiter? (e : Entry) : Option RecId :=
  match e.status with
  | .retiring _ _ _ w => w.map Waiter.request
  | .free _ => none
  | .opened _ _ => none
  | .leased _ _ => none

/-- The reset request of a port (R125). -/
def Port.resetRequest? (q : Port) : Option RecId :=
  match q.state with
  | .resetting x => some x.request
  | .active => none
  | .quiesced => none
  | .disabled => none

/-- The requests that the blocks hold, each with its block (R56, R75, R16, R125, R161). -/
def State.owners (s : State) : List (RecId × Block) :=
  (waitSlots.filterMap (fun k => (s.slot k).map (fun w => (w.owner, Block.watchUnit))))
    ++ s.queue.map (fun t => (t.owner, Block.transferUnit))
    ++ entryIndices.filterMap (fun i => (s.entry i).waiter?.map (fun q => (q, Block.regionTable)))
    ++ portIndices.filterMap (fun p => (s.port p).resetRequest?.map (fun q => (q, Block.agentPorts)))
    ++ s.speed.owner.toList.map (fun q => (q, Block.speedControl))

/-- R63, R76, R109: the requests of the active table are those that the blocks hold; each is a take-list record at stage
ACTIVE, and no other record is; no two records have one number; a WAIT whose arming read is outstanding is at stage TAKING;
speed control has an owner only in a sequence (R163). -/
def State.ownersActive (s : State) : Prop :=
  s.owners.Perm (s.eng.active.map (fun x => (x.id, x.block))) ∧
  (s.eng.active.map ActiveRequest.id).Perm
    ((s.eng.takeList.filter (fun x => x.stage == .active)).map TakeRecord.id) ∧
  (s.eng.takeList.map TakeRecord.id).Nodup ∧
  (∀ id a l, s.eng.reader = .taking id a l .arming → ∃ x ∈ s.eng.takeList, x.id = id ∧ x.stage = .taking) ∧
  (s.speed.state = .base ∨ s.speed.state = .full → s.speed.owner = none)

/-- R23: entry `i` is a locked window with this range and these rights. -/
abbrev State.lockedAt (s : State) (i : Fin 16) (r : Range) (rights : BitVec 8) : Prop :=
  (s.entry i).status = .opened r { rights := rights, locked := true }

/-! ## Runs -/

/-- The states that runs reach: from reset, by commands joining the queue and by steps. -/
inductive Reachable : State → Prop
  | reset : Reachable State.reset
  | queued (s : State) (c : Instr) : Reachable s → Reachable { s with pending := s.pending ++ [c] }
  | step (s t : State) : Reachable s → step s = .next t → Reachable t

/-! ## A take (R101, R102, R104, R109 to R111) -/

/-- Whether a record is at stage FINAL. -/
def TakeRecord.isFinal (r : TakeRecord) : Bool :=
  match r.stage with
  | .final _ _ => true
  | .taking => false
  | .active => false
  | .writing _ _ => false

/-- R110, R111: the records that retire as a take ends the tail restriction: the oldest ones, while they are FINAL. -/
def State.leaving (s : State) : List TakeRecord :=
  if s.eng.tail.isSome then s.eng.takeList.takeWhile TakeRecord.isFinal else []

/-- The records of the take list that stay at that moment. -/
def State.staying (s : State) : List TakeRecord :=
  if s.eng.tail.isSome then s.eng.takeList.dropWhile TakeRecord.isFinal else s.eng.takeList

/-- The record that joins the take list, at a given stage (R108). -/
def State.takenRecord (s : State) (a code : Word) (r : Request) (st : Stage) : TakeRecord :=
  { id := s.eng.nextId, addr := a, code := code, tag := r.tag, notify := r.notify, stage := st }

/-- R102: the state after the record at `a`, whose read has completed, is taken: the record has joined the take list at
stage `st`; the taken count is incremented; the 'TAKN' and header writes, the RETIRED writes of what the take lets retire,
and `more` are appended; the take ends with `e`. -/
def State.afterTake (s : State) (a code : Word) (r : Request) (st : Stage) (e : TakeEnd) (more : List EngineOp) :
    State :=
  { s with
    eng :=
      { s.eng with
        reader := .taking s.eng.nextId a r.link e
        tail := none
        taken := s.eng.taken + 1#32
        takeList := s.staying ++ [s.takenRecord a code r st]
        ops := s.eng.ops
          ++ [.taknWrite s.eng.nextId a, .headerTake s.eng.nextId (s.eng.taken + 1#32) a]
          ++ s.leaving.map (fun x => .headerRetired x.addr) ++ more
        nextId := s.eng.nextId + 1 } }

/-- R102, R104: the state after the record at `a` is taken and answered as an instant request. -/
def State.answered (s : State) (a code : Word) (r : Request) (c : ResultCode) (rw : Replies) : State :=
  s.afterTake a code r (.writing c rw) .result
    [.replyWrite s.eng.nextId a rw, .resultWrite s.eng.nextId a c r.notify]

/-- R102, R109: the state after the record at `a` is taken as a long request of a block. -/
def State.enteredLong (s : State) (a code : Word) (r : Request) (b : Block) : State :=
  let t := s.afterTake a code r .active .header []
  { t with eng :=
      { t.eng with active := s.eng.active ++ [{ id := s.eng.nextId, code := code, tag := r.tag, block := b }] } }

/-- R100, R151: the granted operation of the engine has left the operation list and the DRAM is idle. -/
def State.opDone (s : State) : State :=
  { s with
    eng := { s.eng with ops := s.eng.ops.tail }
    arb := { s.arb with holder := none } }

/-- The state in which a record is examined: its read has completed and, where the free value of this read says that the
grant comes first, the arbiter has chosen among the claims that waited (R136; log 18). -/
def State.readDone (s : State) : State :=
  let t : State := { s.opDone with arb := { s.opDone.arb with reads := s.arb.reads + 1 } }
  if Config.grantFirst s.arb.reads then arbitrate t else t

/-- In `s₀` the record read of the record at `a`, still wanted, holds the DRAM in RUN (R100, R101), and `s` is the state in
which the record is examined. -/
def State.recordReturns (s₀ : State) (a : Word) (s : State) : Prop :=
  s₀.ctl.state = .run ∧ s₀.arb.holder = some .chain ∧ s₀.eng.ops.head? = some (.recordRead a true) ∧ s₀.numbered ∧
    s = s₀.readDone

/-- R101, test 2: BARRIER does not hold the record back. -/
def State.noBarrier (s : State) (r : Request) : Prop := r.barrier = false ∨ s.eng.active = []

/-- The code and the record of a request command. -/
def requestOf : Instr → Option (Word × Request)
  | .openWindow r => some (fourCC 'O' 'P' 'E' 'N', r)
  | .closeWindow r => some (fourCC 'C' 'L' 'O' 'S', r)
  | .lock r => some (fourCC 'L' 'O' 'C' 'K', r)
  | .look r => some (fourCC 'L' 'O' 'O' 'K', r)
  | .lease r => some (fourCC 'L' 'E' 'A' 'S', r)
  | .renew r => some (fourCC 'R' 'E' 'N' 'W', r)
  | .freeLease r => some (fourCC 'F' 'R' 'E' 'E', r)
  | .policy r => some (fourCC 'P' 'O' 'L' 'I', r)
  | .waitWord r => some (fourCC 'W' 'A' 'I' 'T', r)
  | .fill r => some (fourCC 'F' 'I' 'L' 'L', r)
  | .copy r => some (fourCC 'C' 'O' 'P' 'Y', r)
  | .scan r => some (fourCC 'S' 'C' 'A' 'N', r)
  | .abort r => some (fourCC 'A' 'B' 'R' 'T', r)
  | .noop r => some (fourCC 'N' 'O' 'O' 'P', r)
  | .unknown code r => some (code, r)
  | .port r => some (fourCC 'P' 'O' 'R' 'T', r)
  | .portReset r => some (fourCC 'P' 'R' 'S' 'T', r)
  | .refreshInterval r => some (fourCC 'R' 'F' 'S' 'H', r)
  | .speed r => some (fourCC 'S' 'P' 'E' 'D', r)
  | .sleep r => some (fourCC 'S' 'L' 'E' 'P', r)
  | _ => none

/-- Whether a code is that of a transfer. -/
def transferCode (code : Word) : Prop :=
  code = fourCC 'F' 'I' 'L' 'L' ∨ code = fourCC 'C' 'O' 'P' 'Y' ∨ code = fourCC 'S' 'C' 'A' 'N'

/-- R20, R31: base and size, in granules, that are refused with 'PARM'. -/
def State.badRegion (s : State) (base size : Nat) : Prop :=
  size = 0 ∨ (¬∃ k, size = 2 ^ k) ∨ s.granules < size ∨ base % size ≠ 0 ∨ s.granules < base + size

/-- R34: why a LEAS asking class `p5` is given a lower class than asked: 0 where it is given the class it asks. -/
def State.lowerClass (s : State) (p5 reason : Nat) : Prop :=
  (p5 = 0 ∧ reason = 0)
    ∨ (p5 = 1 ∧ s.speed.state ≠ .full ∧ reason = 1)
    ∨ (p5 = 1 ∧ s.speed.state = .full ∧ s.table.policy = .single ∧ (∃ j, (s.entry j).holdsPriority = true) ∧ reason = 2)
    ∨ (p5 = 1 ∧ s.speed.state = .full ∧ (s.table.policy = .shared ∨ ∀ j, (s.entry j).holdsPriority = false)
        ∧ reason = 0)

/-- R33: whether an entry refuses a new lease of this range and mode with 'OVLP'. -/
def Entry.blocksLease (e : Entry) (g : Range) (m : LeaseMode) : Prop :=
  ∃ h n, e.lease? = some (h, n) ∧ h.overlaps g = true ∧ ¬(n = .sharedRead ∧ m = .sharedRead)

/-- R36: a timer loaded with a duration and started; none for the duration 0. -/
def freshTimer (d : Nat) : Option Timer := if d = 0 then none else some { remaining := d, fresh := true, due := false }

/-- R80 to R83, R88: the state after a transfer that passes its checks is accepted: it waits behind the queue, or, at the
head, it forms the burst `first`, which is counted if the lookup allows it and ends the transfer with 'FENC' if not. -/
def State.acceptedTransfer (s : State) (a code : Word) (r : Request) (j : Job) (p : Fin 4) (n : Nat) (first : Burst) :
    State :=
  let t : Transfer :=
    { job := j, port := p, count := n, done := 0, state := .waiting, burst := none, buffer := [], mismatch := none
      owner := s.eng.nextId }
  match s.queue with
  | [] =>
    match s.lookup p true first.half first.addr.toNat with
    | .allowed _ e =>
      { s.enteredLong a code r .transferUnit with
        queue := [{ t with state := .running, burst := some { first with entry := e } }]
        table := (countIn e s).table }
    | .denied d =>
      let rw : Replies :=
        { rw0 := 0#32, rw1 := first.addr, rw2 := BitVec.ofNat 32 first.half.code, rw3 := BitVec.ofNat 32 d.code }
      { s.afterTake a code r (.writing .fenc rw) .header
          [.replyWrite s.eng.nextId a rw, .resultWrite s.eng.nextId a .fenc r.notify] with
        table := (recordDenial d p true first.half first.addr s).table
        win := s.win.raise .fence
        ports := mapVec (Port.dropTransfer s.eng.nextId) s.ports }
  | _ :: _ => { s.enteredLong a code r .transferUnit with queue := s.queue ++ [t] }

/-- R82: the words from a byte address up to the next 64-byte boundary, or `n` if they are fewer. -/
def pieceLength (a : Word) (n : Nat) : Nat := min n ((64 - a.toNat % 64) / 4)

/-- Replaces entry `i` in the table. -/
def State.putEntry (s : State) (i : Fin 16) (e : Entry) : State :=
  { s with table := { s.table with entries := s.table.entries.set i e } }

/-! ## What else the statements speak of -/

/-- The engine's operation `op` holds the DRAM in RUN (R100). -/
def State.operating (s : State) (op : EngineOp) : Prop :=
  s.ctl.state = .run ∧ s.arb.holder = some .chain ∧ s.eng.ops.head? = some op

/-- The state with the reader set. -/
def State.withReader (s : State) (r : Reader) : State := { s with eng := { s.eng with reader := r } }

/-- R110, R111: the tail restriction ends: the records that it held back retire, and their RETIRED writes are appended. -/
def State.tailEnded (s : State) : State :=
  { s with eng :=
      { s.eng with
        tail := none
        takeList := s.staying
        ops := s.eng.ops ++ s.leaving.map (fun x => .headerRetired x.addr) } }

/-- R172, reason 1: an agent port is idle. -/
def Port.idle (q : Port) : Prop := (q.state = .quiesced ∨ q.state = .disabled) ∧ q.outstanding = []

/-- R9: an entry OPEN, LEASED or RETIRING whose range contains the byte address. -/
def Entry.rangeHolds (e : Entry) (a : Nat) : Prop :=
  ∃ g : Range, ((∃ w, e.status = .opened g w) ∨ (∃ l, e.status = .leased g l) ∨ (∃ k c q, e.status = .retiring g k c q))
    ∧ g.base * 4096 ≤ a ∧ a < (g.base + g.size) * 4096

/-- R125, R126: what makes an access malformed. -/
def badAccess (a : AccessReq) : Prop :=
  a.addr.toNat % 4 ≠ 0 ∨ a.len = 0 ∨ 16 < a.len ∨ 64 < a.addr.toNat % 64 + 4 * a.len

/-- R128: an access whose response can be delivered, with the response. -/
def Access.responds (p : Fin 4) (x : Access) (y : Response) : Prop :=
  y.port = p ∧
    ((∃ o, x.stage = .decided o ∧ y.outcome = o
        ∧ y.data = (match x.req.op with
          | .read n => List.replicate n 0xFFFFFFFF#32
          | .write _ => []))
      ∨ (∃ ws, x.stage = .done ws ∧ y.outcome = .done ∧ y.data = ws))

/-- Replaces the outstanding list of port `p`. -/
def State.putOutstanding (s : State) (p : Fin 4) (l : List Access) : State :=
  { s with ports := s.ports.set p { s.port p with outstanding := l } }

/-- R181: WSIZE after a write of `w` to CTRL that carries no soft reset and is not ignored. -/
def State.sizeAfter (s : State) (w : Word) : State :=
  { s with win :=
      { s.win with wsize := if w.getLsbD 7 = true ∧ s.win.wsizeFixed = false then w.extractLsb' 4 2 else s.win.wsize } }

/-- The DRAM is held by the head transfer `t` with its outstanding burst `b` (R81). -/
def State.bursting (s : State) (t : Transfer) (b : Burst) (rest : List Transfer) : Prop :=
  s.arb.holder = some .transfer ∧ s.queue = t :: rest ∧ t.burst = some b

/-- The DRAM idle. -/
def State.released (s : State) : State := { s with arb := { s.arb with holder := none } }

/-- R152: how many places after a default claimant another one comes in the default order. -/
def Claimant.after (c d : Claimant) : Nat := (c.index.val + 5 - d.index.val) % 6

/-- R152: how many places after a port another one comes in the priority order. -/
def portAfter (p q : Fin 4) : Nat := (p.val + 3 - q.val) % 4

end Sys2Proof.Machine
end

