-- ==== Sys2Proof/Certificates/Slice0/Obligations.lean ====
section
/-! DEFINITION. The statements for the provers. A request's statement says what its command answers when the record read
that holds the DRAM in `s₀` returns the record: the state, field by field, before the arbiter's next choice (`arbitrate`,
whose own statements follow at the end). `s` is the state in which the record is examined, its read completed: whether the
arbiter has chosen by then is a free value of each read (R136; log 18), so that the statements hold for either order.
`s.answered a code r c rw` is the state after the take of the record at `a` with the final code `c` and the reply words `rw`
(Safety.lean). -/

open Sys2Proof Sys2Proof.Machine

/-! ## Requests: the region table -/

/-- OPEN (R20, R21). -/
def Obligations.OpenDefinesWindow : Prop :=
  ∀ (s₀ s : State) (a : Word) (r : Request), s₀.recordReturns a s → s.noBarrier r →
    let answer := fun c : ResultCode => s.answered a (fourCC 'O' 'P' 'E' 'N') r c noReplies
    (15 < r.p0.toNat ∨ s.badRegion r.p1.toNat r.p2.toNat ∨ 256 ≤ r.p3.toNat →
      exec (.openWindow r) s₀ = .next (arbitrate (answer .parm))) ∧
    ∀ i : Fin 16, r.p0.toNat = i.val → ¬s.badRegion r.p1.toNat r.p2.toNat → r.p3.toNat < 256 →
      (s.workGranule < r.p1.toNat + r.p2.toNat → exec (.openWindow r) s₀ = .next (arbitrate (answer .area))) ∧
      (r.p1.toNat + r.p2.toNat ≤ s.workGranule →
        ((s.entry i).isFree = false → exec (.openWindow r) s₀ = .next (arbitrate (answer .used))) ∧
        ((s.entry i).isFree = true →
          exec (.openWindow r) s₀ =
            .next (arbitrate ((answer .okay).putEntry i
              { status := .opened { base := r.p1.toNat, size := r.p2.toNat }
                  { rights := r.p3.extractLsb' 0 8, locked := false }
                inflight := 0
                fault := none }))))

/-- CLOS (R22) and LOCK (R23). -/
def Obligations.CloseAndLockWindow : Prop :=
  ∀ (s₀ s : State) (a : Word) (r : Request), s₀.recordReturns a s → s.noBarrier r →
    let closed := fun c : ResultCode => s.answered a (fourCC 'C' 'L' 'O' 'S') r c noReplies
    let locked := fun c : ResultCode => s.answered a (fourCC 'L' 'O' 'C' 'K') r c noReplies
    ((15 < r.p0.toNat → exec (.closeWindow r) s₀ = .next (arbitrate (closed .parm))) ∧
      ∀ i : Fin 16, r.p0.toNat = i.val →
        ((∀ g w, (s.entry i).status ≠ .opened g w) → exec (.closeWindow r) s₀ = .next (arbitrate (closed .noen))) ∧
        ∀ g w, (s.entry i).status = .opened g w →
          (w.locked = true → exec (.closeWindow r) s₀ = .next (arbitrate (closed .lked))) ∧
          (w.locked = false → (s.entry i).inflight = 0 →
            exec (.closeWindow r) s₀ =
              .next (arbitrate ((closed .okay).putEntry i { s.entry i with status := .free (some .closed) }))) ∧
          (w.locked = false → 1 ≤ (s.entry i).inflight →
            exec (.closeWindow r) s₀ =
              .next (arbitrate ((s.enteredLong a (fourCC 'C' 'L' 'O' 'S') r .regionTable).putEntry i
                { s.entry i with
                  status := .retiring g (.window w) .closed
                    (some { request := s.eng.nextId, count := (s.entry i).inflight }) })))) ∧
    ((15 < r.p0.toNat → exec (.lock r) s₀ = .next (arbitrate (locked .parm))) ∧
      ∀ i : Fin 16, r.p0.toNat = i.val →
        ((∀ g w, (s.entry i).status ≠ .opened g w) → exec (.lock r) s₀ = .next (arbitrate (locked .noen))) ∧
        ∀ g w, (s.entry i).status = .opened g w →
          exec (.lock r) s₀ =
            .next (arbitrate ((locked .okay).putEntry i { s.entry i with status := .opened g { w with locked := true } })))

/-- LOOK (R24, R26's CLEAR): which record is replied, and what CLEAR does to it. -/
def Obligations.LookReadsOneRecord : Prop :=
  ∀ (s₀ s : State) (a : Word) (r : Request), s₀.recordReturns a s → s.noBarrier r →
    let answer := fun (c : ResultCode) rw => s.answered a (fourCC 'L' 'O' 'O' 'K') r c rw
    (16 < r.p0.toNat ∨ 1 < r.p1.toNat ∨ (r.p1.toNat = 0 ∧ r.p0.toNat = 16) ∨ (r.opt = true ∧ r.p1.toNat = 0) →
      exec (.look r) s₀ = .next (arbitrate (answer .parm noReplies))) ∧
    (∀ i : Fin 16, r.p0.toNat = i.val →
      (r.p1.toNat = 0 → r.opt = false →
        exec (.look r) s₀ = .next (arbitrate (answer .okay (s.entry i).lookDefinition))) ∧
      (r.p1.toNat = 1 → r.opt = false →
        exec (.look r) s₀ = .next (arbitrate (answer .okay (lookFault (s.entry i).fault)))) ∧
      (r.p1.toNat = 1 → r.opt = true →
        exec (.look r) s₀ =
          .next (arbitrate ((answer .okay (lookFault (s.entry i).fault)).putEntry i { s.entry i with fault := none })))) ∧
    (r.p0.toNat = 16 → r.p1.toNat = 1 →
      (r.opt = false → exec (.look r) s₀ = .next (arbitrate (answer .okay (lookFault s.table.unclaimed)))) ∧
      (r.opt = true →
        exec (.look r) s₀ =
          .next (arbitrate
            { answer .okay (lookFault s.table.unclaimed) with table := { s.table with unclaimed := none } })))

/-- The layouts of LOOK's two views (R26, R25): every field of RW0 to RW3, for the values that a field can hold. -/
def Obligations.LookReplyLayouts : Prop :=
  (lookFault none = noReplies ∧
    ∀ f : FaultRecord, f.denied ≤ 255 →
      let rw := lookFault (some f)
      rw.rw0.getLsbD 0 = true ∧ rw.rw0.extractLsb' 1 3 = 0#3 ∧ rw.rw0.extractLsb' 4 2 = BitVec.ofNat 2 f.port.val ∧
      rw.rw0.getLsbD 6 = f.transfer ∧ rw.rw0.getLsbD 7 = (f.dir == .write) ∧
      rw.rw0.extractLsb' 8 2 =
        (match f.cause with | .entry => 0#2 | .noMatch => 1#2 | .workArea => 2#2 | .beyondDram => 3#2) ∧
      rw.rw0.extractLsb' 10 6 = 0#6 ∧ rw.rw0.extractLsb' 16 8 = BitVec.ofNat 8 f.denied ∧
      rw.rw0.extractLsb' 24 8 = 0#8 ∧ rw.rw1 = f.addr ∧ rw.rw2 = 0#32 ∧ rw.rw3 = 0#32) ∧
  ∀ (e : Entry), e.inflight ≤ 9 →
    let rw := e.lookDefinition
    rw.rw0.extractLsb' 16 4 = BitVec.ofNat 4 e.inflight ∧
    rw.rw0.extractLsb' 10 2 = 0#2 ∧ rw.rw0.extractLsb' 15 1 = 0#1 ∧ rw.rw0.extractLsb' 20 4 = 0#4 ∧
    (∀ c, e.status = .free c →
      rw.rw0.extractLsb' 0 10 = 0#10 ∧ rw.rw0.extractLsb' 24 8 = 0#8 ∧ rw.rw1 = 0#32 ∧ rw.rw2 = 0#32 ∧ rw.rw3 = 0#32 ∧
      rw.rw0.extractLsb' 12 3 = (match c with
        | none => 0#3 | some .released => 1#3 | some .expired => 2#3 | some .closed => 3#3 | some .port => 4#3)) ∧
    (∀ g w, e.status = .opened g w →
      rw.rw0.extractLsb' 0 2 = 1#2 ∧ rw.rw0.extractLsb' 2 2 = 1#2 ∧ rw.rw0.getLsbD 4 = w.locked ∧
      rw.rw0.extractLsb' 5 5 = 0#5 ∧ rw.rw0.extractLsb' 12 3 = 0#3 ∧ rw.rw0.extractLsb' 24 8 = w.rights ∧
      rw.rw2 = 0#32 ∧ rw.rw3 = 0#32) ∧
    (∀ g l, e.status = .leased g l →
      rw.rw0.extractLsb' 0 2 = 2#2 ∧ rw.rw0.extractLsb' 2 2 = 2#2 ∧ rw.rw0.getLsbD 4 = false ∧
      rw.rw0.extractLsb' 5 2 = (match l.mode with | .exclusive => 1#2 | .sharedRead => 2#2 | .holderWrite => 3#2) ∧
      rw.rw0.getLsbD 7 = (l.cls == .priority) ∧ rw.rw0.getLsbD 8 = l.demoted ∧ rw.rw0.getLsbD 9 = l.expiry.isSome ∧
      rw.rw0.extractLsb' 12 3 = 0#3 ∧ rw.rw0.extractLsb' 24 4 = l.holders ∧ rw.rw0.extractLsb' 28 4 = 0#4 ∧
      rw.rw2 = (match l.expiry with | none => 0#32 | some t => BitVec.ofNat 32 t.remaining) ∧ rw.rw3 = l.serial) ∧
    (∀ g k c w, e.status = .retiring g k c w →
      rw.rw0.extractLsb' 0 2 = 3#2 ∧
      rw.rw0.extractLsb' 12 3 = (match c with | .released => 1#3 | .expired => 2#3 | .closed => 3#3 | .port => 4#3) ∧
      (∀ v, k = .window v →
        rw.rw0.extractLsb' 2 2 = 1#2 ∧ rw.rw0.getLsbD 4 = v.locked ∧ rw.rw0.extractLsb' 5 5 = 0#5 ∧
        rw.rw0.extractLsb' 24 8 = v.rights ∧ rw.rw2 = 0#32 ∧ rw.rw3 = 0#32) ∧
      (∀ l, k = .lease l →
        rw.rw0.extractLsb' 2 2 = 2#2 ∧ rw.rw0.getLsbD 4 = false ∧
        rw.rw0.extractLsb' 5 2 = (match l.mode with | .exclusive => 1#2 | .sharedRead => 2#2 | .holderWrite => 3#2) ∧
        rw.rw0.getLsbD 7 = (l.cls == .priority) ∧ rw.rw0.getLsbD 8 = l.demoted ∧ rw.rw0.getLsbD 9 = l.expiry.isSome ∧
        rw.rw0.extractLsb' 24 4 = l.holders ∧ rw.rw0.extractLsb' 28 4 = 0#4 ∧ rw.rw3 = l.serial ∧
        rw.rw2 = (match l.expiry with | none => 0#32 | some t => BitVec.ofNat 32 t.remaining))) ∧
    (∀ g w, (e.status = .opened g w ∨ (∃ c q, e.status = .retiring g (.window w) c q)) →
      ∀ k, k ≤ 16 → g.size = 2 ^ k → g.base < 65536 →
        rw.rw1.extractLsb' 0 16 = BitVec.ofNat 16 g.base ∧ rw.rw1.extractLsb' 16 5 = BitVec.ofNat 5 k ∧
        rw.rw1.extractLsb' 21 11 = 0#11) ∧
    (∀ g l, (e.status = .leased g l ∨ (∃ c q, e.status = .retiring g (.lease l) c q)) →
      ∀ k, k ≤ 16 → g.size = 2 ^ k → g.base < 65536 →
        rw.rw1.extractLsb' 0 16 = BitVec.ofNat 16 g.base ∧ rw.rw1.extractLsb' 16 5 = BitVec.ofNat 5 k ∧
        rw.rw1.extractLsb' 21 11 = 0#11)

/-! ## Records -/

/-- The words of a record (R98, R186, R103, section 5.8): CONTROL's four fields, the 4CC of every request code, of 'TAKN' and of
every final result code, the first character in the lowest byte, and the order of the reply words. -/
def Obligations.RecordWordLayouts : Prop :=
  (∀ (r : Request) (tag : BitVec 16) (notify barrier option : BitVec 1) (unused : BitVec 13),
    r.control = unused ++ option ++ barrier ++ notify ++ tag →
    r.tag = tag ∧ (r.notify = true ↔ notify = 1#1) ∧ (r.barrier = true ↔ barrier = 1#1) ∧ (r.opt = true ↔ option = 1#1)) ∧
  (∀ (w : Word) (c : Code), Code.ofWord w = some c ↔ w = c.word) ∧
  (∀ (n : Nat) (w : Word) (rw : Replies), rw.words[n]? = some w ↔
    (n = 0 ∧ w = rw.rw0) ∨ (n = 1 ∧ w = rw.rw1) ∨ (n = 2 ∧ w = rw.rw2) ∨ (n = 3 ∧ w = rw.rw3)) ∧
  taknWord = 0x4E4B4154#32 ∧
  (Code.openWindow.word = 0x4E45504F#32 ∧ Code.closeWindow.word = 0x534F4C43#32 ∧
    Code.lock.word = 0x4B434F4C#32 ∧ Code.look.word = 0x4B4F4F4C#32 ∧ Code.lease.word = 0x5341454C#32 ∧
    Code.renew.word = 0x574E4552#32 ∧ Code.freeLease.word = 0x45455246#32 ∧ Code.policy.word = 0x494C4F50#32 ∧
    Code.waitWord.word = 0x54494157#32 ∧ Code.fill.word = 0x4C4C4946#32 ∧ Code.copy.word = 0x59504F43#32 ∧
    Code.scan.word = 0x4E414353#32 ∧ Code.abort.word = 0x54524241#32 ∧ Code.noop.word = 0x504F4F4E#32 ∧
    Code.port.word = 0x54524F50#32 ∧ Code.portReset.word = 0x54535250#32 ∧
    Code.refreshInterval.word = 0x48534652#32 ∧ Code.speed.word = 0x44455053#32 ∧
    Code.sleep.word = 0x50454C53#32) ∧
  (ResultCode.okay.word = 0x59414B4F#32 ∧ ResultCode.unkn.word = 0x4E4B4E55#32 ∧
    ResultCode.parm.word = 0x4D524150#32 ∧ ResultCode.area.word = 0x41455241#32 ∧
    ResultCode.used.word = 0x44455355#32 ∧ ResultCode.lked.word = 0x44454B4C#32 ∧
    ResultCode.noen.word = 0x4E454F4E#32 ∧ ResultCode.ovlp.word = 0x504C564F#32 ∧
    ResultCode.clas.word = 0x53414C43#32 ∧ ResultCode.late.word = 0x4554414C#32 ∧
    ResultCode.busy.word = 0x59535542#32 ∧ ResultCode.refu.word = 0x55464552#32 ∧
    ResultCode.fenc.word = 0x434E4546#32 ∧ ResultCode.time.word = 0x454D4954#32 ∧
    ResultCode.canc.word = 0x434E4143#32 ∧ ResultCode.none.word = 0x454E4F4E#32 ∧
    ResultCode.fail.word = 0x4C494146#32)

/-! ## Requests: leases -/

/-- LEAS (R31 to R35), with what its tests of a port and of an entry say: DISABLED or RESETTING, and FREE. -/
def Obligations.LeaseGrant : Prop :=
  (∀ st : PortState, st.shutOut = true ↔ st = .disabled ∨ ∃ q, st = .resetting q) ∧
  (∀ e : Entry, e.isFree = true ↔ ∃ c, e.status = .free c) ∧
  ∀ (s₀ s : State) (a : Word) (r : Request), s₀.recordReturns a s → s.noBarrier r →
    let answer := fun (c : ResultCode) rw => s.answered a (fourCC 'L' 'E' 'A' 'S') r c rw
    let g : Range := { base := r.p1.toNat, size := r.p2.toNat }
    let bad := s.badRegion r.p1.toNat r.p2.toNat ∨ r.p3.toNat = 0 ∨ 16 ≤ r.p3.toNat ∨ 1 < r.p5.toNat ∨ 65535 < r.p6.toNat
    (15 < r.p0.toNat ∨ r.p4.toNat = 0 ∨ 3 < r.p4.toNat ∨ bad →
      exec (.lease r) s₀ = .next (arbitrate (answer .parm noReplies))) ∧
    ∀ (i : Fin 16) (m : LeaseMode), r.p0.toNat = i.val → r.p4.toNat = m.code → ¬bad →
      (s.workGranule < r.p1.toNat + r.p2.toNat → exec (.lease r) s₀ = .next (arbitrate (answer .area noReplies))) ∧
      (r.p1.toNat + r.p2.toNat ≤ s.workGranule →
        ((s.entry i).isFree = false → exec (.lease r) s₀ = .next (arbitrate (answer .used noReplies))) ∧
        ((s.entry i).isFree = true →
          (∀ p : Fin 4, r.p3.getLsbD p.val = true → (s.port p).state.shutOut = true →
            (∀ q : Fin 4, q < p → r.p3.getLsbD q.val = true → (s.port q).state.shutOut = false) →
            exec (.lease r) s₀ = .next (arbitrate (answer .refu (replies p.val 0 0 0)))) ∧
          ((∀ p : Fin 4, r.p3.getLsbD p.val = true → (s.port p).state.shutOut = false) →
            (∀ j : Fin 16, (s.entry j).blocksLease g m → (∀ k : Fin 16, k < j → ¬(s.entry k).blocksLease g m) →
              exec (.lease r) s₀ = .next (arbitrate (answer .ovlp (replies j.val 0 0 0)))) ∧
            ((∀ j : Fin 16, ¬(s.entry j).blocksLease g m) →
              ∀ reason, s.lowerClass r.p5.toNat reason →
                (r.opt = true → reason ≠ 0 →
                  exec (.lease r) s₀ = .next (arbitrate (answer .clas (replies reason 0 0 0)))) ∧
                (r.opt = false ∨ reason = 0 →
                  let cls : BwClass := if r.p5.toNat = 1 ∧ reason = 0 then .priority else .default
                  let t := answer .okay (replies i.val cls.code (s.table.serial + 1#32).toNat reason)
                  exec (.lease r) s₀ =
                    .next (arbitrate
                      { t with table :=
                          { s.table with
                            serial := s.table.serial + 1#32
                            entries := s.table.entries.set i
                              { status := .leased g
                                  { holders := r.p3.extractLsb' 0 4, mode := m, cls := cls, demoted := false
                                    expiry := freshTimer r.p6.toNat, serial := s.table.serial + 1#32 }
                                inflight := 0
                                fault := none } } }))))))

/-- RENW (R40). -/
def Obligations.RenewRestartsExpiry : Prop :=
  ∀ (s₀ s : State) (a : Word) (r : Request), s₀.recordReturns a s → s.noBarrier r →
    let answer := fun (c : ResultCode) rw => s.answered a (fourCC 'R' 'E' 'N' 'W') r c rw
    (15 < r.p0.toNat ∨ 65535 < r.p1.toNat → exec (.renew r) s₀ = .next (arbitrate (answer .parm noReplies))) ∧
    ∀ i : Fin 16, r.p0.toNat = i.val → r.p1.toNat ≤ 65535 →
      (∀ g l, (s.entry i).status = .leased g l →
        exec (.renew r) s₀ =
          .next (arbitrate
            ((answer .okay
                (match l.expiry with
                  | none => replies 0 0 l.serial.toNat 0
                  | some t => replies t.remaining 1 l.serial.toNat 0)).putEntry i
              { s.entry i with status := .leased g { l with expiry := freshTimer r.p1.toNat } }))) ∧
      ((s.entry i).status = .free (some .expired) ∨ (∃ g k w, (s.entry i).status = .retiring g k .expired w) →
        exec (.renew r) s₀ = .next (arbitrate (answer .late noReplies))) ∧
      ((∃ c, c ≠ some .expired ∧ (s.entry i).status = .free c) ∨ (∃ g w, (s.entry i).status = .opened g w) ∨
          (∃ g k c w, c ≠ .expired ∧ (s.entry i).status = .retiring g k c w) →
        exec (.renew r) s₀ = .next (arbitrate (answer .noen noReplies)))

/-- FREE (R42). -/
def Obligations.FreeEndsLease : Prop :=
  ∀ (s₀ s : State) (a : Word) (r : Request), s₀.recordReturns a s → s.noBarrier r →
    let answer := fun (c : ResultCode) rw => s.answered a (fourCC 'F' 'R' 'E' 'E') r c rw
    (15 < r.p0.toNat → exec (.freeLease r) s₀ = .next (arbitrate (answer .parm noReplies))) ∧
    ∀ i : Fin 16, r.p0.toNat = i.val →
      (∀ g l, (s.entry i).status = .leased g l →
        ((s.entry i).inflight = 0 →
          exec (.freeLease r) s₀ =
            .next (arbitrate ((answer .okay noReplies).putEntry i { s.entry i with status := .free (some .released) }))) ∧
        (1 ≤ (s.entry i).inflight →
          exec (.freeLease r) s₀ =
            .next (arbitrate ((s.enteredLong a (fourCC 'F' 'R' 'E' 'E') r .regionTable).putEntry i
              { s.entry i with
                status := .retiring g (.lease { l with expiry := none }) .released
                  (some { request := s.eng.nextId, count := (s.entry i).inflight }) })))) ∧
      ((s.entry i).status = .free (some .expired) ∨ (∃ g k w, (s.entry i).status = .retiring g k .expired w) →
        exec (.freeLease r) s₀ = .next (arbitrate (answer .late noReplies))) ∧
      (∀ g l c w, c ≠ .expired → (s.entry i).status = .retiring g (.lease l) c w →
        exec (.freeLease r) s₀ = .next (arbitrate (answer .busy (replies c.code 0 0 0)))) ∧
      ((∃ c, c ≠ some .expired ∧ (s.entry i).status = .free c) ∨ (∃ g w, (s.entry i).status = .opened g w) ∨
          (∃ g v c w, c ≠ .expired ∧ (s.entry i).status = .retiring g (.window v) c w) →
        exec (.freeLease r) s₀ = .next (arbitrate (answer .noen noReplies)))

/-- POLI (R51, R52). -/
def Obligations.PolicyDemotesAllButOne : Prop :=
  ∀ (s₀ s : State) (a : Word) (r : Request), s₀.recordReturns a s → s.noBarrier r →
    let answer := fun (c : ResultCode) rw => s.answered a (fourCC 'P' 'O' 'L' 'I') r c rw
    let n := s.priorityHolders.length
    (1 < r.p0.toNat → exec (.policy r) s₀ = .next (arbitrate (answer .parm noReplies))) ∧
    (r.p0.toNat = s.table.policy.code →
      exec (.policy r) s₀ = .next (arbitrate (answer .okay (replies 0 s.table.policy.code 0 0)))) ∧
    (r.p0.toNat = 0 → s.table.policy = .single →
      exec (.policy r) s₀ =
        .next (arbitrate { answer .okay (replies 0 1 0 0) with table := { s.table with policy := .shared } })) ∧
    (r.p0.toNat = 1 → s.table.policy = .shared → n ≤ 1 →
      exec (.policy r) s₀ =
        .next (arbitrate { answer .okay (replies 0 0 0 0) with table := { s.table with policy := .single } })) ∧
    (r.p0.toNat = 1 → s.table.policy = .shared → 2 ≤ n →
      ∀ kept : Fin 16, (s.entry kept).holdsPriority = true →
        (∀ j : Fin 16, (s.entry j).holdsPriority = true →
          (s.entry kept).serial < (s.entry j).serial ∨ ((s.entry kept).serial = (s.entry j).serial ∧ kept ≤ j)) →
        exec (.policy r) s₀ =
          .next (arbitrate
            { answer .okay (replies (n - 1) 0 0 0) with
              table :=
                { s.table with
                  policy := .single
                  entries := Vector.ofFn (fun j : Fin 16 => if j = kept then s.entry j else (s.entry j).demote) }
              win := s.win.raise .cls }))

/-! ## Requests: watches and transfers -/

/-- WAIT at its take (R62): its checks, and the arming read that a WAIT which passes them appends. That 'PARM' is answered
where a condition of 'PARM' and that of 'AREA' both hold is the model's choice (log 33). -/
def Obligations.WaitStartsArmingRead : Prop :=
  ∀ (s₀ s : State) (a : Word) (r : Request), s₀.recordReturns a s → s.noBarrier r →
    let answer := fun c : ResultCode => s.answered a (fourCC 'W' 'A' 'I' 'T') r c noReplies
    (r.p0.toNat % 4 ≠ 0 ∨ 65535 < r.p3.toNat → exec (.waitWord r) s₀ = .next (arbitrate (answer .parm))) ∧
    (r.p0.toNat % 4 = 0 → r.p3.toNat ≤ 65535 →
      (s.dramBytes ≤ r.p0.toNat → exec (.waitWord r) s₀ = .next (arbitrate (answer .area))) ∧
      (r.p0.toNat < s.dramBytes →
        ∀ release : Option (Fin 16),
          (release = none ∧ 16 ≤ r.p4.toNat) ∨ (∃ i : Fin 16, release = some i ∧ r.p4.toNat = i.val) →
          exec (.waitWord r) s₀ =
            .next (arbitrate
              (s.afterTake a (fourCC 'W' 'A' 'I' 'T') r .taking .arming
                [.armWait s.eng.nextId
                  { addr := r.p0, mask := r.p1, compare := r.p2, timeout := r.p3.toNat, release := release
                    immediate := r.opt } true]))))

/-- The arming read of a WAIT completes (R63, R64). -/
def Obligations.WaitArming : Prop :=
  ∀ (s : State) (id : RecId) (w : WatchSpec),
    (s.operating (.armWait id w false) → exec .waitArmingReadComplete s = .next (arbitrate s.opDone)) ∧
    ∀ (a link : Word), s.operating (.armWait id w true) → s.eng.reader = .taking id a link .arming →
      let v := s.wordAt w.addr.toNat
      let same := v &&& w.mask = w.compare &&& w.mask
      let armed : ArmedState → WatchSlot := fun st =>
        { armed := st, addr := w.addr, mask := w.mask, compare := w.compare, timeout := freshTimer w.timeout
          release := w.release, owner := id }
      ((∀ k : Fin 8, k ≠ 0 → s.slot k ≠ none) →
        exec .waitArmingReadComplete s =
          .next (arbitrate (complete id .busy noReplies (s.opDone.withReader (.taking id a link .result))))) ∧
      ∀ k : Fin 8, k ≠ 0 → s.slot k = none → (∀ j : Fin 8, j ≠ 0 → j < k → s.slot j ≠ none) →
        let stand : ArmedState → State := fun st =>
          linkStep id a link (enterActive id .watchUnit { s.opDone with slots := s.slots.set k (some (armed st)) })
        (same → exec .waitArmingReadComplete s = .next (arbitrate (stand .matching))) ∧
        (¬same → w.immediate = false → exec .waitArmingReadComplete s = .next (arbitrate (stand .waiting))) ∧
        (¬same → w.immediate = true →
          exec .waitArmingReadComplete s =
            .next (arbitrate
              (raise .watch
                (complete id .okay
                  { rw0 := v, rw1 := BitVec.ofNat 32 (s.releaseOutcome w.release), rw2 := BitVec.ofNat 32 k.val
                    rw3 := 0#32 }
                  (watchRelease w.release (s.opDone.withReader (.taking id a link .result)))))))

/-- FILL at its take (R77, R80 to R83). -/
def Obligations.FillIsQueued : Prop :=
  ∀ (s₀ s : State) (a : Word) (r : Request), s₀.recordReturns a s → s.noBarrier r → s.queue.length < 4 →
    let answer := fun (c : ResultCode) rw => s.answered a (fourCC 'F' 'I' 'L' 'L') r c rw
    let bad := r.p0.toNat % 4 ≠ 0 ∨ r.p1.toNat = 0 ∨ 4194304 < r.p1.toNat
    let stop := r.p0.toNat + 4 * r.p1.toNat
    (bad ∨ 3 < r.p3.toNat → exec (.fill r) s₀ = .next (arbitrate (answer .parm noReplies))) ∧
    ∀ p : Fin 4, r.p3.toNat = p.val → ¬bad →
      (s.dramBytes < stop ∨ s.workBase < stop →
        exec (.fill r) s₀ = .next (arbitrate (answer .area (replies 1 0 0 0)))) ∧
      (stop ≤ s.dramBytes → stop ≤ s.workBase →
        ((s.port p).state.shutOut = true → exec (.fill r) s₀ = .next (arbitrate (answer .refu noReplies))) ∧
        ((s.port p).state.shutOut = false →
          exec (.fill r) s₀ =
            .next (arbitrate
              (s.acceptedTransfer a (fourCC 'F' 'I' 'L' 'L') r (.fill r.p0 r.p2) p r.p1.toNat
                { addr := r.p0, len := pieceLength r.p0 r.p1.toNat, half := .write, entry := none, granted := false }))))

/-- COPY at its take (R78, R80 to R83). -/
def Obligations.CopyIsQueued : Prop :=
  ∀ (s₀ s : State) (a : Word) (r : Request), s₀.recordReturns a s → s.noBarrier r → s.queue.length < 4 →
    let answer := fun (c : ResultCode) rw => s.answered a (fourCC 'C' 'O' 'P' 'Y') r c rw
    let stop := r.p0.toNat + 4 * r.p2.toNat
    let dstStop := r.p1.toNat + 4 * r.p2.toNat
    let bad := r.p0.toNat % 4 ≠ 0 ∨ r.p1.toNat % 4 ≠ 0 ∨ r.p2.toNat = 0 ∨ 4194304 < r.p2.toNat
      ∨ (r.p0.toNat < r.p1.toNat ∧ r.p1.toNat < stop)
    (bad ∨ 3 < r.p3.toNat → exec (.copy r) s₀ = .next (arbitrate (answer .parm noReplies))) ∧
    ∀ p : Fin 4, r.p3.toNat = p.val → ¬bad →
      (s.dramBytes < stop ∨ s.workBase < stop →
        exec (.copy r) s₀ = .next (arbitrate (answer .area (replies 1 0 0 0)))) ∧
      (stop ≤ s.dramBytes → stop ≤ s.workBase →
        (s.dramBytes < dstStop ∨ s.workBase < dstStop →
          exec (.copy r) s₀ = .next (arbitrate (answer .area (replies 2 0 0 0)))) ∧
        (dstStop ≤ s.dramBytes → dstStop ≤ s.workBase →
          ((s.port p).state.shutOut = true → exec (.copy r) s₀ = .next (arbitrate (answer .refu noReplies))) ∧
          ((s.port p).state.shutOut = false →
            exec (.copy r) s₀ =
              .next (arbitrate
                (s.acceptedTransfer a (fourCC 'C' 'O' 'P' 'Y') r (.copy r.p0 r.p1) p r.p2.toNat
                  { addr := r.p0, len := pieceLength r.p0 (pieceLength r.p1 r.p2.toNat), half := .read, entry := none
                    granted := false })))))

/-- SCAN at its take (R79, R80 to R83). -/
def Obligations.ScanIsQueued : Prop :=
  ∀ (s₀ s : State) (a : Word) (r : Request), s₀.recordReturns a s → s.noBarrier r → s.queue.length < 4 →
    let answer := fun (c : ResultCode) rw => s.answered a (fourCC 'S' 'C' 'A' 'N') r c rw
    let bad := r.p0.toNat % 4 ≠ 0 ∨ r.p1.toNat = 0 ∨ 4194304 < r.p1.toNat
    let stop := r.p0.toNat + 4 * r.p1.toNat
    (bad ∨ 3 < r.p4.toNat → exec (.scan r) s₀ = .next (arbitrate (answer .parm noReplies))) ∧
    ∀ p : Fin 4, r.p4.toNat = p.val → ¬bad →
      (s.dramBytes < stop ∨ s.workBase < stop →
        exec (.scan r) s₀ = .next (arbitrate (answer .area (replies 1 0 0 0)))) ∧
      (stop ≤ s.dramBytes → stop ≤ s.workBase →
        ((s.port p).state.shutOut = true → exec (.scan r) s₀ = .next (arbitrate (answer .refu noReplies))) ∧
        ((s.port p).state.shutOut = false →
          exec (.scan r) s₀ =
            .next (arbitrate
              (s.acceptedTransfer a (fourCC 'S' 'C' 'A' 'N') r (.scan r.p0 r.p2 r.p3) p r.p1.toNat
                { addr := r.p0, len := pieceLength r.p0 r.p1.toNat, half := .read, entry := none, granted := false }))))

/-! ## Requests: the engine, the ports, the controller, speed control, standby -/

/-- ABRT (R113, with R19, R68 and R91 for what the cancellation does). `finish` answers the ABRT itself, after its
target's completion. -/
def Obligations.AbortCancelsOldest : Prop :=
  ∀ (s₀ s : State) (a : Word) (r : Request), s₀.recordReturns a s → s.noBarrier r →
    let answer := fun (c : ResultCode) rw => s.answered a (fourCC 'A' 'B' 'R' 'T') r c rw
    (65535 < r.p0.toNat → exec (.abort r) s₀ = .next (arbitrate (answer .parm noReplies))) ∧
    (r.p0.toNat ≤ 65535 → (∀ x ∈ s.eng.active, x.tag.toNat ≠ r.p0.toNat) →
      exec (.abort r) s₀ = .next (arbitrate (answer .none noReplies))) ∧
    ∀ (older newer : List ActiveRequest) (x : ActiveRequest) (rec : TakeRecord),
      s.eng.active = older ++ x :: newer → x.tag.toNat = r.p0.toNat → (∀ y ∈ older, y.tag.toNat ≠ r.p0.toNat) →
      s.staying.find? (fun y => y.id == x.id) = some rec →
      let rw : Replies := { rw0 := rec.addr, rw1 := x.code, rw2 := 0#32, rw3 := 0#32 }
      let t := s.afterTake a (fourCC 'A' 'B' 'R' 'T') r .taking .header []
      let finish := fun u : State =>
        complete s.eng.nextId .okay rw (u.withReader (.taking s.eng.nextId a r.link .result))
      (x.block = .agentPorts ∨ x.block = .speedControl → exec (.abort r) s₀ = .next (arbitrate (answer .refu rw))) ∧
      (x.block = .watchUnit →
        ∀ (k : Fin 8) (w : WatchSlot), k ≠ 0 → s.slot k = some w → w.owner = x.id →
          (∀ (j : Fin 8) (y : WatchSlot), j ≠ 0 → j < k → s.slot j = some y → y.owner ≠ x.id) →
          exec (.abort r) s₀ =
            .next (arbitrate
              (finish (complete x.id .canc (replies w.armed.code 0 k.val 0) { t with slots := s.slots.set k none })))) ∧
      (x.block = .regionTable →
        ∀ (i : Fin 16) (g : Range) (k : Kind) (c : EndCause) (w : Waiter),
          (s.entry i).status = .retiring g k c (some w) → w.request = x.id →
          (∀ (j : Fin 16) (g : Range) (k : Kind) (c : EndCause) (y : Waiter),
            j < i → (s.entry j).status = .retiring g k c (some y) → y.request ≠ x.id) →
          exec (.abort r) s₀ =
            .next (arbitrate
              (finish (complete x.id .canc (replies w.count 0 0 0)
                (t.putEntry i { s.entry i with status := .retiring g k c none }))))) ∧
      (x.block = .transferUnit →
        ∀ (before behind : List Transfer) (y : Transfer), s.queue = before ++ y :: behind → y.owner = x.id →
          (∀ z ∈ before ++ behind, z.owner ≠ x.id) →
          (y.state = .waiting →
            exec (.abort r) s₀ =
              .next (arbitrate
                (finish (finishTransfer x.id .canc y.cancReplies { t with queue := before ++ behind })))) ∧
          (y.state ≠ .waiting →
            exec (.abort r) s₀ =
              .next (arbitrate (finish { t with queue := before ++ { y with state := .stopping } :: behind }))))

/-- NOOP and a record whose code is not recognised (R115), and RFSH (R149). -/
def Obligations.NoopUnknownAndRefreshAnswer : Prop :=
  ∀ (s₀ s : State) (a : Word) (r : Request), s₀.recordReturns a s → s.noBarrier r →
    let answer := fun (c : ResultCode) rw => s.answered a (fourCC 'R' 'F' 'S' 'H') r c rw
    exec (.noop r) s₀ = .next (arbitrate (s.answered a (fourCC 'N' 'O' 'O' 'P') r .okay noReplies)) ∧
    (∀ code : Word, (∀ c : Code, code ≠ c.word) →
      exec (.unknown code r) s₀ = .next (arbitrate (s.answered a code r .unkn noReplies))) ∧
    ((3 < r.p0.toNat → exec (.refreshInterval r) s₀ = .next (arbitrate (answer .parm noReplies))) ∧
      (r.p0.toNat ≤ 3 →
        exec (.refreshInterval r) s₀ =
          .next (arbitrate
            { answer .okay (replies s.ctl.code.toNat 0 0 0) with
              ctl := { s.ctl with code := BitVec.ofNat 2 r.p0.toNat } })))

/-- PORT (R133 to R135) and the three counts of its reply (R133, R138). The steps of R135 are stated on their own
(PortActions). That the withdrawn answers are delivered, and accesses held on the bus accepted, between the withdrawal and
the release of the leases is the model's choice (log 28). -/
def Obligations.PortSetsState : Prop :=
  ∀ (s₀ s : State) (a : Word) (r : Request), s₀.recordReturns a s → s.noBarrier r →
    let answer := fun (c : ResultCode) rw => s.answered a (fourCC 'P' 'O' 'R' 'T') r c rw
    (r.p0.toNat = 0 ∨ 3 < r.p0.toNat ∨ 2 < r.p1.toNat → exec (.port r) s₀ = .next (arbitrate (answer .parm noReplies))) ∧
    ∀ p : Fin 4, p ≠ 0 → r.p0.toNat = p.val → r.p1.toNat ≤ 2 →
      ((∃ x, (s.port p).state = .resetting x) → exec (.port r) s₀ = .next (arbitrate (answer .busy (replies 3 0 0 0)))) ∧
      (∀ (old : PortState) (n : Nat), (s.port p).state = old →
        (old = .active ∧ n = 0) ∨ (old = .quiesced ∧ n = 1) ∨ (old = .disabled ∧ n = 2) →
        (∀ new, (r.p1.toNat = 0 ∧ new = .active) ∨ (r.p1.toNat = 1 ∧ new = .quiesced)
            ∨ (r.p1.toNat = 2 ∧ old = .disabled ∧ new = .disabled) →
          exec (.port r) s₀ =
            .next (arbitrate
              { answer .okay (replies n 0 0 0) with ports := s.ports.set p { s.port p with state := new } })) ∧
        (r.p1.toNat = 2 → old ≠ .disabled →
          let t := s.afterTake a (fourCC 'P' 'O' 'R' 'T') r .taking .header []
          let u := cancelForPort p (releasePort p (Machine.answer p (withdrawPort p
            { t with ports := s.ports.set p { s.port p with state := .disabled } })))
          exec (.port r) s₀ =
            .next (arbitrate
              (complete s.eng.nextId .okay (replies n (s.port p).waitingCount (s.leasesOf p) (s.cancelCount p))
                (u.withReader (.taking s.eng.nextId a r.link .result)))))) ∧
      (s.port p).waitingCount =
        ((s.port p).outstanding.filter (fun x => match x.stage with | .waiting _ _ => true | _ => false)).length ∧
      s.leasesOf p =
        ((List.finRange 16).filter
          (fun i => match (s.entry i).status with | .leased _ l => l.holders.getLsbD p.val | _ => false)).length ∧
      s.cancelCount p =
        (s.queue.filter (fun x => x.port == p && (x.state == .waiting || x.state == .running))).length

/-- PRST (R137), in the order of the model's choice between its steps (log 28). The steps are stated on their own
(PortActions, DrainEnds), the three counts in PortSetsState. -/
def Obligations.PortResetDrains : Prop :=
  ∀ (s₀ s : State) (a : Word) (r : Request), s₀.recordReturns a s → s.noBarrier r →
    let answer := fun (c : ResultCode) rw => s.answered a (fourCC 'P' 'R' 'S' 'T') r c rw
    (3 < r.p0.toNat → exec (.portReset r) s₀ = .next (arbitrate (answer .parm noReplies))) ∧
    (r.p0.toNat = 0 → exec (.portReset r) s₀ = .next (arbitrate (answer .refu (replies 1 0 0 0)))) ∧
    ∀ p : Fin 4, p ≠ 0 → r.p0.toNat = p.val →
      ((s.port p).state = .disabled → exec (.portReset r) s₀ = .next (arbitrate (answer .refu (replies 2 0 0 0)))) ∧
      ((∃ x, (s.port p).state = .resetting x) →
        exec (.portReset r) s₀ = .next (arbitrate (answer .busy (replies 3 0 0 0)))) ∧
      ∀ f : FormerState, (s.port p).state = f.back →
        let st : PortState :=
          .resetting
            { former := f, request := s.eng.nextId, drainAccesses := 0, drainTransfers := []
              withdrawn := (s.port p).waitingCount, released := s.leasesOf p, cancelled := s.cancelCount p }
        let t := s.enteredLong a (fourCC 'P' 'R' 'S' 'T') r .agentPorts
        let u := flush p (withdrawPort p { t with ports := s.ports.set p { s.port p with state := st } })
        exec (.portReset r) s₀ =
          .next (arbitrate
            (drainPort p (releasePort p (formDrainTransfers p (cancelForPort p (Machine.answer p (formDrainAccesses p u)))))))

/-- SPED (R164, the first steps of R165 and R168, R53, R169). -/
def Obligations.SpeedStartsSequence : Prop :=
  ∀ (s₀ s : State) (a : Word) (r : Request), s₀.recordReturns a s → s.noBarrier r →
    let answer := fun (c : ResultCode) rw => s.answered a (fourCC 'S' 'P' 'E' 'D') r c rw
    let long := s.enteredLong a (fourCC 'S' 'P' 'E' 'D') r .speedControl
    (1 < r.p0.toNat → exec (.speed r) s₀ = .next (arbitrate (answer .parm noReplies))) ∧
    (r.p0.toNat ≤ 1 → ∀ n : Nat,
      (s.speed.state = .raising ∧ n = 1) ∨ (s.speed.state = .locking ∧ n = 2) ∨ (s.speed.state = .switchingUp ∧ n = 3)
        ∨ (s.speed.state = .switchingDown ∧ n = 5) ∨ (s.speed.state = .lowering ∧ n = 6) →
      exec (.speed r) s₀ = .next (arbitrate (answer .busy (replies n 0 0 0)))) ∧
    ((r.p0.toNat = 0 ∧ s.speed.state = .base) ∨ (r.p0.toNat = 1 ∧ s.speed.state = .full) →
      exec (.speed r) s₀ =
        .next (arbitrate { answer .okay (replies r.p0.toNat 0 0 0) with win := s.win.raise .speed })) ∧
    (r.p0.toNat = 1 → s.speed.state = .base →
      exec (.speed r) s₀ =
        .next (arbitrate
          { long with
            speed :=
              { s.speed with
                state := .raising
                supply := .high
                timer := freshTimer 2
                owner := some s.eng.nextId } })) ∧
    (r.p0.toNat = 0 → s.speed.state = .full →
      exec (.speed r) s₀ =
        .next (arbitrate
          { long with
            table := { s.table with entries := mapVec Entry.demote s.table.entries }
            win := if s.priorityHolders = [] then s.win else s.win.raise .cls
            speed :=
              { s.speed with
                state := .switchingDown
                owner := some s.eng.nextId
                demoted := s.priorityHolders.length
                switchWaiting := true } })) ∧
    ∀ e : Entry,
      (e.holdsPriority = false → e.demote = e) ∧
      (∀ g l, e.status = .leased g l → l.cls = .priority →
        e.demote = { e with status := .leased g { l with cls := .default, demoted := true } }) ∧
      (∀ g l c w, e.status = .retiring g (.lease l) c w → l.cls = .priority →
        e.demote = { e with status := .retiring g (.lease { l with cls := .default, demoted := true }) c w })

/-- SLEP (R172, R173). -/
def Obligations.SleepTestsAndHandsOff : Prop :=
  ∀ (s₀ s : State) (a : Word) (r : Request), s₀.recordReturns a s → s.noBarrier r →
    let answer := fun (c : ResultCode) rw => s.answered a (fourCC 'S' 'L' 'E' 'P') r c rw
    (∀ p : Fin 4, p ≠ 0 → ¬(s.port p).idle → (∀ q : Fin 4, q ≠ 0 → q < p → (s.port q).idle) →
      exec (.sleep r) s₀ = .next (arbitrate (answer .busy (replies 1 p.val 0 0)))) ∧
    ((∀ p : Fin 4, p ≠ 0 → (s.port p).idle) →
      (s.queue ≠ [] → exec (.sleep r) s₀ = .next (arbitrate (answer .busy (replies 2 0 0 0)))) ∧
      (s.queue = [] → s.speed.state ≠ .base →
        exec (.sleep r) s₀ = .next (arbitrate (answer .busy (replies 3 0 0 0)))) ∧
      (s.queue = [] → s.speed.state = .base →
        let t := answer .okay noReplies
        exec (.sleep r) s₀ = .next (arbitrate { t with eng := { t.eng with handoff := some s.eng.nextId } })))

/-! ## The chain reader -/

/-- R101, tests 2 and 3, and R121 for a pending stop: a record that is held back. -/
def Obligations.RecordIsHeldBack : Prop :=
  ∀ (s₀ s : State) (a : Word) (c : Instr) (code : Word) (r : Request), requestOf c = some (code, r) →
    s₀.recordReturns a s →
    let stalls := fun reason : StallReason =>
      (s.eng.stopPending = false → exec c s₀ = .next (arbitrate (s.withReader (.stalled reason a)))) ∧
      (s.eng.stopPending = true →
        exec c s₀ = .next (arbitrate { s with eng := { s.eng with reader := .stopped, stopPending := false } }))
    (r.barrier = true → s.eng.active ≠ [] → stalls .barrier) ∧
    (s.noBarrier r → transferCode code → 4 ≤ s.queue.length → stalls .queueFull)

/-- The record read that returns what the DRAM holds (R98, R101, R117, R121): a record that is not fresh is the chain fault
NOT_FRESH; any other is the request command that its words spell; the data of a discarded read is not used. -/
def Obligations.RecordReadExamines : Prop :=
  ∀ (s : State) (a : Word),
    (s.operating (.recordRead a false) → exec .recordReadComplete s = .next (arbitrate s.opDone)) ∧
    (s.operating (.recordRead a true) →
      (s.wordAt (a.toNat + 8) ≠ 0#32 →
        let t := s.readDone.tailEnded
        exec .recordReadComplete s =
          .next (arbitrate
            { t with
              eng :=
                { t.eng with
                  reader := if s.eng.stopPending then .stopped else .faulted
                  stopPending := false
                  ops := t.eng.ops ++ [.headerFault .notFresh a] } })) ∧
      (s.wordAt (a.toNat + 8) = 0#32 →
        ∀ (c : Instr) (code : Word) (r : Request), requestOf c = some (code, r) → code = s.wordAt (a.toNat + 4) →
          r = { link := s.wordAt a.toNat, control := s.wordAt (a.toNat + 12), p0 := s.wordAt (a.toNat + 16)
                p1 := s.wordAt (a.toNat + 20), p2 := s.wordAt (a.toNat + 24), p3 := s.wordAt (a.toNat + 28)
                p4 := s.wordAt (a.toNat + 32), p5 := s.wordAt (a.toNat + 36), p6 := s.wordAt (a.toNat + 40)
                p7 := s.wordAt (a.toNat + 44) } →
          exec .recordReadComplete s = exec c s ∧ ∃ t, exec c s = .next t))

/-- The link step, and the following of a link that the link step or a fire of slot 0 gives (R71, R102, R105 to R107, R117,
R121, R122, R174, R176), in every state of the controller: an operation that joins the list is a wake cause, which in RUN
changes nothing. -/
def Obligations.LinkStepFollowsLink : Prop :=
  ∀ (s : State) (id : RecId) (a link : Word),
    let valid := s.workBase + 64 ≤ link.toNat ∧ link.toNat < s.dramBytes ∧ link.toNat % 64 = 0
    (s.ctl.state = .run → s.ctl.wake = s.ctl) ∧
    -- the link step
    (s.eng.stopPending = true →
      linkStep id a link s = { s with eng := { s.eng with reader := .stopped, stopPending := false } }) ∧
    (s.eng.stopPending = false →
      (link = 0#32 →
        linkStep id a link s =
          { s with
            ctl := s.ctl.wake
            eng := { s.eng with reader := .arming id, tail := some id, ops := s.eng.ops ++ [.armTail id a true] } }) ∧
      (link ≠ 0#32 → linkStep id a link s = followLink link s)) ∧
    -- a link is followed
    (¬valid →
      let t := s.tailEnded
      followLink link s =
        { t with
          ctl := s.ctl.wake
          eng :=
            { t.eng with
              reader := if s.eng.stopPending then .stopped else .faulted
              stopPending := false
              ops := t.eng.ops ++ [.headerFault .badLink link] } }) ∧
    (valid →
      (8 ≤ s.eng.active.length → followLink link s = s.withReader (.stalled .tableFull link)) ∧
      (s.eng.active.length < 8 → 32 ≤ s.eng.takeList.length →
        followLink link s = s.withReader (.stalled .retireFull link)) ∧
      (s.eng.active.length < 8 → s.eng.takeList.length < 32 →
        (s.eng.handoff = none →
          followLink link s =
            { s with
              ctl := s.ctl.wake
              eng :=
                { s.eng with
                  reader := if s.ctl.state = .run then .examining link else .stalled .waking link
                  ops := s.eng.ops ++ [.recordRead link true] } }) ∧
        (s.eng.handoff ≠ none →
          followLink link s =
            { s with eng := { s.eng with reader := .stalled .waking link, heldRead := true } })))

/-- A completion is handed to the engine (R104, with R176 for the wake cause), and the retirements of a moment (R110,
R111): the oldest records retire up to the first that is not FINAL or is the tail record. -/
def Obligations.CompletionAndRetirement : Prop :=
  ∀ s : State,
    (∀ (id : RecId) (c : ResultCode) (rw : Replies) (x : TakeRecord),
      s.eng.takeList.find? (fun y => y.id == id) = some x →
      complete id c rw s =
        { s with
          ctl := s.ctl.wake
          eng :=
            { s.eng with
              active := s.eng.active.filter (fun y => y.id != id)
              takeList := s.eng.takeList.map (fun y => if y.id = id then { y with stage := .writing c rw } else y)
              ops := s.eng.ops ++ [.replyWrite id x.addr rw, .resultWrite id x.addr c x.notify] } }) ∧
    (∀ out rest : List TakeRecord, s.eng.takeList = out ++ rest →
      (∀ x ∈ out, x.isFinal = true ∧ s.eng.tail ≠ some x.id) →
      (∀ x, rest.head? = some x → x.isFinal = false ∨ s.eng.tail = some x.id) →
      retire s =
        { s with
          ctl := if out = [] then s.ctl else s.ctl.wake
          eng :=
            { s.eng with
              takeList := rest
              ops := s.eng.ops ++ out.map (fun x => .headerRetired x.addr) } }) ∧
    (∀ x : TakeRecord, x.isFinal = true ↔ ∃ c rw, x.stage = .final c rw) ∧
    (s.ctl.wake = match s.ctl.state with
      | .init _ => s.ctl
      | .run => s.ctl
      | .entering _ => { s.ctl with wakeRecorded := true }
      | .standby => { s.ctl with state := .leaving .selfRefreshExit }
      | .leaving _ => s.ctl)

/-! ## The register window -/

/-- GO (R119, R120, R146, R176, R181). With SRST in the same word it is a soft reset; with STOP it is ignored. -/
def Obligations.GoStartsReader : Prop :=
  ∀ (s : State) (w : Word), s.inReset = false →
    (w.getLsbD 2 = true → exec (.go w) s = exec (.softReset w) s) ∧
    (w.getLsbD 2 = false → w.getLsbD 1 = true → exec (.go w) s = .next (arbitrate s)) ∧
    (w.getLsbD 2 = false → w.getLsbD 1 = false →
      (s.eng.reader ≠ .stopped → s.eng.reader ≠ .faulted → exec (.go w) s = .next (arbitrate (s.sizeAfter w))) ∧
      (s.eng.reader = .stopped ∨ s.eng.reader = .faulted →
        let anch := s.win.anch
        let base := s.dramBytes - (s.sizeAfter w).workBytes
        let valid := base + 64 ≤ anch.toNat ∧ anch.toNat < s.dramBytes ∧ anch.toNat % 64 = 0
        let started : Reader → List EngineOp → State := fun rd ops =>
          { s with
            win := { (s.sizeAfter w).win with wsizeFixed := true }
            ctl := s.ctl.release.wake
            eng := { s.eng with taken := 0#32, handoff := none, heldRead := false, reader := rd, ops := s.eng.ops ++ ops } }
        (¬valid → exec (.go w) s = .next (arbitrate (started .faulted [.headerGo (some anch)]))) ∧
        (valid → 8 ≤ s.eng.active.length →
          exec (.go w) s = .next (arbitrate (started (.stalled .tableFull anch) [.headerGo none]))) ∧
        (valid → s.eng.active.length < 8 → 32 ≤ s.eng.takeList.length →
          exec (.go w) s = .next (arbitrate (started (.stalled .retireFull anch) [.headerGo none]))) ∧
        (valid → s.eng.active.length < 8 → s.eng.takeList.length < 32 →
          exec (.go w) s =
            .next (arbitrate
              (started (if s.ctl.state = .run then .examining anch else .stalled .waking anch)
                [.headerGo none, .recordRead anch true]))))) ∧
    ((∃ b, s.ctl.state = .init b) → s.ctl.release = { s.ctl with released := true }) ∧
    ((¬∃ b, s.ctl.state = .init b) → s.ctl.release = s.ctl)

/-- STOP (R121, R72, R111, R110, R155, R181). Whether the RETIRED writes that it appends wake a controller in standby is
a free value (log 13): `c` is the controller after them, unchanged or woken. That a STOP in a WAKING stall withdraws the
record read alone, so that the header write of a GO stays, is the model's choice (log 34). -/
def Obligations.StopStopsReader : Prop :=
  ∀ (s : State) (w : Word), s.inReset = false →
    (w.getLsbD 2 = true → exec (.stop w) s = exec (.softReset w) s) ∧
    (w.getLsbD 2 = false → w.getLsbD 0 = true → exec (.stop w) s = .next (arbitrate s)) ∧
    (w.getLsbD 2 = false → w.getLsbD 0 = false →
      let t := s.sizeAfter w
      let stopped : State → State := fun u => { u with eng := { u.eng with reader := .stopped, stopPending := false } }
      let answers : State → Prop := fun u =>
        ∃ c, (c = s.ctl ∨ (s.leaving ≠ [] ∧ c = s.ctl.wake)) ∧
          exec (.stop w) s = .next (arbitrate { u.tailEnded with ctl := c })
      let reads : List EngineOp → List EngineOp := fun l => l.filter (fun o => !o.isRecordRead)
      (s.eng.reader = .stopped → exec (.stop w) s = .next (arbitrate t)) ∧
      ((∃ a, s.eng.reader = .examining a) ∨ (∃ i a l e, s.eng.reader = .taking i a l e) ∨ (∃ i, s.eng.reader = .arming i) →
        answers { t with eng := { t.eng with stopPending := true } }) ∧
      ((∃ i, s.eng.reader = .atTail i) → answers (stopped { t with slots := s.slots.set 0 none })) ∧
      (s.eng.reader = .faulted ∨ (∃ q a, q ≠ .waking ∧ s.eng.reader = .stalled q a) → answers (stopped t)) ∧
      ((∃ a, s.eng.reader = .stalled .waking a) →
        (s.eng.ops = [] → answers (stopped { t with eng := { t.eng with heldRead := false } })) ∧
        (∀ op rest, s.eng.ops = op :: rest →
          (s.arb.holder = some .chain →
            answers (stopped
              { t with eng :=
                { t.eng with
                  heldRead := false
                  ops := (if op.isRecordRead then op.discard else op) :: reads rest } })) ∧
          (s.arb.holder ≠ some .chain →
            answers (stopped
              { t with
                eng := { t.eng with heldRead := false, ops := reads (op :: rest) }
                arb := { s.arb with pass := if op.isRecordRead then s.arb.pass.set 4 0 else s.arb.pass } }))))) ∧
    (∀ (a : Word) (b : Bool), EngineOp.discard (.recordRead a b) = .recordRead a false ∧
      EngineOp.isRecordRead (.recordRead a b) = true)

/-- SRST: what the soft reset does to every block at once (R28, R74, R94, R123, R140, R158, R159, R170, R178, R181,
R185); then each port delivers the responses whose turn has come (log 24). A granted operation of the engine completes: a
write as it stands, a read with its data discarded (R123). -/
def Obligations.SoftResetEveryBlock : Prop :=
  ∀ (s : State) (w : Word), s.inReset = false →
    ∃ u : State,
      exec (.softReset w) s =
        .next (arbitrate (Machine.answer 3 (Machine.answer 2 (Machine.answer 1 (Machine.answer 0 u))))) ∧
      (∀ i : Fin 16,
        (∀ g v, (s.entry i).status = .opened g v → v.locked = true →
          u.entry i = { status := .opened g v, inflight := 0, fault := none }) ∧
        ((∀ g v, (s.entry i).status = .opened g v → v.locked = false) →
          u.entry i = { status := .free none, inflight := 0, fault := none })) ∧
      u.table.unclaimed = none ∧ u.table.serial = 0#32 ∧ u.table.policy = .shared ∧
      (∀ k : Fin 8, u.slot k = none) ∧ u.queue = [] ∧
      u.eng =
        { reader := .stopped, tail := none, stopPending := false, taken := 0#32, takeList := [], active := []
          ops := (if s.arb.holder = some .chain then (s.eng.ops.take 1).map EngineOp.discard else [])
          handoff := none, heldRead := false, nextId := s.eng.nextId } ∧
      (u.port 0).state = .active ∧ (∀ p : Fin 4, p ≠ 0 → (u.port p).state = .quiesced) ∧
      (∀ p : Fin 4,
        (u.port p).bus = (s.port p).bus ∧
        (u.port p).outstanding.length = (s.port p).outstanding.length ∧
        ∀ (n : Nat) (x : Access), (s.port p).outstanding[n]? = some x →
          ∃ y, (u.port p).outstanding[n]? = some y ∧ y.req = x.req ∧
            (∀ c e, x.stage = .waiting c e → y.stage = .decided .retry) ∧
            (∀ c e, x.stage = .inProgress c e → y.stage = .inProgress c none) ∧
            (∀ o, x.stage = .decided o → y.stage = x.stage) ∧ (∀ d, x.stage = .done d → y.stage = x.stage)) ∧
      u.speed.owner = none ∧ u.speed.demoted = 0 ∧
      (s.speed.state = .base ∨ s.speed.state = .full ∨ s.speed.state = .switchingDown ∨ s.speed.state = .lowering
          ∨ (s.speed.state = .switchingUp ∧ s.arb.holder = some .switch) →
        u.speed = { s.speed with owner := none, demoted := 0 }) ∧
      (s.speed.state = .raising ∨ s.speed.state = .locking →
        u.speed =
          { s.speed with owner := none, demoted := 0, state := .base, supply := .low, pll := .off, timer := none }) ∧
      (s.speed.state = .switchingUp → s.arb.holder ≠ some .switch →
        u.speed =
          { s.speed with
            owner := none, demoted := 0, state := .base, supply := .low, pll := .off, timer := none
            switchWaiting := false }) ∧
      (s.arb.holder ≠ some .transfer → u.arb.holder = s.arb.holder) ∧
      (∀ t b rest, s.bursting t b rest →
        (∀ a v, t.job = .fill a v → u.arb.holder = some (.orphan (.fill b.addr (List.replicate b.len v)))) ∧
        (∀ a v m, t.job = .scan a v m → u.arb.holder = some (.orphan .scan)) ∧
        (∀ x y, t.job = .copy x y →
          (b.half = .read → u.arb.holder = some (.orphan .copyRead)) ∧
          (b.half = .write → u.arb.holder = some (.orphan (.copyWrite b.addr t.buffer))))) ∧
      u.arb.prioPtr = s.arb.prioPtr ∧ u.arb.defPtr = s.arb.defPtr ∧ (∀ c : Claimant, u.passOf c = 0) ∧
      u.arb.reads = s.arb.reads ∧ u.ctl = s.ctl ∧ u.win = { s.win with anch := 0#32, evnt := 0#9, emsk := 0#9 } ∧
      u.delivered = s.delivered ∧ u.straps = s.straps ∧ u.inReset = false ∧ u.mem = s.mem ∧ u.epoch = s.epoch ∧
      u.pending = s.pending ∧
      -- what becomes of the granted operation
      ∀ op : EngineOp,
        (∀ a b, op = .recordRead a b → op.discard = .recordRead a false) ∧
        (∀ id w b, op = .armWait id w b → op.discard = .armWait id w false) ∧
        (∀ id a b, op = .armTail id a b → op.discard = .armTail id a false) ∧
        ((∃ id a, op = .taknWrite id a) ∨ (∃ id a rw, op = .replyWrite id a rw) ∨ (∃ id a c n, op = .resultWrite id a c n)
            ∨ (∃ b, op = .headerGo b) ∨ (∃ id n l, op = .headerTake id n l) ∨ (∃ a, op = .headerRetired a)
            ∨ (∃ k a, op = .headerFault k a) →
          op.discard = op)

/-- The other register writes: WSET (R181, R96), ANCH (R182), EMSK (R183), ECLR (R184), the registers and offsets that
ignore a write (R180); and no write acts during a full reset (the model's choice: log 20). -/
def Obligations.RegisterWrites : Prop :=
  ∀ (s : State) (w : Word),
    (s.inReset = false →
      (w.getLsbD 0 = false → w.getLsbD 1 = false → w.getLsbD 2 = false →
        (s.win.wsizeFixed = false →
          exec (.wset w) s = .next (arbitrate { s with win := { s.win with wsize := w.extractLsb' 4 2 } })) ∧
        (s.win.wsizeFixed = true → exec (.wset w) s = .next (arbitrate s))) ∧
      (w.getLsbD 0 = true → exec (.wset w) s = exec (.go (w ||| 0x80#32)) s) ∧
      (w.getLsbD 1 = true → exec (.wset w) s = exec (.stop (w ||| 0x80#32)) s) ∧
      (w.getLsbD 2 = true → exec (.wset w) s = exec (.softReset w) s) ∧
      (s.eng.reader = .stopped ∨ s.eng.reader = .faulted →
        exec (.anchWrite w) s = .next { s with win := { s.win with anch := w } }) ∧
      (s.eng.reader ≠ .stopped → s.eng.reader ≠ .faulted → exec (.anchWrite w) s = .next s) ∧
      exec (.emskWrite w) s = .next { s with win := { s.win with emsk := w.extractLsb' 0 9 } } ∧
      (∃ flags : BitVec 9,
        exec (.eclrWrite w) s = .next { s with win := { s.win with evnt := flags } } ∧
        ∀ j : Nat, j < 9 → flags.getLsbD j = (s.win.evnt.getLsbD j && !w.getLsbD j)) ∧
      ∀ offset : Word, offset ≠ 0x00#32 → offset ≠ 0x08#32 → offset ≠ 0x10#32 → offset ≠ 0x14#32 →
        exec (.registerWriteOther offset w) s = .next (arbitrate s)) ∧
    (s.inReset = true →
      exec (.go w) s = .next (arbitrate s) ∧ exec (.stop w) s = .next (arbitrate s) ∧
      exec (.softReset w) s = .next (arbitrate s) ∧ exec (.wset w) s = .next (arbitrate s) ∧
      exec (.anchWrite w) s = .next s ∧ exec (.emskWrite w) s = .next s ∧ exec (.eclrWrite w) s = .next s ∧
      ∀ offset : Word, exec (.registerWriteOther offset w) s = .next (arbitrate s))

/-- Full reset and its end (R27, R73, R95, R124, R141, R142, R145, R160, R161, R171, R174, R185). That the straps are
sampled at both moments (log 14), that the DRAM's contents are unlisted and that nothing but the epoch says which they are
(log 2), that the count of record reads goes on (log 18), and that an end without a full reset changes nothing (log 3), are the model's choices. -/
def Obligations.FullResetValues : Prop :=
  ∀ (s : State) (pins : Straps),
    (∃ t : State, exec (.fullReset pins) s = .next t ∧
      (∀ i : Fin 16, t.entry i = { status := .free none, inflight := 0, fault := none }) ∧
      t.table.unclaimed = none ∧ t.table.serial = 0#32 ∧ t.table.policy = .shared ∧
      (∀ k : Fin 8, t.slot k = none) ∧ t.queue = [] ∧
      t.eng =
        { reader := .stopped, tail := none, stopPending := false, taken := 0#32, takeList := [], active := [], ops := []
          handoff := none, heldRead := false, nextId := 0 } ∧
      t.port 0 = { state := .active, outstanding := [], bus := [] } ∧
      (∀ p : Fin 4, p ≠ 0 → t.port p = { state := .quiesced, outstanding := [], bus := [] }) ∧
      t.speed =
        { state := .base, supply := .low, pll := .off, iface := .base, timer := none, owner := none, demoted := 0
          switchWaiting := false } ∧
      t.ctl =
        { state := .init false, wakeCount := 0, released := false, wakeRecorded := false, code := 1#2, timer := none
          refreshDue := false } ∧
      t.arb.holder = none ∧ t.arb.prioPtr = 3 ∧ t.arb.defPtr = .transfer ∧ (∀ c : Claimant, t.passOf c = 0) ∧
      t.arb.reads = s.arb.reads ∧
      t.win = { wsize := 0#2, wsizeFixed := false, anch := 0#32, evnt := 0#9, emsk := 0#9 } ∧
      t.straps = pins ∧ t.inReset = true ∧ t.mem = [] ∧ t.epoch = s.epoch + 1 ∧ t.delivered = [] ∧
      t.pending = s.pending) ∧
    (s.inReset = true →
      exec (.fullResetEnd pins) s =
        .next { s with straps := pins, inReset := false, ctl := { s.ctl with state := .init true } }) ∧
    (s.inReset = false → exec (.fullResetEnd pins) s = .next s)

/-- What a register read returns (R180 to R182): CTRL, STAT, ANCH, EVNT, EMSK, and 0 elsewhere; the IRQ pin (R184); and the
raising of an event (R183): its place in EVNT, and that only an enabled event is recorded. -/
def Obligations.RegisterReadsAndEvents : Prop :=
  (Event.done.bit = 0 ∧ Event.watch.bit = 1 ∧ Event.expire.bit = 2 ∧ Event.fence.bit = 3 ∧ Event.cls.bit = 4 ∧
    Event.chain.bit = 5 ∧ Event.port.bit = 6 ∧ Event.wake.bit = 7 ∧ Event.speed.bit = 8) ∧
  (∀ (e : Event) (s : State), ∃ flags : BitVec 9,
    raise e s = { s with win := { s.win with evnt := flags } } ∧
    ∀ j : Nat, j < 9 → flags.getLsbD j = (s.win.evnt.getLsbD j || (j == e.bit && s.win.emsk.getLsbD j))) ∧
  ∀ s : State,
    ((s.regRead 0x00#32).extractLsb' 4 2 = s.win.wsize ∧ (s.regRead 0x00#32).extractLsb' 0 4 = 0#4 ∧
      (s.regRead 0x00#32).extractLsb' 6 26 = 0#26) ∧
    s.regRead 0x08#32 = s.win.anch ∧
    ((s.regRead 0x0C#32).extractLsb' 0 9 = s.win.evnt ∧ (s.regRead 0x0C#32).extractLsb' 9 23 = 0#23) ∧
    ((s.regRead 0x10#32).extractLsb' 0 9 = s.win.emsk ∧ (s.regRead 0x10#32).extractLsb' 9 23 = 0#23) ∧
    (∀ offset : Word, offset ≠ 0x00#32 → offset ≠ 0x04#32 → offset ≠ 0x08#32 → offset ≠ 0x0C#32 → offset ≠ 0x10#32 →
      s.regRead offset = 0#32) ∧
    (s.irq = true ↔ s.win.evnt ≠ 0#9) ∧
    (s.eng.active.length ≤ 8 → s.queue.length ≤ 4 → s.eng.takeList.length ≤ 32 →
      let v := s.regRead 0x04#32
      v.extractLsb' 0 3 =
        (match s.eng.reader with
          | .stopped => 0#3 | .examining _ => 1#3 | .taking _ _ _ _ => 1#3 | .arming _ => 1#3 | .atTail _ => 2#3
          | .stalled _ _ => 3#3 | .faulted => 4#3) ∧
      (∀ q a, s.eng.reader = .stalled q a →
        v.extractLsb' 3 3 =
          (match q with | .tableFull => 1#3 | .queueFull => 2#3 | .barrier => 3#3 | .retireFull => 4#3 | .waking => 5#3)) ∧
      ((∀ q a, s.eng.reader ≠ .stalled q a) → v.extractLsb' 3 3 = 0#3) ∧
      v.extractLsb' 6 3 =
        (match s.ctl.state with
          | .init _ => 0#3 | .run => 1#3 | .entering _ => 2#3 | .standby => 3#3 | .leaving _ => 4#3) ∧
      v.extractLsb' 9 3 =
        (match s.speed.state with
          | .base => 0#3 | .raising => 1#3 | .locking => 2#3 | .switchingUp => 3#3 | .full => 4#3
          | .switchingDown => 5#3 | .lowering => 6#3) ∧
      v.extractLsb' 12 4 = BitVec.ofNat 4 s.eng.active.length ∧ v.extractLsb' 16 3 = BitVec.ofNat 3 s.queue.length ∧
      v.extractLsb' 19 6 = BitVec.ofNat 6 s.eng.takeList.length ∧ v.getLsbD 25 = s.win.wsizeFixed ∧
      v.extractLsb' 26 2 = s.straps.size ∧ v.getLsbD 28 = s.straps.wide ∧ v.extractLsb' 29 3 = 0#3)

/-! ## Ports -/

/-- An access arrives (R126, R130, R127, R131, R146, R176; R4 and R5 for the table; responses by R128). An access that the
port cannot accept yet stays on its bus, in order (log 9): `acceptHeld p` accepts the accesses of a bus one by one while the
outstanding list holds fewer than 2, and `becomes w` says that `w` is the state after the arrival of `x`, presented on an
empty bus or the oldest held on one. -/
def Obligations.AccessIsDecidedAtArrival : Prop :=
  ∀ (s : State) (p : Fin 4) (x : AccessReq), s.inReset = false →
    let joins : State → AccessStage → State := fun u st =>
      flush p (u.putOutstanding p ((s.port p).outstanding ++ [{ req := x, stage := st }]))
    let becomes : State → Prop := fun w =>
      ((s.port p).bus = [] → exec (.accessArrival p x) s = .next (arbitrate w)) ∧
        ∀ held, acceptHeld p (x :: held) s = acceptHeld p held w
    (exec (.accessArrival p x) s = .next (arbitrate (acceptHeld p ((s.port p).bus ++ [x]) s))) ∧
    acceptHeld p [] s = { s with ports := s.ports.set p { s.port p with bus := [] } } ∧
    Machine.answer p s = acceptHeld p (s.port p).bus (flush p s) ∧
    (2 ≤ (s.port p).outstanding.length →
      ∀ held, acceptHeld p (x :: held) s = { s with ports := s.ports.set p { s.port p with bus := x :: held } }) ∧
    ((s.port p).outstanding.length < 2 →
      (badAccess x → becomes (joins s (.decided .aborted))) ∧
      (¬badAccess x →
        ((s.port p).state = .quiesced → becomes (joins s (.decided .retry))) ∧
        ((s.port p).state = .disabled → becomes (joins s (.decided .unclaimed))) ∧
        ((∃ q, (s.port p).state = .resetting q) → becomes (joins s (.decided .aborted))) ∧
        ((s.port p).state = .active →
          (∀ d, s.lookup p false x.dir x.addr.toNat = .denied d →
            becomes (joins (raise .fence (recordDenial d p false x.dir x.addr s)) (.decided .denied))) ∧
          (∀ c e, s.lookup p false x.dir x.addr.toNat = .allowed c e →
            becomes
              (joins { countIn e s with ctl := if p = 0 then s.ctl.release.wake else s.ctl } (.waiting c e)))))) ∧
    -- what the two changes of the table are (R4, R5)
    (∀ i : Fin 16, countIn (some i) s = s.putEntry i { s.entry i with inflight := (s.entry i).inflight + 1 }) ∧
    countIn none s = s ∧
    (∀ (i : Fin 16) (tr : Bool) (d : Dir) (a : Word),
      recordDenial (.entry i) p tr d a s =
        s.putEntry i
          { s.entry i with
            fault := some
              { port := p, transfer := tr, dir := d, addr := a, cause := .entry
                denied := match (s.entry i).fault with
                  | none => 1
                  | some f => min 255 (f.denied + 1) } }) ∧
    (∀ (c : FaultCause) (tr : Bool) (d : Dir) (a : Word),
      recordDenial (.unclaimed c) p tr d a s =
        { s with
          table :=
            { s.table with
              unclaimed := some
                { port := p, transfer := tr, dir := d, addr := a, cause := c
                  denied := match s.table.unclaimed with
                    | none => 1
                    | some f => min 255 (f.denied + 1) } } })

/-- The granted access of a port completes (R129, R127, R59): the count first, then the write with its evaluation, then
DONE and the responses. Accesses held on the bus are accepted as places become free (R126, log 9; AccessIsDecidedAtArrival
says how). -/
def Obligations.AccessCompletes : Prop :=
  ∀ (s : State) (p : Fin 4) (before after : List Access) (x : Access) (c : BwClass) (e : Option (Fin 16)),
    s.arb.holder = some (.port p) → (s.port p).outstanding = before ++ x :: after → x.stage = .inProgress c e →
    (∀ y ∈ before ++ after, ∀ c e, y.stage ≠ .inProgress c e) →
    let u := countOut e s.released
    let finishes : State → List Word → State := fun v ws =>
      Machine.answer p (v.putOutstanding p (before ++ { x with stage := .done ws } :: after))
    (∀ n, x.req.op = .read n →
      exec .accessComplete s = .next (arbitrate (finishes u (s.wordsAt x.req.addr.toNat n)))) ∧
    (∀ ws, x.req.op = .write ws →
      exec .accessComplete s = .next (arbitrate (finishes (storeAndEvaluate x.req.addr.toNat ws u) []))) ∧
    (∀ v : State, (v.port p).bus = [] → Machine.answer p v = flush p v)

/-- The lookup (R8 to R12). -/
def Obligations.LookupDecides : Prop :=
  ∀ (s : State) (p : Fin 4) (tr : Bool) (d : Dir) (a : Nat),
    (s.dramBytes ≤ a → s.lookup p tr d a = .denied (.unclaimed .beyondDram)) ∧
    (a < s.dramBytes → s.workBase ≤ a →
      (p = 0 → s.lookup p tr d a = .allowed .default none) ∧
      (p ≠ 0 → s.lookup p tr d a = .denied (.unclaimed .workArea))) ∧
    (a < s.dramBytes → a < s.workBase →
      ((∀ i : Fin 16, ¬(s.entry i).rangeHolds a) →
        (p = 0 → s.lookup p tr d a = .allowed .default none) ∧
        (p ≠ 0 → s.lookup p tr d a = .denied (.unclaimed .noMatch))) ∧
      ∀ i : Fin 16, (s.entry i).rangeHolds a → (∀ j : Fin 16, j < i → ¬(s.entry j).rangeHolds a) →
        (∀ g k c q, (s.entry i).status = .retiring g k c q → s.lookup p tr d a = .denied (.entry i)) ∧
        (∀ g w, (s.entry i).status = .opened g w →
          let right := w.rights.getLsbD (2 * p.val + (if d = .read then 0 else 1))
          (right = true → s.lookup p tr d a = .allowed .default (some i)) ∧
          (right = false → s.lookup p tr d a = .denied (.entry i))) ∧
        (∀ g l, (s.entry i).status = .leased g l →
          let holder := l.holders.getLsbD p.val
          let allowed := (l.mode = .exclusive ∧ holder = true) ∨ (l.mode = .sharedRead ∧ holder = true ∧ d = .read)
            ∨ (l.mode = .holderWrite ∧ (holder = true ∨ d = .read))
          (¬allowed → s.lookup p tr d a = .denied (.entry i)) ∧
          (allowed → l.cls = .priority → holder = true → tr = false →
            s.lookup p tr d a = .allowed .priority (some i)) ∧
          (allowed → (l.cls = .default ∨ holder = false ∨ tr = true) →
            s.lookup p tr d a = .allowed .default (some i))))

/-- The steps that PORT to DISABLED and PRST share (R45, R91, R93, R135, R136), and the delivery of responses (R128,
R138). -/
def Obligations.PortActions : Prop :=
  ∀ (s : State) (p : Fin 4),
    -- the withdrawal
    (withdrawPort p s =
      ((s.port p).outstanding.map Access.waitingEntry).foldl (fun t e => countOut e t)
        { s.putOutstanding p
            ((s.port p).outstanding.map
              (fun x => match x.stage with | .waiting _ _ => { x with stage := .decided .aborted } | _ => x)) with
          arb := { s.arb with pass := s.arb.pass.set p.val 0 } }) ∧
    -- the release from leases
    (∃ v : Vector Entry 16, releasePort p s = { s with table := { s.table with entries := v } } ∧
      ∀ i : Fin 16,
        ((∀ g l, (s.entry i).status = .leased g l → l.holders.getLsbD p.val = false) → v[i] = s.entry i) ∧
        (∀ g l, (s.entry i).status = .leased g l → l.holders.getLsbD p.val = true →
          (l.holders = 1#4 <<< p.val → (s.entry i).inflight = 0 →
            v[i] = { s.entry i with status := .free (some .port) }) ∧
          (l.holders = 1#4 <<< p.val → 1 ≤ (s.entry i).inflight →
            v[i] = { s.entry i with status := .retiring g (.lease { l with expiry := none }) .port none }) ∧
          (l.holders ≠ 1#4 <<< p.val →
            v[i] =
              { s.entry i with
                status := .leased g { l with holders := l.holders &&& ~~~(1#4 <<< p.val) } }))) ∧
    -- the cancellation of transfers
    (cancelForPort p s =
      (s.queue.filter (fun t => t.port == p && t.state == .waiting)).foldl
        (fun u t => finishTransfer t.owner .canc t.cancReplies u)
        { s with
          queue :=
            (s.queue.filter (fun t => !(t.port == p && t.state == .waiting))).map
              (fun t => if t.port = p then { t with state := .stopping } else t) }) ∧
    -- the delivery
    (∀ (first rest : List Access) (given : List Response), (s.port p).outstanding = first ++ rest →
      first.length = given.length →
      (∀ (n : Nat) (x : Access) (y : Response), first[n]? = some x → given[n]? = some y → x.responds p y) →
      (∀ x, rest.head? = some x → ∀ y, ¬x.responds p y) →
      flush p s =
        { s with
          delivered := s.delivered ++ given
          ports :=
            s.ports.set p
              { s.port p with
                outstanding := rest
                state := match (s.port p).state with
                  | .resetting q => .resetting { q with drainAccesses := q.drainAccesses - first.length }
                  | st => st } })

/-! ## The transfer unit -/

/-- A burst is formed and looked up (R81, R82, R83, R88), and a transfer's end is handed over (R87, R93). -/
def Obligations.BurstIsFormedAndLookedUp : Prop :=
  (∀ (s : State), runQueue [] s = { s with queue := [] }) ∧
  (∀ (t : Transfer) (rest : List Transfer) (s : State),
    let b := t.nextBurst
    (∀ c e, s.lookup t.port true b.half b.addr.toNat = .allowed c e →
      runQueue (t :: rest) s =
        { countIn e s with queue := { t with state := .running, burst := some { b with entry := e } } :: rest }) ∧
    (∀ d : DenyRecord, s.lookup t.port true b.half b.addr.toNat = .denied d →
      ∀ n : Nat, ((∃ i : Fin 16, d = .entry i ∧ n = i.val) ∨ ((∃ c, d = .unclaimed c) ∧ n = 16)) →
        runQueue (t :: rest) s =
          runQueue rest
            (finishTransfer t.owner .fenc
              { rw0 := BitVec.ofNat 32 t.done, rw1 := b.addr
                rw2 := (match b.half with | .read => 0#32 | .write => 1#32), rw3 := BitVec.ofNat 32 n }
              (raise .fence (recordDenial d t.port true b.half b.addr s))))) ∧
  (∀ (t : Transfer),
    let here := fun a : Word => a + BitVec.ofNat 32 (4 * t.done)
    let piece := fun a : Word => pieceLength (here a) (t.count - t.done)
    (∀ dst v, t.job = .fill dst v →
      t.nextBurst = { addr := here dst, len := piece dst, half := .write, entry := none, granted := false }) ∧
    (∀ a v m, t.job = .scan a v m →
      t.nextBurst = { addr := here a, len := piece a, half := .read, entry := none, granted := false }) ∧
    (∀ src dst, t.job = .copy src dst →
      (t.buffer = [] →
        t.nextBurst =
          { addr := here src, len := min (piece src) (piece dst), half := .read, entry := none, granted := false }) ∧
      (t.buffer ≠ [] →
        t.nextBurst = { addr := here dst, len := t.buffer.length, half := .write, entry := none, granted := false }))) ∧
  (∀ (id : RecId) (c : ResultCode) (rw : Replies) (s : State) (p : Fin 4),
    let u := finishTransfer id c rw s
    u = { complete id c rw s with ports := u.ports } ∧
    (∀ q, (s.port p).state = .resetting q →
      u.port p =
        { s.port p with
          state := .resetting { q with drainTransfers := q.drainTransfers.filter (fun i => i != id) } }) ∧
    ((∀ q, (s.port p).state ≠ .resetting q) → u.port p = s.port p))

/-- A FILL burst completes (R84, R87, R91), or one that has outlived a soft reset (R94). -/
def Obligations.FillBurstStoresPattern : Prop :=
  ∀ s : State,
    (∀ (t : Transfer) (b : Burst) (rest : List Transfer) (dst v : Word), s.bursting t b rest → t.job = .fill dst v →
      let u := storeAndEvaluate b.addr.toNat (List.replicate b.len v) (countOut b.entry s.released)
      let t' := { t with done := t.done + b.len, burst := none }
      (t.state = .stopping →
        exec .fillBurstComplete s =
          .next (arbitrate (runQueue rest (finishTransfer t.owner .canc (replies t'.done 0 0 0) u)))) ∧
      (t.state ≠ .stopping → t'.done = t.count →
        exec .fillBurstComplete s =
          .next (arbitrate (runQueue rest (finishTransfer t.owner .okay (replies t.count 0 0 0) u)))) ∧
      (t.state ≠ .stopping → t'.done ≠ t.count →
        exec .fillBurstComplete s = .next (arbitrate (runQueue (t' :: rest) u)))) ∧
    (∀ a ws, s.arb.holder = some (.orphan (.fill a ws)) →
      exec .fillBurstComplete s = .next (arbitrate (storeAndEvaluate a.toNat ws s.released)))

/-- The two bursts of a COPY's piece complete (R85, R87, R91), or ones that have outlived a soft reset (R94). -/
def Obligations.CopyBurstsMovePiece : Prop :=
  ∀ s : State,
    (∀ (t : Transfer) (b : Burst) (rest : List Transfer) (src dst : Word), s.bursting t b rest →
      t.job = .copy src dst →
      (b.half = .read →
        let u := countOut b.entry s.released
        (t.state = .stopping →
          exec .copyReadBurstComplete s =
            .next (arbitrate (runQueue rest (finishTransfer t.owner .canc (replies t.done 0 0 0) u)))) ∧
        (t.state ≠ .stopping →
          exec .copyReadBurstComplete s =
            .next (arbitrate
              (runQueue ({ t with buffer := s.wordsAt b.addr.toNat b.len, burst := none } :: rest) u)))) ∧
      (b.half = .write →
        let u := storeAndEvaluate b.addr.toNat t.buffer (countOut b.entry s.released)
        let t' := { t with done := t.done + b.len, burst := none, buffer := [] }
        (t.state = .stopping →
          exec .copyWriteBurstComplete s =
            .next (arbitrate (runQueue rest (finishTransfer t.owner .canc (replies t'.done 0 0 0) u)))) ∧
        (t.state ≠ .stopping → t'.done = t.count →
          exec .copyWriteBurstComplete s =
            .next (arbitrate (runQueue rest (finishTransfer t.owner .okay (replies t.count 0 0 0) u)))) ∧
        (t.state ≠ .stopping → t'.done ≠ t.count →
          exec .copyWriteBurstComplete s = .next (arbitrate (runQueue (t' :: rest) u))))) ∧
    (s.arb.holder = some (.orphan .copyRead) → exec .copyReadBurstComplete s = .next (arbitrate s.released)) ∧
    (∀ a ws, s.arb.holder = some (.orphan (.copyWrite a ws)) →
      exec .copyWriteBurstComplete s = .next (arbitrate (storeAndEvaluate a.toNat ws s.released)))

/-- A SCAN burst completes (R79, R86, R87, R91), or one that has outlived a soft reset (R94): the words it examines, and
the mismatch among them. -/
def Obligations.ScanBurstExamines : Prop :=
  ∀ s : State,
    (∀ (t : Transfer) (b : Burst) (rest : List Transfer) (a v m : Word), s.bursting t b rest → t.job = .scan a v m →
      let u := countOut b.entry s.released
      let differs := fun x : Word => x &&& m ≠ v &&& m
      let scanned : Nat → Option (Word × Word) → Transfer := fun n q =>
        { t with done := t.done + n, burst := none, mismatch := q }
      let ends : ResultCode → Replies → Prop := fun c rw =>
        exec .scanBurstComplete s = .next (arbitrate (runQueue rest (finishTransfer t.owner c rw u)))
      (∀ (same after : List Word) (x : Word), s.wordsAt b.addr.toNat b.len = same ++ x :: after →
        (∀ y ∈ same, ¬differs y) → differs x →
        let n := BitVec.ofNat 32 (t.done + (same.length + 1))
        let found := b.addr + BitVec.ofNat 32 (4 * same.length)
        (t.state = .stopping → ends .canc { rw0 := n, rw1 := found, rw2 := x, rw3 := 0#32 }) ∧
        (t.state ≠ .stopping → ends .okay { rw0 := found, rw1 := x, rw2 := n, rw3 := 0#32 })) ∧
      ((∀ y ∈ s.wordsAt b.addr.toNat b.len, ¬differs y) →
        let n := BitVec.ofNat 32 (t.done + b.len)
        (t.state = .stopping → ends .canc { rw0 := n, rw1 := 0xFFFFFFFF#32, rw2 := 0#32, rw3 := 0#32 }) ∧
        (t.state ≠ .stopping → t.done + b.len = t.count →
          ends .okay { rw0 := 0xFFFFFFFF#32, rw1 := 0#32, rw2 := n, rw3 := 0#32 }) ∧
        (t.state ≠ .stopping → t.done + b.len ≠ t.count →
          exec .scanBurstComplete s = .next (arbitrate (runQueue (scanned b.len none :: rest) u))))) ∧
    (s.arb.holder = some (.orphan .scan) → exec .scanBurstComplete s = .next (arbitrate s.released))

/-! ## Writes of the DRAM and the watch unit -/

/-- The engine's writes of the header (R97, R102, R117, R119). That the words are evaluated, with all that a fire does,
before the link step and before CHAIN is the model's choice (log 32). -/
def Obligations.HeaderWritesComplete : Prop :=
  ∀ s : State,
    let written := fun (n : Nat) (ws : List Word) => storeAndEvaluate (s.workBase + n) ws s.opDone
    (s.operating (.headerGo none) →
      exec .headerWriteComplete s = .next (arbitrate (written 0 (List.replicate 16 0#32)))) ∧
    (∀ a, s.operating (.headerGo (some a)) →
      exec .headerWriteComplete s =
        .next (arbitrate (raise .chain (written 0 ([0#32, 0#32, 0#32, a, 1#32] ++ List.replicate 11 0#32))))) ∧
    (∀ a, s.operating (.headerFault .badLink a) →
      exec .headerWriteComplete s = .next (arbitrate (raise .chain (written 12 [a, 2#32])))) ∧
    (∀ a, s.operating (.headerFault .notFresh a) →
      exec .headerWriteComplete s = .next (arbitrate (raise .chain (written 12 [a, 3#32])))) ∧
    (∀ id n l, s.operating (.headerTake id n l) →
      (∀ a link, (written 4 [n, l]).eng.reader = .taking id a link .header →
        exec .headerWriteComplete s = .next (arbitrate (linkStep id a link (written 4 [n, l])))) ∧
      ((∀ a link, (written 4 [n, l]).eng.reader ≠ .taking id a link .header) →
        exec .headerWriteComplete s = .next (arbitrate (written 4 [n, l]))))

/-- The engine's writes of a record and of RETIRED (R98, R100, R102, R104, R110, R186): where they go, what they store, and
what the RESULT write of a final code does beside. That the words are evaluated, with all that a fire does, before the record
is FINAL, DONE, the link step and retirement is the model's choice (log 32); the order of the last two is log 31. -/
def Obligations.RecordWritesComplete : Prop :=
  ∀ s : State,
    (∀ id a, s.operating (.taknWrite id a) →
      exec .engineWriteComplete s =
        .next (arbitrate (storeAndEvaluate (a.toNat + 8) [0x4E4B4154#32] s.opDone))) ∧
    (∀ id a rw, s.operating (.replyWrite id a rw) →
      exec .engineWriteComplete s =
        .next (arbitrate (storeAndEvaluate (a.toNat + 48) [rw.rw0, rw.rw1, rw.rw2, rw.rw3] s.opDone))) ∧
    (∀ a, s.operating (.headerRetired a) →
      exec .engineWriteComplete s = .next (arbitrate (storeAndEvaluate s.workBase [a] s.opDone))) ∧
    (∀ id a c notify, s.operating (.resultWrite id a c notify) →
      let u := storeAndEvaluate (a.toNat + 8) [c.word] s.opDone
      let final := fun y : TakeRecord =>
        if y.id = id then
          match y.stage with
          | .writing c rw => { y with stage := .final c rw }
          | _ => y
        else y
      let v := { u with
        eng := { u.eng with takeList := u.eng.takeList.map final }
        win := if notify then u.win.raise .done else u.win }
      (∀ b link, u.eng.reader = .taking id b link .result →
        exec .resultWriteComplete s = .next (arbitrate (retire (linkStep id b link v)))) ∧
      ((∀ b link, u.eng.reader ≠ .taking id b link .result) →
        exec .resultWriteComplete s = .next (arbitrate (retire v))))

/-- The arming read of slot 0 completes (R70, R71, R106, R121). -/
def Obligations.ChainWatchArming : Prop :=
  ∀ (s : State) (id : RecId) (a : Word),
    (s.operating (.armTail id a false) → exec .chainWatchArmingReadComplete s = .next (arbitrate s.opDone)) ∧
    (s.operating (.armTail id a true) →
      let v := s.wordAt a.toNat
      (s.eng.stopPending = true →
        exec .chainWatchArmingReadComplete s =
          .next (arbitrate
            { s.opDone with eng := { s.opDone.eng with reader := .stopped, stopPending := false } })) ∧
      (s.eng.stopPending = false → v = 0#32 →
        exec .chainWatchArmingReadComplete s =
          .next (arbitrate
            ({ s.opDone with
                slots := s.slots.set 0
                  (some
                    { armed := .matching, addr := a, mask := 0xFFFFFFFF#32, compare := 0#32, timeout := none
                      release := none, owner := id }) }.withReader (.atTail id)))) ∧
      (s.eng.stopPending = false → v ≠ 0#32 →
        exec .chainWatchArmingReadComplete s = .next (arbitrate (linkStep id a v s.opDone))))

/-- A completed write is stored and evaluated (R58 to R60, R64, R71, R47, R151, 00_scope.md section 3): each word reads
back, the bytes outside the write stay, and nothing else of the state moves; then the words ascending, each at the slots 0
to 7 (log 12), and what one slot does. -/
def Obligations.EvaluatedWriteStoresAndActs : Prop :=
  (∀ (s : State) (a : Nat) (ws : List Word),
    s.store a ws = { s with mem := (s.store a ws).mem } ∧
    (∀ (n : Nat) (w : Word), ws[n]? = some w → (s.store a ws).wordAt (a + 4 * n) = w) ∧
    (∀ b : Nat, b < a ∨ a + 4 * ws.length ≤ b → (s.store a ws).byteAt b = s.byteAt b)) ∧
  (∀ (s : State) (a : Nat) (ws : List Word), storeAndEvaluate a ws s = evaluate a ws (s.store a ws)) ∧
  (∀ (s : State) (a : Nat), evaluate a [] s = s) ∧
  (∀ (s : State) (a : Nat) (v : Word) (vs : List Word),
    evaluate a (v :: vs) s =
      evaluate (a + 4) vs (([0, 1, 2, 3, 4, 5, 6, 7] : List (Fin 8)).foldl (fun t k => evaluateSlot a v t k) s)) ∧
  (∀ (s : State) (a : Nat) (v : Word) (k : Fin 8),
    (s.slot k = none → evaluateSlot a v s k = s) ∧
    ∀ w : WatchSlot, s.slot k = some w →
      let same := v &&& w.mask = w.compare &&& w.mask
      let freed : State := { s with slots := s.slots.set k none }
      (w.addr.toNat ≠ a → evaluateSlot a v s k = s) ∧
      (w.addr.toNat = a →
        (w.armed = .matching → same → evaluateSlot a v s k = s) ∧
        (w.armed = .waiting → ¬same → evaluateSlot a v s k = s) ∧
        (w.armed = .waiting → same →
          evaluateSlot a v s k = { s with slots := s.slots.set k (some { w with armed := .matching }) }) ∧
        (w.armed = .matching → ¬same → k ≠ 0 →
          evaluateSlot a v s k =
            raise .watch
              (complete w.owner .okay
                { rw0 := v, rw1 := BitVec.ofNat 32 (s.releaseOutcome w.release), rw2 := BitVec.ofNat 32 k.val
                  rw3 := 0#32 }
                (watchRelease w.release freed))) ∧
        (w.armed = .matching → ¬same → k = 0 → evaluateSlot a v s k = followLink v freed))) ∧
  (∀ s : State,
    s.releaseOutcome none = 0 ∧ watchRelease none s = s ∧
    ∀ i : Fin 16,
      ((∀ g l, (s.entry i).status ≠ .leased g l) → s.releaseOutcome (some i) = 3 ∧ watchRelease (some i) s = s) ∧
      ∀ g l, (s.entry i).status = .leased g l →
        ((s.entry i).inflight = 0 →
          s.releaseOutcome (some i) = 1 ∧
          watchRelease (some i) s = s.putEntry i { s.entry i with status := .free (some .released) }) ∧
        (1 ≤ (s.entry i).inflight →
          s.releaseOutcome (some i) = 2 ∧
          watchRelease (some i) s =
            s.putEntry i
              { s.entry i with status := .retiring g (.lease { l with expiry := none }) .released none }))

/-! ## The arbiter -/

/-- The arbiter's choice (R151, R152) and the claims that wait (R100, R129, R150): a port's oldest WAITING access with its
class; the head of the operation list, or the one behind it while the head is granted; the ungranted burst of the head
transfer. `Claimant.after` and `portAfter` say how far after its pointer a claimant comes. -/
def Obligations.ArbiterChoiceOrder : Prop :=
  ∀ s : State,
    let waits : Claimant → Prop := fun c => s.waitingClaim c = some .default
    let passed : Claimant → Prop := fun c => waits c ∧ s.passOf c = 8
    let prio : Fin 4 → Prop := fun p => s.portClaim p = some .priority
    let first : (Claimant → Prop) → Claimant → Prop := fun P c =>
      P c ∧ ∀ d, P d → c.after s.arb.defPtr ≤ d.after s.arb.defPtr
    (s.ctl.refreshDue = true → s.choice = some .refresh) ∧
    (s.ctl.refreshDue = false →
      (s.speed.switchWaiting = true → s.choice = some .switch) ∧
      (s.speed.switchWaiting = false →
        (∀ c, first passed c → s.choice = some (.default c)) ∧
        ((∀ c, ¬passed c) →
          (∀ p, prio p → (∀ q, prio q → portAfter p s.arb.prioPtr ≤ portAfter q s.arb.prioPtr) →
            s.choice = some (.priority p)) ∧
          ((∀ p, ¬prio p) →
            (∀ c, first waits c → s.choice = some (.default c)) ∧
            ((∀ c, ¬waits c) → s.choice = none))))) ∧
    -- the claims
    (∀ p : Fin 4,
      s.waitingClaim (.port p) = s.portClaim p ∧
      ((∀ x ∈ (s.port p).outstanding, ∀ c e, x.stage ≠ .waiting c e) → s.portClaim p = none) ∧
      ∀ (before after : List Access) (x : Access) (c : BwClass) (e : Option (Fin 16)),
        (s.port p).outstanding = before ++ x :: after → (∀ y ∈ before, ∀ c e, y.stage ≠ .waiting c e) →
        x.stage = .waiting c e → s.portClaim p = some c) ∧
    s.waitingClaim .chain = (if s.chainClaim = true then some .default else none) ∧
    (s.chainClaim = true ↔
      (s.arb.holder = some .chain ∧ ∃ op next rest, s.eng.ops = op :: next :: rest)
        ∨ (s.arb.holder ≠ some .chain ∧ s.eng.ops ≠ [])) ∧
    s.waitingClaim .transfer = (if s.transferClaim = true then some .default else none) ∧
    (s.transferClaim = true ↔ ∃ t rest b, s.queue = t :: rest ∧ t.burst = some b ∧ b.granted = false)

/-- The grant of the chosen claim (R100, R107, R129, R148, R151 to R153, R157, R174). -/
def Obligations.ArbiterGrants : Prop :=
  ∀ s : State,
    (s.ctl.state ≠ .run → s.ctl.state ≠ .entering .draining → arbitrate s = s) ∧
    (s.arb.holder ≠ none → arbitrate s = s) ∧
    (s.arb.holder = none → s.ctl.state = .entering .draining →
      arbitrate s = { s with ctl := { s.ctl with state := .entering .finalRefresh, refreshDue := false } }) ∧
    (s.arb.holder = none → s.ctl.state = .run →
      (s.choice = none → arbitrate s = s) ∧
      (s.choice = some .refresh →
        arbitrate s =
          { s with
            arb := { s.arb with holder := some .refresh }
            ctl := { s.ctl with refreshDue := false } }) ∧
      (s.choice = some .switch →
        arbitrate s =
          { s with
            arb := { s.arb with holder := some .switch }
            speed := { s.speed with switchWaiting := false } }) ∧
      (∀ p : Fin 4, s.choice = some (.priority p) →
        ∃ counts : Vector Nat 6,
          arbitrate s =
            { s with
              arb := { s.arb with holder := some (.port p), prioPtr := p, pass := counts }
              ports := s.ports.set p { s.port p with outstanding := grantOldest (s.port p).outstanding } } ∧
          ∀ c : Claimant,
            (c = .port p → counts[c.index] = 0) ∧
            (c ≠ .port p → s.waitingClaim c = some .default → counts[c.index] = min 8 (s.passOf c + 1)) ∧
            (c ≠ .port p → s.waitingClaim c ≠ some .default → counts[c.index] = s.passOf c)) ∧
      (∀ p : Fin 4, s.choice = some (.default (.port p)) →
        arbitrate s =
          { s with
            arb := { s.arb with holder := some (.port p), defPtr := .port p, pass := s.arb.pass.set p.val 0 }
            ports := s.ports.set p { s.port p with outstanding := grantOldest (s.port p).outstanding } }) ∧
      (s.choice = some (.default .chain) →
        ∃ rd : Reader,
          arbitrate s =
            { s with
              arb := { s.arb with holder := some .chain, defPtr := .chain, pass := s.arb.pass.set 4 0 }
              eng := { s.eng with reader := rd } } ∧
          (∀ a b rest, s.eng.reader = .stalled .waking a → s.eng.ops = .recordRead b true :: rest → rd = .examining a) ∧
          ((∀ a, s.eng.reader ≠ .stalled .waking a) ∨ (∀ b rest, s.eng.ops ≠ .recordRead b true :: rest) →
            rd = s.eng.reader)) ∧
      (s.choice = some (.default .transfer) → ∀ t rest, s.queue = t :: rest →
        arbitrate s =
          { s with
            arb := { s.arb with holder := some .transfer, defPtr := .transfer, pass := s.arb.pass.set 5 0 }
            queue := { t with burst := t.burst.map (fun b => { b with granted := true }) } :: rest })) ∧
    (∀ (before after : List Access) (x : Access) (c : BwClass) (e : Option (Fin 16)), x.stage = .waiting c e →
      (∀ y ∈ before, ∀ c e, y.stage ≠ .waiting c e) →
      grantOldest (before ++ x :: after) = before ++ { x with stage := .inProgress c e } :: after)

/-! ## Timers and speed control -/

/-- The lease tick, the expiry of a lease and the timeout of a watch (R36, R37, R66, R162). That the tick which brings a
count to 0 marks its timer, and what the timer does then is a step of its own, is the model's reading (log 5); that a
command naming a timer which is not due changes nothing is log 3. -/
def Obligations.TimersCountAndEnd : Prop :=
  ∀ s : State,
    exec .leaseTick s =
      .next
        { s with
          table := { s.table with entries := mapVec Entry.tick s.table.entries }
          slots := mapVec (Option.map (fun w => { w with timeout := w.timeout.map Timer.tick })) s.slots
          speed := { s.speed with timer := s.speed.timer.map Timer.tick } } ∧
    (∀ t : Timer, t.due = false →
      (t.fresh = true → t.tick = { t with fresh := false }) ∧
      (t.fresh = false → 2 ≤ t.remaining → t.tick = { t with remaining := t.remaining - 1 }) ∧
      (t.fresh = false → t.remaining ≤ 1 → t.tick = { t with due := true })) ∧
    (∀ e : Entry,
      (∀ g l, e.status = .leased g l →
        e.tick = { e with status := .leased g { l with expiry := l.expiry.map Timer.tick } }) ∧
      ((∀ g l, e.status ≠ .leased g l) → e.tick = e)) ∧
    (∀ i : Fin 16,
      (∀ g l t, (s.entry i).status = .leased g l → l.expiry = some t → t.due = true →
        ((s.entry i).inflight = 0 →
          exec (.leaseExpiry i) s =
            .next (raise .expire (s.putEntry i { s.entry i with status := .free (some .expired) }))) ∧
        (1 ≤ (s.entry i).inflight →
          exec (.leaseExpiry i) s =
            .next (s.putEntry i
              { s.entry i with status := .retiring g (.lease { l with expiry := none }) .expired none }))) ∧
      ((∀ g l t, (s.entry i).status = .leased g l → l.expiry = some t → t.due = false) →
        exec (.leaseExpiry i) s = .next s)) ∧
    (∀ k : Fin 8,
      (∀ w t, s.slot k = some w → w.timeout = some t → t.due = true →
        exec (.watchTimeout k) s =
          .next (arbitrate
            (complete w.owner .time
              (replies (match w.armed with | .matching => 1 | .waiting => 2) 0 k.val 0)
              { s with slots := s.slots.set k none }))) ∧
      ((∀ w t, s.slot k = some w → w.timeout = some t → t.due = false) →
        exec (.watchTimeout k) s = .next (arbitrate s)))

/-- The steps of an up and of a down sequence (R165 to R169), also of a sequence that a soft reset has left without an
owner (R170). -/
def Obligations.SpeedSequenceSteps : Prop :=
  ∀ s : State,
    let due := ∃ t, s.speed.timer = some t ∧ t.due = true
    let hands : ResultCode → Replies → State → State := fun c rw u =>
      match s.speed.owner with
      | some id => raise .speed (complete id c rw { u with speed := { u.speed with owner := none } })
      | none => u
    (s.speed.state = .raising → due →
      exec .raisingEnd s =
        .next { s with speed := { s.speed with state := .locking, pll := .running, timer := freshTimer 4 } }) ∧
    (s.speed.state = .locking → due →
      exec (.lockingEnd true) s =
        .next (arbitrate
          { s with speed := { s.speed with state := .switchingUp, timer := none, switchWaiting := true } }) ∧
      exec (.lockingEnd false) s =
        .next (arbitrate
          (hands .fail noReplies
            { s with speed := { s.speed with state := .base, supply := .low, pll := .off, timer := none } }))) ∧
    (s.speed.state = .switchingUp → s.arb.holder = some .switch →
      exec .switchUpComplete s =
        .next (arbitrate
          (hands .okay (replies 1 0 0 0)
            { s.released with speed := { s.speed with state := .full, iface := .full } }))) ∧
    (s.speed.state = .switchingDown → s.arb.holder = some .switch →
      exec .switchDownComplete s =
        .next (arbitrate
          { s.released with
            speed :=
              { s.speed with
                state := .lowering
                iface := .base
                pll := .off
                supply := .low
                timer := freshTimer 1 } })) ∧
    (s.speed.state = .lowering → due →
      exec .loweringEnd s =
        .next (arbitrate
          (hands .okay (replies 0 s.speed.demoted 0 0)
            { s with speed := { s.speed with state := .base, timer := none, demoted := 0 } })))

/-! ## The controller -/

/-- INIT and refresh (R145 to R149). -/
def Obligations.InitAndRefresh : Prop :=
  ∀ s : State,
    (s.ctl.state = .init true →
      let n := min 8 (s.ctl.wakeCount + 1)
      (n = 8 → s.ctl.released = true →
        exec .wakeCycleComplete s =
          .next (arbitrate
            { s with
              ctl :=
                { s.ctl with
                  state := .run
                  timer := some s.ctl.code
                  wakeCount := n
                  released := false } })) ∧
      (n < 8 ∨ s.ctl.released = false →
        exec .wakeCycleComplete s = .next (arbitrate { s with ctl := { s.ctl with wakeCount := n } }))) ∧
    (s.ctl.timer ≠ none →
      exec .refreshIntervalEnd s =
        .next (arbitrate { s with ctl := { s.ctl with refreshDue := true, timer := some s.ctl.code } })) ∧
    (s.arb.holder = some .refresh → exec .refreshComplete s = .next (arbitrate s.released))

/-- Standby: the hand-off, ENTERING_STANDBY, STANDBY and LEAVING_STANDBY (R122, R173, R174, R177). -/
def Obligations.StandbySteps : Prop :=
  ∀ s : State,
    (s.ctl.state = .run → s.eng.handoff ≠ none → s.eng.ops = [] →
      (s.eng.reader = .stopped ∨ s.eng.reader = .faulted ∨ (∃ i, s.eng.reader = .atTail i)
        ∨ (∃ q a, s.eng.reader = .stalled q a)) →
      let entered : Bool → State := fun w =>
        { s with
          ctl := { s.ctl with state := .entering .draining, timer := none, wakeRecorded := w }
          eng := { s.eng with handoff := none } }
      (s.eng.heldRead = false →
        exec .standbyHandoff s = .next (arbitrate (entered (s.portClaim 0).isSome))) ∧
      (∀ a, s.eng.heldRead = true → s.eng.reader = .stalled .waking a →
        exec .standbyHandoff s =
          .next (arbitrate
            { entered true with
              eng := { s.eng with handoff := none, heldRead := false, ops := [.recordRead a true] } }))) ∧
    (s.ctl.state = .entering .finalRefresh →
      exec .finalRefreshComplete s = .next { s with ctl := { s.ctl with state := .entering .selfRefreshEntry } }) ∧
    (s.ctl.state = .entering .selfRefreshEntry →
      (s.ctl.wakeRecorded = false →
        exec .selfRefreshEntryComplete s = .next { s with ctl := { s.ctl with state := .standby } }) ∧
      (s.ctl.wakeRecorded = true →
        exec .selfRefreshEntryComplete s =
          .next { s with ctl := { s.ctl with state := .leaving .selfRefreshExit, wakeRecorded := false } })) ∧
    (s.ctl.state = .leaving .selfRefreshExit →
      exec .selfRefreshExitComplete s = .next { s with ctl := { s.ctl with state := .leaving .exitRefresh } }) ∧
    (s.ctl.state = .leaving .exitRefresh →
      exec .exitRefreshComplete s =
        .next (arbitrate
          (raise .wake
            { s with ctl := { s.ctl with state := .run, timer := some s.ctl.code, refreshDue := false } })))

/-! ## Steps inside the part -/

/-- A RETIRING entry whose count is 0 (R17), as the command ENTRY_RETIRED and as the end of a count (R4). -/
def Obligations.RetiringEntryBecomesFree : Prop :=
  ∀ (s : State) (i : Fin 16),
    (∀ g k c w, (s.entry i).status = .retiring g k c w → (s.entry i).inflight = 0 →
      let freed := s.putEntry i { s.entry i with status := .free (some c) }
      let told : State := match w with
        | none => freed
        | some q => complete q.request .okay (replies q.count 0 0 0) freed
      exec (.entryRetired i) s = .next (arbitrate (if c = .expired then raise .expire told else told))) ∧
    (((s.entry i).inflight ≠ 0 ∨ ∀ g k c w, (s.entry i).status ≠ .retiring g k c w) →
      exec (.entryRetired i) s = .next (arbitrate s)) ∧
    countOut none s = s ∧
    countOut (some i) s = settleEntry i (s.putEntry i { s.entry i with inflight := (s.entry i).inflight - 1 }) ∧
    exec (.entryRetired i) s = .next (arbitrate (settleEntry i s))

/-- The drain of a port's reset (R137, R138): how its set is formed, and its end, as the command PRST_DRAIN_COMPLETE and
at the end of the PRST's take. -/
def Obligations.DrainEnds : Prop :=
  ∀ (s : State) (p : Fin 4) (q : Resetting), (s.port p).state = .resetting q →
    (q.drainAccesses = 0 → q.drainTransfers = [] →
      let n := match q.former with | .active => 0 | .quiesced => 1
      let st : PortState := match q.former with | .active => .active | .quiesced => .quiesced
      exec (.prstDrainComplete p) s =
        .next (arbitrate
          (raise .port
            (complete q.request .okay (replies n q.withdrawn q.released q.cancelled)
              { s with ports := s.ports.set p { s.port p with state := st } })))) ∧
    (q.drainAccesses ≠ 0 ∨ q.drainTransfers ≠ [] → exec (.prstDrainComplete p) s = .next (arbitrate s)) ∧
    formDrainAccesses p s =
      { s with
        ports := s.ports.set p
          { s.port p with state := .resetting { q with drainAccesses := (s.port p).outstanding.length } } } ∧
    formDrainTransfers p s =
      { s with
        ports := s.ports.set p
          { s.port p with
            state := .resetting
              { q with
                drainTransfers :=
                  (s.queue.filter (fun t => t.port == p && t.state == .stopping)).map (fun t => t.owner) } } } ∧
    exec (.prstDrainComplete p) s = .next (arbitrate (drainPort p s))

/-- The end of a stall (R101, R107): the tests again after a full table or list, the read again after BARRIER or
QUEUE_FULL; outside RUN, and while a standby hand-off is pending, the record to be read stalls the reader with reason WAKING
(R107, R122). -/
def Obligations.StallEnds : Prop :=
  ∀ (s : State) (q : StallReason) (a : Word), s.eng.reader = .stalled q a →
    let reads : Prop :=
      (s.eng.handoff = none → s.ctl.state = .run →
        exec .stallEnd s =
          .next (arbitrate
            { s with eng := { s.eng with reader := .examining a, ops := s.eng.ops ++ [.recordRead a true] } })) ∧
      (s.eng.handoff = none → s.ctl.state ≠ .run →
        exec .stallEnd s =
          .next (arbitrate
            { s with
              ctl := s.ctl.wake
              eng := { s.eng with reader := .stalled .waking a, ops := s.eng.ops ++ [.recordRead a true] } })) ∧
      (s.eng.handoff ≠ none →
        exec .stallEnd s =
          .next (arbitrate { s with eng := { s.eng with reader := .stalled .waking a, heldRead := true } }))
    let stays : Prop := exec .stallEnd s = .next (arbitrate s)
    (q = .tableFull →
      (8 ≤ s.eng.active.length → stays) ∧
      (s.eng.active.length < 8 → 32 ≤ s.eng.takeList.length →
        exec .stallEnd s = .next (arbitrate (s.withReader (.stalled .retireFull a)))) ∧
      (s.eng.active.length < 8 → s.eng.takeList.length < 32 → reads)) ∧
    (q = .retireFull →
      (32 ≤ s.eng.takeList.length → stays) ∧
      (s.eng.takeList.length < 32 → 8 ≤ s.eng.active.length →
        exec .stallEnd s = .next (arbitrate (s.withReader (.stalled .tableFull a)))) ∧
      (s.eng.takeList.length < 32 → s.eng.active.length < 8 → reads)) ∧
    (q = .barrier → (s.eng.active ≠ [] → stays) ∧ (s.eng.active = [] → reads)) ∧
    (q = .queueFull → (4 ≤ s.queue.length → stays) ∧ (s.queue.length < 4 → reads)) ∧
    (q = .waking → stays)

/-! ## The step and the invariants -/

/-- A step runs the command at the front of the queue on the state with the queue's rest; with an empty queue the part
idles (log 1). Every command answers a next state and leaves the queue alone. -/
def Obligations.StepRunsFrontCommand : Prop :=
  (∀ (c : Instr) (rest : List Instr) (s : State),
    step { s with pending := c :: rest } = exec c { s with pending := rest }) ∧
  (∀ s : State, s.pending = [] → step s = .next s) ∧
  (∀ (c : Instr) (s : State), ∃ t : State, exec c s = .next t ∧ t.pending = s.pending)

/-- Every invariant holds right after reset, and the state right after reset is what FULL_RESET and FULL_RESET_END leave of
any state with the strap pins that the model shows at reset (logs 14 and 15), but for what names the free values: the DRAM's
epoch (log 2) and the count of record reads (log 18). -/
def Obligations.ResetHasInvariants : Prop :=
  (∀ u : State,
    exec (.fullResetEnd { size := 1, wide := true }) (fullReset { size := 1, wide := true } u) =
      .next
        { State.reset with
          arb := { State.reset.arb with reads := u.arb.reads }, epoch := u.epoch + 1, pending := u.pending }) ∧
  let s := State.reset
  Memory.wf s.mem = true ∧ s.retiringBusy ∧ s.priorityFast ∧ s.singleHolder ∧ s.leasesApart ∧ s.holdersPresent ∧
    s.portZeroActive ∧ s.listsBounded ∧ s.queueOrdered ∧ s.slotZeroMatching ∧ s.numbered ∧ s.engineConsistent ∧ s.ownersActive

/-- The model's list of the DRAM's written bytes keeps its canonical form. The list and its form are the model's own way to
hold the DRAM (logs 2 and 25). -/
def Obligations.MemoryStaysCanonical : Prop :=
  ∀ s t : State, Memory.wf s.mem = true → step s = .next t → Memory.wf t.mem = true

/-- A locked window keeps its definition and its lock through every step but a full reset (R23, R28). -/
def Obligations.LockedWindowStands : Prop :=
  ∀ (s t : State) (i : Fin 16) (r : Range) (rights : BitVec 8), s.lockedAt i r rights → step s = .next t →
    (∀ pins, s.pending.head? ≠ some (.fullReset pins)) → t.lockedAt i r rights

/-- No two leases overlap unless both are SHARED_READ (R33): every step keeps it. -/
def Obligations.LeasesStayApart : Prop :=
  ∀ s t : State, s.leasesApart → step s = .next t → t.leasesApart

/-- PRIORITY stands only in state FULL, and under SINGLE at one entry alone (R53, R50): every step keeps both. -/
def Obligations.PriorityStaysRestricted : Prop :=
  ∀ s t : State, s.priorityFast → s.singleHolder → step s = .next t → t.priorityFast ∧ t.singleHolder

/-- A RETIRING entry has something in flight (R17), no LEASED entry is held by a DISABLED port (R45), port 0 is ACTIVE
(R131), slot 0 never waits (R70), the transfer queue holds at most 4 transfers, the head RUNNING or STOPPING and the others
WAITING (R76), and a port's outstanding list at most 2 accesses (R125): every step keeps each. The take list and the active
table are in EngineStaysConsistent. -/
def Obligations.BlocksStayConsistent : Prop :=
  ∀ s t : State, step s = .next t →
    (s.retiringBusy → t.retiringBusy) ∧ (s.holdersPresent → t.holdersPresent) ∧
    (s.portZeroActive → t.portZeroActive) ∧ (s.slotZeroMatching → t.slotZeroMatching) ∧
    (s.listsBounded → t.listsBounded) ∧ (s.queueOrdered → t.queueOrdered) ∧ (s.numbered → t.numbered)

/-- The engine's state and its lists go together (R70, R99 to R101, R106 to R109): a wanted read stands in the operation list
exactly where the reader waits for one; slot 0 is armed exactly at AT_TAIL; the take list holds at most 32 records and the
active table at most 8 requests, with room for the record that the reader is about to take. Every step keeps it. -/
def Obligations.EngineStaysConsistent : Prop :=
  ∀ s t : State, s.engineConsistent → step s = .next t → t.engineConsistent

/-- The requests of the active table are those that the blocks hold, each in its own block (R63, R76, R109): a slot among 1
to 7 is armed exactly for an active WAIT, a transfer is queued exactly for an active FILL, COPY or SCAN, an entry has a waiting
request, a port is RESETTING and a speed sequence has an owner exactly for an active CLOS or FREE, PRST and SPED. Every step
keeps it. -/
def Obligations.LongRequestsAreOwned : Prop :=
  ∀ s t : State, s.numbered → s.engineConsistent → s.ownersActive → step s = .next t → t.ownersActive
end

