-- ==== Sys2Proof/Laws/State.lean ====
section
/-! SUPPORT. One lemma per field per update: what each plain record update leaves in each field of the state. -/

namespace Sys2Proof.Laws

open Sys2Proof.Machine

/-! ### raise -/

section
variable (e : Event) (s : State)

@[simp] theorem raise_table : (raise e s).table = s.table := rfl
@[simp] theorem raise_slots : (raise e s).slots = s.slots := rfl
@[simp] theorem raise_queue : (raise e s).queue = s.queue := rfl
@[simp] theorem raise_eng : (raise e s).eng = s.eng := rfl
@[simp] theorem raise_ports : (raise e s).ports = s.ports := rfl
@[simp] theorem raise_delivered : (raise e s).delivered = s.delivered := rfl
@[simp] theorem raise_speed : (raise e s).speed = s.speed := rfl
@[simp] theorem raise_ctl : (raise e s).ctl = s.ctl := rfl
@[simp] theorem raise_arb : (raise e s).arb = s.arb := rfl
@[simp] theorem raise_win : (raise e s).win = s.win.raise e := rfl
@[simp] theorem raise_straps : (raise e s).straps = s.straps := rfl
@[simp] theorem raise_inReset : (raise e s).inReset = s.inReset := rfl
@[simp] theorem raise_mem : (raise e s).mem = s.mem := rfl
@[simp] theorem raise_epoch : (raise e s).epoch = s.epoch := rfl
@[simp] theorem raise_pending : (raise e s).pending = s.pending := rfl

end

/-! ### setEntry -/

section
variable (s : State) (i : Fin 16) (e : Entry)

@[simp] theorem setEntry_table : (s.setEntry i e).table = { s.table with entries := s.table.entries.set i e } := rfl
@[simp] theorem setEntry_slots : (s.setEntry i e).slots = s.slots := rfl
@[simp] theorem setEntry_queue : (s.setEntry i e).queue = s.queue := rfl
@[simp] theorem setEntry_eng : (s.setEntry i e).eng = s.eng := rfl
@[simp] theorem setEntry_ports : (s.setEntry i e).ports = s.ports := rfl
@[simp] theorem setEntry_delivered : (s.setEntry i e).delivered = s.delivered := rfl
@[simp] theorem setEntry_speed : (s.setEntry i e).speed = s.speed := rfl
@[simp] theorem setEntry_ctl : (s.setEntry i e).ctl = s.ctl := rfl
@[simp] theorem setEntry_arb : (s.setEntry i e).arb = s.arb := rfl
@[simp] theorem setEntry_win : (s.setEntry i e).win = s.win := rfl
@[simp] theorem setEntry_straps : (s.setEntry i e).straps = s.straps := rfl
@[simp] theorem setEntry_inReset : (s.setEntry i e).inReset = s.inReset := rfl
@[simp] theorem setEntry_mem : (s.setEntry i e).mem = s.mem := rfl
@[simp] theorem setEntry_epoch : (s.setEntry i e).epoch = s.epoch := rfl
@[simp] theorem setEntry_pending : (s.setEntry i e).pending = s.pending := rfl

end

/-! ### setStatus -/

section
variable (s : State) (i : Fin 16) (st : EntryStatus)

@[simp] theorem setStatus_table :
    (s.setStatus i st).table =
      { s.table with entries := s.table.entries.set i { s.entry i with status := st } } := rfl
@[simp] theorem setStatus_slots : (s.setStatus i st).slots = s.slots := rfl
@[simp] theorem setStatus_queue : (s.setStatus i st).queue = s.queue := rfl
@[simp] theorem setStatus_eng : (s.setStatus i st).eng = s.eng := rfl
@[simp] theorem setStatus_ports : (s.setStatus i st).ports = s.ports := rfl
@[simp] theorem setStatus_delivered : (s.setStatus i st).delivered = s.delivered := rfl
@[simp] theorem setStatus_speed : (s.setStatus i st).speed = s.speed := rfl
@[simp] theorem setStatus_ctl : (s.setStatus i st).ctl = s.ctl := rfl
@[simp] theorem setStatus_arb : (s.setStatus i st).arb = s.arb := rfl
@[simp] theorem setStatus_win : (s.setStatus i st).win = s.win := rfl
@[simp] theorem setStatus_straps : (s.setStatus i st).straps = s.straps := rfl
@[simp] theorem setStatus_inReset : (s.setStatus i st).inReset = s.inReset := rfl
@[simp] theorem setStatus_mem : (s.setStatus i st).mem = s.mem := rfl
@[simp] theorem setStatus_epoch : (s.setStatus i st).epoch = s.epoch := rfl
@[simp] theorem setStatus_pending : (s.setStatus i st).pending = s.pending := rfl

end

/-! ### setInflight -/

section
variable (s : State) (i : Fin 16) (n : Nat)

@[simp] theorem setInflight_table :
    (s.setInflight i n).table =
      { s.table with entries := s.table.entries.set i { s.entry i with inflight := n } } := rfl
@[simp] theorem setInflight_slots : (s.setInflight i n).slots = s.slots := rfl
@[simp] theorem setInflight_queue : (s.setInflight i n).queue = s.queue := rfl
@[simp] theorem setInflight_eng : (s.setInflight i n).eng = s.eng := rfl
@[simp] theorem setInflight_ports : (s.setInflight i n).ports = s.ports := rfl
@[simp] theorem setInflight_delivered : (s.setInflight i n).delivered = s.delivered := rfl
@[simp] theorem setInflight_speed : (s.setInflight i n).speed = s.speed := rfl
@[simp] theorem setInflight_ctl : (s.setInflight i n).ctl = s.ctl := rfl
@[simp] theorem setInflight_arb : (s.setInflight i n).arb = s.arb := rfl
@[simp] theorem setInflight_win : (s.setInflight i n).win = s.win := rfl
@[simp] theorem setInflight_straps : (s.setInflight i n).straps = s.straps := rfl
@[simp] theorem setInflight_inReset : (s.setInflight i n).inReset = s.inReset := rfl
@[simp] theorem setInflight_mem : (s.setInflight i n).mem = s.mem := rfl
@[simp] theorem setInflight_epoch : (s.setInflight i n).epoch = s.epoch := rfl
@[simp] theorem setInflight_pending : (s.setInflight i n).pending = s.pending := rfl

end

/-! ### defineEntry -/

section
variable (i : Fin 16) (st : EntryStatus) (s : State)

@[simp] theorem defineEntry_table :
    (defineEntry i st s).table =
      { s.table with entries := s.table.entries.set i { status := st, inflight := 0, fault := none } } := rfl
@[simp] theorem defineEntry_slots : (defineEntry i st s).slots = s.slots := rfl
@[simp] theorem defineEntry_queue : (defineEntry i st s).queue = s.queue := rfl
@[simp] theorem defineEntry_eng : (defineEntry i st s).eng = s.eng := rfl
@[simp] theorem defineEntry_ports : (defineEntry i st s).ports = s.ports := rfl
@[simp] theorem defineEntry_delivered : (defineEntry i st s).delivered = s.delivered := rfl
@[simp] theorem defineEntry_speed : (defineEntry i st s).speed = s.speed := rfl
@[simp] theorem defineEntry_ctl : (defineEntry i st s).ctl = s.ctl := rfl
@[simp] theorem defineEntry_arb : (defineEntry i st s).arb = s.arb := rfl
@[simp] theorem defineEntry_win : (defineEntry i st s).win = s.win := rfl
@[simp] theorem defineEntry_straps : (defineEntry i st s).straps = s.straps := rfl
@[simp] theorem defineEntry_inReset : (defineEntry i st s).inReset = s.inReset := rfl
@[simp] theorem defineEntry_mem : (defineEntry i st s).mem = s.mem := rfl
@[simp] theorem defineEntry_epoch : (defineEntry i st s).epoch = s.epoch := rfl
@[simp] theorem defineEntry_pending : (defineEntry i st s).pending = s.pending := rfl

end

/-! ### setPort -/

section
variable (s : State) (p : Fin 4) (q : Port)

@[simp] theorem setPort_table : (s.setPort p q).table = s.table := rfl
@[simp] theorem setPort_slots : (s.setPort p q).slots = s.slots := rfl
@[simp] theorem setPort_queue : (s.setPort p q).queue = s.queue := rfl
@[simp] theorem setPort_eng : (s.setPort p q).eng = s.eng := rfl
@[simp] theorem setPort_ports : (s.setPort p q).ports = s.ports.set p q := rfl
@[simp] theorem setPort_delivered : (s.setPort p q).delivered = s.delivered := rfl
@[simp] theorem setPort_speed : (s.setPort p q).speed = s.speed := rfl
@[simp] theorem setPort_ctl : (s.setPort p q).ctl = s.ctl := rfl
@[simp] theorem setPort_arb : (s.setPort p q).arb = s.arb := rfl
@[simp] theorem setPort_win : (s.setPort p q).win = s.win := rfl
@[simp] theorem setPort_straps : (s.setPort p q).straps = s.straps := rfl
@[simp] theorem setPort_inReset : (s.setPort p q).inReset = s.inReset := rfl
@[simp] theorem setPort_mem : (s.setPort p q).mem = s.mem := rfl
@[simp] theorem setPort_epoch : (s.setPort p q).epoch = s.epoch := rfl
@[simp] theorem setPort_pending : (s.setPort p q).pending = s.pending := rfl

end

/-! ### setPortState -/

section
variable (p : Fin 4) (st : PortState) (s : State)

@[simp] theorem setPortState_table : (setPortState p st s).table = s.table := rfl
@[simp] theorem setPortState_slots : (setPortState p st s).slots = s.slots := rfl
@[simp] theorem setPortState_queue : (setPortState p st s).queue = s.queue := rfl
@[simp] theorem setPortState_eng : (setPortState p st s).eng = s.eng := rfl
@[simp] theorem setPortState_ports : (setPortState p st s).ports = s.ports.set p { s.port p with state := st } := rfl
@[simp] theorem setPortState_delivered : (setPortState p st s).delivered = s.delivered := rfl
@[simp] theorem setPortState_speed : (setPortState p st s).speed = s.speed := rfl
@[simp] theorem setPortState_ctl : (setPortState p st s).ctl = s.ctl := rfl
@[simp] theorem setPortState_arb : (setPortState p st s).arb = s.arb := rfl
@[simp] theorem setPortState_win : (setPortState p st s).win = s.win := rfl
@[simp] theorem setPortState_straps : (setPortState p st s).straps = s.straps := rfl
@[simp] theorem setPortState_inReset : (setPortState p st s).inReset = s.inReset := rfl
@[simp] theorem setPortState_mem : (setPortState p st s).mem = s.mem := rfl
@[simp] theorem setPortState_epoch : (setPortState p st s).epoch = s.epoch := rfl
@[simp] theorem setPortState_pending : (setPortState p st s).pending = s.pending := rfl

end

/-! ### pushAccess -/

section
variable (p : Fin 4) (a : Access) (s : State)

@[simp] theorem pushAccess_table : (pushAccess p a s).table = s.table := rfl
@[simp] theorem pushAccess_slots : (pushAccess p a s).slots = s.slots := rfl
@[simp] theorem pushAccess_queue : (pushAccess p a s).queue = s.queue := rfl
@[simp] theorem pushAccess_eng : (pushAccess p a s).eng = s.eng := rfl
@[simp] theorem pushAccess_ports :
    (pushAccess p a s).ports =
      s.ports.set p { s.port p with outstanding := (s.port p).outstanding ++ [a] } := rfl
@[simp] theorem pushAccess_delivered : (pushAccess p a s).delivered = s.delivered := rfl
@[simp] theorem pushAccess_speed : (pushAccess p a s).speed = s.speed := rfl
@[simp] theorem pushAccess_ctl : (pushAccess p a s).ctl = s.ctl := rfl
@[simp] theorem pushAccess_arb : (pushAccess p a s).arb = s.arb := rfl
@[simp] theorem pushAccess_win : (pushAccess p a s).win = s.win := rfl
@[simp] theorem pushAccess_straps : (pushAccess p a s).straps = s.straps := rfl
@[simp] theorem pushAccess_inReset : (pushAccess p a s).inReset = s.inReset := rfl
@[simp] theorem pushAccess_mem : (pushAccess p a s).mem = s.mem := rfl
@[simp] theorem pushAccess_epoch : (pushAccess p a s).epoch = s.epoch := rfl
@[simp] theorem pushAccess_pending : (pushAccess p a s).pending = s.pending := rfl

end

/-! ### setSlot -/

section
variable (s : State) (k : Fin 8) (w : Option WatchSlot)

@[simp] theorem setSlot_table : (s.setSlot k w).table = s.table := rfl
@[simp] theorem setSlot_slots : (s.setSlot k w).slots = s.slots.set k w := rfl
@[simp] theorem setSlot_queue : (s.setSlot k w).queue = s.queue := rfl
@[simp] theorem setSlot_eng : (s.setSlot k w).eng = s.eng := rfl
@[simp] theorem setSlot_ports : (s.setSlot k w).ports = s.ports := rfl
@[simp] theorem setSlot_delivered : (s.setSlot k w).delivered = s.delivered := rfl
@[simp] theorem setSlot_speed : (s.setSlot k w).speed = s.speed := rfl
@[simp] theorem setSlot_ctl : (s.setSlot k w).ctl = s.ctl := rfl
@[simp] theorem setSlot_arb : (s.setSlot k w).arb = s.arb := rfl
@[simp] theorem setSlot_win : (s.setSlot k w).win = s.win := rfl
@[simp] theorem setSlot_straps : (s.setSlot k w).straps = s.straps := rfl
@[simp] theorem setSlot_inReset : (s.setSlot k w).inReset = s.inReset := rfl
@[simp] theorem setSlot_mem : (s.setSlot k w).mem = s.mem := rfl
@[simp] theorem setSlot_epoch : (s.setSlot k w).epoch = s.epoch := rfl
@[simp] theorem setSlot_pending : (s.setSlot k w).pending = s.pending := rfl

end

/-! ### store -/

section
variable (s : State) (a : Nat) (ws : List Word)

@[simp] theorem store_table : (s.store a ws).table = s.table := rfl
@[simp] theorem store_slots : (s.store a ws).slots = s.slots := rfl
@[simp] theorem store_queue : (s.store a ws).queue = s.queue := rfl
@[simp] theorem store_eng : (s.store a ws).eng = s.eng := rfl
@[simp] theorem store_ports : (s.store a ws).ports = s.ports := rfl
@[simp] theorem store_delivered : (s.store a ws).delivered = s.delivered := rfl
@[simp] theorem store_speed : (s.store a ws).speed = s.speed := rfl
@[simp] theorem store_ctl : (s.store a ws).ctl = s.ctl := rfl
@[simp] theorem store_arb : (s.store a ws).arb = s.arb := rfl
@[simp] theorem store_win : (s.store a ws).win = s.win := rfl
@[simp] theorem store_straps : (s.store a ws).straps = s.straps := rfl
@[simp] theorem store_inReset : (s.store a ws).inReset = s.inReset := rfl
@[simp] theorem store_mem : (s.store a ws).mem = storeWords s.mem a ws := rfl
@[simp] theorem store_epoch : (s.store a ws).epoch = s.epoch := rfl
@[simp] theorem store_pending : (s.store a ws).pending = s.pending := rfl

end

/-! ### wakeCause -/

section
variable (s : State)

@[simp] theorem wakeCause_table : (wakeCause s).table = s.table := rfl
@[simp] theorem wakeCause_slots : (wakeCause s).slots = s.slots := rfl
@[simp] theorem wakeCause_queue : (wakeCause s).queue = s.queue := rfl
@[simp] theorem wakeCause_eng : (wakeCause s).eng = s.eng := rfl
@[simp] theorem wakeCause_ports : (wakeCause s).ports = s.ports := rfl
@[simp] theorem wakeCause_delivered : (wakeCause s).delivered = s.delivered := rfl
@[simp] theorem wakeCause_speed : (wakeCause s).speed = s.speed := rfl
@[simp] theorem wakeCause_ctl : (wakeCause s).ctl = s.ctl.wake := rfl
@[simp] theorem wakeCause_arb : (wakeCause s).arb = s.arb := rfl
@[simp] theorem wakeCause_win : (wakeCause s).win = s.win := rfl
@[simp] theorem wakeCause_straps : (wakeCause s).straps = s.straps := rfl
@[simp] theorem wakeCause_inReset : (wakeCause s).inReset = s.inReset := rfl
@[simp] theorem wakeCause_mem : (wakeCause s).mem = s.mem := rfl
@[simp] theorem wakeCause_epoch : (wakeCause s).epoch = s.epoch := rfl
@[simp] theorem wakeCause_pending : (wakeCause s).pending = s.pending := rfl

end

/-! ### releaseCause -/

section
variable (s : State)

@[simp] theorem releaseCause_table : (releaseCause s).table = s.table := rfl
@[simp] theorem releaseCause_slots : (releaseCause s).slots = s.slots := rfl
@[simp] theorem releaseCause_queue : (releaseCause s).queue = s.queue := rfl
@[simp] theorem releaseCause_eng : (releaseCause s).eng = s.eng := rfl
@[simp] theorem releaseCause_ports : (releaseCause s).ports = s.ports := rfl
@[simp] theorem releaseCause_delivered : (releaseCause s).delivered = s.delivered := rfl
@[simp] theorem releaseCause_speed : (releaseCause s).speed = s.speed := rfl
@[simp] theorem releaseCause_ctl : (releaseCause s).ctl = s.ctl.release := rfl
@[simp] theorem releaseCause_arb : (releaseCause s).arb = s.arb := rfl
@[simp] theorem releaseCause_win : (releaseCause s).win = s.win := rfl
@[simp] theorem releaseCause_straps : (releaseCause s).straps = s.straps := rfl
@[simp] theorem releaseCause_inReset : (releaseCause s).inReset = s.inReset := rfl
@[simp] theorem releaseCause_mem : (releaseCause s).mem = s.mem := rfl
@[simp] theorem releaseCause_epoch : (releaseCause s).epoch = s.epoch := rfl
@[simp] theorem releaseCause_pending : (releaseCause s).pending = s.pending := rfl

end

/-! ### pushOps -/

section
variable (l : List EngineOp) (s : State)

@[simp] theorem pushOps_table : (pushOps l s).table = s.table := rfl
@[simp] theorem pushOps_slots : (pushOps l s).slots = s.slots := rfl
@[simp] theorem pushOps_queue : (pushOps l s).queue = s.queue := rfl
@[simp] theorem pushOps_eng : (pushOps l s).eng = { s.eng with ops := s.eng.ops ++ l } := rfl
@[simp] theorem pushOps_ports : (pushOps l s).ports = s.ports := rfl
@[simp] theorem pushOps_delivered : (pushOps l s).delivered = s.delivered := rfl
@[simp] theorem pushOps_speed : (pushOps l s).speed = s.speed := rfl
@[simp] theorem pushOps_ctl : (pushOps l s).ctl = s.ctl := rfl
@[simp] theorem pushOps_arb : (pushOps l s).arb = s.arb := rfl
@[simp] theorem pushOps_win : (pushOps l s).win = s.win := rfl
@[simp] theorem pushOps_straps : (pushOps l s).straps = s.straps := rfl
@[simp] theorem pushOps_inReset : (pushOps l s).inReset = s.inReset := rfl
@[simp] theorem pushOps_mem : (pushOps l s).mem = s.mem := rfl
@[simp] theorem pushOps_epoch : (pushOps l s).epoch = s.epoch := rfl
@[simp] theorem pushOps_pending : (pushOps l s).pending = s.pending := rfl

end

/-! ### setTakeEnd -/

section
variable (id : RecId) (e : TakeEnd) (s : State)

@[simp] theorem setTakeEnd_table : (setTakeEnd id e s).table = s.table := rfl
@[simp] theorem setTakeEnd_slots : (setTakeEnd id e s).slots = s.slots := rfl
@[simp] theorem setTakeEnd_queue : (setTakeEnd id e s).queue = s.queue := rfl
@[simp] theorem setTakeEnd_eng : (setTakeEnd id e s).eng = { s.eng with reader := s.eng.reader.endsAt id e } := rfl
@[simp] theorem setTakeEnd_ports : (setTakeEnd id e s).ports = s.ports := rfl
@[simp] theorem setTakeEnd_delivered : (setTakeEnd id e s).delivered = s.delivered := rfl
@[simp] theorem setTakeEnd_speed : (setTakeEnd id e s).speed = s.speed := rfl
@[simp] theorem setTakeEnd_ctl : (setTakeEnd id e s).ctl = s.ctl := rfl
@[simp] theorem setTakeEnd_arb : (setTakeEnd id e s).arb = s.arb := rfl
@[simp] theorem setTakeEnd_win : (setTakeEnd id e s).win = s.win := rfl
@[simp] theorem setTakeEnd_straps : (setTakeEnd id e s).straps = s.straps := rfl
@[simp] theorem setTakeEnd_inReset : (setTakeEnd id e s).inReset = s.inReset := rfl
@[simp] theorem setTakeEnd_mem : (setTakeEnd id e s).mem = s.mem := rfl
@[simp] theorem setTakeEnd_epoch : (setTakeEnd id e s).epoch = s.epoch := rfl
@[simp] theorem setTakeEnd_pending : (setTakeEnd id e s).pending = s.pending := rfl

end

/-! ### enterActive -/

section
variable (id : RecId) (b : Block) (s : State)

@[simp] theorem enterActive_table : (enterActive id b s).table = s.table := rfl
@[simp] theorem enterActive_slots : (enterActive id b s).slots = s.slots := rfl
@[simp] theorem enterActive_queue : (enterActive id b s).queue = s.queue := rfl
@[simp] theorem enterActive_eng : (enterActive id b s).eng = s.eng.enterActive id b := rfl
@[simp] theorem enterActive_ports : (enterActive id b s).ports = s.ports := rfl
@[simp] theorem enterActive_delivered : (enterActive id b s).delivered = s.delivered := rfl
@[simp] theorem enterActive_speed : (enterActive id b s).speed = s.speed := rfl
@[simp] theorem enterActive_ctl : (enterActive id b s).ctl = s.ctl := rfl
@[simp] theorem enterActive_arb : (enterActive id b s).arb = s.arb := rfl
@[simp] theorem enterActive_win : (enterActive id b s).win = s.win := rfl
@[simp] theorem enterActive_straps : (enterActive id b s).straps = s.straps := rfl
@[simp] theorem enterActive_inReset : (enterActive id b s).inReset = s.inReset := rfl
@[simp] theorem enterActive_mem : (enterActive id b s).mem = s.mem := rfl
@[simp] theorem enterActive_epoch : (enterActive id b s).epoch = s.epoch := rfl
@[simp] theorem enterActive_pending : (enterActive id b s).pending = s.pending := rfl

end

/-! ### setReader -/

section
variable (r : Reader) (s : State)

@[simp] theorem setReader_table : (setReader r s).table = s.table := rfl
@[simp] theorem setReader_slots : (setReader r s).slots = s.slots := rfl
@[simp] theorem setReader_queue : (setReader r s).queue = s.queue := rfl
@[simp] theorem setReader_eng : (setReader r s).eng = { s.eng with reader := r } := rfl
@[simp] theorem setReader_ports : (setReader r s).ports = s.ports := rfl
@[simp] theorem setReader_delivered : (setReader r s).delivered = s.delivered := rfl
@[simp] theorem setReader_speed : (setReader r s).speed = s.speed := rfl
@[simp] theorem setReader_ctl : (setReader r s).ctl = s.ctl := rfl
@[simp] theorem setReader_arb : (setReader r s).arb = s.arb := rfl
@[simp] theorem setReader_win : (setReader r s).win = s.win := rfl
@[simp] theorem setReader_straps : (setReader r s).straps = s.straps := rfl
@[simp] theorem setReader_inReset : (setReader r s).inReset = s.inReset := rfl
@[simp] theorem setReader_mem : (setReader r s).mem = s.mem := rfl
@[simp] theorem setReader_epoch : (setReader r s).epoch = s.epoch := rfl
@[simp] theorem setReader_pending : (setReader r s).pending = s.pending := rfl

end

/-! ### stopReader -/

section
variable (s : State)

@[simp] theorem stopReader_table : (stopReader s).table = s.table := rfl
@[simp] theorem stopReader_slots : (stopReader s).slots = s.slots := rfl
@[simp] theorem stopReader_queue : (stopReader s).queue = s.queue := rfl
@[simp] theorem stopReader_eng : (stopReader s).eng = { s.eng with reader := .stopped, stopPending := false } := rfl
@[simp] theorem stopReader_ports : (stopReader s).ports = s.ports := rfl
@[simp] theorem stopReader_delivered : (stopReader s).delivered = s.delivered := rfl
@[simp] theorem stopReader_speed : (stopReader s).speed = s.speed := rfl
@[simp] theorem stopReader_ctl : (stopReader s).ctl = s.ctl := rfl
@[simp] theorem stopReader_arb : (stopReader s).arb = s.arb := rfl
@[simp] theorem stopReader_win : (stopReader s).win = s.win := rfl
@[simp] theorem stopReader_straps : (stopReader s).straps = s.straps := rfl
@[simp] theorem stopReader_inReset : (stopReader s).inReset = s.inReset := rfl
@[simp] theorem stopReader_mem : (stopReader s).mem = s.mem := rfl
@[simp] theorem stopReader_epoch : (stopReader s).epoch = s.epoch := rfl
@[simp] theorem stopReader_pending : (stopReader s).pending = s.pending := rfl

end

/-! ### setHolder -/

section
variable (h : Option Holder) (s : State)

@[simp] theorem setHolder_table : (setHolder h s).table = s.table := rfl
@[simp] theorem setHolder_slots : (setHolder h s).slots = s.slots := rfl
@[simp] theorem setHolder_queue : (setHolder h s).queue = s.queue := rfl
@[simp] theorem setHolder_eng : (setHolder h s).eng = s.eng := rfl
@[simp] theorem setHolder_ports : (setHolder h s).ports = s.ports := rfl
@[simp] theorem setHolder_delivered : (setHolder h s).delivered = s.delivered := rfl
@[simp] theorem setHolder_speed : (setHolder h s).speed = s.speed := rfl
@[simp] theorem setHolder_ctl : (setHolder h s).ctl = s.ctl := rfl
@[simp] theorem setHolder_arb : (setHolder h s).arb = { s.arb with holder := h } := rfl
@[simp] theorem setHolder_win : (setHolder h s).win = s.win := rfl
@[simp] theorem setHolder_straps : (setHolder h s).straps = s.straps := rfl
@[simp] theorem setHolder_inReset : (setHolder h s).inReset = s.inReset := rfl
@[simp] theorem setHolder_mem : (setHolder h s).mem = s.mem := rfl
@[simp] theorem setHolder_epoch : (setHolder h s).epoch = s.epoch := rfl
@[simp] theorem setHolder_pending : (setHolder h s).pending = s.pending := rfl

end

/-! ### setPass -/

section
variable (c : Claimant) (n : Nat) (s : State)

@[simp] theorem setPass_table : (setPass c n s).table = s.table := rfl
@[simp] theorem setPass_slots : (setPass c n s).slots = s.slots := rfl
@[simp] theorem setPass_queue : (setPass c n s).queue = s.queue := rfl
@[simp] theorem setPass_eng : (setPass c n s).eng = s.eng := rfl
@[simp] theorem setPass_ports : (setPass c n s).ports = s.ports := rfl
@[simp] theorem setPass_delivered : (setPass c n s).delivered = s.delivered := rfl
@[simp] theorem setPass_speed : (setPass c n s).speed = s.speed := rfl
@[simp] theorem setPass_ctl : (setPass c n s).ctl = s.ctl := rfl
@[simp] theorem setPass_arb : (setPass c n s).arb = { s.arb with pass := s.arb.pass.set c.index n } := rfl
@[simp] theorem setPass_win : (setPass c n s).win = s.win := rfl
@[simp] theorem setPass_straps : (setPass c n s).straps = s.straps := rfl
@[simp] theorem setPass_inReset : (setPass c n s).inReset = s.inReset := rfl
@[simp] theorem setPass_mem : (setPass c n s).mem = s.mem := rfl
@[simp] theorem setPass_epoch : (setPass c n s).epoch = s.epoch := rfl
@[simp] theorem setPass_pending : (setPass c n s).pending = s.pending := rfl

end

/-! ### setPrioPtr -/

section
variable (p : Fin 4) (s : State)

@[simp] theorem setPrioPtr_table : (setPrioPtr p s).table = s.table := rfl
@[simp] theorem setPrioPtr_slots : (setPrioPtr p s).slots = s.slots := rfl
@[simp] theorem setPrioPtr_queue : (setPrioPtr p s).queue = s.queue := rfl
@[simp] theorem setPrioPtr_eng : (setPrioPtr p s).eng = s.eng := rfl
@[simp] theorem setPrioPtr_ports : (setPrioPtr p s).ports = s.ports := rfl
@[simp] theorem setPrioPtr_delivered : (setPrioPtr p s).delivered = s.delivered := rfl
@[simp] theorem setPrioPtr_speed : (setPrioPtr p s).speed = s.speed := rfl
@[simp] theorem setPrioPtr_ctl : (setPrioPtr p s).ctl = s.ctl := rfl
@[simp] theorem setPrioPtr_arb : (setPrioPtr p s).arb = { s.arb with prioPtr := p } := rfl
@[simp] theorem setPrioPtr_win : (setPrioPtr p s).win = s.win := rfl
@[simp] theorem setPrioPtr_straps : (setPrioPtr p s).straps = s.straps := rfl
@[simp] theorem setPrioPtr_inReset : (setPrioPtr p s).inReset = s.inReset := rfl
@[simp] theorem setPrioPtr_mem : (setPrioPtr p s).mem = s.mem := rfl
@[simp] theorem setPrioPtr_epoch : (setPrioPtr p s).epoch = s.epoch := rfl
@[simp] theorem setPrioPtr_pending : (setPrioPtr p s).pending = s.pending := rfl

end

/-! ### setDefPtr -/

section
variable (c : Claimant) (s : State)

@[simp] theorem setDefPtr_table : (setDefPtr c s).table = s.table := rfl
@[simp] theorem setDefPtr_slots : (setDefPtr c s).slots = s.slots := rfl
@[simp] theorem setDefPtr_queue : (setDefPtr c s).queue = s.queue := rfl
@[simp] theorem setDefPtr_eng : (setDefPtr c s).eng = s.eng := rfl
@[simp] theorem setDefPtr_ports : (setDefPtr c s).ports = s.ports := rfl
@[simp] theorem setDefPtr_delivered : (setDefPtr c s).delivered = s.delivered := rfl
@[simp] theorem setDefPtr_speed : (setDefPtr c s).speed = s.speed := rfl
@[simp] theorem setDefPtr_ctl : (setDefPtr c s).ctl = s.ctl := rfl
@[simp] theorem setDefPtr_arb : (setDefPtr c s).arb = { s.arb with defPtr := c } := rfl
@[simp] theorem setDefPtr_win : (setDefPtr c s).win = s.win := rfl
@[simp] theorem setDefPtr_straps : (setDefPtr c s).straps = s.straps := rfl
@[simp] theorem setDefPtr_inReset : (setDefPtr c s).inReset = s.inReset := rfl
@[simp] theorem setDefPtr_mem : (setDefPtr c s).mem = s.mem := rfl
@[simp] theorem setDefPtr_epoch : (setDefPtr c s).epoch = s.epoch := rfl
@[simp] theorem setDefPtr_pending : (setDefPtr c s).pending = s.pending := rfl

end

/-! ### setPolicy -/

section
variable (p : Policy) (s : State)

@[simp] theorem setPolicy_table : (setPolicy p s).table = { s.table with policy := p } := rfl
@[simp] theorem setPolicy_slots : (setPolicy p s).slots = s.slots := rfl
@[simp] theorem setPolicy_queue : (setPolicy p s).queue = s.queue := rfl
@[simp] theorem setPolicy_eng : (setPolicy p s).eng = s.eng := rfl
@[simp] theorem setPolicy_ports : (setPolicy p s).ports = s.ports := rfl
@[simp] theorem setPolicy_delivered : (setPolicy p s).delivered = s.delivered := rfl
@[simp] theorem setPolicy_speed : (setPolicy p s).speed = s.speed := rfl
@[simp] theorem setPolicy_ctl : (setPolicy p s).ctl = s.ctl := rfl
@[simp] theorem setPolicy_arb : (setPolicy p s).arb = s.arb := rfl
@[simp] theorem setPolicy_win : (setPolicy p s).win = s.win := rfl
@[simp] theorem setPolicy_straps : (setPolicy p s).straps = s.straps := rfl
@[simp] theorem setPolicy_inReset : (setPolicy p s).inReset = s.inReset := rfl
@[simp] theorem setPolicy_mem : (setPolicy p s).mem = s.mem := rfl
@[simp] theorem setPolicy_epoch : (setPolicy p s).epoch = s.epoch := rfl
@[simp] theorem setPolicy_pending : (setPolicy p s).pending = s.pending := rfl

end

/-! ### demoteAll -/

section
variable (s : State)

@[simp] theorem demoteAll_table :
    (demoteAll s).table =
      { s.table with entries := mapVec Entry.demote s.table.entries } := rfl
@[simp] theorem demoteAll_slots : (demoteAll s).slots = s.slots := rfl
@[simp] theorem demoteAll_queue : (demoteAll s).queue = s.queue := rfl
@[simp] theorem demoteAll_eng : (demoteAll s).eng = s.eng := rfl
@[simp] theorem demoteAll_ports : (demoteAll s).ports = s.ports := rfl
@[simp] theorem demoteAll_delivered : (demoteAll s).delivered = s.delivered := rfl
@[simp] theorem demoteAll_speed : (demoteAll s).speed = s.speed := rfl
@[simp] theorem demoteAll_ctl : (demoteAll s).ctl = s.ctl := rfl
@[simp] theorem demoteAll_arb : (demoteAll s).arb = s.arb := rfl
@[simp] theorem demoteAll_win : (demoteAll s).win = s.win := rfl
@[simp] theorem demoteAll_straps : (demoteAll s).straps = s.straps := rfl
@[simp] theorem demoteAll_inReset : (demoteAll s).inReset = s.inReset := rfl
@[simp] theorem demoteAll_mem : (demoteAll s).mem = s.mem := rfl
@[simp] theorem demoteAll_epoch : (demoteAll s).epoch = s.epoch := rfl
@[simp] theorem demoteAll_pending : (demoteAll s).pending = s.pending := rfl

end

/-! ### finishOp -/

section
variable (s : State)

@[simp] theorem finishOp_table : (finishOp s).table = s.table := rfl
@[simp] theorem finishOp_slots : (finishOp s).slots = s.slots := rfl
@[simp] theorem finishOp_queue : (finishOp s).queue = s.queue := rfl
@[simp] theorem finishOp_eng : (finishOp s).eng = { s.eng with ops := s.eng.ops.tail } := rfl
@[simp] theorem finishOp_ports : (finishOp s).ports = s.ports := rfl
@[simp] theorem finishOp_delivered : (finishOp s).delivered = s.delivered := rfl
@[simp] theorem finishOp_speed : (finishOp s).speed = s.speed := rfl
@[simp] theorem finishOp_ctl : (finishOp s).ctl = s.ctl := rfl
@[simp] theorem finishOp_arb : (finishOp s).arb = { s.arb with holder := none } := rfl
@[simp] theorem finishOp_win : (finishOp s).win = s.win := rfl
@[simp] theorem finishOp_straps : (finishOp s).straps = s.straps := rfl
@[simp] theorem finishOp_inReset : (finishOp s).inReset = s.inReset := rfl
@[simp] theorem finishOp_mem : (finishOp s).mem = s.mem := rfl
@[simp] theorem finishOp_epoch : (finishOp s).epoch = s.epoch := rfl
@[simp] theorem finishOp_pending : (finishOp s).pending = s.pending := rfl

end

/-! ### goPrepare -/

section
variable (s : State)

@[simp] theorem goPrepare_table : (goPrepare s).table = s.table := rfl
@[simp] theorem goPrepare_slots : (goPrepare s).slots = s.slots := rfl
@[simp] theorem goPrepare_queue : (goPrepare s).queue = s.queue := rfl
@[simp] theorem goPrepare_eng :
    (goPrepare s).eng =
      { s.eng with taken := 0#32, handoff := none, heldRead := false } := rfl
@[simp] theorem goPrepare_ports : (goPrepare s).ports = s.ports := rfl
@[simp] theorem goPrepare_delivered : (goPrepare s).delivered = s.delivered := rfl
@[simp] theorem goPrepare_speed : (goPrepare s).speed = s.speed := rfl
@[simp] theorem goPrepare_ctl : (goPrepare s).ctl = s.ctl.release := rfl
@[simp] theorem goPrepare_arb : (goPrepare s).arb = s.arb := rfl
@[simp] theorem goPrepare_win : (goPrepare s).win = { s.win with wsizeFixed := true } := rfl
@[simp] theorem goPrepare_straps : (goPrepare s).straps = s.straps := rfl
@[simp] theorem goPrepare_inReset : (goPrepare s).inReset = s.inReset := rfl
@[simp] theorem goPrepare_mem : (goPrepare s).mem = s.mem := rfl
@[simp] theorem goPrepare_epoch : (goPrepare s).epoch = s.epoch := rfl
@[simp] theorem goPrepare_pending : (goPrepare s).pending = s.pending := rfl

end

/-! ### emskStore -/

section
variable (v : Word) (s : State)

@[simp] theorem emskStore_table : (emskStore v s).table = s.table := rfl
@[simp] theorem emskStore_slots : (emskStore v s).slots = s.slots := rfl
@[simp] theorem emskStore_queue : (emskStore v s).queue = s.queue := rfl
@[simp] theorem emskStore_eng : (emskStore v s).eng = s.eng := rfl
@[simp] theorem emskStore_ports : (emskStore v s).ports = s.ports := rfl
@[simp] theorem emskStore_delivered : (emskStore v s).delivered = s.delivered := rfl
@[simp] theorem emskStore_speed : (emskStore v s).speed = s.speed := rfl
@[simp] theorem emskStore_ctl : (emskStore v s).ctl = s.ctl := rfl
@[simp] theorem emskStore_arb : (emskStore v s).arb = s.arb := rfl
@[simp] theorem emskStore_win : (emskStore v s).win = { s.win with emsk := v.extractLsb' 0 9 } := rfl
@[simp] theorem emskStore_straps : (emskStore v s).straps = s.straps := rfl
@[simp] theorem emskStore_inReset : (emskStore v s).inReset = s.inReset := rfl
@[simp] theorem emskStore_mem : (emskStore v s).mem = s.mem := rfl
@[simp] theorem emskStore_epoch : (emskStore v s).epoch = s.epoch := rfl
@[simp] theorem emskStore_pending : (emskStore v s).pending = s.pending := rfl

end

/-! ### eclrStore -/

section
variable (v : Word) (s : State)

@[simp] theorem eclrStore_table : (eclrStore v s).table = s.table := rfl
@[simp] theorem eclrStore_slots : (eclrStore v s).slots = s.slots := rfl
@[simp] theorem eclrStore_queue : (eclrStore v s).queue = s.queue := rfl
@[simp] theorem eclrStore_eng : (eclrStore v s).eng = s.eng := rfl
@[simp] theorem eclrStore_ports : (eclrStore v s).ports = s.ports := rfl
@[simp] theorem eclrStore_delivered : (eclrStore v s).delivered = s.delivered := rfl
@[simp] theorem eclrStore_speed : (eclrStore v s).speed = s.speed := rfl
@[simp] theorem eclrStore_ctl : (eclrStore v s).ctl = s.ctl := rfl
@[simp] theorem eclrStore_arb : (eclrStore v s).arb = s.arb := rfl
@[simp] theorem eclrStore_win :
    (eclrStore v s).win =
      { s.win with evnt := s.win.evnt &&& ~~~(v.extractLsb' 0 9) } := rfl
@[simp] theorem eclrStore_straps : (eclrStore v s).straps = s.straps := rfl
@[simp] theorem eclrStore_inReset : (eclrStore v s).inReset = s.inReset := rfl
@[simp] theorem eclrStore_mem : (eclrStore v s).mem = s.mem := rfl
@[simp] theorem eclrStore_epoch : (eclrStore v s).epoch = s.epoch := rfl
@[simp] theorem eclrStore_pending : (eclrStore v s).pending = s.pending := rfl

end

/-! ### grantChain -/

section
variable (s : State)

@[simp] theorem grantChain_table : (grantChain s).table = s.table := rfl
@[simp] theorem grantChain_slots : (grantChain s).slots = s.slots := rfl
@[simp] theorem grantChain_queue : (grantChain s).queue = s.queue := rfl
@[simp] theorem grantChain_eng : (grantChain s).eng = wakeReader s.eng := rfl
@[simp] theorem grantChain_ports : (grantChain s).ports = s.ports := rfl
@[simp] theorem grantChain_delivered : (grantChain s).delivered = s.delivered := rfl
@[simp] theorem grantChain_speed : (grantChain s).speed = s.speed := rfl
@[simp] theorem grantChain_ctl : (grantChain s).ctl = s.ctl := rfl
@[simp] theorem grantChain_arb :
    (grantChain s).arb =
      { s.arb with holder := some .chain, pass := s.arb.pass.set Claimant.chain.index 0 } := rfl
@[simp] theorem grantChain_win : (grantChain s).win = s.win := rfl
@[simp] theorem grantChain_straps : (grantChain s).straps = s.straps := rfl
@[simp] theorem grantChain_inReset : (grantChain s).inReset = s.inReset := rfl
@[simp] theorem grantChain_mem : (grantChain s).mem = s.mem := rfl
@[simp] theorem grantChain_epoch : (grantChain s).epoch = s.epoch := rfl
@[simp] theorem grantChain_pending : (grantChain s).pending = s.pending := rfl

end

/-! ### startFinalRefresh -/

section
variable (s : State)

@[simp] theorem startFinalRefresh_table : (startFinalRefresh s).table = s.table := rfl
@[simp] theorem startFinalRefresh_slots : (startFinalRefresh s).slots = s.slots := rfl
@[simp] theorem startFinalRefresh_queue : (startFinalRefresh s).queue = s.queue := rfl
@[simp] theorem startFinalRefresh_eng : (startFinalRefresh s).eng = s.eng := rfl
@[simp] theorem startFinalRefresh_ports : (startFinalRefresh s).ports = s.ports := rfl
@[simp] theorem startFinalRefresh_delivered : (startFinalRefresh s).delivered = s.delivered := rfl
@[simp] theorem startFinalRefresh_speed : (startFinalRefresh s).speed = s.speed := rfl
@[simp] theorem startFinalRefresh_ctl :
    (startFinalRefresh s).ctl =
      { s.ctl with state := .entering .finalRefresh, refreshDue := false } := rfl
@[simp] theorem startFinalRefresh_arb : (startFinalRefresh s).arb = s.arb := rfl
@[simp] theorem startFinalRefresh_win : (startFinalRefresh s).win = s.win := rfl
@[simp] theorem startFinalRefresh_straps : (startFinalRefresh s).straps = s.straps := rfl
@[simp] theorem startFinalRefresh_inReset : (startFinalRefresh s).inReset = s.inReset := rfl
@[simp] theorem startFinalRefresh_mem : (startFinalRefresh s).mem = s.mem := rfl
@[simp] theorem startFinalRefresh_epoch : (startFinalRefresh s).epoch = s.epoch := rfl
@[simp] theorem startFinalRefresh_pending : (startFinalRefresh s).pending = s.pending := rfl

end

/-! ### Reading back -/

@[simp] theorem entry_setEntry_self (s : State) (i : Fin 16) (e : Entry) : (s.setEntry i e).entry i = e := by
  simp [State.entry, State.setEntry]

theorem entry_setEntry_ne (s : State) (i j : Fin 16) (e : Entry) (h : i ≠ j) : (s.setEntry i e).entry j = s.entry j := by
  have h' : (i : Nat) ≠ j := fun c => h (Fin.ext c)
  simp [State.entry, State.setEntry, Vector.getElem_set_ne, h']

theorem entry_setEntry (s : State) (i j : Fin 16) (e : Entry) :
    (s.setEntry i e).entry j = if i = j then e else s.entry j := by
  split
  · next h => subst h; simp
  · next h => exact entry_setEntry_ne s i j e h

@[simp] theorem port_setPort_self (s : State) (p : Fin 4) (q : Port) : (s.setPort p q).port p = q := by
  simp [State.port, State.setPort]

theorem port_setPort_ne (s : State) (p r : Fin 4) (q : Port) (h : p ≠ r) : (s.setPort p q).port r = s.port r := by
  have h' : (p : Nat) ≠ r := fun c => h (Fin.ext c)
  simp [State.port, State.setPort, Vector.getElem_set_ne, h']

theorem port_setPort (s : State) (p r : Fin 4) (q : Port) : (s.setPort p q).port r = if p = r then q else s.port r := by
  split
  · next h => subst h; simp
  · next h => exact port_setPort_ne s p r q h

@[simp] theorem slot_setSlot_self (s : State) (k : Fin 8) (w : Option WatchSlot) : (s.setSlot k w).slot k = w := by
  simp [State.slot, State.setSlot]

theorem slot_setSlot_ne (s : State) (k j : Fin 8) (w : Option WatchSlot) (h : k ≠ j) :
    (s.setSlot k w).slot j = s.slot j := by
  have h' : (k : Nat) ≠ j := fun c => h (Fin.ext c)
  simp [State.slot, State.setSlot, Vector.getElem_set_ne, h']

@[simp] theorem mapVec_get {α β : Type} {n : Nat} (f : α → β) (v : Vector α n) (i : Nat) (h : i < n) :
    (mapVec f v)[i] = f v[i] := by
  simp [mapVec]

/-- Two entries read alike where the tables are equal. -/
theorem entry_congr {s t : State} (h : t.table = s.table) (i : Fin 16) : t.entry i = s.entry i := by
  simp [State.entry, h]

theorem port_congr {s t : State} (h : t.ports = s.ports) (p : Fin 4) : t.port p = s.port p := by
  simp [State.port, h]

theorem slot_congr {s t : State} (h : t.slots = s.slots) (k : Fin 8) : t.slot k = s.slot k := by
  simp [State.slot, h]

end Sys2Proof.Laws
end

