-- ==== Sys2Proof/Laws/Lists.lean ====
section
/-! SUPPORT. The index lists (entries, slots, ports) and the first of them with a property; what the boolean tests of the
model say as propositions. -/

namespace Sys2Proof.Laws

open Sys2Proof.Machine

/-! ### Index lists -/

theorem mem_entryIndices (i : Fin 16) : i ∈ entryIndices := by revert i; decide

theorem sorted_entryIndices : entryIndices.Pairwise (· < ·) := by decide

theorem nodup_entryIndices : entryIndices.Nodup := by decide

theorem mem_portIndices (p : Fin 4) : p ∈ portIndices := by revert p; decide

theorem sorted_portIndices : portIndices.Pairwise (· < ·) := by decide

theorem mem_waitSlots (k : Fin 8) : k ∈ waitSlots ↔ k ≠ 0 := by revert k; decide

theorem sorted_waitSlots : waitSlots.Pairwise (· < ·) := by decide

/-- The lowest index with a property is the one that a search of a rising list finds. -/
theorem find_first {n : Nat} (P : Fin n → Bool) (l : List (Fin n)) (j : Fin n) (hm : j ∈ l) (hs : l.Pairwise (· < ·))
    (hj : P j = true) (hf : ∀ k ∈ l, k < j → P k = false) : l.find? P = some j := by
  induction l with
  | nil => simp at hm
  | cons x l ih =>
    rw [List.find?_cons]
    by_cases hx : x = j
    · subst hx; rw [hj]
    · have hjl : j ∈ l := by simpa [Ne.symm hx] using hm
      have hlt : x < j := (List.pairwise_cons.mp hs).1 j hjl
      rw [hf x (by simp) hlt]
      exact ih hjl (List.pairwise_cons.mp hs).2 (fun k hk => hf k (by simp [hk]))

theorem setEntry_eq_putEntry (s : State) (i : Fin 16) (e : Entry) : s.setEntry i e = s.putEntry i e := rfl

/-! ### Tests as propositions -/

theorem refusesLease_iff (e : Entry) (g : Range) (m : LeaseMode) : e.refusesLease g m = true ↔ e.blocksLease g m := by
  unfold Entry.refusesLease Entry.blocksLease Entry.lease?
  rcases e with ⟨st, n, f⟩
  rcases st with c | ⟨r, w⟩ | ⟨r, l⟩ | ⟨r, k, c, w⟩
  · simp
  · simp
  · cases l.mode <;> cases m <;> simp
  · rcases k with k | l
    · simp
    · cases l.mode <;> cases m <;> simp

theorem notIdle_iff (q : Port) : q.notIdle = true ↔ ¬q.idle := by
  unfold Port.notIdle Port.idle
  cases q.state <;> simp

theorem covers_iff (e : Entry) (a : Nat) : e.covers a = true ↔ e.rangeHolds a := by
  unfold Entry.covers Entry.rangeHolds
  cases h : e.status <;> simp [Range.contains]

theorem malformed_iff (x : AccessReq) : x.malformed = true ↔ badAccess x := by
  simp [AccessReq.malformed, badAccess, or_assoc]

theorem badCount_iff (n : Nat) : badCount n = true ↔ n = 0 ∨ 4194304 < n := by simp [badCount]

theorem badArea_iff (s : State) (x : Word) (n : Nat) :
    s.badArea x n = true ↔ s.dramBytes < x.toNat + 4 * n ∨ s.workBase < x.toNat + 4 * n := by
  simp [State.badArea]

/-! ### The entry that a POLI keeps at PRIORITY (R52) -/

theorem lowestSerial_mem (s : State) (l : List (Fin 16)) (j : Fin 16) (h : s.lowestSerial l = some j) : j ∈ l := by
  induction l generalizing j with
  | nil => simp [State.lowestSerial] at h
  | cons x xs ih =>
    simp only [State.lowestSerial] at h
    split at h
    · simp only [Option.some.injEq] at h; simp [h]
    · next y hy =>
      have := ih y hy
      split at h <;> simp only [Option.some.injEq] at h <;> subst h <;> simp [this]

theorem lowestSerial_eq (s : State) (l : List (Fin 16)) (hs : l.Pairwise (· < ·)) (k : Fin 16) (hk : k ∈ l)
    (h : ∀ j ∈ l, (s.entry k).serial < (s.entry j).serial ∨ ((s.entry k).serial = (s.entry j).serial ∧ k ≤ j)) :
    s.lowestSerial l = some k := by
  induction l with
  | nil => simp at hk
  | cons i is ih =>
    have hp := List.pairwise_cons.mp hs
    simp only [State.lowestSerial]
    by_cases hik : i = k
    · subst hik
      cases hl : s.lowestSerial is with
      | none => rfl
      | some j =>
        dsimp only
        have := h j (by simp [lowestSerial_mem s is j hl])
        rw [if_neg (by omega)]
    · have hk' : k ∈ is := by simpa [Ne.symm hik] using hk
      rw [ih hp.2 hk' (fun j hj => h j (by simp [hj]))]
      dsimp only
      have := h i (by simp)
      have hlt := hp.1 k hk'
      rw [if_pos (by omega)]

/-- Demoting every listed entry but one. -/
theorem foldl_demote (k : Fin 16) (l : List (Fin 16)) (hn : l.Nodup) (s : State) :
    l.foldl (fun t i => if some k = some i then t else t.setEntry i (t.entry i).demote) s =
      { s with
        table :=
          { s.table with
            entries := Vector.ofFn (fun j => if j ∈ l ∧ j ≠ k then (s.entry j).demote else s.entry j) } } := by
  induction l generalizing s with
  | nil =>
    simp only [List.foldl_nil, List.not_mem_nil, false_and, if_false]
    have : Vector.ofFn (fun j : Fin 16 => s.entry j) = s.table.entries := by
      ext i hi; simp [State.entry]
    rw [this]
  | cons i l ih =>
    rw [List.foldl_cons, ih (List.nodup_cons.mp hn).2]
    have hni := (List.nodup_cons.mp hn).1
    by_cases hk : k = i
    · subst hk
      simp only [if_true]
      refine congrArg (fun v => ({ s with table := { s.table with entries := v } } : State)) ?_
      ext j hj
      simp only [Vector.getElem_ofFn, List.mem_cons]
      by_cases h1 : (⟨j, hj⟩ : Fin 16) = k <;> simp [h1]
    · have hk2 : ¬(some k = some i) := by simpa using hk
      simp only [hk2, if_false, State.setEntry]
      refine congrArg (fun v => ({ s with table := { s.table with entries := v } } : State)) ?_
      ext j hj
      simp only [Vector.getElem_ofFn]
      by_cases h1 : (⟨j, hj⟩ : Fin 16) = i
      · subst h1
        have : ¬(⟨j, hj⟩ : Fin 16) = k := fun c => hk c.symm
        simp [hni, this, State.entry]
      · have hne : i.val ≠ j := fun c => h1 (Fin.ext c.symm)
        simp [h1, State.entry, Vector.getElem_set_ne, hne]

/-! ### SCAN's search (R79, R86) -/

theorem scanWords_none (v m : Word) (l : List Word) (a : Word) (h : ∀ y ∈ l, y &&& m = v &&& m) :
    scanWords v m a l = (l.length, none) := by
  induction l generalizing a with
  | nil => rfl
  | cons x l ih =>
    have hx : wordMatches x m v = true := by have := h x (by simp); simpa [wordMatches] using this
    simp [scanWords, hx, ih _ (fun y hy => h y (by simp [hy]))]

theorem scanWords_some (v m : Word) (l after : List Word) (x a : Word) (h : ∀ y ∈ l, y &&& m = v &&& m)
    (hx : x &&& m ≠ v &&& m) :
    scanWords v m a (l ++ x :: after) = (l.length + 1, some (a + BitVec.ofNat 32 (4 * l.length), x)) := by
  induction l generalizing a with
  | nil =>
    have : wordMatches x m v = false := by simpa [wordMatches] using hx
    simp [scanWords, this]
  | cons z l ih =>
    have hz : wordMatches z m v = true := by have := h z (by simp); simpa [wordMatches] using this
    have := ih (a + 4#32) (fun y hy => h y (by simp [hy]))
    simp only [List.cons_append, scanWords, hz, if_true, this, List.length_cons]
    refine Prod.ext rfl ?_
    simp only [Option.some.injEq, Prod.mk.injEq, and_true]
    rw [BitVec.add_assoc]; congr 1
    apply BitVec.eq_of_toNat_eq; simp; omega

/-! ### Accesses under way (R129) -/

theorem inProgress_split (before after : List Access) (x : Access) (c : BwClass) (e : Option (Fin 16))
    (hx : x.stage = .inProgress c e) (hb : ∀ y ∈ before, ∀ c e, y.stage ≠ .inProgress c e) :
    inProgress? (before ++ x :: after) = some (x.req, e) := by
  induction before with
  | nil => simp [inProgress?, hx]
  | cons y l ih =>
    have := ih (fun z hz => hb z (by simp [hz]))
    have hy := hb y (by simp)
    simp only [List.cons_append, inProgress?]
    cases h : y.stage <;> simp_all

theorem finish_map (l : List Access) (ws : List Word) (hb : ∀ y ∈ l, ∀ c e, y.stage ≠ .inProgress c e) :
    l.map (Access.finish ws) = l := by
  conv_rhs => rw [← List.map_id l]
  apply List.map_congr_left; intro y hy
  have := hb y hy
  unfold Access.finish
  cases h : y.stage <;> simp_all

/-! ### Fields of a word built from numbers (R26, R182) -/

theorem field_ofNat (n i k m : Nat) (h : n / 2 ^ i % 2 ^ k = m % 2 ^ k) (hn : n < 2 ^ 32) :
    (BitVec.ofNat 32 n).extractLsb' i k = BitVec.ofNat k m := by
  apply BitVec.eq_of_toNat_eq
  simp only [BitVec.extractLsb'_toNat, BitVec.toNat_ofNat, Nat.shiftRight_eq_div_pow]
  rw [Nat.mod_eq_of_lt hn, h]

theorem flag_ofNat (n i : Nat) (b : Bool) (h : n / 2 ^ i % 2 = b.toNat) (hi : i < 32) :
    (BitVec.ofNat 32 n).getLsbD i = b := by
  simp only [BitVec.getLsbD_ofNat, hi, decide_true, Bool.true_and, Nat.testBit_eq_decide_div_mod_eq, h]
  cases b <;> rfl

/-! ### The words written to CTRL (log 19) -/

theorem ctrl_or_go (w : Word) :
    (w ||| 0x01#32).getLsbD 0 = true ∧ (w ||| 0x01#32).getLsbD 1 = w.getLsbD 1 ∧
      (w ||| 0x01#32).getLsbD 2 = w.getLsbD 2 ∧ (w ||| 0x01#32).getLsbD 7 = w.getLsbD 7 ∧
      (w ||| 0x01#32).extractLsb' 4 2 = w.extractLsb' 4 2 := by
  exact ⟨by simp, by simp, by simp, by simp, by rw [BitVec.extractLsb'_or]; simp⟩

theorem ctrl_or_stop (w : Word) :
    (w ||| 0x02#32).getLsbD 0 = w.getLsbD 0 ∧ (w ||| 0x02#32).getLsbD 1 = true ∧
      (w ||| 0x02#32).getLsbD 2 = w.getLsbD 2 ∧ (w ||| 0x02#32).getLsbD 7 = w.getLsbD 7 ∧
      (w ||| 0x02#32).extractLsb' 4 2 = w.extractLsb' 4 2 := by
  exact ⟨by simp, by simp, by simp, by simp, by rw [BitVec.extractLsb'_or]; simp⟩

theorem ctrl_or_wset (w : Word) :
    (w ||| 0x80#32).getLsbD 0 = w.getLsbD 0 ∧ (w ||| 0x80#32).getLsbD 1 = w.getLsbD 1 ∧
      (w ||| 0x80#32).getLsbD 2 = w.getLsbD 2 ∧ (w ||| 0x80#32).getLsbD 7 = true ∧
      (w ||| 0x80#32).extractLsb' 4 2 = w.extractLsb' 4 2 := by
  exact ⟨by simp, by simp, by simp, by simp, by rw [BitVec.extractLsb'_or]; simp⟩

end Sys2Proof.Laws
end

