-- ==== Sys2Proof/Laws/Arbiter.lean ====
section
/-! SUPPORT. The arbiter's cyclic orders and its passover counts. -/

namespace Sys2Proof.Laws

open Sys2Proof.Machine

/-- The element with the least place is the one that a search of a list sorted by place finds. -/
theorem find_least {α : Type} (P : α → Bool) (f : α → Nat) (l : List α)
    (hs : l.Pairwise (fun a b => f a < f b)) (c : α) (hm : c ∈ l) (hc : P c = true) (h : ∀ d, P d = true → f c ≤ f d) : l.find? P = some c := by
  induction l with
  | nil => simp at hm
  | cons x l ih =>
    have hp := List.pairwise_cons.mp hs
    rw [List.find?_cons]
    cases hx : P x with
    | true =>
      rcases List.mem_cons.mp hm with rfl | hm
      · rfl
      · have := hp.1 c hm; have := h x hx; omega
    | false =>
      rcases List.mem_cons.mp hm with rfl | hm
      · rw [hc] at hx; cases hx
      · exact ih hp.2 hm

/-- R152: the cyclic order is the order of the places after the pointer. -/
theorem claimantsAfter_sorted (d : Claimant) : (claimantsAfter d).Pairwise (fun a b => a.after d < b.after d) := by
  rcases d with p | _ | _
  · fin_cases p <;> decide
  · decide
  · decide

theorem mem_claimantsAfter (c d : Claimant) : c ∈ claimantsAfter d := by
  rcases d with p | _ | _ <;> rcases c with q | _ | _
  · fin_cases p <;> fin_cases q <;> decide
  · fin_cases p <;> decide
  · fin_cases p <;> decide
  · fin_cases q <;> decide
  · decide
  · decide
  · fin_cases q <;> decide
  · decide
  · decide

theorem portsAfter_sorted (d : Fin 4) : (portsAfter d).Pairwise (fun a b => portAfter a d < portAfter b d) := by
  fin_cases d <;> decide

theorem mem_portsAfter (c d : Fin 4) : c ∈ portsAfter d := by revert c d; decide

/-- A claimant is known by its place among the counts. -/
theorem index_inj (c d : Claimant) (h : d.index.val = c.index.val) : c = d := by
  rcases c with q | _ | _ <;> rcases d with r | _ | _ <;> simp [Claimant.index, Fin.ext_iff] at h ⊢ <;> omega

/-- R153: the counts after a priority grant. -/
theorem bumpPasses_eq (p : Fin 4) (s : State) :
    ∃ v : Vector Nat 6, bumpPasses p s = { s with arb := { s.arb with pass := v } } ∧
    ∀ c : Claimant, v[c.index] = if c ≠ .port p ∧ s.defaultWaits c = true then bump (s.passOf c) else s.passOf c := by
  have key : ∀ (l : List Claimant) (t : State), (∃ v, t = { s with arb := { s.arb with pass := v } }) →
     ∃ v : Vector Nat 6,
      l.foldl (fun t c => if c ≠ .port p ∧ s.defaultWaits c = true then setPass c (bump (s.passOf c)) t else t) t =
        { s with arb := { s.arb with pass := v } } ∧
     ∀ c : Claimant, v[c.index] =
        if c ∈ l ∧ c ≠ .port p ∧ s.defaultWaits c = true then bump (s.passOf c) else t.arb.pass[c.index] := by
    intro l
    induction l with
    | nil => rintro t ⟨v, rfl⟩; exact ⟨v, rfl, fun c => by simp⟩
    | cons x l ih =>
      rintro t ⟨v, rfl⟩
      rw [List.foldl_cons]
      by_cases hx : x ≠ .port p ∧ s.defaultWaits x = true
      · rw [if_pos hx]
        obtain ⟨w, hw, hc⟩ := ih (setPass x (bump (s.passOf x)) { s with arb := { s.arb with pass := v } })
          ⟨v.set x.index (bump (s.passOf x)), rfl⟩
        refine ⟨w, hw, fun c => ?_⟩
        rw [hc c]
        by_cases hcl : c ∈ l
        · simp [hcl, setPass]
          by_cases hcx : c = x
          · subst hcx; simp [hx]
          · split
            · rfl
            · have : x.index.val ≠ c.index.val := fun e => hcx (index_inj c x e)
              rw [Vector.getElem_set_ne _ _ this]
        · by_cases hcx : c = x
          · subst hcx; simp [hcl, hx, setPass]
          · have : x.index.val ≠ c.index.val := fun e => hcx (index_inj c x e)
            simp [hcl, hcx, setPass, Vector.getElem_set_ne _ _ this]
      · rw [if_neg hx]
        obtain ⟨w, hw, hc⟩ := ih _ ⟨v, rfl⟩
        refine ⟨w, hw, fun c => ?_⟩
        rw [hc c]
        by_cases hcx : c = x
        · subst hcx; simp [hx]
        · simp [hcx]
  obtain ⟨v, h1, h2⟩ := key claimants s ⟨s.arb.pass, rfl⟩
  refine ⟨v, h1, fun c => ?_⟩
  rw [h2 c]
  have : c ∈ claimants := by rcases c with q | _ | _ <;> [(fin_cases q <;> decide); decide; decide]
  simp [this, State.passOf]

end Sys2Proof.Laws
end

