-- ==== Sys2Proof/Laws/Memory.lean ====
section
/-! SUPPORT. The DRAM's list of written bytes: every operation over it keeps the canonical form, and what is read after a
write. -/

namespace Sys2Proof.Laws

open Sys2Proof.Machine

/-! ### The canonical form -/

/-- Every listed address is above `k`. -/
def memAbove (k : Nat) (m : Memory) : Prop := ∀ c ∈ m, k < c.1

theorem wf_cons (c : Host.Cell) (m : Memory) : Memory.wf (c :: m) = true ↔ memAbove c.1 m ∧ Memory.wf m = true := by
  induction m generalizing c with
  | nil => simp [Memory.wf, memAbove]
  | cons d m ih =>
    simp only [Memory.wf, Bool.and_eq_true, decide_eq_true_eq, ih]
    constructor
    · rintro ⟨h1, h2, h3⟩
      refine ⟨?_, h2, h3⟩
      intro e he
      rcases List.mem_cons.mp he with rfl | he
      · exact h1
      · exact Nat.lt_trans h1 (h2 e he)
    · rintro ⟨h1, h2, h3⟩
      exact ⟨h1 d (by simp), h2, h3⟩

theorem memAbove_setByte (k a : Nat) (v : Byte) (m : Memory) (h : memAbove k m) (ha : k < a) :
    memAbove k (setByte m a v) := by
  induction m with
  | nil => intro c hc; simp only [setByte, List.mem_singleton] at hc; subst hc; exact ha
  | cons c m ih =>
    rcases c with ⟨b, w⟩
    have hb : k < b := h (b, w) (by simp)
    have hm : memAbove k m := fun e he => h e (by simp [he])
    unfold setByte
    split
    · intro e he; rcases List.mem_cons.mp he with rfl | he
      · exact ha
      · exact h e he
    · split
      · intro e he; rcases List.mem_cons.mp he with rfl | he
        · exact ha
        · exact hm e he
      · intro e he; rcases List.mem_cons.mp he with rfl | he
        · exact hb
        · exact ih hm e he

theorem wf_setByte (m : Memory) (a : Nat) (v : Byte) (h : Memory.wf m = true) : Memory.wf (setByte m a v) = true := by
  induction m with
  | nil => rfl
  | cons c m ih =>
    rcases c with ⟨b, w⟩
    have hc := (wf_cons _ _).mp h
    unfold setByte
    split
    · next hlt =>
      rw [wf_cons]
      refine ⟨?_, h⟩
      intro e he; rcases List.mem_cons.mp he with rfl | he
      · exact hlt
      · exact Nat.lt_trans hlt (hc.1 e he)
    · split
      · next _ heq => rw [wf_cons]; exact ⟨heq ▸ hc.1, hc.2⟩
      · next hn hne =>
        rw [wf_cons]
        exact ⟨memAbove_setByte _ _ _ _ hc.1 (show b < a by omega), ih hc.2⟩

theorem wf_storeWord (m : Memory) (a : Nat) (w : Word) (h : Memory.wf m = true) : Memory.wf (storeWord m a w) = true := by
  unfold storeWord
  exact wf_setByte _ _ _ (wf_setByte _ _ _ (wf_setByte _ _ _ (wf_setByte _ _ _ h)))

theorem wf_storeWords (ws : List Word) (m : Memory) (a : Nat) (h : Memory.wf m = true) :
    Memory.wf (storeWords m a ws) = true := by
  induction ws generalizing m a with
  | nil => exact h
  | cons w ws ih => exact ih _ _ (wf_storeWord m a w h)

theorem wf_store (s : State) (a : Nat) (ws : List Word) (h : Memory.wf s.mem = true) :
    Memory.wf (s.store a ws).mem = true := wf_storeWords ws s.mem a h

/-- Nothing is listed right after reset. -/
theorem wf_reset : Memory.wf State.reset.mem = true := rfl

/-! ### What is read -/

theorem byte?_setByte_same (m : Memory) (a : Nat) (v : Byte) : byte? (setByte m a v) a = some v := by
  induction m with
  | nil => simp [setByte, byte?]
  | cons c m ih =>
    rcases c with ⟨b, w⟩
    unfold setByte
    split
    · simp [byte?]
    · split
      · simp [byte?]
      · next _ hne => simp [byte?, Ne.symm hne, ih]

theorem byte?_setByte_other (m : Memory) (a b : Nat) (v : Byte) (h : b ≠ a) : byte? (setByte m a v) b = byte? m b := by
  induction m with
  | nil => simp [setByte, byte?, Ne.symm h]
  | cons c m ih =>
    rcases c with ⟨x, w⟩
    unfold setByte
    split
    · simp [byte?, Ne.symm h]
    · split
      · next _ heq => subst heq; simp [byte?, Ne.symm h]
      · simp [byte?, ih]

theorem byte?_storeWord_other (m : Memory) (a b : Nat) (w : Word) (h : b < a ∨ a + 4 ≤ b) :
    byte? (storeWord m a w) b = byte? m b := by
  unfold storeWord
  rw [byte?_setByte_other _ _ _ _ (by omega), byte?_setByte_other _ _ _ _ (by omega),
    byte?_setByte_other _ _ _ _ (by omega), byte?_setByte_other _ _ _ _ (by omega)]

theorem byte?_storeWord_byte (m : Memory) (a : Nat) (w : Word) :
    byte? (storeWord m a w) a = some (wordByte w 0) ∧ byte? (storeWord m a w) (a + 1) = some (wordByte w 1) ∧
      byte? (storeWord m a w) (a + 2) = some (wordByte w 2) ∧ byte? (storeWord m a w) (a + 3) = some (wordByte w 3) := by
  unfold storeWord
  refine ⟨?_, ?_, ?_, byte?_setByte_same _ _ _⟩
  · rw [byte?_setByte_other _ _ _ _ (by omega), byte?_setByte_other _ _ _ _ (by omega),
      byte?_setByte_other _ _ _ _ (by omega), byte?_setByte_same]
  · rw [byte?_setByte_other _ _ _ _ (by omega), byte?_setByte_other _ _ _ _ (by omega), byte?_setByte_same]
  · rw [byte?_setByte_other _ _ _ _ (by omega), byte?_setByte_same]

theorem byte?_storeWords_other (ws : List Word) (m : Memory) (a b : Nat) (h : b < a ∨ a + 4 * ws.length ≤ b) :
    byte? (storeWords m a ws) b = byte? m b := by
  induction ws generalizing m a with
  | nil => rfl
  | cons w ws ih =>
    simp only [List.length_cons] at h
    simp only [storeWords]
    rw [ih _ _ (by omega), byte?_storeWord_other _ _ _ _ (by omega)]

/-- The bytes of the `n`-th word of a write. -/
theorem byte?_storeWords_byte (ws : List Word) (m : Memory) (a n : Nat) (w : Word) (h : ws[n]? = some w) :
    byte? (storeWords m a ws) (a + 4 * n) = some (wordByte w 0) ∧
      byte? (storeWords m a ws) (a + 4 * n + 1) = some (wordByte w 1) ∧
      byte? (storeWords m a ws) (a + 4 * n + 2) = some (wordByte w 2) ∧
      byte? (storeWords m a ws) (a + 4 * n + 3) = some (wordByte w 3) := by
  induction ws generalizing m a n with
  | nil => simp at h
  | cons x ws ih =>
    simp only [storeWords]
    cases n with
    | zero =>
      simp only [List.getElem?_cons_zero, Option.some.injEq] at h
      subst h
      have hb := byte?_storeWord_byte m a x
      simp only [Nat.mul_zero, Nat.add_zero]
      rw [byte?_storeWords_other _ _ _ _ (by omega), byte?_storeWords_other _ _ _ _ (by omega),
        byte?_storeWords_other _ _ _ _ (by omega), byte?_storeWords_other _ _ _ _ (by omega)]
      exact hb
    | succ n =>
      simp only [List.getElem?_cons_succ] at h
      have := ih (storeWord m a x) (a + 4) n h
      rw [show a + 4 * (n + 1) = a + 4 + 4 * n by omega]
      exact this

theorem byteAt_of_byte? (s : State) (a : Nat) (b : Byte) (h : byte? s.mem a = some b) : s.byteAt a = b := by
  unfold State.byteAt; rw [h]

/-- Two states that list the same byte and have the same contents under it read the same byte. -/
theorem byteAt_congr (s t : State) (a : Nat) (h : byte? t.mem a = byte? s.mem a) (he : t.epoch = s.epoch) :
    t.byteAt a = s.byteAt a := by
  unfold State.byteAt; rw [h, he]

theorem word_of_bytes (w : Word) : wordByte w 3 ++ wordByte w 2 ++ wordByte w 1 ++ wordByte w 0 = w := by
  unfold wordByte
  apply BitVec.eq_of_getElem_eq
  intro i hi
  simp only [BitVec.getElem_append, BitVec.getElem_extractLsb']
  split
  · rw [BitVec.getElem_eq_testBit_toNat, BitVec.getLsbD]; congr 1; omega
  · split
    · rw [BitVec.getElem_eq_testBit_toNat, BitVec.getLsbD]; congr 1; omega
    · split
      · rw [BitVec.getElem_eq_testBit_toNat, BitVec.getLsbD]; congr 1; omega
      · rw [BitVec.getElem_eq_testBit_toNat, BitVec.getLsbD]; congr 1; omega

theorem wordsAt_length (s : State) (a n : Nat) : (s.wordsAt a n).length = n := by
  induction n generalizing a with
  | zero => rfl
  | succ n ih => simp [State.wordsAt, ih]

/-- What is read depends on the DRAM's bytes and contents alone. -/
theorem wordAt_congr (s t : State) (a : Nat) (h : t.mem = s.mem) (he : t.epoch = s.epoch) : t.wordAt a = s.wordAt a := by
  unfold State.wordAt State.byteAt; rw [h, he]

theorem wordsAt_congr (s t : State) (a n : Nat) (h : t.mem = s.mem) (he : t.epoch = s.epoch) :
    t.wordsAt a n = s.wordsAt a n := by
  induction n generalizing a with
  | zero => rfl
  | succ n ih => simp only [State.wordsAt, ih, wordAt_congr s t a h he]

end Sys2Proof.Laws
end

