-- ==== Sys2Proof/Laws/Frames.lean ====
section
/-! SUPPORT. What each shared operation leaves alone: one lemma per operation, which names every field of the state that the
operation does not write. -/

namespace Sys2Proof.Laws

open Sys2Proof.Machine

set_option Elab.async false
set_option linter.unusedTactic false
set_option linter.unreachableTactic false

/-- What every step of a fold keeps, the fold keeps. -/
theorem foldl_keeps {σ α β : Type} (get : σ → β) {f : σ → α → σ} (h : ∀ t a, get (f t a) = get t) (l : List α) (s : σ) :
    get (l.foldl f s) = get s := by
  induction l generalizing s with
  | nil => rfl
  | cons a l ih => rw [List.foldl_cons, ih, h]

@[simp] theorem raiseIf_frame (c : Bool) (e : Event) (s : State) :
    (raiseIf c e s).table = s.table ∧ (raiseIf c e s).slots = s.slots ∧ (raiseIf c e s).queue = s.queue ∧
      (raiseIf c e s).eng = s.eng ∧ (raiseIf c e s).ports = s.ports ∧ (raiseIf c e s).delivered = s.delivered ∧
      (raiseIf c e s).speed = s.speed ∧ (raiseIf c e s).ctl = s.ctl ∧ (raiseIf c e s).arb = s.arb ∧ (raiseIf c e
      s).straps = s.straps ∧ (raiseIf c e s).inReset = s.inReset ∧ (raiseIf c e s).mem = s.mem ∧ (raiseIf c e
      s).epoch = s.epoch ∧ (raiseIf c e s).pending = s.pending := by
  unfold raiseIf; repeat' split
  all_goals simp

@[simp] theorem appendOps_frame (l : List EngineOp) (s : State) :
    (appendOps l s).table = s.table ∧ (appendOps l s).slots = s.slots ∧ (appendOps l s).queue = s.queue ∧
      (appendOps l s).ports = s.ports ∧ (appendOps l s).delivered = s.delivered ∧ (appendOps l s).speed =
      s.speed ∧ (appendOps l s).arb = s.arb ∧ (appendOps l s).win = s.win ∧ (appendOps l s).straps = s.straps ∧
      (appendOps l s).inReset = s.inReset ∧ (appendOps l s).mem = s.mem ∧ (appendOps l s).epoch = s.epoch ∧
      (appendOps l s).pending = s.pending := by
  unfold appendOps; repeat' split
  all_goals simp

@[simp] theorem complete_frame (id : RecId) (c : ResultCode) (rw : Replies) (s : State) :
    (complete id c rw s).table = s.table ∧ (complete id c rw s).slots = s.slots ∧ (complete id c rw s).queue =
      s.queue ∧ (complete id c rw s).ports = s.ports ∧ (complete id c rw s).delivered = s.delivered ∧ (complete
      id c rw s).speed = s.speed ∧ (complete id c rw s).arb = s.arb ∧ (complete id c rw s).win = s.win ∧
      (complete id c rw s).straps = s.straps ∧ (complete id c rw s).inReset = s.inReset ∧ (complete id c rw
      s).mem = s.mem ∧ (complete id c rw s).epoch = s.epoch ∧ (complete id c rw s).pending = s.pending := by
  unfold complete; repeat' split
  all_goals simp

@[simp] theorem instant_frame (id : RecId) (c : ResultCode) (rw : Replies) (s : State) :
    (instant id c rw s).table = s.table ∧ (instant id c rw s).slots = s.slots ∧ (instant id c rw s).queue =
      s.queue ∧ (instant id c rw s).ports = s.ports ∧ (instant id c rw s).delivered = s.delivered ∧ (instant id
      c rw s).speed = s.speed ∧ (instant id c rw s).arb = s.arb ∧ (instant id c rw s).win = s.win ∧ (instant id
      c rw s).straps = s.straps ∧ (instant id c rw s).inReset = s.inReset ∧ (instant id c rw s).mem = s.mem ∧
      (instant id c rw s).epoch = s.epoch ∧ (instant id c rw s).pending = s.pending := by
  unfold instant; repeat' split
  all_goals simp

@[simp] theorem retire_frame (s : State) :
    (retire s).table = s.table ∧ (retire s).slots = s.slots ∧ (retire s).queue = s.queue ∧ (retire s).ports =
      s.ports ∧ (retire s).delivered = s.delivered ∧ (retire s).speed = s.speed ∧ (retire s).arb = s.arb ∧
      (retire s).win = s.win ∧ (retire s).straps = s.straps ∧ (retire s).inReset = s.inReset ∧ (retire s).mem =
      s.mem ∧ (retire s).epoch = s.epoch ∧ (retire s).pending = s.pending := by
  unfold retire; repeat' split
  all_goals simp

@[simp] theorem endTail_frame (s : State) :
    (endTail s).table = s.table ∧ (endTail s).slots = s.slots ∧ (endTail s).queue = s.queue ∧ (endTail s).ports
      = s.ports ∧ (endTail s).delivered = s.delivered ∧ (endTail s).speed = s.speed ∧ (endTail s).arb = s.arb ∧
      (endTail s).win = s.win ∧ (endTail s).straps = s.straps ∧ (endTail s).inReset = s.inReset ∧ (endTail
      s).mem = s.mem ∧ (endTail s).epoch = s.epoch ∧ (endTail s).pending = s.pending := by
  unfold endTail; repeat' split
  all_goals simp

@[simp] theorem recordDenial_frame (r : DenyRecord) (p : Fin 4) (t : Bool) (d : Dir) (a : Word) (s : State) :
    (recordDenial r p t d a s).slots = s.slots ∧ (recordDenial r p t d a s).queue = s.queue ∧ (recordDenial r p
      t d a s).eng = s.eng ∧ (recordDenial r p t d a s).ports = s.ports ∧ (recordDenial r p t d a s).delivered =
      s.delivered ∧ (recordDenial r p t d a s).speed = s.speed ∧ (recordDenial r p t d a s).ctl = s.ctl ∧
      (recordDenial r p t d a s).arb = s.arb ∧ (recordDenial r p t d a s).win = s.win ∧ (recordDenial r p t d a
      s).straps = s.straps ∧ (recordDenial r p t d a s).inReset = s.inReset ∧ (recordDenial r p t d a s).mem =
      s.mem ∧ (recordDenial r p t d a s).epoch = s.epoch ∧ (recordDenial r p t d a s).pending = s.pending := by
  unfold recordDenial; repeat' split
  all_goals simp

@[simp] theorem countIn_frame (e : Option (Fin 16)) (s : State) :
    (countIn e s).slots = s.slots ∧ (countIn e s).queue = s.queue ∧ (countIn e s).eng = s.eng ∧ (countIn e
      s).ports = s.ports ∧ (countIn e s).delivered = s.delivered ∧ (countIn e s).speed = s.speed ∧ (countIn e
      s).ctl = s.ctl ∧ (countIn e s).arb = s.arb ∧ (countIn e s).win = s.win ∧ (countIn e s).straps = s.straps ∧
      (countIn e s).inReset = s.inReset ∧ (countIn e s).mem = s.mem ∧ (countIn e s).epoch = s.epoch ∧ (countIn e
      s).pending = s.pending := by
  unfold countIn; repeat' split
  all_goals simp

@[simp] theorem applyDecision_frame (dec : Decision) (p : Fin 4) (t : Bool) (d : Dir) (a : Word) (s : State) :
    (applyDecision dec p t d a s).slots = s.slots ∧ (applyDecision dec p t d a s).queue = s.queue ∧
      (applyDecision dec p t d a s).eng = s.eng ∧ (applyDecision dec p t d a s).ports = s.ports ∧ (applyDecision
      dec p t d a s).delivered = s.delivered ∧ (applyDecision dec p t d a s).speed = s.speed ∧ (applyDecision
      dec p t d a s).ctl = s.ctl ∧ (applyDecision dec p t d a s).arb = s.arb ∧ (applyDecision dec p t d a
      s).straps = s.straps ∧ (applyDecision dec p t d a s).inReset = s.inReset ∧ (applyDecision dec p t d a
      s).mem = s.mem ∧ (applyDecision dec p t d a s).epoch = s.epoch ∧ (applyDecision dec p t d a s).pending =
      s.pending := by
  unfold applyDecision; repeat' split
  all_goals simp

@[simp] theorem retireEntry_frame (i : Fin 16) (s : State) :
    (retireEntry i s).slots = s.slots ∧ (retireEntry i s).queue = s.queue ∧ (retireEntry i s).ports = s.ports ∧
      (retireEntry i s).delivered = s.delivered ∧ (retireEntry i s).speed = s.speed ∧ (retireEntry i s).arb =
      s.arb ∧ (retireEntry i s).straps = s.straps ∧ (retireEntry i s).inReset = s.inReset ∧ (retireEntry i
      s).mem = s.mem ∧ (retireEntry i s).epoch = s.epoch ∧ (retireEntry i s).pending = s.pending := by
  unfold retireEntry; repeat' split
  all_goals simp

@[simp] theorem settleEntry_frame (i : Fin 16) (s : State) :
    (settleEntry i s).slots = s.slots ∧ (settleEntry i s).queue = s.queue ∧ (settleEntry i s).ports = s.ports ∧
      (settleEntry i s).delivered = s.delivered ∧ (settleEntry i s).speed = s.speed ∧ (settleEntry i s).arb =
      s.arb ∧ (settleEntry i s).straps = s.straps ∧ (settleEntry i s).inReset = s.inReset ∧ (settleEntry i
      s).mem = s.mem ∧ (settleEntry i s).epoch = s.epoch ∧ (settleEntry i s).pending = s.pending := by
  unfold settleEntry; repeat' split
  all_goals simp

@[simp] theorem countOut_frame (e : Option (Fin 16)) (s : State) :
    (countOut e s).slots = s.slots ∧ (countOut e s).queue = s.queue ∧ (countOut e s).ports = s.ports ∧ (countOut
      e s).delivered = s.delivered ∧ (countOut e s).speed = s.speed ∧ (countOut e s).arb = s.arb ∧ (countOut e
      s).straps = s.straps ∧ (countOut e s).inReset = s.inReset ∧ (countOut e s).mem = s.mem ∧ (countOut e
      s).epoch = s.epoch ∧ (countOut e s).pending = s.pending := by
  unfold countOut; repeat' split
  all_goals simp

@[simp] theorem endEntry_frame (i : Fin 16) (c : EndCause) (q : Option RecId) (s : State) :
    (endEntry i c q s).slots = s.slots ∧ (endEntry i c q s).queue = s.queue ∧ (endEntry i c q s).eng = s.eng ∧
      (endEntry i c q s).ports = s.ports ∧ (endEntry i c q s).delivered = s.delivered ∧ (endEntry i c q s).speed
      = s.speed ∧ (endEntry i c q s).ctl = s.ctl ∧ (endEntry i c q s).arb = s.arb ∧ (endEntry i c q s).straps =
      s.straps ∧ (endEntry i c q s).inReset = s.inReset ∧ (endEntry i c q s).mem = s.mem ∧ (endEntry i c q
      s).epoch = s.epoch ∧ (endEntry i c q s).pending = s.pending := by
  unfold endEntry; dsimp only; repeat' split
  all_goals simp

@[simp] theorem cancelWaiter_frame (i : Fin 16) (s : State) :
    (cancelWaiter i s).slots = s.slots ∧ (cancelWaiter i s).queue = s.queue ∧ (cancelWaiter i s).ports = s.ports
      ∧ (cancelWaiter i s).delivered = s.delivered ∧ (cancelWaiter i s).speed = s.speed ∧ (cancelWaiter i s).arb
      = s.arb ∧ (cancelWaiter i s).win = s.win ∧ (cancelWaiter i s).straps = s.straps ∧ (cancelWaiter i
      s).inReset = s.inReset ∧ (cancelWaiter i s).mem = s.mem ∧ (cancelWaiter i s).epoch = s.epoch ∧
      (cancelWaiter i s).pending = s.pending := by
  unfold cancelWaiter; repeat' split
  all_goals simp

@[simp] theorem clearFault_frame (i : Option (Fin 16)) (s : State) :
    (clearFault i s).slots = s.slots ∧ (clearFault i s).queue = s.queue ∧ (clearFault i s).eng = s.eng ∧
      (clearFault i s).ports = s.ports ∧ (clearFault i s).delivered = s.delivered ∧ (clearFault i s).speed =
      s.speed ∧ (clearFault i s).ctl = s.ctl ∧ (clearFault i s).arb = s.arb ∧ (clearFault i s).win = s.win ∧
      (clearFault i s).straps = s.straps ∧ (clearFault i s).inReset = s.inReset ∧ (clearFault i s).mem = s.mem ∧
      (clearFault i s).epoch = s.epoch ∧ (clearFault i s).pending = s.pending := by
  unfold clearFault; repeat' split
  all_goals simp

@[simp] theorem grantLease_frame (i : Fin 16) (r : Request) (m : LeaseMode) (s : State) :
    (grantLease i r m s).slots = s.slots ∧ (grantLease i r m s).queue = s.queue ∧ (grantLease i r m s).eng =
      s.eng ∧ (grantLease i r m s).ports = s.ports ∧ (grantLease i r m s).delivered = s.delivered ∧ (grantLease
      i r m s).speed = s.speed ∧ (grantLease i r m s).ctl = s.ctl ∧ (grantLease i r m s).arb = s.arb ∧
      (grantLease i r m s).win = s.win ∧ (grantLease i r m s).straps = s.straps ∧ (grantLease i r m s).inReset =
      s.inReset ∧ (grantLease i r m s).mem = s.mem ∧ (grantLease i r m s).epoch = s.epoch ∧ (grantLease i r m
      s).pending = s.pending := by
  unfold grantLease; repeat' split
  all_goals simp

@[simp] theorem expireLease_frame (i : Fin 16) (s : State) :
    (expireLease i s).slots = s.slots ∧ (expireLease i s).queue = s.queue ∧ (expireLease i s).eng = s.eng ∧
      (expireLease i s).ports = s.ports ∧ (expireLease i s).delivered = s.delivered ∧ (expireLease i s).speed =
      s.speed ∧ (expireLease i s).ctl = s.ctl ∧ (expireLease i s).arb = s.arb ∧ (expireLease i s).straps =
      s.straps ∧ (expireLease i s).inReset = s.inReset ∧ (expireLease i s).mem = s.mem ∧ (expireLease i s).epoch
      = s.epoch ∧ (expireLease i s).pending = s.pending := by
  unfold expireLease; repeat' split
  all_goals simp

@[simp] theorem releaseFrom_frame (p : Fin 4) (s : State) (i : Fin 16) :
    (releaseFrom p s i).slots = s.slots ∧ (releaseFrom p s i).queue = s.queue ∧ (releaseFrom p s i).eng = s.eng
      ∧ (releaseFrom p s i).ports = s.ports ∧ (releaseFrom p s i).delivered = s.delivered ∧ (releaseFrom p s
      i).speed = s.speed ∧ (releaseFrom p s i).ctl = s.ctl ∧ (releaseFrom p s i).arb = s.arb ∧ (releaseFrom p s
      i).straps = s.straps ∧ (releaseFrom p s i).inReset = s.inReset ∧ (releaseFrom p s i).mem = s.mem ∧
      (releaseFrom p s i).epoch = s.epoch ∧ (releaseFrom p s i).pending = s.pending := by
  unfold releaseFrom; repeat' split
  all_goals simp

@[simp] theorem releasePort_frame (p : Fin 4) (s : State) :
    (releasePort p s).slots = s.slots ∧ (releasePort p s).queue = s.queue ∧ (releasePort p s).eng = s.eng ∧
      (releasePort p s).ports = s.ports ∧ (releasePort p s).delivered = s.delivered ∧ (releasePort p s).speed =
      s.speed ∧ (releasePort p s).ctl = s.ctl ∧ (releasePort p s).arb = s.arb ∧ (releasePort p s).straps =
      s.straps ∧ (releasePort p s).inReset = s.inReset ∧ (releasePort p s).mem = s.mem ∧ (releasePort p s).epoch
      = s.epoch ∧ (releasePort p s).pending = s.pending := by
  unfold releasePort
  refine ⟨foldl_keeps (fun t : State => t.slots) ?_ _ _,
    foldl_keeps (fun t : State => t.queue) ?_ _ _,
    foldl_keeps (fun t : State => t.eng) ?_ _ _,
    foldl_keeps (fun t : State => t.ports) ?_ _ _,
    foldl_keeps (fun t : State => t.delivered) ?_ _ _,
    foldl_keeps (fun t : State => t.speed) ?_ _ _,
    foldl_keeps (fun t : State => t.ctl) ?_ _ _,
    foldl_keeps (fun t : State => t.arb) ?_ _ _,
    foldl_keeps (fun t : State => t.straps) ?_ _ _,
    foldl_keeps (fun t : State => t.inReset) ?_ _ _,
    foldl_keeps (fun t : State => t.mem) ?_ _ _,
    foldl_keeps (fun t : State => t.epoch) ?_ _ _,
    foldl_keeps (fun t : State => t.pending) ?_ _ _⟩
  all_goals intro t i; simp

@[simp] theorem watchRelease_frame (i : Option (Fin 16)) (s : State) :
    (watchRelease i s).slots = s.slots ∧ (watchRelease i s).queue = s.queue ∧ (watchRelease i s).eng = s.eng ∧
      (watchRelease i s).ports = s.ports ∧ (watchRelease i s).delivered = s.delivered ∧ (watchRelease i s).speed
      = s.speed ∧ (watchRelease i s).ctl = s.ctl ∧ (watchRelease i s).arb = s.arb ∧ (watchRelease i s).straps =
      s.straps ∧ (watchRelease i s).inReset = s.inReset ∧ (watchRelease i s).mem = s.mem ∧ (watchRelease i
      s).epoch = s.epoch ∧ (watchRelease i s).pending = s.pending := by
  unfold watchRelease; repeat' split
  all_goals simp

@[simp] theorem demoteOthers_frame (s : State) :
    (demoteOthers s).slots = s.slots ∧ (demoteOthers s).queue = s.queue ∧ (demoteOthers s).eng = s.eng ∧
      (demoteOthers s).ports = s.ports ∧ (demoteOthers s).delivered = s.delivered ∧ (demoteOthers s).speed =
      s.speed ∧ (demoteOthers s).ctl = s.ctl ∧ (demoteOthers s).arb = s.arb ∧ (demoteOthers s).win = s.win ∧
      (demoteOthers s).straps = s.straps ∧ (demoteOthers s).inReset = s.inReset ∧ (demoteOthers s).mem = s.mem ∧
      (demoteOthers s).epoch = s.epoch ∧ (demoteOthers s).pending = s.pending := by
  unfold demoteOthers
  refine ⟨foldl_keeps (fun t : State => t.slots) ?_ _ _,
    foldl_keeps (fun t : State => t.queue) ?_ _ _,
    foldl_keeps (fun t : State => t.eng) ?_ _ _,
    foldl_keeps (fun t : State => t.ports) ?_ _ _,
    foldl_keeps (fun t : State => t.delivered) ?_ _ _,
    foldl_keeps (fun t : State => t.speed) ?_ _ _,
    foldl_keeps (fun t : State => t.ctl) ?_ _ _,
    foldl_keeps (fun t : State => t.arb) ?_ _ _,
    foldl_keeps (fun t : State => t.win) ?_ _ _,
    foldl_keeps (fun t : State => t.straps) ?_ _ _,
    foldl_keeps (fun t : State => t.inReset) ?_ _ _,
    foldl_keeps (fun t : State => t.mem) ?_ _ _,
    foldl_keeps (fun t : State => t.epoch) ?_ _ _,
    foldl_keeps (fun t : State => t.pending) ?_ _ _⟩
  all_goals intro t i; split <;> simp

@[simp] theorem chainFault_frame (k : ChainFault) (a : Word) (s : State) :
    (chainFault k a s).table = s.table ∧ (chainFault k a s).slots = s.slots ∧ (chainFault k a s).queue = s.queue
      ∧ (chainFault k a s).ports = s.ports ∧ (chainFault k a s).delivered = s.delivered ∧ (chainFault k a
      s).speed = s.speed ∧ (chainFault k a s).arb = s.arb ∧ (chainFault k a s).win = s.win ∧ (chainFault k a
      s).straps = s.straps ∧ (chainFault k a s).inReset = s.inReset ∧ (chainFault k a s).mem = s.mem ∧
      (chainFault k a s).epoch = s.epoch ∧ (chainFault k a s).pending = s.pending := by
  unfold chainFault; repeat' split
  all_goals simp

@[simp] theorem readRecord_frame (a : Word) (s : State) :
    (readRecord a s).table = s.table ∧ (readRecord a s).slots = s.slots ∧ (readRecord a s).queue = s.queue ∧
      (readRecord a s).ports = s.ports ∧ (readRecord a s).delivered = s.delivered ∧ (readRecord a s).speed =
      s.speed ∧ (readRecord a s).arb = s.arb ∧ (readRecord a s).win = s.win ∧ (readRecord a s).straps = s.straps
      ∧ (readRecord a s).inReset = s.inReset ∧ (readRecord a s).mem = s.mem ∧ (readRecord a s).epoch = s.epoch ∧
      (readRecord a s).pending = s.pending := by
  unfold readRecord; repeat' split
  all_goals simp

@[simp] theorem examineNext_frame (a : Word) (s : State) :
    (examineNext a s).table = s.table ∧ (examineNext a s).slots = s.slots ∧ (examineNext a s).queue = s.queue ∧
      (examineNext a s).ports = s.ports ∧ (examineNext a s).delivered = s.delivered ∧ (examineNext a s).speed =
      s.speed ∧ (examineNext a s).arb = s.arb ∧ (examineNext a s).win = s.win ∧ (examineNext a s).straps =
      s.straps ∧ (examineNext a s).inReset = s.inReset ∧ (examineNext a s).mem = s.mem ∧ (examineNext a s).epoch
      = s.epoch ∧ (examineNext a s).pending = s.pending := by
  unfold examineNext; repeat' split
  all_goals simp

@[simp] theorem followLink_frame (l : Word) (s : State) :
    (followLink l s).table = s.table ∧ (followLink l s).slots = s.slots ∧ (followLink l s).queue = s.queue ∧
      (followLink l s).ports = s.ports ∧ (followLink l s).delivered = s.delivered ∧ (followLink l s).speed =
      s.speed ∧ (followLink l s).arb = s.arb ∧ (followLink l s).win = s.win ∧ (followLink l s).straps = s.straps
      ∧ (followLink l s).inReset = s.inReset ∧ (followLink l s).mem = s.mem ∧ (followLink l s).epoch = s.epoch ∧
      (followLink l s).pending = s.pending := by
  unfold followLink; repeat' split
  all_goals simp

@[simp] theorem linkStep_frame (id : RecId) (a l : Word) (s : State) :
    (linkStep id a l s).table = s.table ∧ (linkStep id a l s).slots = s.slots ∧ (linkStep id a l s).queue =
      s.queue ∧ (linkStep id a l s).ports = s.ports ∧ (linkStep id a l s).delivered = s.delivered ∧ (linkStep id
      a l s).speed = s.speed ∧ (linkStep id a l s).arb = s.arb ∧ (linkStep id a l s).win = s.win ∧ (linkStep id
      a l s).straps = s.straps ∧ (linkStep id a l s).inReset = s.inReset ∧ (linkStep id a l s).mem = s.mem ∧
      (linkStep id a l s).epoch = s.epoch ∧ (linkStep id a l s).pending = s.pending := by
  unfold linkStep; repeat' split
  all_goals simp

@[simp] theorem endTakeAt_frame (id : RecId) (e : TakeEnd) (s : State) :
    (endTakeAt id e s).table = s.table ∧ (endTakeAt id e s).slots = s.slots ∧ (endTakeAt id e s).queue = s.queue
      ∧ (endTakeAt id e s).ports = s.ports ∧ (endTakeAt id e s).delivered = s.delivered ∧ (endTakeAt id e
      s).speed = s.speed ∧ (endTakeAt id e s).arb = s.arb ∧ (endTakeAt id e s).win = s.win ∧ (endTakeAt id e
      s).straps = s.straps ∧ (endTakeAt id e s).inReset = s.inReset ∧ (endTakeAt id e s).mem = s.mem ∧
      (endTakeAt id e s).epoch = s.epoch ∧ (endTakeAt id e s).pending = s.pending := by
  unfold endTakeAt; repeat' split
  all_goals simp

@[simp] theorem endStall_frame (s : State) :
    (endStall s).table = s.table ∧ (endStall s).slots = s.slots ∧ (endStall s).queue = s.queue ∧ (endStall
      s).ports = s.ports ∧ (endStall s).delivered = s.delivered ∧ (endStall s).speed = s.speed ∧ (endStall
      s).arb = s.arb ∧ (endStall s).win = s.win ∧ (endStall s).straps = s.straps ∧ (endStall s).inReset =
      s.inReset ∧ (endStall s).mem = s.mem ∧ (endStall s).epoch = s.epoch ∧ (endStall s).pending = s.pending := by
  unfold endStall; repeat' split
  all_goals simp

@[simp] theorem goAct_frame (s : State) :
    (goAct s).table = s.table ∧ (goAct s).slots = s.slots ∧ (goAct s).queue = s.queue ∧ (goAct s).ports =
      s.ports ∧ (goAct s).delivered = s.delivered ∧ (goAct s).speed = s.speed ∧ (goAct s).arb = s.arb ∧ (goAct
      s).straps = s.straps ∧ (goAct s).inReset = s.inReset ∧ (goAct s).mem = s.mem ∧ (goAct s).epoch = s.epoch ∧
      (goAct s).pending = s.pending := by
  unfold goAct; dsimp only; split <;> simp

@[simp] theorem goCommand_frame (s : State) :
    (goCommand s).table = s.table ∧ (goCommand s).slots = s.slots ∧ (goCommand s).queue = s.queue ∧ (goCommand
      s).ports = s.ports ∧ (goCommand s).delivered = s.delivered ∧ (goCommand s).speed = s.speed ∧ (goCommand
      s).arb = s.arb ∧ (goCommand s).straps = s.straps ∧ (goCommand s).inReset = s.inReset ∧ (goCommand s).mem =
      s.mem ∧ (goCommand s).epoch = s.epoch ∧ (goCommand s).pending = s.pending := by
  unfold goCommand; repeat' split
  all_goals simp

@[simp] theorem withdrawRead_frame (s : State) :
    (withdrawRead s).table = s.table ∧ (withdrawRead s).slots = s.slots ∧ (withdrawRead s).queue = s.queue ∧
      (withdrawRead s).ports = s.ports ∧ (withdrawRead s).delivered = s.delivered ∧ (withdrawRead s).speed =
      s.speed ∧ (withdrawRead s).ctl = s.ctl ∧ (withdrawRead s).win = s.win ∧ (withdrawRead s).straps = s.straps
      ∧ (withdrawRead s).inReset = s.inReset ∧ (withdrawRead s).mem = s.mem ∧ (withdrawRead s).epoch = s.epoch ∧
      (withdrawRead s).pending = s.pending := by
  unfold withdrawRead; dsimp only; repeat' split
  all_goals simp

@[simp] theorem wakeOfStop_frame (s : State) :
    (wakeOfStop s).table = s.table ∧ (wakeOfStop s).slots = s.slots ∧ (wakeOfStop s).queue = s.queue ∧
      (wakeOfStop s).eng = s.eng ∧ (wakeOfStop s).ports = s.ports ∧ (wakeOfStop s).delivered = s.delivered ∧
      (wakeOfStop s).speed = s.speed ∧ (wakeOfStop s).arb = s.arb ∧ (wakeOfStop s).win = s.win ∧ (wakeOfStop
      s).straps = s.straps ∧ (wakeOfStop s).inReset = s.inReset ∧ (wakeOfStop s).mem = s.mem ∧ (wakeOfStop
      s).epoch = s.epoch ∧ (wakeOfStop s).pending = s.pending := by
  unfold wakeOfStop; repeat' split
  all_goals simp

@[simp] theorem endTailAtStop_frame (s : State) :
    (endTailAtStop s).table = s.table ∧ (endTailAtStop s).slots = s.slots ∧ (endTailAtStop s).queue = s.queue ∧
      (endTailAtStop s).ports = s.ports ∧ (endTailAtStop s).delivered = s.delivered ∧ (endTailAtStop s).speed =
      s.speed ∧ (endTailAtStop s).arb = s.arb ∧ (endTailAtStop s).win = s.win ∧ (endTailAtStop s).straps =
      s.straps ∧ (endTailAtStop s).inReset = s.inReset ∧ (endTailAtStop s).mem = s.mem ∧ (endTailAtStop s).epoch
      = s.epoch ∧ (endTailAtStop s).pending = s.pending := by
  unfold endTailAtStop; dsimp only; repeat' split
  all_goals simp

@[simp] theorem stopCommand_frame (s : State) :
    (stopCommand s).table = s.table ∧ (stopCommand s).queue = s.queue ∧ (stopCommand s).ports = s.ports ∧
      (stopCommand s).delivered = s.delivered ∧ (stopCommand s).speed = s.speed ∧ (stopCommand s).win = s.win ∧
      (stopCommand s).straps = s.straps ∧ (stopCommand s).inReset = s.inReset ∧ (stopCommand s).mem = s.mem ∧
      (stopCommand s).epoch = s.epoch ∧ (stopCommand s).pending = s.pending := by
  unfold stopCommand; dsimp only; repeat' split
  all_goals simp

@[simp] theorem fireWait_frame (k : Fin 8) (w : WatchSlot) (v : Word) (s : State) :
    (fireWait k w v s).queue = s.queue ∧ (fireWait k w v s).ports = s.ports ∧ (fireWait k w v s).delivered =
      s.delivered ∧ (fireWait k w v s).speed = s.speed ∧ (fireWait k w v s).arb = s.arb ∧ (fireWait k w v
      s).straps = s.straps ∧ (fireWait k w v s).inReset = s.inReset ∧ (fireWait k w v s).mem = s.mem ∧ (fireWait
      k w v s).epoch = s.epoch ∧ (fireWait k w v s).pending = s.pending := by
  unfold fireWait; repeat' split
  all_goals simp

@[simp] theorem fireChainWatch_frame (v : Word) (s : State) :
    (fireChainWatch v s).table = s.table ∧ (fireChainWatch v s).queue = s.queue ∧ (fireChainWatch v s).ports =
      s.ports ∧ (fireChainWatch v s).delivered = s.delivered ∧ (fireChainWatch v s).speed = s.speed ∧
      (fireChainWatch v s).arb = s.arb ∧ (fireChainWatch v s).win = s.win ∧ (fireChainWatch v s).straps =
      s.straps ∧ (fireChainWatch v s).inReset = s.inReset ∧ (fireChainWatch v s).mem = s.mem ∧ (fireChainWatch v
      s).epoch = s.epoch ∧ (fireChainWatch v s).pending = s.pending := by
  unfold fireChainWatch; repeat' split
  all_goals simp

@[simp] theorem evaluateSlot_frame (a : Nat) (v : Word) (s : State) (k : Fin 8) :
    (evaluateSlot a v s k).queue = s.queue ∧ (evaluateSlot a v s k).ports = s.ports ∧ (evaluateSlot a v s
      k).delivered = s.delivered ∧ (evaluateSlot a v s k).speed = s.speed ∧ (evaluateSlot a v s k).arb = s.arb ∧
      (evaluateSlot a v s k).straps = s.straps ∧ (evaluateSlot a v s k).inReset = s.inReset ∧ (evaluateSlot a v
      s k).mem = s.mem ∧ (evaluateSlot a v s k).epoch = s.epoch ∧ (evaluateSlot a v s k).pending = s.pending := by
  unfold evaluateSlot; repeat' split
  all_goals simp

@[simp] theorem evaluateWord_frame (a : Nat) (v : Word) (s : State) :
    (evaluateWord a v s).queue = s.queue ∧ (evaluateWord a v s).ports = s.ports ∧ (evaluateWord a v s).delivered
      = s.delivered ∧ (evaluateWord a v s).speed = s.speed ∧ (evaluateWord a v s).arb = s.arb ∧ (evaluateWord a
      v s).straps = s.straps ∧ (evaluateWord a v s).inReset = s.inReset ∧ (evaluateWord a v s).mem = s.mem ∧
      (evaluateWord a v s).epoch = s.epoch ∧ (evaluateWord a v s).pending = s.pending := by
  unfold evaluateWord
  refine ⟨foldl_keeps (fun t : State => t.queue) ?_ _ _,
    foldl_keeps (fun t : State => t.ports) ?_ _ _,
    foldl_keeps (fun t : State => t.delivered) ?_ _ _,
    foldl_keeps (fun t : State => t.speed) ?_ _ _,
    foldl_keeps (fun t : State => t.arb) ?_ _ _,
    foldl_keeps (fun t : State => t.straps) ?_ _ _,
    foldl_keeps (fun t : State => t.inReset) ?_ _ _,
    foldl_keeps (fun t : State => t.mem) ?_ _ _,
    foldl_keeps (fun t : State => t.epoch) ?_ _ _,
    foldl_keeps (fun t : State => t.pending) ?_ _ _⟩
  all_goals intro t i; simp

@[simp] theorem evaluate_frame (a : Nat) (ws : List Word) (s : State) :
    (evaluate a ws s).queue = s.queue ∧ (evaluate a ws s).ports = s.ports ∧ (evaluate a ws s).delivered =
      s.delivered ∧ (evaluate a ws s).speed = s.speed ∧ (evaluate a ws s).arb = s.arb ∧ (evaluate a ws s).straps
      = s.straps ∧ (evaluate a ws s).inReset = s.inReset ∧ (evaluate a ws s).mem = s.mem ∧ (evaluate a ws
      s).epoch = s.epoch ∧ (evaluate a ws s).pending = s.pending := by
  induction ws generalizing a s with
  | nil => simp [evaluate]
  | cons v vs ih => rw [evaluate]; simp [ih]

@[simp] theorem storeAndEvaluate_frame (a : Nat) (ws : List Word) (s : State) :
    (storeAndEvaluate a ws s).queue = s.queue ∧ (storeAndEvaluate a ws s).ports = s.ports ∧ (storeAndEvaluate a
      ws s).delivered = s.delivered ∧ (storeAndEvaluate a ws s).speed = s.speed ∧ (storeAndEvaluate a ws s).arb
      = s.arb ∧ (storeAndEvaluate a ws s).straps = s.straps ∧ (storeAndEvaluate a ws s).inReset = s.inReset ∧
      (storeAndEvaluate a ws s).epoch = s.epoch ∧ (storeAndEvaluate a ws s).pending = s.pending := by
  unfold storeAndEvaluate; repeat' split
  all_goals simp

@[simp] theorem armSlot_frame (id : RecId) (k : Fin 8) (w : WatchSpec) (st : ArmedState) (s : State) :
    (armSlot id k w st s).table = s.table ∧ (armSlot id k w st s).queue = s.queue ∧ (armSlot id k w st s).ports
      = s.ports ∧ (armSlot id k w st s).delivered = s.delivered ∧ (armSlot id k w st s).speed = s.speed ∧
      (armSlot id k w st s).arb = s.arb ∧ (armSlot id k w st s).win = s.win ∧ (armSlot id k w st s).straps =
      s.straps ∧ (armSlot id k w st s).inReset = s.inReset ∧ (armSlot id k w st s).mem = s.mem ∧ (armSlot id k w
      st s).epoch = s.epoch ∧ (armSlot id k w st s).pending = s.pending := by
  unfold armSlot; repeat' split
  all_goals simp

@[simp] theorem fireAtArming_frame (id : RecId) (k : Fin 8) (w : WatchSpec) (v : Word) (s : State) :
    (fireAtArming id k w v s).slots = s.slots ∧ (fireAtArming id k w v s).queue = s.queue ∧ (fireAtArming id k w
      v s).ports = s.ports ∧ (fireAtArming id k w v s).delivered = s.delivered ∧ (fireAtArming id k w v s).speed
      = s.speed ∧ (fireAtArming id k w v s).arb = s.arb ∧ (fireAtArming id k w v s).straps = s.straps ∧
      (fireAtArming id k w v s).inReset = s.inReset ∧ (fireAtArming id k w v s).mem = s.mem ∧ (fireAtArming id k
      w v s).epoch = s.epoch ∧ (fireAtArming id k w v s).pending = s.pending := by
  unfold fireAtArming; repeat' split
  all_goals simp

@[simp] theorem armWait_frame (id : RecId) (w : WatchSpec) (v : Word) (s : State) :
    (armWait id w v s).queue = s.queue ∧ (armWait id w v s).ports = s.ports ∧ (armWait id w v s).delivered =
      s.delivered ∧ (armWait id w v s).speed = s.speed ∧ (armWait id w v s).arb = s.arb ∧ (armWait id w v
      s).straps = s.straps ∧ (armWait id w v s).inReset = s.inReset ∧ (armWait id w v s).mem = s.mem ∧ (armWait
      id w v s).epoch = s.epoch ∧ (armWait id w v s).pending = s.pending := by
  unfold armWait; repeat' split
  all_goals simp

@[simp] theorem dropSlot_frame (k : Fin 8) (w : WatchSlot) (c : ResultCode) (s : State) :
    (dropSlot k w c s).table = s.table ∧ (dropSlot k w c s).queue = s.queue ∧ (dropSlot k w c s).ports = s.ports
      ∧ (dropSlot k w c s).delivered = s.delivered ∧ (dropSlot k w c s).speed = s.speed ∧ (dropSlot k w c s).arb
      = s.arb ∧ (dropSlot k w c s).win = s.win ∧ (dropSlot k w c s).straps = s.straps ∧ (dropSlot k w c
      s).inReset = s.inReset ∧ (dropSlot k w c s).mem = s.mem ∧ (dropSlot k w c s).epoch = s.epoch ∧ (dropSlot k
      w c s).pending = s.pending := by
  unfold dropSlot; repeat' split
  all_goals simp

@[simp] theorem timeoutSlot_frame (k : Fin 8) (s : State) :
    (timeoutSlot k s).table = s.table ∧ (timeoutSlot k s).queue = s.queue ∧ (timeoutSlot k s).ports = s.ports ∧
      (timeoutSlot k s).delivered = s.delivered ∧ (timeoutSlot k s).speed = s.speed ∧ (timeoutSlot k s).arb =
      s.arb ∧ (timeoutSlot k s).win = s.win ∧ (timeoutSlot k s).straps = s.straps ∧ (timeoutSlot k s).inReset =
      s.inReset ∧ (timeoutSlot k s).mem = s.mem ∧ (timeoutSlot k s).epoch = s.epoch ∧ (timeoutSlot k s).pending
      = s.pending := by
  unfold timeoutSlot; repeat' split
  all_goals simp

@[simp] theorem cancelWait_frame (id : RecId) (s : State) :
    (cancelWait id s).table = s.table ∧ (cancelWait id s).queue = s.queue ∧ (cancelWait id s).ports = s.ports ∧
      (cancelWait id s).delivered = s.delivered ∧ (cancelWait id s).speed = s.speed ∧ (cancelWait id s).arb =
      s.arb ∧ (cancelWait id s).win = s.win ∧ (cancelWait id s).straps = s.straps ∧ (cancelWait id s).inReset =
      s.inReset ∧ (cancelWait id s).mem = s.mem ∧ (cancelWait id s).epoch = s.epoch ∧ (cancelWait id s).pending
      = s.pending := by
  unfold cancelWait; repeat' split
  all_goals simp

@[simp] theorem armTail_frame (id : RecId) (a v : Word) (s : State) :
    (armTail id a v s).table = s.table ∧ (armTail id a v s).queue = s.queue ∧ (armTail id a v s).ports = s.ports
      ∧ (armTail id a v s).delivered = s.delivered ∧ (armTail id a v s).speed = s.speed ∧ (armTail id a v s).arb
      = s.arb ∧ (armTail id a v s).win = s.win ∧ (armTail id a v s).straps = s.straps ∧ (armTail id a v
      s).inReset = s.inReset ∧ (armTail id a v s).mem = s.mem ∧ (armTail id a v s).epoch = s.epoch ∧ (armTail id
      a v s).pending = s.pending := by
  unfold armTail; repeat' split
  all_goals simp

@[simp] theorem finishTransfer_frame (id : RecId) (c : ResultCode) (rw : Replies) (s : State) :
    (finishTransfer id c rw s).table = s.table ∧ (finishTransfer id c rw s).slots = s.slots ∧ (finishTransfer id
      c rw s).queue = s.queue ∧ (finishTransfer id c rw s).delivered = s.delivered ∧ (finishTransfer id c rw
      s).speed = s.speed ∧ (finishTransfer id c rw s).arb = s.arb ∧ (finishTransfer id c rw s).win = s.win ∧
      (finishTransfer id c rw s).straps = s.straps ∧ (finishTransfer id c rw s).inReset = s.inReset ∧
      (finishTransfer id c rw s).mem = s.mem ∧ (finishTransfer id c rw s).epoch = s.epoch ∧ (finishTransfer id c
      rw s).pending = s.pending := by
  unfold finishTransfer; repeat' split
  all_goals simp

@[simp] theorem runQueue_frame (q : List Transfer) (s : State) :
    (runQueue q s).slots = s.slots ∧ (runQueue q s).delivered = s.delivered ∧ (runQueue q s).speed = s.speed ∧
      (runQueue q s).arb = s.arb ∧ (runQueue q s).straps = s.straps ∧ (runQueue q s).inReset = s.inReset ∧
      (runQueue q s).mem = s.mem ∧ (runQueue q s).epoch = s.epoch ∧ (runQueue q s).pending = s.pending := by
  induction q generalizing s with
  | nil => simp [runQueue]
  | cons t rest ih =>
    rw [runQueue]; dsimp only; split
    · simp
    · simp [ih]

@[simp] theorem acceptTransfer_frame (t : Transfer) (s : State) :
    (acceptTransfer t s).slots = s.slots ∧ (acceptTransfer t s).delivered = s.delivered ∧ (acceptTransfer t
      s).speed = s.speed ∧ (acceptTransfer t s).arb = s.arb ∧ (acceptTransfer t s).straps = s.straps ∧
      (acceptTransfer t s).inReset = s.inReset ∧ (acceptTransfer t s).mem = s.mem ∧ (acceptTransfer t s).epoch =
      s.epoch ∧ (acceptTransfer t s).pending = s.pending := by
  unfold acceptTransfer; dsimp only; split <;> simp

@[simp] theorem startTransfer_frame (id : RecId) (j : Job) (p : Fin 4) (n : Nat) (s : State) :
    (startTransfer id j p n s).slots = s.slots ∧ (startTransfer id j p n s).delivered = s.delivered ∧
      (startTransfer id j p n s).speed = s.speed ∧ (startTransfer id j p n s).arb = s.arb ∧ (startTransfer id j
      p n s).straps = s.straps ∧ (startTransfer id j p n s).inReset = s.inReset ∧ (startTransfer id j p n s).mem
      = s.mem ∧ (startTransfer id j p n s).epoch = s.epoch ∧ (startTransfer id j p n s).pending = s.pending := by
  unfold startTransfer; repeat' split
  all_goals simp

@[simp] theorem afterBurst_frame (t : Transfer) (b : Bool) (q : List Transfer) (s : State) :
    (afterBurst t b q s).slots = s.slots ∧ (afterBurst t b q s).delivered = s.delivered ∧ (afterBurst t b q
      s).speed = s.speed ∧ (afterBurst t b q s).arb = s.arb ∧ (afterBurst t b q s).straps = s.straps ∧
      (afterBurst t b q s).inReset = s.inReset ∧ (afterBurst t b q s).mem = s.mem ∧ (afterBurst t b q s).epoch =
      s.epoch ∧ (afterBurst t b q s).pending = s.pending := by
  unfold afterBurst; repeat' split
  all_goals simp

@[simp] theorem cancelTransfers_frame (hit : Transfer → Bool) (s : State) :
    (cancelTransfers hit s).table = s.table ∧ (cancelTransfers hit s).slots = s.slots ∧ (cancelTransfers hit
      s).delivered = s.delivered ∧ (cancelTransfers hit s).speed = s.speed ∧ (cancelTransfers hit s).arb = s.arb
      ∧ (cancelTransfers hit s).win = s.win ∧ (cancelTransfers hit s).straps = s.straps ∧ (cancelTransfers hit
      s).inReset = s.inReset ∧ (cancelTransfers hit s).mem = s.mem ∧ (cancelTransfers hit s).epoch = s.epoch ∧
      (cancelTransfers hit s).pending = s.pending := by
  unfold cancelTransfers; dsimp only
  refine ⟨?_, ?_, ?_, ?_, ?_, ?_, ?_, ?_, ?_, ?_, ?_⟩
  · rw [foldl_keeps (fun t : State => t.table) (fun t x => by simp)]
  · rw [foldl_keeps (fun t : State => t.slots) (fun t x => by simp)]
  · rw [foldl_keeps (fun t : State => t.delivered) (fun t x => by simp)]
  · rw [foldl_keeps (fun t : State => t.speed) (fun t x => by simp)]
  · rw [foldl_keeps (fun t : State => t.arb) (fun t x => by simp)]
  · rw [foldl_keeps (fun t : State => t.win) (fun t x => by simp)]
  · rw [foldl_keeps (fun t : State => t.straps) (fun t x => by simp)]
  · rw [foldl_keeps (fun t : State => t.inReset) (fun t x => by simp)]
  · rw [foldl_keeps (fun t : State => t.mem) (fun t x => by simp)]
  · rw [foldl_keeps (fun t : State => t.epoch) (fun t x => by simp)]
  · rw [foldl_keeps (fun t : State => t.pending) (fun t x => by simp)]

@[simp] theorem cancelForPort_frame (p : Fin 4) (s : State) :
    (cancelForPort p s).table = s.table ∧ (cancelForPort p s).slots = s.slots ∧ (cancelForPort p s).delivered =
      s.delivered ∧ (cancelForPort p s).speed = s.speed ∧ (cancelForPort p s).arb = s.arb ∧ (cancelForPort p
      s).win = s.win ∧ (cancelForPort p s).straps = s.straps ∧ (cancelForPort p s).inReset = s.inReset ∧
      (cancelForPort p s).mem = s.mem ∧ (cancelForPort p s).epoch = s.epoch ∧ (cancelForPort p s).pending =
      s.pending := by
  unfold cancelForPort; repeat' split
  all_goals simp

@[simp] theorem flush_frame (p : Fin 4) (s : State) :
    (flush p s).table = s.table ∧ (flush p s).slots = s.slots ∧ (flush p s).queue = s.queue ∧ (flush p s).eng =
      s.eng ∧ (flush p s).speed = s.speed ∧ (flush p s).ctl = s.ctl ∧ (flush p s).arb = s.arb ∧ (flush p s).win
      = s.win ∧ (flush p s).straps = s.straps ∧ (flush p s).inReset = s.inReset ∧ (flush p s).mem = s.mem ∧
      (flush p s).epoch = s.epoch ∧ (flush p s).pending = s.pending := by
  unfold flush; repeat' split
  all_goals simp

@[simp] theorem hostCause_frame (p : Fin 4) (s : State) :
    (hostCause p s).table = s.table ∧ (hostCause p s).slots = s.slots ∧ (hostCause p s).queue = s.queue ∧
      (hostCause p s).eng = s.eng ∧ (hostCause p s).ports = s.ports ∧ (hostCause p s).delivered = s.delivered ∧
      (hostCause p s).speed = s.speed ∧ (hostCause p s).arb = s.arb ∧ (hostCause p s).win = s.win ∧ (hostCause p
      s).straps = s.straps ∧ (hostCause p s).inReset = s.inReset ∧ (hostCause p s).mem = s.mem ∧ (hostCause p
      s).epoch = s.epoch ∧ (hostCause p s).pending = s.pending := by
  unfold hostCause; repeat' split
  all_goals simp

@[simp] theorem arrive_frame (p : Fin 4) (a : AccessReq) (s : State) :
    (arrive p a s).slots = s.slots ∧ (arrive p a s).queue = s.queue ∧ (arrive p a s).eng = s.eng ∧ (arrive p a
      s).delivered = s.delivered ∧ (arrive p a s).speed = s.speed ∧ (arrive p a s).arb = s.arb ∧ (arrive p a
      s).straps = s.straps ∧ (arrive p a s).inReset = s.inReset ∧ (arrive p a s).mem = s.mem ∧ (arrive p a
      s).epoch = s.epoch ∧ (arrive p a s).pending = s.pending := by
  unfold arrive; dsimp only; repeat' split
  all_goals (try unfold Decision.cause); (try split); all_goals simp

@[simp] theorem acceptHeld_frame (p : Fin 4) (l : List AccessReq) (s : State) :
    (acceptHeld p l s).slots = s.slots ∧ (acceptHeld p l s).queue = s.queue ∧ (acceptHeld p l s).eng = s.eng ∧ (acceptHeld p l
      s).speed = s.speed ∧ (acceptHeld p l s).arb = s.arb ∧ (acceptHeld p l s).straps = s.straps ∧ (acceptHeld p l s).inReset =
      s.inReset ∧ (acceptHeld p l s).mem = s.mem ∧ (acceptHeld p l s).epoch = s.epoch ∧ (acceptHeld p l s).pending = s.pending := by
  induction l generalizing s with
  | nil => simp [acceptHeld]
  | cons a as ih => rw [acceptHeld]; split <;> simp [ih]

@[simp] theorem answer_frame (p : Fin 4) (s : State) :
    (answer p s).slots = s.slots ∧ (answer p s).queue = s.queue ∧ (answer p s).eng = s.eng ∧ (answer p s).speed
      = s.speed ∧ (answer p s).arb = s.arb ∧ (answer p s).straps = s.straps ∧ (answer p s).inReset = s.inReset ∧
      (answer p s).mem = s.mem ∧ (answer p s).epoch = s.epoch ∧ (answer p s).pending = s.pending := by
  unfold answer; repeat' split
  all_goals simp

@[simp] theorem present_frame (p : Fin 4) (a : AccessReq) (s : State) :
    (present p a s).slots = s.slots ∧ (present p a s).queue = s.queue ∧ (present p a s).eng = s.eng ∧ (present p
      a s).speed = s.speed ∧ (present p a s).arb = s.arb ∧ (present p a s).straps = s.straps ∧ (present p a
      s).inReset = s.inReset ∧ (present p a s).mem = s.mem ∧ (present p a s).epoch = s.epoch ∧ (present p a
      s).pending = s.pending := by
  unfold present; repeat' split
  all_goals simp

@[simp] theorem withdrawPort_frame (p : Fin 4) (s : State) :
    (withdrawPort p s).slots = s.slots ∧ (withdrawPort p s).queue = s.queue ∧ (withdrawPort p s).delivered =
      s.delivered ∧ (withdrawPort p s).speed = s.speed ∧ (withdrawPort p s).straps = s.straps ∧ (withdrawPort p
      s).inReset = s.inReset ∧ (withdrawPort p s).mem = s.mem ∧ (withdrawPort p s).epoch = s.epoch ∧
      (withdrawPort p s).pending = s.pending := by
  unfold withdrawPort; dsimp only
  refine ⟨?_, ?_, ?_, ?_, ?_, ?_, ?_, ?_, ?_⟩
  · rw [foldl_keeps (fun t : State => t.slots) (fun t e => by simp)]; simp
  · rw [foldl_keeps (fun t : State => t.queue) (fun t e => by simp)]; simp
  · rw [foldl_keeps (fun t : State => t.delivered) (fun t e => by simp)]; simp
  · rw [foldl_keeps (fun t : State => t.speed) (fun t e => by simp)]; simp
  · rw [foldl_keeps (fun t : State => t.straps) (fun t e => by simp)]; simp
  · rw [foldl_keeps (fun t : State => t.inReset) (fun t e => by simp)]; simp
  · rw [foldl_keeps (fun t : State => t.mem) (fun t e => by simp)]; simp
  · rw [foldl_keeps (fun t : State => t.epoch) (fun t e => by simp)]; simp
  · rw [foldl_keeps (fun t : State => t.pending) (fun t e => by simp)]; simp

@[simp] theorem disablePort_frame (p : Fin 4) (s : State) :
    (disablePort p s).slots = s.slots ∧ (disablePort p s).speed = s.speed ∧ (disablePort p s).straps = s.straps
      ∧ (disablePort p s).inReset = s.inReset ∧ (disablePort p s).mem = s.mem ∧ (disablePort p s).epoch =
      s.epoch ∧ (disablePort p s).pending = s.pending := by
  unfold disablePort; repeat' split
  all_goals simp

@[simp] theorem formDrainAccesses_frame (p : Fin 4) (s : State) :
    (formDrainAccesses p s).table = s.table ∧ (formDrainAccesses p s).slots = s.slots ∧ (formDrainAccesses p
      s).queue = s.queue ∧ (formDrainAccesses p s).eng = s.eng ∧ (formDrainAccesses p s).delivered = s.delivered
      ∧ (formDrainAccesses p s).speed = s.speed ∧ (formDrainAccesses p s).ctl = s.ctl ∧ (formDrainAccesses p
      s).arb = s.arb ∧ (formDrainAccesses p s).win = s.win ∧ (formDrainAccesses p s).straps = s.straps ∧
      (formDrainAccesses p s).inReset = s.inReset ∧ (formDrainAccesses p s).mem = s.mem ∧ (formDrainAccesses p
      s).epoch = s.epoch ∧ (formDrainAccesses p s).pending = s.pending := by
  unfold formDrainAccesses; repeat' split
  all_goals simp

@[simp] theorem formDrainTransfers_frame (p : Fin 4) (s : State) :
    (formDrainTransfers p s).table = s.table ∧ (formDrainTransfers p s).slots = s.slots ∧ (formDrainTransfers p
      s).queue = s.queue ∧ (formDrainTransfers p s).eng = s.eng ∧ (formDrainTransfers p s).delivered =
      s.delivered ∧ (formDrainTransfers p s).speed = s.speed ∧ (formDrainTransfers p s).ctl = s.ctl ∧
      (formDrainTransfers p s).arb = s.arb ∧ (formDrainTransfers p s).win = s.win ∧ (formDrainTransfers p
      s).straps = s.straps ∧ (formDrainTransfers p s).inReset = s.inReset ∧ (formDrainTransfers p s).mem = s.mem
      ∧ (formDrainTransfers p s).epoch = s.epoch ∧ (formDrainTransfers p s).pending = s.pending := by
  unfold formDrainTransfers; repeat' split
  all_goals simp

@[simp] theorem drainPort_frame (p : Fin 4) (s : State) :
    (drainPort p s).table = s.table ∧ (drainPort p s).slots = s.slots ∧ (drainPort p s).queue = s.queue ∧
      (drainPort p s).delivered = s.delivered ∧ (drainPort p s).speed = s.speed ∧ (drainPort p s).arb = s.arb ∧
      (drainPort p s).straps = s.straps ∧ (drainPort p s).inReset = s.inReset ∧ (drainPort p s).mem = s.mem ∧
      (drainPort p s).epoch = s.epoch ∧ (drainPort p s).pending = s.pending := by
  unfold drainPort; repeat' split
  all_goals simp

@[simp] theorem resetPort_frame (id : RecId) (p : Fin 4) (f : FormerState) (s : State) :
    (resetPort id p f s).slots = s.slots ∧ (resetPort id p f s).speed = s.speed ∧ (resetPort id p f s).straps =
      s.straps ∧ (resetPort id p f s).inReset = s.inReset ∧ (resetPort id p f s).mem = s.mem ∧ (resetPort id p f
      s).epoch = s.epoch ∧ (resetPort id p f s).pending = s.pending := by
  unfold resetPort; simp

@[simp] theorem accessStore_frame (a : AccessReq) (s : State) :
    (accessStore a s).queue = s.queue ∧ (accessStore a s).ports = s.ports ∧ (accessStore a s).delivered =
      s.delivered ∧ (accessStore a s).speed = s.speed ∧ (accessStore a s).arb = s.arb ∧ (accessStore a s).straps
      = s.straps ∧ (accessStore a s).inReset = s.inReset ∧ (accessStore a s).epoch = s.epoch ∧ (accessStore a
      s).pending = s.pending := by
  unfold accessStore; repeat' split
  all_goals simp

@[simp] theorem portAccessDone_frame (p : Fin 4) (s : State) :
    (portAccessDone p s).queue = s.queue ∧ (portAccessDone p s).speed = s.speed ∧ (portAccessDone p s).arb =
      s.arb ∧ (portAccessDone p s).straps = s.straps ∧ (portAccessDone p s).inReset = s.inReset ∧
      (portAccessDone p s).epoch = s.epoch ∧ (portAccessDone p s).pending = s.pending := by
  unfold portAccessDone; dsimp only; split <;> simp

@[simp] theorem grantPort_frame (p : Fin 4) (s : State) :
    (grantPort p s).table = s.table ∧ (grantPort p s).slots = s.slots ∧ (grantPort p s).queue = s.queue ∧
      (grantPort p s).eng = s.eng ∧ (grantPort p s).delivered = s.delivered ∧ (grantPort p s).speed = s.speed ∧
      (grantPort p s).ctl = s.ctl ∧ (grantPort p s).win = s.win ∧ (grantPort p s).straps = s.straps ∧ (grantPort
      p s).inReset = s.inReset ∧ (grantPort p s).mem = s.mem ∧ (grantPort p s).epoch = s.epoch ∧ (grantPort p
      s).pending = s.pending := by
  unfold grantPort; repeat' split
  all_goals simp

@[simp] theorem grantTransfer_frame (s : State) :
    (grantTransfer s).table = s.table ∧ (grantTransfer s).slots = s.slots ∧ (grantTransfer s).eng = s.eng ∧
      (grantTransfer s).ports = s.ports ∧ (grantTransfer s).delivered = s.delivered ∧ (grantTransfer s).speed =
      s.speed ∧ (grantTransfer s).ctl = s.ctl ∧ (grantTransfer s).win = s.win ∧ (grantTransfer s).straps =
      s.straps ∧ (grantTransfer s).inReset = s.inReset ∧ (grantTransfer s).mem = s.mem ∧ (grantTransfer s).epoch
      = s.epoch ∧ (grantTransfer s).pending = s.pending := by
  unfold grantTransfer; split <;> simp

@[simp] theorem bumpPasses_frame (p : Fin 4) (s : State) :
    (bumpPasses p s).table = s.table ∧ (bumpPasses p s).slots = s.slots ∧ (bumpPasses p s).queue = s.queue ∧
      (bumpPasses p s).eng = s.eng ∧ (bumpPasses p s).ports = s.ports ∧ (bumpPasses p s).delivered = s.delivered
      ∧ (bumpPasses p s).speed = s.speed ∧ (bumpPasses p s).ctl = s.ctl ∧ (bumpPasses p s).win = s.win ∧
      (bumpPasses p s).straps = s.straps ∧ (bumpPasses p s).inReset = s.inReset ∧ (bumpPasses p s).mem = s.mem ∧
      (bumpPasses p s).epoch = s.epoch ∧ (bumpPasses p s).pending = s.pending := by
  unfold bumpPasses
  refine ⟨foldl_keeps (fun t : State => t.table) ?_ _ _,
    foldl_keeps (fun t : State => t.slots) ?_ _ _,
    foldl_keeps (fun t : State => t.queue) ?_ _ _,
    foldl_keeps (fun t : State => t.eng) ?_ _ _,
    foldl_keeps (fun t : State => t.ports) ?_ _ _,
    foldl_keeps (fun t : State => t.delivered) ?_ _ _,
    foldl_keeps (fun t : State => t.speed) ?_ _ _,
    foldl_keeps (fun t : State => t.ctl) ?_ _ _,
    foldl_keeps (fun t : State => t.win) ?_ _ _,
    foldl_keeps (fun t : State => t.straps) ?_ _ _,
    foldl_keeps (fun t : State => t.inReset) ?_ _ _,
    foldl_keeps (fun t : State => t.mem) ?_ _ _,
    foldl_keeps (fun t : State => t.epoch) ?_ _ _,
    foldl_keeps (fun t : State => t.pending) ?_ _ _⟩
  all_goals intro t i; split <;> simp

@[simp] theorem grant_frame (c : Choice) (s : State) :
    (grant c s).table = s.table ∧ (grant c s).slots = s.slots ∧ (grant c s).delivered = s.delivered ∧ (grant c
      s).win = s.win ∧ (grant c s).straps = s.straps ∧ (grant c s).inReset = s.inReset ∧ (grant c s).mem = s.mem
      ∧ (grant c s).epoch = s.epoch ∧ (grant c s).pending = s.pending := by
  unfold grant; repeat' split
  all_goals simp

@[simp] theorem arbitrate_frame (s : State) :
    (arbitrate s).table = s.table ∧ (arbitrate s).slots = s.slots ∧ (arbitrate s).delivered = s.delivered ∧
      (arbitrate s).win = s.win ∧ (arbitrate s).straps = s.straps ∧ (arbitrate s).inReset = s.inReset ∧
      (arbitrate s).mem = s.mem ∧ (arbitrate s).epoch = s.epoch ∧ (arbitrate s).pending = s.pending := by
  unfold arbitrate; repeat' split
  all_goals simp

@[simp] theorem startDown_frame (id : RecId) (s : State) :
    (startDown id s).slots = s.slots ∧ (startDown id s).queue = s.queue ∧ (startDown id s).eng = s.eng ∧
      (startDown id s).ports = s.ports ∧ (startDown id s).delivered = s.delivered ∧ (startDown id s).ctl = s.ctl
      ∧ (startDown id s).arb = s.arb ∧ (startDown id s).straps = s.straps ∧ (startDown id s).inReset = s.inReset
      ∧ (startDown id s).mem = s.mem ∧ (startDown id s).epoch = s.epoch ∧ (startDown id s).pending = s.pending := by
  unfold startDown; dsimp only; simp

@[simp] theorem finishSpeed_frame (c : ResultCode) (rw : Replies) (s : State) :
    (finishSpeed c rw s).table = s.table ∧ (finishSpeed c rw s).slots = s.slots ∧ (finishSpeed c rw s).queue =
      s.queue ∧ (finishSpeed c rw s).ports = s.ports ∧ (finishSpeed c rw s).delivered = s.delivered ∧
      (finishSpeed c rw s).arb = s.arb ∧ (finishSpeed c rw s).straps = s.straps ∧ (finishSpeed c rw s).inReset =
      s.inReset ∧ (finishSpeed c rw s).mem = s.mem ∧ (finishSpeed c rw s).epoch = s.epoch ∧ (finishSpeed c rw
      s).pending = s.pending := by
  unfold finishSpeed; repeat' split
  all_goals simp

@[simp] theorem cancelRequest_frame (a : ActiveRequest) (s : State) :
    (cancelRequest a s).delivered = s.delivered ∧ (cancelRequest a s).speed = s.speed ∧ (cancelRequest a s).arb
      = s.arb ∧ (cancelRequest a s).win = s.win ∧ (cancelRequest a s).straps = s.straps ∧ (cancelRequest a
      s).inReset = s.inReset ∧ (cancelRequest a s).mem = s.mem ∧ (cancelRequest a s).epoch = s.epoch ∧
      (cancelRequest a s).pending = s.pending := by
  unfold cancelRequest; repeat' split
  all_goals simp

@[simp] theorem takeRecord_frame (a code : Word) (r : Request) (s : State) :
    (takeRecord a code r s).table = s.table ∧ (takeRecord a code r s).slots = s.slots ∧ (takeRecord a code r
      s).queue = s.queue ∧ (takeRecord a code r s).ports = s.ports ∧ (takeRecord a code r s).delivered =
      s.delivered ∧ (takeRecord a code r s).speed = s.speed ∧ (takeRecord a code r s).arb = s.arb ∧ (takeRecord
      a code r s).win = s.win ∧ (takeRecord a code r s).straps = s.straps ∧ (takeRecord a code r s).inReset =
      s.inReset ∧ (takeRecord a code r s).mem = s.mem ∧ (takeRecord a code r s).epoch = s.epoch ∧ (takeRecord a
      code r s).pending = s.pending := by
  unfold takeRecord; dsimp only; simp

@[simp] theorem stallReader_frame (r : StallReason) (a : Word) (s : State) :
    (stallReader r a s).table = s.table ∧ (stallReader r a s).slots = s.slots ∧ (stallReader r a s).queue =
      s.queue ∧ (stallReader r a s).ports = s.ports ∧ (stallReader r a s).delivered = s.delivered ∧ (stallReader
      r a s).speed = s.speed ∧ (stallReader r a s).ctl = s.ctl ∧ (stallReader r a s).arb = s.arb ∧ (stallReader
      r a s).win = s.win ∧ (stallReader r a s).straps = s.straps ∧ (stallReader r a s).inReset = s.inReset ∧
      (stallReader r a s).mem = s.mem ∧ (stallReader r a s).epoch = s.epoch ∧ (stallReader r a s).pending =
      s.pending := by
  unfold stallReader; repeat' split
  all_goals simp

@[simp] theorem engineWrite_frame (op : EngineOp) (s : State) :
    (engineWrite op s).queue = s.queue ∧ (engineWrite op s).ports = s.ports ∧ (engineWrite op s).delivered =
      s.delivered ∧ (engineWrite op s).speed = s.speed ∧ (engineWrite op s).straps = s.straps ∧ (engineWrite op
      s).inReset = s.inReset ∧ (engineWrite op s).epoch = s.epoch ∧ (engineWrite op s).pending = s.pending := by
  unfold engineWrite; repeat' split
  all_goals simp

@[simp] theorem finalize_frame (id : RecId) (n : Bool) (s : State) :
    (finalize id n s).table = s.table ∧ (finalize id n s).slots = s.slots ∧ (finalize id n s).queue = s.queue ∧
      (finalize id n s).ports = s.ports ∧ (finalize id n s).delivered = s.delivered ∧ (finalize id n s).speed =
      s.speed ∧ (finalize id n s).ctl = s.ctl ∧ (finalize id n s).arb = s.arb ∧ (finalize id n s).straps =
      s.straps ∧ (finalize id n s).inReset = s.inReset ∧ (finalize id n s).mem = s.mem ∧ (finalize id n s).epoch
      = s.epoch ∧ (finalize id n s).pending = s.pending := by
  unfold finalize; repeat' split
  all_goals simp

end Sys2Proof.Laws
end

