-- ==== Sys2Proof/Laws/Take.lean ====
section
/-! SUPPORT. The take of a record and the two ways it is answered: as an instant request, or as a long one. -/

namespace Sys2Proof.Laws

open Sys2Proof.Machine

/-! ### The codes -/

theorem ofWord_word (c : Code) : Code.ofWord c.word = some c := by cases c <;> decide

/-! ### The engine's lists in RUN -/

theorem wake_run (c : Controller) (h : c.state = .run) : c.wake = c := by simp [Controller.wake, h]

theorem wakeCause_run (s : State) (h : s.ctl.state = .run) : wakeCause s = s := by
  simp [wakeCause, wake_run _ h]

theorem appendOps_run (l : List EngineOp) (s : State) (h : s.ctl.state = .run) : appendOps l s = pushOps l s := by
  unfold appendOps
  cases l with
  | nil => simp [pushOps]
  | cons a l => simp [wakeCause, pushOps, wake_run _ h]

theorem splitRetired_none (l : List TakeRecord) :
    splitRetired none l = (l.takeWhile TakeRecord.isFinal, l.dropWhile TakeRecord.isFinal) := by
  induction l with
  | nil => rfl
  | cons r l ih => rcases r with ⟨id, a, c, t, n, st⟩; cases st <;> simp [splitRetired, List.takeWhile, List.dropWhile, TakeRecord.isFinal, ih]

theorem takeWhile_snoc {α : Type} (p : α → Bool) (l : List α) (x : α) (h : p x = false) :
    (l ++ [x]).takeWhile p = l.takeWhile p ∧ (l ++ [x]).dropWhile p = l.dropWhile p ++ [x] := by
  induction l with
  | nil => simp [h]
  | cons a l ih => cases hp : p a <;> simp [hp, ih]

/-- R102, steps 1 to 4: what the take leaves, with its request not yet handed to its block. -/
theorem takeRecord_eq (s : State) (a code : Word) (r : Request) (h : s.ctl.state = .run) :
    takeRecord a code r s = s.afterTake a code r .taking .header [] := by
  have hn : (newRecord s.eng.nextId a code r).isFinal = false := rfl
  have htw := takeWhile_snoc TakeRecord.isFinal s.eng.takeList (newRecord s.eng.nextId a code r) hn
  unfold takeRecord
  dsimp only
  rw [appendOps_run _ _ (by simpa using h)]
  unfold endTail
  cases ht : s.eng.tail with
  | none =>
    simp [pushOps, State.afterTake, State.leaving, State.staying, ht, State.takenRecord, newRecord]
  | some t =>
    simp only [pushOps]
    unfold retire
    rw [splitRetired_none, appendOps_run _ _ (by simpa using h)]
    simp only [htw]
    simp [pushOps, State.afterTake, State.leaving, State.staying, ht, State.takenRecord, newRecord, retiredWrites]

theorem record_of_numbered (l : List TakeRecord) (n : Nat) (x : TakeRecord) (h : l.all (fun r => decide (r.id < n)) = true)
    (hx : x.id = n) : (l ++ [x]).find? (fun r => r.id == n) = some x := by
  rw [List.find?_append, List.find?_eq_none.mpr]
  · simp [hx]
  · intro y hy
    have := List.all_eq_true.mp h y hy
    simp only [decide_eq_true_eq] at this
    simpa using Nat.ne_of_lt this

theorem map_numbered (l : List TakeRecord) (n : Nat) (f : TakeRecord → TakeRecord)
    (h : l.all (fun r => decide (r.id < n)) = true) : l.map (fun r => if r.id = n then f r else r) = l := by
  conv_rhs => rw [← List.map_id l]
  apply List.map_congr_left
  intro y hy
  have := List.all_eq_true.mp h y hy
  simp only [decide_eq_true_eq] at this
  rw [if_neg (Nat.ne_of_lt this)]; rfl

theorem staying_numbered (s : State) (h : s.numbered) : s.staying.all (fun r => decide (r.id < s.eng.nextId)) = true := by
  have h1 := ((Bool.and_eq_true _ _).mp h).1
  unfold State.staying
  split
  · rw [List.all_eq_true] at h1 ⊢
    intro x hx
    exact h1 x ((List.dropWhile_sublist _).subset hx)
  · exact h1

theorem active_numbered (s : State) (h : s.numbered) :
    s.eng.active.filter (fun x => x.id != s.eng.nextId) = s.eng.active := by
  have h1 := ((Bool.and_eq_true _ _).mp h).2
  rw [List.filter_eq_self]
  intro x hx
  have := List.all_eq_true.mp h1 x hx
  simp only [decide_eq_true_eq] at this
  simpa using Nat.ne_of_lt this

/-- R102, R104: what an instant request's answer does, in a state whose engine is as the take left it. -/
theorem instant_taken (s t : State) (a code : Word) (r : Request) (c : ResultCode) (rw : Replies) (hn : s.numbered)
    (hr : t.ctl.state = .run) (he : t.eng = (s.afterTake a code r .taking .header []).eng) :
    instant s.eng.nextId c rw t = { t with eng := (s.answered a code r c rw).eng } := by
  unfold instant complete
  simp only [setTakeEnd_eng, Engine.record?, he, State.afterTake]
  rw [record_of_numbered _ _ _ (staying_numbered s hn) rfl]
  dsimp only
  rw [appendOps_run _ _ (by simpa using hr)]
  simp [pushOps, Engine.handOver, setTakeEnd, he, State.afterTake, State.answered, Reader.endsAt,
    map_numbered _ _ _ (staying_numbered s hn), State.takenRecord, TakeRecord.withResult, active_numbered s hn]

/-- R102, R109: what a long request's entry does, in a state whose engine is as the take left it. -/
theorem enterActive_taken (s t : State) (a code : Word) (r : Request) (b : Block) (hn : s.numbered)
    (he : t.eng = (s.afterTake a code r .taking .header []).eng) :
    enterActive s.eng.nextId b t = { t with eng := (s.enteredLong a code r b).eng } := by
  unfold enterActive Engine.enterActive
  simp only [Engine.record?, he, State.afterTake]
  rw [record_of_numbered _ _ _ (staying_numbered s hn) rfl]
  simp [State.enteredLong, State.afterTake, map_numbered _ _ _ (staying_numbered s hn), State.takenRecord]

/-- R136: what the arbiter's choice before an examination can change: the holder with its pointers and counts, the stage
of a port's access, the granted mark of the head transfer's burst, the refresh due, the SWITCH claim, and the reader of a
stall with reason WAKING. -/
theorem arbitrate_keeps (s : State) :
    (arbitrate s).eng = { s.eng with reader := (arbitrate s).eng.reader } ∧
      (s.ctl.state = .run → (arbitrate s).ctl.state = .run) ∧
      (arbitrate s).queue.length = s.queue.length := by
  unfold arbitrate
  split
  · next h1 h2 =>
    cases hc : s.choice with
    | none => simp
    | some c =>
      rcases c with _ | _ | p | c
      · simp [grant, setHolder]
      · simp [grant, setHolder]
      · obtain ⟨v, hv, _⟩ := bumpPasses_eq p s
        simp [grant, setHolder, grantPort, setPrioPtr, setPass, State.setPort, hv]
      · rcases c with p | _ | _
        · simp [grant, setHolder, grantPort, setDefPtr, setPass, State.setPort]
        · simp only [grant, setHolder, grantChain, setDefPtr, setPass, wakeReader]
          split <;> simp
        · simp only [grant, setHolder, grantTransfer, setDefPtr, setPass]
          split <;> simp_all
  · next h1 h2 => simp [startFinalRefresh, h1]
  · simp

/-- What a record's examination starts from: the controller in RUN, the numbers below the next one, the engine's lists as
they were but for the record read. -/
theorem recordReturns_keeps (s₀ s : State) (a : Word) (h : s₀.recordReturns a s) :
    s.ctl.state = .run ∧ s.numbered ∧ s.eng = { s₀.eng with ops := s₀.eng.ops.tail, reader := s.eng.reader } ∧
      s.queue.length = s₀.queue.length := by
  obtain ⟨h1, _, _, h4, rfl⟩ := h
  unfold State.readDone
  dsimp only
  split
  · obtain ⟨e1, e2, e3⟩ :=
      arbitrate_keeps { s₀.opDone with arb := { s₀.opDone.arb with reads := s₀.arb.reads + 1 } }
    refine ⟨e2 h1, ?_, e1, e3⟩
    show ((arbitrate _).eng.takeList.all _ && (arbitrate _).eng.active.all _) = true
    rw [e1]
    exact h4
  · exact ⟨h1, h4, rfl, rfl⟩

/-- R136: where no claim waits the order makes no difference. -/
theorem readComplete_eq (s : State) (h : s.ctl.state = .run) : readComplete s = s.readDone := by
  unfold readComplete State.readDone
  rw [show finishOp { s with arb := { s.arb with reads := s.arb.reads + 1 } }
      = { s.opDone with arb := { s.opDone.arb with reads := s.arb.reads + 1 } } from rfl]
  dsimp only
  split
  · next hc =>
    split
    · unfold arbitrate
      rw [hc]
      split <;> simp_all [State.opDone]
    · rfl
  · rfl

/-- R101 to R103: a request's record comes back and is handed to its block. -/
theorem requestReturns_eq (s₀ s : State) (a : Word) (c : Code) (r : Request) (h : s₀.recordReturns a s)
    (hb : s.noBarrier r) (hq : Code.needsRoom (some c) = true → s.queue.length < 4) :
    requestReturns c r s₀ = handOff (some c) s.eng.nextId r (s.afterTake a c.word r .taking .header []) := by
  have hk := (recordReturns_keeps s₀ s a h).1
  obtain ⟨h1, h2, h3, _, hs⟩ := h
  have hg : s₀.grantedOp = some (.recordRead a true) := by simp [State.grantedOp, h2, h3]
  unfold requestReturns recordReadReturns
  rw [hg]
  simp only [Option.getD_some, readComplete_eq s₀ h1, ← hs]
  unfold examine
  rw [if_neg (by simp [requestRecord]), if_neg (by rcases hb with hb | hb <;> simp [requestRecord, hb]),
    if_neg (by
      rintro ⟨h5, h6⟩
      simp only [requestRecord, ofWord_word] at h5
      have := hq h5
      omega)]
  simp only [requestRecord, ofWord_word, takeRecord_eq s a c.word r hk]

/-! ### Parameters -/

theorem isPow2_iff (n : Nat) : isPow2 n = true ↔ ∃ k, n = 2 ^ k := by
  unfold isPow2
  constructor
  · intro h
    simp only [Bool.and_eq_true, bne_iff_ne, beq_iff_eq] at h
    exact ⟨n.log2, h.2.symm⟩
  · rintro ⟨k, rfl⟩
    simp [Nat.log2_two_pow]

theorem badRange_iff (s : State) (b n : Nat) : s.badRange b n = true ↔ s.badRegion b n := by
  unfold State.badRange State.badRegion
  rw [← isPow2_iff n]
  cases isPow2 n <;> simp [or_assoc]

theorem entryIndex_some (w : Word) (i : Fin 16) (h : w.toNat = i.val) : entryIndex? w = some i := by
  unfold entryIndex?
  rw [dif_pos (by omega)]
  simp [h]

theorem entryIndex_none (w : Word) (h : 15 < w.toNat) : entryIndex? w = none := by
  unfold entryIndex?
  rw [dif_neg (by omega)]

theorem portIndex_some (w : Word) (p : Fin 4) (h : w.toNat = p.val) : portIndex? w = some p := by
  unfold portIndex?
  rw [dif_pos (by omega)]
  simp [h]

theorem portIndex_none (w : Word) (h : 3 < w.toNat) : portIndex? w = none := by
  unfold portIndex?
  rw [dif_neg (by omega)]

/-! ### What a take leaves alone -/

section
variable (s : State) (a code : Word) (r : Request) (st : Stage) (e : TakeEnd) (m : List EngineOp)

@[simp] theorem afterTake_table : (s.afterTake a code r st e m).table = s.table := rfl
@[simp] theorem afterTake_slots : (s.afterTake a code r st e m).slots = s.slots := rfl
@[simp] theorem afterTake_queue : (s.afterTake a code r st e m).queue = s.queue := rfl
@[simp] theorem afterTake_ports : (s.afterTake a code r st e m).ports = s.ports := rfl
@[simp] theorem afterTake_delivered : (s.afterTake a code r st e m).delivered = s.delivered := rfl
@[simp] theorem afterTake_speed : (s.afterTake a code r st e m).speed = s.speed := rfl
@[simp] theorem afterTake_ctl : (s.afterTake a code r st e m).ctl = s.ctl := rfl
@[simp] theorem afterTake_win : (s.afterTake a code r st e m).win = s.win := rfl
@[simp] theorem afterTake_straps : (s.afterTake a code r st e m).straps = s.straps := rfl
@[simp] theorem afterTake_inReset : (s.afterTake a code r st e m).inReset = s.inReset := rfl
@[simp] theorem afterTake_mem : (s.afterTake a code r st e m).mem = s.mem := rfl
@[simp] theorem afterTake_epoch : (s.afterTake a code r st e m).epoch = s.epoch := rfl
@[simp] theorem afterTake_pending : (s.afterTake a code r st e m).pending = s.pending := rfl

@[simp] theorem afterTake_entry (i : Fin 16) : (s.afterTake a code r st e m).entry i = s.entry i := rfl
@[simp] theorem afterTake_port (p : Fin 4) : (s.afterTake a code r st e m).port p = s.port p := rfl
@[simp] theorem afterTake_slot (k : Fin 8) : (s.afterTake a code r st e m).slot k = s.slot k := rfl
@[simp] theorem afterTake_badRange (b n : Nat) : (s.afterTake a code r st e m).badRange b n = s.badRange b n := rfl
@[simp] theorem afterTake_touchesWork (b n : Nat) : (s.afterTake a code r st e m).touchesWork b n = s.touchesWork b n :=
  rfl
@[simp] theorem afterTake_dramBytes : (s.afterTake a code r st e m).dramBytes = s.dramBytes := rfl
@[simp] theorem afterTake_workBase : (s.afterTake a code r st e m).workBase = s.workBase := rfl
@[simp] theorem afterTake_lookup (p : Fin 4) (t : Bool) (d : Dir) (x : Nat) :
    (s.afterTake a code r st e m).lookup p t d x = s.lookup p t d x := rfl
@[simp] theorem afterTake_priorityHolders : (s.afterTake a code r st e m).priorityHolders = s.priorityHolders := rfl

end

end Sys2Proof.Laws
end

