-- ==== Sys2Proof/Laws/Engine.lean ====
section
/-! SUPPORT. What the engine's shared operations do, each said once: completions, wake causes, the operation that holds the
DRAM, engine writes, the end of a take, the acceptance of a transfer, the port steps that keep the reader. -/

namespace Sys2Proof.Laws

open Sys2Proof.Machine

/-- The arbiter's choice follows equal states equally. -/
theorem next_congr {x y : State} (h : x = y) :
    (Host.Outcome.next (arbitrate x) : Host.Outcome State Fault Refusal) = .next (arbitrate y) := by rw [h]

/-! ### The controller's two causes (R146, R176) -/

theorem wake_state_run (c : Controller) : (c.wake.state = .run) = (c.state = .run) := by
  unfold Controller.wake; cases h : c.state <;> simp [h]

theorem release_state (c : Controller) : c.release.state = c.state := by
  unfold Controller.release; cases h : c.state <;> simp [h]

theorem wake_wake (c : Controller) : c.wake.wake = c.wake := by
  unfold Controller.wake; cases h : c.state <;> simp [h]

/-! ### Completions (R102, R104, R109) -/

theorem complete_reader (id : RecId) (c : ResultCode) (rw : Replies) (s : State) :
    (complete id c rw s).eng.reader = s.eng.reader := by
  unfold complete; split
  · rfl
  · unfold appendOps; split <;> rfl

theorem complete_some (id : RecId) (c : ResultCode) (rw : Replies) (s : State) (x : TakeRecord)
    (h : s.eng.takeList.find? (fun y => y.id == id) = some x) :
    complete id c rw s =
      { s with
        ctl := s.ctl.wake
        eng :=
          { s.eng.handOver id c rw with
            ops := s.eng.ops ++ [.replyWrite id x.addr rw, .resultWrite id x.addr c x.notify] } } := by
  unfold complete Engine.record?
  rw [h]
  rfl

theorem complete_none (id : RecId) (c : ResultCode) (rw : Replies) (s : State)
    (h : s.eng.takeList.find? (fun y => y.id == id) = none) : complete id c rw s = s := by
  unfold complete Engine.record?
  rw [h]

theorem enterActive_reader (id : RecId) (b : Block) (s : State) : (enterActive id b s).eng.reader = s.eng.reader := by
  unfold enterActive Engine.enterActive; split <;> rfl

theorem instant_taking (id : RecId) (c : ResultCode) (rw : Replies) (s : State) (a l : Word) (e : TakeEnd)
    (h : s.eng.reader = .taking id a l e) :
    instant id c rw s = complete id c rw (s.withReader (.taking id a l .result)) := by
  simp [instant, setTakeEnd, State.withReader, h, Reader.endsAt]

theorem finishOp_eq (s : State) : finishOp s = s.opDone := rfl

/-! ### The operation that holds the DRAM (R100) -/

theorem grantedOp_operating (s : State) (o : EngineOp) (h : s.operating o) : s.grantedOp = some o := by
  obtain ⟨_, h2, h3⟩ := h; unfold State.grantedOp; rw [h2]; exact h3

theorem engineWrite_eq (op : EngineOp) (s : State) (a : Nat) (ws : List Word)
    (h : op.burst? s.workBase = some (a, ws)) : engineWrite op s = storeAndEvaluate a ws s.opDone := by
  unfold engineWrite; rw [h]; rfl

/-- R102: a write ends the take that it is the last operation of. -/
theorem endTakeAt_eq (s : State) (id : RecId) (e : TakeEnd) :
    (∀ a l, s.eng.reader = .taking id a l e → endTakeAt id e s = linkStep id a l s) ∧
      ((∀ a l, s.eng.reader ≠ .taking id a l e) → endTakeAt id e s = s) := by
  refine ⟨fun a l h => ?_, fun h => ?_⟩
  · unfold endTakeAt; rw [h]; simp
  · unfold endTakeAt
    cases hq : s.eng.reader with
    | taking i a l e0 =>
      dsimp only
      split
      · next hh => obtain ⟨rfl, rfl⟩ := hh; exact absurd hq (h a l)
      · rfl
    | _ => rfl

theorem wordsAt_released (s : State) (a n : Nat) : s.released.wordsAt a n = s.wordsAt a n :=
  wordsAt_congr _ _ _ _ rfl rfl

theorem wordAt_opDone (s : State) (a : Nat) : s.opDone.wordAt a = s.wordAt a := rfl

theorem grantedBurst_bursting (s : State) (t : Transfer) (b : Burst) (rest : List Transfer) (h : s.bursting t b rest) :
    s.grantedBurst = some (t, b, rest) := by
  obtain ⟨h1, h2, h3⟩ := h; unfold State.grantedBurst; rw [h1, h2]; dsimp only; rw [h3]; rfl

theorem grantedBurst_orphan (s : State) (b : OrphanBurst) (h : s.arb.holder = some (.orphan b)) :
    s.grantedBurst = none ∧ s.orphanBurst = some b := by
  unfold State.grantedBurst State.orphanBurst; rw [h]; simp

/-! ### Links and the tail restriction (R105, R111) -/

/-- R105: the three conditions of a valid link. -/
theorem linkValid_iff (s : State) (a : Word) :
    s.linkValid a = true ↔ s.workBase + 64 ≤ a.toNat ∧ a.toNat < s.dramBytes ∧ a.toNat % 64 = 0 := by
  simp [State.linkValid, and_assoc]

/-- R110, R111: all that the end of the tail restriction does; the controller wakes only where a record retires. -/
theorem endTail_eq (s : State) :
    endTail s = { s.tailEnded with ctl := if s.leaving = [] then s.ctl else s.ctl.wake } := by
  cases ht : s.eng.tail with
  | none => simp [endTail, State.tailEnded, State.staying, State.leaving, ht]; rw [← ht]
  | some t =>
    cases hl : s.eng.takeList.takeWhile TakeRecord.isFinal <;>
      simp [endTail, retire, splitRetired_none, State.tailEnded, State.staying, State.leaving, ht, hl, retiredWrites,
        appendOps, pushOps, wakeCause]

/-! ### STOP (R121): the tail restriction, with the free value of log 13 -/

theorem endTailAtStop_eq (s t : State) (h1 : t.eng.tail = s.eng.tail) (h2 : t.eng.takeList = s.eng.takeList)
    (h3 : t.ctl = s.ctl) :
    ∃ c, (c = s.ctl ∨ (s.leaving ≠ [] ∧ c = s.ctl.wake)) ∧ endTailAtStop t = { t.tailEnded with ctl := c } := by
  unfold endTailAtStop
  rw [splitRetired_none]
  simp only [State.tailEnded, State.leaving, State.staying, h1, h2]
  cases hq : s.eng.tail with
  | none =>
    refine ⟨t.ctl, Or.inl h3, ?_⟩
    have ht : t.eng.tail = none := h1.trans hq
    simp only [Option.isSome_none, Bool.false_eq_true, if_false, List.map_nil, List.append_nil, ← h2]
    rw [← ht]
  | some x =>
    simp only [Option.isSome_some, if_true]
    cases hl : s.eng.takeList.takeWhile TakeRecord.isFinal with
    | nil =>
      refine ⟨t.ctl, Or.inl h3, ?_⟩
      simp only [List.map_nil, List.append_nil]
      have : s.eng.takeList.dropWhile TakeRecord.isFinal = s.eng.takeList := by
        have := List.takeWhile_append_dropWhile (p := TakeRecord.isFinal) (l := s.eng.takeList)
        rw [hl] at this; exact this
      rw [this, ← h2]
    | cons y ys =>
      dsimp only
      have hw : ∀ v : State, v.ctl = t.ctl →
          ∃ c, (c = s.ctl ∨ c = s.ctl.wake) ∧ wakeOfStop v = { v with ctl := c } := by
        intro v hv
        unfold wakeOfStop
        split
        · split
          · exact ⟨_, Or.inr (by rw [← h3, ← hv]), rfl⟩
          · exact ⟨_, Or.inl (by rw [← h3, ← hv]), rfl⟩
        · split
          · exact ⟨_, Or.inr (by rw [← h3, ← hv]), rfl⟩
          · exact ⟨_, Or.inl (by rw [← h3, ← hv]), rfl⟩
        all_goals exact ⟨_, Or.inl (by rw [← h3, ← hv]), rfl⟩
      obtain ⟨c, hc, he⟩ :=
        hw (pushOps (retiredWrites (y :: ys))
          { t with
            eng := { t.eng with tail := none, takeList := s.eng.takeList.dropWhile TakeRecord.isFinal } }) rfl
      refine ⟨c, ?_, he⟩
      rcases hc with hc | hc
      · exact Or.inl hc
      · exact Or.inr ⟨by simp, hc⟩

/-! ### Registers (R180, R181) -/

theorem ctrlWsize_eq (w v : Word) (s : State) (h7 : v.getLsbD 7 = w.getLsbD 7)
    (h4 : v.extractLsb' 4 2 = w.extractLsb' 4 2) : ctrlWsize v s = s.sizeAfter w := by
  unfold ctrlWsize State.sizeAfter
  rw [h7, h4]
  split <;> rfl

theorem regWrite_running (s : State) (o v : Word) (h : s.inReset = false) :
    regWrite o v s =
      if o = 0x00#32 then ctrlWrite v s
      else if o = 0x08#32 then anchStore v s
      else if o = 0x10#32 then emskStore v s
      else if o = 0x14#32 then eclrStore v s
      else s := by
  unfold regWrite; rw [if_neg (by simp [h])]

/-! ### Ports (R126, R128, R133, R135) -/

theorem targetState_none (w : Word) (h : 2 < w.toNat) : targetState? w = none := by
  unfold targetState?
  rw [if_neg (by rintro rfl; exact absurd h (by decide)), if_neg (by rintro rfl; exact absurd h (by decide)),
    if_neg (by rintro rfl; exact absurd h (by decide))]

theorem targetState_some (w : Word) :
    (w.toNat = 0 → targetState? w = some .active) ∧ (w.toNat = 1 → targetState? w = some .quiesced) ∧
      (w.toNat = 2 → targetState? w = some .disabled) := by
  have hw : ∀ n, n < 2 ^ 32 → w.toNat = n → w = BitVec.ofNat 32 n := by
    intro n hn h; apply BitVec.eq_of_toNat_eq; rw [h]; simp; omega
  refine ⟨fun h => ?_, fun h => ?_, fun h => ?_⟩ <;> rw [hw _ (by decide) h] <;> decide

theorem flush_bus (p : Fin 4) (s : State) : ((flush p s).port p).bus = (s.port p).bus := by
  unfold flush; simp [State.port, State.setPort]

theorem setPort_bus (p : Fin 4) (s : State) (h : (s.port p).bus = []) : s.setPort p { s.port p with bus := [] } = s := by
  have : ({ s.port p with bus := [] } : Port) = s.port p := by rw [← h]
  rw [this]; unfold State.setPort State.port; simp

theorem countOut_reader (e : Option (Fin 16)) (s : State) : (countOut e s).eng.reader = s.eng.reader := by
  unfold countOut settleEntry retireEntry; repeat' split
  all_goals simp [complete_reader]

theorem withdrawPort_reader (p : Fin 4) (s : State) : (withdrawPort p s).eng.reader = s.eng.reader := by
  unfold withdrawPort; dsimp only
  rw [foldl_keeps (fun u : State => u.eng.reader) (fun t a => countOut_reader a t)]
  rfl

theorem disablePort_reader (p : Fin 4) (s : State) : (disablePort p s).eng.reader = s.eng.reader := by
  have h3 : ∀ (f) (t : State), (cancelTransfers f t).eng.reader = t.eng.reader := by
    intro f t; unfold cancelTransfers; dsimp only
    rw [foldl_keeps (fun u : State => u.eng.reader)
      (fun t a => by unfold finishTransfer; dsimp only; rw [complete_reader])]
  unfold disablePort cancelForPort
  rw [h3]
  simp [withdrawPort_reader, setPortState]

/-! ### The acceptance of a transfer (R80 to R83, R88) -/

theorem acceptTransfer_eq (s : State) (a : Word) (cd : Code) (r : Request) (hr : s.ctl.state = .run)
    (hn : s.numbered) (j : Job) (p : Fin 4)
    (n : Nat) (first : Burst) (hf : (newTransfer s.eng.nextId j p n).nextBurst = first) :
    acceptTransfer (newTransfer s.eng.nextId j p n) (s.afterTake a cd.word r .taking .header []) =
      s.acceptedTransfer a cd.word r j p n first := by
  unfold acceptTransfer State.acceptedTransfer
  rw [show (newTransfer s.eng.nextId j p n).owner = s.eng.nextId from rfl,
    enterActive_taken s _ a cd.word r _ hn rfl]
  rw [show (s.afterTake a cd.word r Stage.taking TakeEnd.header []).queue = s.queue from rfl]
  have e0 : ∀ u : State,
      u = { s.afterTake a cd.word r Stage.taking TakeEnd.header [] with
            eng := (s.enteredLong a cd.word r .transferUnit).eng } →
      s.queue = [] →
      runQueue [newTransfer s.eng.nextId j p n] u =
        (match s.lookup p true first.half first.addr.toNat with
        | .allowed _ e =>
          { s.enteredLong a cd.word r .transferUnit with
            queue :=
              [{ newTransfer s.eng.nextId j p n with state := .running, burst := some { first with entry := e } }]
            table := (countIn e s).table }
        | .denied d =>
          let rw : Replies :=
            { rw0 := 0#32, rw1 := first.addr, rw2 := BitVec.ofNat 32 first.half.code, rw3 := BitVec.ofNat 32 d.code }
          { s.afterTake a cd.word r (.writing .fenc rw) .header
              [.replyWrite s.eng.nextId a rw, .resultWrite s.eng.nextId a .fenc r.notify] with
            table := (recordDenial d p true first.half first.addr s).table
            win := s.win.raise .fence
            ports := mapVec (Port.dropTransfer s.eng.nextId) s.ports }) := by
    intro u hu hq
    simp only [runQueue]
    rw [hf, show (newTransfer s.eng.nextId j p n).port = p from rfl]
    have hl : u.lookup p true first.half first.addr.toNat = s.lookup p true first.half first.addr.toNat := by
      rw [hu]; rfl
    have he : u.eng = (s.enteredLong a cd.word r .transferUnit).eng := by rw [hu]
    have hc : u.ctl = s.ctl := by rw [hu]; rfl
    rw [hl]
    cases s.lookup p true first.half first.addr.toNat with
    | allowed c e =>
      dsimp only [applyDecision]
      cases e <;> rw [hu] <;> rfl
    | denied d =>
      dsimp only [applyDecision]
      unfold finishTransfer complete
      have hrec : (s.enteredLong a cd.word r .transferUnit).eng.record? s.eng.nextId =
          some (s.takenRecord a cd.word r .active) := record_of_numbered _ _ _ (staying_numbered s hn) rfl
      have e1 : (raise Event.fence (recordDenial d p true first.half first.addr u)).eng =
          (s.enteredLong a cd.word r .transferUnit).eng := by simp [he]
      simp only [e1]
      rw [show (newTransfer s.eng.nextId j p n).owner = s.eng.nextId from rfl, hrec]
      dsimp only
      rw [appendOps_run _ _ (by simp [hc, hr])]
      have hfil : s.eng.active.filter (fun x => x.id != s.eng.nextId) = s.eng.active := active_numbered s hn
      have hho : (s.enteredLong a cd.word r .transferUnit).eng.handOver s.eng.nextId .fenc
            (fencReplies (newTransfer s.eng.nextId j p n) first d) =
          { (s.afterTake a cd.word r
              (.writing .fenc (fencReplies (newTransfer s.eng.nextId j p n) first d)) .header []).eng with
            ops := (s.enteredLong a cd.word r .transferUnit).eng.ops } := by
        simp only [Engine.handOver, State.enteredLong, State.afterTake, List.map_append,
          map_numbered _ _ _ (staying_numbered s hn), List.filter_append, hfil]
        simp [State.takenRecord, TakeRecord.withResult]
      rw [hho, hu]
      cases d
      all_goals
        simp [pushOps, raise, recordDenial, State.enteredLong, State.afterTake, fencReplies, newTransfer,
          State.takenRecord, hq, State.setEntry]
      rfl
  split
  · rename_i hq; refine (e0 _ rfl hq).trans ?_; rw [hq]; rfl
  · rename_i hq; rcases hl : s.queue with _ | ⟨x, l⟩
    · exact absurd hl hq
    · rfl

end Sys2Proof.Laws
end

