-- ==== Sys2Proof/WellFormed.lean ====
section
/-! DEFINITION. The well-formed commands: the operands that a row of the table can have. A command that is not well formed
names no row of its own: `exec` still answers it, as the row it spells. -/

namespace Sys2Proof

/-- UNKN is a record with a code that the part does not recognise (R103, R115). -/
def unknownCode (code : Word) : Bool := (Machine.Code.ofWord code).isNone

/-- Whether an offset of register space is STAT, EVNT or unused, and not CTRL, ANCH, EMSK or ECLR (R180). -/
def otherOffset (offset : Word) : Bool :=
  offset != 0x00#32 && offset != 0x08#32 && offset != 0x10#32 && offset != 0x14#32

/-- The check of one command. -/
def Instr.wf : Instr → Bool
  | .unknown code _ => unknownCode code
  | .registerWriteOther offset _ => otherOffset offset
  | .watchTimeout k => k != 0
  | .prstDrainComplete p => p != 0
  | _ => true

end Sys2Proof
end

