-- ==== Sys2Proof/Tests/Slice0.lean ====
section
/-! SUPPORT. The model's own tests. First the commands that the well-formedness check refuses, then for
every statement with hypotheses concrete states and operands that meet them, clause by clause, at the boundary values, last
single steps. -/

namespace Sys2Proof.Tests

open Sys2Proof.Machine Sys2Proof.Laws

/-! ## Small states -/

/-- The first record of the work area: one header of 64 bytes above its base. -/
def recAddr : Word := 0x03FF0040#32

/-- The part in RUN with the host's settings as after reset: 64 MiB, a work area of 64 KiB. -/
def running : State :=
  { State.reset with ctl := { Controller.reset with state := .run, wakeCount := 8, timer := some 1#2 } }

/-- The reader in `rd`, the first of `ops` holding the DRAM. -/
def operatingOn (ops : List EngineOp) (rd : Reader) (s : State) : State :=
  { s with
    eng := { s.eng with ops := ops, reader := rd }
    arb := { s.arb with holder := some .chain } }

/-- The record read of `recAddr` holds the DRAM. -/
def reading : State := operatingOn [.recordRead recAddr true] (.examining recAddr) running

/-- The first record read after reset, that of `recAddr`, has completed: the record is examined. -/
def examined : State :=
  { running with
    eng := { running.eng with reader := .examining recAddr }
    arb := { running.arb with reads := 1 } }

/-- The state before that read completes. -/
def asking (s : State) : State :=
  { s with
    eng := { s.eng with ops := .recordRead recAddr true :: s.eng.ops }
    arb := { s.arb with holder := some .chain, reads := 0 } }

/-- A record with the given parameters. -/
def rq (ps : List Nat) (opt : Bool := false) (link : Word := 0#32) : Request :=
  let p := fun n => BitVec.ofNat 32 (ps.getD n 0)
  { link := link, control := if opt then 0x40000#32 else 0#32, p0 := p 0, p1 := p 1, p2 := p 2, p3 := p 3, p4 := p 4
    p5 := p 5, p6 := p 6, p7 := p 7 }

/-- A record with BARRIER. -/
def barred (r : Request) : Request := { r with control := 0x20000#32 }

/-- An OPEN window over granules 0 to 15 with every right. -/
def windowAt (locked : Bool) (n : Nat) : Entry :=
  { status := .opened { base := 0, size := 16 } { rights := 0xFF#8, locked := locked }, inflight := n, fault := none }

/-- A lease of ports 1 and 2 of granules 0 to 15. -/
def aLease (mode : LeaseMode) (cls : BwClass) (serial : Word) (expiry : Option Timer) : LeaseDef :=
  { holders := 0x6#4, mode := mode, cls := cls, demoted := false, expiry := expiry, serial := serial }

/-- A LEASED entry. -/
def leaseAt (mode : LeaseMode) (cls : BwClass) (serial : Word) (expiry : Option Timer) (n : Nat) : Entry :=
  { status := .leased { base := 0, size := 16 } (aLease mode cls serial expiry), inflight := n, fault := none }

/-- A RETIRING entry. -/
def retiringAt (k : Kind) (c : EndCause) (w : Option Waiter) (n : Nat) : Entry :=
  { status := .retiring { base := 0, size := 16 } k c w, inflight := n, fault := none }

/-- A window's kind and a lease's kind. -/
def windowKind : Kind := .window { rights := 0xFF#8, locked := false }

def leaseKind : Kind := .lease (aLease .exclusive .default 1#32 none)

/-- A port in a state, with an outstanding list and accesses on its bus. -/
def portIn (p : Fin 4) (st : PortState) (out : List Access) (bus : List AccessReq) (s : State) : State :=
  s.setPort p { state := st, outstanding := out, bus := bus }

/-- A reset of a port under way. -/
def drain (n : Nat) (ts : List RecId) : Resetting :=
  { former := .quiesced, request := 0, drainAccesses := n, drainTransfers := ts, withdrawn := 0, released := 0
    cancelled := 0 }

/-- A transfer of `n` words for port 1. -/
def transferOf (j : Job) (n : Nat) (st : TransferState) (b : Option Burst) (id : RecId) : Transfer :=
  { job := j, port := 1, count := n, done := 0, state := st, burst := b, buffer := [], mismatch := none, owner := id }

/-- A burst of `n` words at 1000H that entry 0 has decided, granted. -/
def burstOf (n : Nat) (half : Dir) : Burst :=
  { addr := 0x1000#32, len := n, half := half, entry := some 0, granted := true }

/-- A take-list record with a number and a stage. -/
def recordOf (id : RecId) (st : Stage) : TakeRecord :=
  { id := id, addr := recAddr, code := fourCC 'N' 'O' 'O' 'P', tag := 0xFFFF#16, notify := true, stage := st }

/-- An active request with a number and a block, of tag FFFFH. -/
def activeOf (id : RecId) (b : Block) : ActiveRequest :=
  { id := id, code := fourCC 'F' 'I' 'L' 'L', tag := 0xFFFF#16, block := b }

/-- The engine with `n` active requests and as many take-list records, of the numbers below 40. -/
def crowded (n m : Nat) (s : State) : State :=
  { s with eng := { s.eng with
      active := (List.range n).map (fun i => activeOf i .watchUnit)
      takeList := (List.range m).map (fun i => recordOf i .active)
      nextId := 40 } }

/-- An access of a read of `n` words at an address. -/
def readOf (a : Word) (n : Nat) : AccessReq := { addr := a, op := .read n }

/-- An access that waits, one under way, one answered. -/
def waitingAccess (c : BwClass) : Access := { req := readOf 0x1000#32 16, stage := .waiting c (some 0) }

def grantedAccess : Access := { req := readOf 0x1000#32 16, stage := .inProgress .default (some 0) }

def answeredAccess : Access := { req := readOf 0x1000#32 2, stage := .decided .retry }

/-! ### Hypotheses in decidable form -/

/-- Which state an entry is in: 0 FREE, 1 OPEN, 2 LEASED, 3 RETIRING. -/
def kindOf (e : Entry) : Nat :=
  match e.status with
  | .free _ => 0
  | .opened _ _ => 1
  | .leased _ _ => 2
  | .retiring _ _ _ _ => 3

theorem not_opened (e : Entry) : (∀ g w, e.status ≠ .opened g w) ↔ kindOf e ≠ 1 := by
  unfold kindOf; cases e.status <;> simp

theorem not_leased (e : Entry) : (∀ g l, e.status ≠ .leased g l) ↔ kindOf e ≠ 2 := by
  unfold kindOf; cases e.status <;> simp

theorem not_retiring (e : Entry) : (∀ g k c w, e.status ≠ .retiring g k c w) ↔ kindOf e ≠ 3 := by
  unfold kindOf; cases e.status <;> simp

/-- The first record read after reset has completed in `s`, and no claim waits. -/
abbrev Returned (s : State) : Prop :=
  s.ctl.state = .run ∧ s.arb.holder = none ∧ s.arb.reads = 1 ∧ s.numbered ∧ s.choice = none

/-- The record at `recAddr` is examined in `s`, and BARRIER does not hold `r` back. -/
abbrev Ready (s : State) (r : Request) : Prop := Returned s ∧ (r.barrier = false ∨ s.eng.active = [])

/-- With no claim waiting, either order of the grant and the examination is the same. -/
theorem returned_is (s : State) (h : Returned s) : (asking s).recordReturns recAddr s := by
  obtain ⟨run, idle, reads, num, none⟩ := h
  have same : { (asking s).opDone with arb := { (asking s).opDone.arb with reads := (asking s).arb.reads + 1 } } = s := by
    obtain ⟨_, _, _, _, _, _, _, _, ⟨_, _, _, _, _⟩, _, _, _, _, _, _⟩ := s
    simp_all [asking, State.opDone]
  refine ⟨run, rfl, rfl, num, ?_⟩
  unfold State.readDone
  simp only [same]
  split
  · simp [arbitrate, run, idle, none]
  · rfl

/-- `Ready` gives the hypotheses of every statement about a request. -/
theorem ready_is (s : State) (r : Request) (h : Ready s r) : (asking s).recordReturns recAddr s ∧ s.noBarrier r :=
  ⟨returned_is s h.1, h.2⟩

theorem workBase_running : running.workBase = 67043328 := by decide

theorem dramBytes_running : running.dramBytes = 67108864 := by decide

/-! ## Well-formedness -/

theorem test_unknown_with_a_recognised_code_is_refused :
    (Instr.unknown (fourCC 'O' 'P' 'E' 'N') (rq [])).wf = false ∧
      (Instr.unknown (fourCC 'o' 'p' 'e' 'n') (rq [])).wf = true := by decide

theorem test_other_write_to_a_written_register_is_refused :
    (∀ o ∈ [0x00#32, 0x08#32, 0x10#32, 0x14#32], (Instr.registerWriteOther o 0#32).wf = false) ∧
      (∀ o ∈ [0x04#32, 0x0C#32, 0x18#32, 0xFC#32], (Instr.registerWriteOther o 0#32).wf = true) := by
  simp [Instr.wf, otherOffset]

theorem test_timeout_of_slot_0_is_refused :
    (Instr.watchTimeout 0).wf = false ∧ (Instr.watchTimeout 7).wf = true := by decide

theorem test_drain_of_port_0_is_refused :
    (Instr.prstDrainComplete 0).wf = false ∧ (Instr.prstDrainComplete 3).wf = true := by decide

theorem test_the_table_gives_no_bits : decodeTableWord 8 0 = none ∧ State.reset.withFetchWord 8 0 = State.reset := by
  decide

/-! ## 4CC and layout -/

theorem test_takn_word : taknWord = 0x4E4B4154#32 := by decide

/-! ## Hypotheses of the statements: requests -/

theorem test_witness_OpenDefinesWindow :
    (∀ r ∈ [rq [16, 0, 1, 0], rq [0, 0, 0, 0], rq [0, 0, 3, 0], rq [0, 1, 2, 0], rq [0, 16384, 1, 0],
        rq [0, 0, 32768, 0], rq [0, 0, 1, 256]],
      Ready examined r ∧
        (15 < r.p0.toNat ∨ examined.badRegion r.p1.toNat r.p2.toNat ∨ 256 ≤ r.p3.toNat)) ∧
    (∀ r ∈ [rq [15, 16368, 1, 255], rq [15, 16352, 32, 255]],
      Ready examined r ∧ r.p0.toNat = (15 : Fin 16).val ∧ ¬examined.badRegion r.p1.toNat r.p2.toNat ∧
        r.p3.toNat < 256 ∧ (r.p1.toNat + r.p2.toNat = 16369 ∨ r.p1.toNat + r.p2.toNat = 16384) ∧
        examined.workGranule < r.p1.toNat + r.p2.toNat) ∧
    (∀ s ∈ [examined, examined.setEntry 15 (windowAt false 0)],
      let r := rq [15, 16352, 16, 255];
      Ready s r ∧ r.p0.toNat = (15 : Fin 16).val ∧ ¬s.badRegion r.p1.toNat r.p2.toNat ∧ r.p3.toNat < 256 ∧
        r.p1.toNat + r.p2.toNat = s.workGranule) ∧
    (examined.entry 15).isFree = true ∧ ((examined.setEntry 15 (windowAt false 0)).entry 15).isFree = false := by
  simp only [← badRange_iff]; and_intros <;> decide

theorem test_witness_CloseAndLockWindow_close :
    Ready examined (rq [16]) ∧ 15 < (rq [16]).p0.toNat ∧
    (∀ e ∈ [Entry.reset, leaseAt .exclusive .default 1#32 none 0, retiringAt windowKind .closed none 1],
      Ready (examined.setEntry 15 e) (rq [15]) ∧
        ∀ g w, ((examined.setEntry 15 e).entry 15).status ≠ .opened g w) ∧
    (∀ e ∈ [windowAt true 0, windowAt false 0, windowAt false 1], Ready (examined.setEntry 0 e) (rq [0]) ∧
      (rq [0]).p0.toNat = (0 : Fin 16).val) := by
  simp only [not_opened]; decide

theorem test_witness_CloseAndLockWindow_lock :
    Ready examined (rq [16]) ∧ 15 < (rq [16]).p0.toNat ∧
    (Ready examined (rq [15]) ∧ ∀ g w, (examined.entry 15).status ≠ .opened g w) ∧
    (∀ s ∈ [examined.setEntry 15 (windowAt false 9)], Ready s (rq [15]) ∧
      (s.entry 15).status = .opened { base := 0, size := 16 } { rights := 0xFF#8, locked := false }) := by
  simp only [not_opened]; decide

theorem test_witness_LookReadsOneRecord :
    (∀ r ∈ [rq [17, 1], rq [0, 2], rq [16, 0], rq [0, 0] true],
      Ready examined r ∧ (16 < r.p0.toNat ∨ 1 < r.p1.toNat ∨ (r.p1.toNat = 0 ∧ r.p0.toNat = 16)
        ∨ (r.opt = true ∧ r.p1.toNat = 0))) ∧
    (∀ r ∈ [rq [15, 0]], Ready examined r ∧ r.p0.toNat = (15 : Fin 16).val ∧ r.p1.toNat = 0 ∧ r.opt = false) ∧
    (∀ b : Bool, Ready examined (rq [15, 1] b) ∧ (rq [15, 1] b).p0.toNat = (15 : Fin 16).val ∧ (rq [15, 1] b).p1.toNat = 1 ∧
      (rq [15, 1] b).opt = b) ∧
    (∀ b : Bool, Ready examined (rq [16, 1] b) ∧ (rq [16, 1] b).p0.toNat = 16 ∧ (rq [16, 1] b).p1.toNat = 1 ∧
      (rq [16, 1] b).opt = b) := by
  and_intros <;> decide

theorem test_witness_LookReplyLayouts :
    ((255 : Nat) ≤ 255) ∧
    (∀ e ∈ [Entry.reset, windowAt true 9, leaseAt .holderWrite .priority 1#32 (some (Timer.start 65535)) 9,
        retiringAt windowKind .closed none 9, retiringAt leaseKind .expired none 1], e.inflight ≤ 9) ∧
    (∃ g w, (windowAt true 9).status = .opened g w ∧ g.size = 2 ^ 4 ∧ g.base < 65536) ∧ (16 : Nat) ≤ 16 := by
  refine ⟨by decide, by decide, ⟨_, _, rfl, rfl, by decide⟩, by decide⟩

theorem test_witness_RecordWordLayouts :
    (rq []).control = 0#13 ++ 0#1 ++ 0#1 ++ 0#1 ++ 0#16 ∧
    ({ rq [] with control := 0xFFFFFFFF#32 } : Request).control = 0x1FFF#13 ++ 1#1 ++ 1#1 ++ 1#1 ++ 0xFFFF#16 ∧
    (rq [] true).control = 0#13 ++ 1#1 ++ 0#1 ++ 0#1 ++ 0#16 ∧ (barred (rq [])).control = 0#13 ++ 0#1 ++ 1#1 ++ 0#1 ++ 0#16 ∧
    Code.ofWord 0x504F4F4E#32 = some .noop ∧ Code.ofWord 0x4E4F4F50#32 = none ∧ noReplies.words[3]? = some 0#32 := by
  and_intros <;> decide

/-- Speed control in FULL, with the class policy. -/
def fast (p : Policy) (s : State) : State :=
  { s with speed := { s.speed with state := .full }, table := { s.table with policy := p } }

theorem test_witness_LeaseGrant :
    (∀ r ∈ [rq [16, 0, 1, 1, 1], rq [0, 0, 1, 1, 0], rq [0, 0, 1, 1, 4], rq [0, 0, 0, 1, 1], rq [0, 0, 1, 0, 1],
        rq [0, 0, 1, 16, 1], rq [0, 0, 1, 1, 1, 2], rq [0, 0, 1, 1, 1, 0, 65536]],
      Ready examined r ∧ (15 < r.p0.toNat ∨ r.p4.toNat = 0 ∨ 3 < r.p4.toNat ∨
        (examined.badRegion r.p1.toNat r.p2.toNat ∨ r.p3.toNat = 0 ∨ 16 ≤ r.p3.toNat ∨ 1 < r.p5.toNat
          ∨ 65535 < r.p6.toNat))) ∧
    (∀ m ∈ [LeaseMode.exclusive, .sharedRead, .holderWrite],
      ∀ r ∈ [rq [15, 16368, 1, 15, m.code, 1, 65535], rq [15, 16352, 16, 15, m.code, 0, 0]],
        Ready examined r ∧ r.p0.toNat = (15 : Fin 16).val ∧ r.p4.toNat = m.code ∧
          ¬(examined.badRegion r.p1.toNat r.p2.toNat ∨ r.p3.toNat = 0 ∨ 16 ≤ r.p3.toNat ∨ 1 < r.p5.toNat
            ∨ 65535 < r.p6.toNat)) ∧
    examined.workGranule < 16368 + 1 ∧ 16352 + 16 ≤ examined.workGranule ∧
    (let s := examined.setEntry 15 (windowAt false 0);
      Ready s (rq [15, 0, 1, 1, 1]) ∧ (s.entry 15).isFree = false) ∧
    (let s := portIn 3 .disabled [] [] examined;
      Ready s (rq [15, 0, 1, 15, 1]) ∧ (s.port 3).state.shutOut = true ∧
        ∀ q : Fin 4, q < 3 → (rq [15, 0, 1, 15, 1]).p3.getLsbD q.val = true → (s.port q).state.shutOut = false) := by
  simp only [← badRange_iff]; and_intros <;> decide

/-- The hypotheses of LEAS about overlaps and about the class: an entry 14 that overlaps, and each reason of R34. -/
theorem test_witness_LeaseGrant_classes :
    (let s := examined.setEntry 14 (leaseAt .sharedRead .default 1#32 none 0);
      Ready s (rq [15, 0, 1, 1, 1]) ∧ (s.entry 14).blocksLease { base := 0, size := 1 } .exclusive ∧
        ∀ k : Fin 16, k < 14 → ¬(s.entry k).blocksLease { base := 0, size := 1 } .exclusive) ∧
    (let s := examined.setEntry 14 (leaseAt .sharedRead .default 1#32 none 0);
      ∀ j : Fin 16, ¬(s.entry j).blocksLease { base := 0, size := 1 } .sharedRead) ∧
    examined.lowerClass 0 0 ∧ examined.lowerClass 1 1 ∧
    (fast .single (examined.setEntry 14 (leaseAt .sharedRead .priority 1#32 none 0))).lowerClass 1 2 ∧
    (fast .single examined).lowerClass 1 0 ∧ (fast .shared examined).lowerClass 1 0 ∧
    (rq [15, 0, 1, 1, 1, 1] true).opt = true := by
  simp only [← refusesLease_iff, State.lowerClass]; and_intros <;> decide

theorem test_witness_RenewRestartsExpiry :
    (∀ r ∈ [rq [16, 0], rq [0, 65536]], Ready examined r ∧ (15 < r.p0.toNat ∨ 65535 < r.p1.toNat)) ∧
    (∀ t ∈ [none, some (Timer.start 1)],
      let s := examined.setEntry 15 (leaseAt .exclusive .default 1#32 t 9);
      Ready s (rq [15, 65535]) ∧ (rq [15, 65535]).p0.toNat = (15 : Fin 16).val ∧ (rq [15, 65535]).p1.toNat ≤ 65535 ∧
        (s.entry 15).status = .leased { base := 0, size := 16 } (aLease .exclusive .default 1#32 t)) ∧
    (let s := examined.setEntry 15 { Entry.reset with status := .free (some .expired) };
      Ready s (rq [15, 0]) ∧ (s.entry 15).status = .free (some .expired)) ∧
    (let s := examined.setEntry 15 (retiringAt leaseKind .expired none 1);
      Ready s (rq [15, 0]) ∧ (s.entry 15).status = .retiring { base := 0, size := 16 } leaseKind .expired none) ∧
    Ready examined (rq [0, 0]) ∧ (examined.entry 0).status = .free none ∧
    Ready (examined.setEntry 0 (windowAt false 0)) (rq [0, 0]) ∧
    (let s := examined.setEntry 0 (retiringAt leaseKind .released none 1);
      Ready s (rq [0, 0]) ∧ (s.entry 0).status = .retiring { base := 0, size := 16 } leaseKind .released none) := by
  and_intros <;> decide

theorem test_witness_FreeEndsLease :
    Ready examined (rq [16]) ∧ 15 < (rq [16]).p0.toNat ∧
    (∀ n ∈ [0, 1, 9],
      let s := examined.setEntry 15 (leaseAt .exclusive .default 1#32 none n);
      Ready s (rq [15]) ∧ (s.entry 15).inflight = n ∧
        (s.entry 15).status = .leased { base := 0, size := 16 } (aLease .exclusive .default 1#32 none)) ∧
    (∀ c ∈ [EndCause.released, .port, .expired],
      let s := examined.setEntry 15 (retiringAt leaseKind c none 1);
      Ready s (rq [15]) ∧ (s.entry 15).status = .retiring { base := 0, size := 16 } leaseKind c none) ∧
    (let s := examined.setEntry 15 (retiringAt windowKind .closed none 1);
      Ready s (rq [15]) ∧ (s.entry 15).status = .retiring { base := 0, size := 16 } windowKind .closed none) ∧
    (let s := examined.setEntry 15 { Entry.reset with status := .free (some .expired) };
      Ready s (rq [15]) ∧ (s.entry 15).status = .free (some .expired)) ∧
    Ready examined (rq [15]) ∧ (examined.entry 15).status = .free none := by
  and_intros <;> decide

/-- Two PRIORITY leases of equal serial numbers, entries 14 and 15. -/
def twoPriority : State :=
  fast .shared ((examined.setEntry 14 (leaseAt .sharedRead .priority 1#32 none 0)).setEntry 15
    (leaseAt .sharedRead .priority 1#32 none 0))

theorem test_witness_PolicyDemotesAllButOne :
    Ready examined (rq [2]) ∧ 1 < (rq [2]).p0.toNat ∧
    (Ready examined (rq [0]) ∧ (rq [0]).p0.toNat = examined.table.policy.code) ∧
    (Ready (fast .single examined) (rq [0]) ∧ (fast .single examined).table.policy = .single) ∧
    (Ready examined (rq [1]) ∧ examined.table.policy = .shared ∧ examined.priorityHolders.length ≤ 1) ∧
    (Ready twoPriority (rq [1]) ∧ twoPriority.table.policy = .shared ∧ 2 ≤ twoPriority.priorityHolders.length ∧
      (twoPriority.entry 14).holdsPriority = true ∧
      ∀ j : Fin 16, (twoPriority.entry j).holdsPriority = true →
        (twoPriority.entry 14).serial < (twoPriority.entry j).serial ∨
          ((twoPriority.entry 14).serial = (twoPriority.entry j).serial ∧ 14 ≤ j)) := by
  and_intros <;> decide

theorem test_witness_WaitStartsArmingRead :
    (∀ r ∈ [rq [1, 0, 0, 0], rq [0, 0, 0, 65536], rq [67108865, 0, 0, 0]],
      Ready examined r ∧ (r.p0.toNat % 4 ≠ 0 ∨ 65535 < r.p3.toNat)) ∧
    (∀ r ∈ [rq [67108864, 0, 0, 65535]],
      Ready examined r ∧ r.p0.toNat % 4 = 0 ∧ r.p3.toNat ≤ 65535 ∧ examined.dramBytes ≤ r.p0.toNat) ∧
    (∀ r ∈ [rq [67108860, 0, 0, 65535, 15], rq [67108860, 0, 0, 0, 16]],
      Ready examined r ∧ r.p0.toNat % 4 = 0 ∧ r.p3.toNat ≤ 65535 ∧ r.p0.toNat < examined.dramBytes) ∧
    (rq [67108860, 0, 0, 65535, 15]).p4.toNat = (15 : Fin 16).val ∧ 16 ≤ (rq [67108860, 0, 0, 0, 16]).p4.toNat := by
  and_intros <;> decide

/-- The WAIT of the arming reads below. -/
def aWatch (b : Bool) : WatchSpec :=
  { addr := 0x1000#32, mask := 0xFFFFFFFF#32, compare := 5#32, timeout := 65535, release := some 15, immediate := b }

/-- The arming read of the WAIT holds the DRAM, the word it reads holding `v`. -/
def arming (b live : Bool) (v : Word) : State :=
  (operatingOn [.armWait 0 (aWatch b) live] (.taking 0 recAddr 0#32 .arming)
    { running with eng := { running.eng with takeList := [recordOf 0 .taking], nextId := 1 } }).store 0x1000 [v]

/-- An armed slot. -/
def armedSlot (st : ArmedState) (t : Option Timer) : WatchSlot :=
  { armed := st, addr := 0x1000#32, mask := 0xFFFFFFFF#32, compare := 5#32, timeout := t, release := none, owner := 0 }

/-- Slots 1 to 7 armed. -/
def slotsFull (s : State) : State := { s with slots := Vector.replicate 8 (some (armedSlot .waiting none)) }

theorem test_witness_WaitArming :
    (∀ b : Bool, ∀ v ∈ [5#32, 6#32],
      let s := arming b true v;
      s.ctl.state = .run ∧ s.arb.holder = some .chain ∧ s.eng.ops.head? = some (.armWait 0 (aWatch b) true) ∧
        s.eng.reader = .taking 0 recAddr 0#32 .arming ∧ s.wordAt (aWatch b).addr.toNat = v ∧
        ∀ k : Fin 8, k ≠ 0 → s.slot k = none) ∧
    (let s := arming false false 5#32;
      s.ctl.state = .run ∧ s.arb.holder = some .chain ∧
        s.eng.ops.head? = some (.armWait 0 (aWatch false) false)) ∧
    (let s := slotsFull (arming false true 5#32);
      s.eng.ops.head? = some (.armWait 0 (aWatch false) true) ∧ ∀ k : Fin 8, k ≠ 0 → s.slot k ≠ none) ∧
    (let s := (slotsFull (arming false true 5#32)).setSlot 7 none;
      s.eng.ops.head? = some (.armWait 0 (aWatch false) true) ∧ s.slot 7 = none ∧
        ∀ j : Fin 8, j ≠ 0 → j < 7 → s.slot j ≠ none) := by
  refine ⟨fun b v hv => ?_, by decide, by decide, by decide⟩
  simp only [List.mem_cons, List.not_mem_nil, or_false] at hv
  rcases hv with rfl | rfl <;> cases b <;>
    refine ⟨by decide, by decide, by decide, by decide, by decide, by decide⟩

/-- A queue of `n` waiting transfers. -/
def queued (n : Nat) (s : State) : State :=
  { s with queue := (List.range n).map (fun i => transferOf (.fill 0x1000#32 0#32) 1 .waiting none i) }

theorem test_witness_FillIsQueued :
    (∀ r ∈ [rq [1, 1], rq [0, 0], rq [0, 4194305], rq [0, 1, 0, 4]],
      Ready examined r ∧ ((r.p0.toNat % 4 ≠ 0 ∨ r.p1.toNat = 0 ∨ 4194304 < r.p1.toNat) ∨ 3 < r.p3.toNat)) ∧
    (∀ r ∈ [rq [67043324, 2, 0, 3], rq [67108860, 2, 0, 3], rq [0, 4194304, 0, 3], rq [67043324, 1, 0, 3]],
      Ready examined r ∧ r.p3.toNat = (3 : Fin 4).val ∧ ¬(r.p0.toNat % 4 ≠ 0 ∨ r.p1.toNat = 0 ∨ 4194304 < r.p1.toNat)) ∧
    examined.workBase < 67043324 + 4 * 2 ∧ examined.dramBytes < 67108860 + 4 * 2 ∧
    0 + 4 * 4194304 ≤ examined.workBase ∧ 67043324 + 4 * 1 ≤ examined.workBase ∧
    (examined.port 3).state.shutOut = false ∧ ((portIn 3 .disabled [] [] examined).port 3).state.shutOut = true ∧
    Ready (queued 3 examined) (rq [0, 1, 0, 3]) ∧ (queued 3 examined).queue.length < 4 := by
  and_intros <;> decide

theorem test_witness_CopyIsQueued :
    (∀ r ∈ [rq [1, 0, 1], rq [0, 1, 1], rq [0, 0, 0], rq [0, 0, 4194305], rq [0, 4, 2], rq [0, 0, 1, 4]],
      Ready examined r ∧
        ((r.p0.toNat % 4 ≠ 0 ∨ r.p1.toNat % 4 ≠ 0 ∨ r.p2.toNat = 0 ∨ 4194304 < r.p2.toNat
          ∨ (r.p0.toNat < r.p1.toNat ∧ r.p1.toNat < r.p0.toNat + 4 * r.p2.toNat)) ∨ 3 < r.p3.toNat)) ∧
    (∀ r ∈ [rq [67043324, 0, 2, 3], rq [0, 67043324, 2, 3], rq [4, 0, 2, 3], rq [0, 8, 2, 3]],
      Ready examined r ∧ r.p3.toNat = (3 : Fin 4).val ∧
        ¬(r.p0.toNat % 4 ≠ 0 ∨ r.p1.toNat % 4 ≠ 0 ∨ r.p2.toNat = 0 ∨ 4194304 < r.p2.toNat
          ∨ (r.p0.toNat < r.p1.toNat ∧ r.p1.toNat < r.p0.toNat + 4 * r.p2.toNat))) ∧
    examined.workBase < 67043324 + 4 * 2 ∧ 8 + 4 * 2 ≤ examined.workBase ∧ examined.queue.length < 4 := by
  and_intros <;> decide

theorem test_witness_ScanIsQueued :
    (∀ r ∈ [rq [1, 1], rq [0, 0], rq [0, 4194305], rq [0, 1, 0, 0, 4]],
      Ready examined r ∧ ((r.p0.toNat % 4 ≠ 0 ∨ r.p1.toNat = 0 ∨ 4194304 < r.p1.toNat) ∨ 3 < r.p4.toNat)) ∧
    (∀ r ∈ [rq [67043324, 2, 0, 0, 3], rq [67043324, 1, 0, 0, 3]],
      Ready examined r ∧ r.p4.toNat = (3 : Fin 4).val ∧ ¬(r.p0.toNat % 4 ≠ 0 ∨ r.p1.toNat = 0 ∨ 4194304 < r.p1.toNat)) ∧
    examined.queue.length < 4 := by
  and_intros <;> decide

/-- The reader examines an ABRT while the request of number 0, of the given block, is active. -/
def aborting (b : Block) (s : State) : State :=
  { s with eng := { s.eng with takeList := [recordOf 0 .active], active := [activeOf 0 b], nextId := 1 } }

theorem test_witness_AbortCancelsOldest :
    (Ready examined (rq [65536]) ∧ 65535 < (rq [65536]).p0.toNat) ∧
    (Ready examined (rq [65535]) ∧ (rq [65535]).p0.toNat ≤ 65535 ∧
      ∀ x ∈ examined.eng.active, x.tag.toNat ≠ (rq [65535]).p0.toNat) ∧
    (∀ b ∈ [Block.agentPorts, .speedControl, .watchUnit, .regionTable, .transferUnit],
      let s := aborting b examined;
      Ready s (rq [65535]) ∧ s.eng.active = [] ++ activeOf 0 b :: [] ∧
        (activeOf 0 b).tag.toNat = (rq [65535]).p0.toNat ∧
        s.staying.find? (fun y => y.id == (activeOf 0 b).id) = some (recordOf 0 .active) ∧ (activeOf 0 b).block = b) ∧
    (let s := (aborting .watchUnit examined).setSlot 7 (some (armedSlot .waiting none));
      s.slot 7 = some (armedSlot .waiting none) ∧ (armedSlot .waiting none).owner = 0 ∧
        ∀ j : Fin 8, j < 7 → s.slot j = none) ∧
    (let s := (aborting .regionTable examined).setEntry 15 (retiringAt leaseKind .released (some ⟨0, 1⟩) 1);
      (s.entry 15).status = .retiring ⟨0, 16⟩ leaseKind .released (some ⟨0, 1⟩) ∧
        ∀ j : Fin 16, j < 15 → kindOf (s.entry j) ≠ 3) ∧
    (let s := queued 1 (aborting .transferUnit examined);
      s.queue = [] ++ transferOf (.fill 0x1000#32 0#32) 1 .waiting none 0 :: [] ∧
        (transferOf (.fill 0x1000#32 0#32) 1 .waiting none 0).owner = (activeOf 0 .transferUnit).id) := by
  and_intros <;> decide

theorem test_witness_NoopUnknownAndRefreshAnswer :
    Ready examined (rq []) ∧ (∀ c : Code, fourCC 'n' 'o' 'o' 'p' ≠ c.word) ∧
      (Ready examined (rq [4]) ∧ 3 < (rq [4]).p0.toNat) ∧ (Ready examined (rq [3]) ∧ (rq [3]).p0.toNat ≤ 3) := by
  refine ⟨by decide, fun c => by cases c <;> decide, by decide, by decide⟩

theorem test_witness_PortSetsState :
    (∀ r ∈ [rq [0, 0], rq [4, 0], rq [1, 3]], Ready examined r ∧ (r.p0.toNat = 0 ∨ 3 < r.p0.toNat ∨ 2 < r.p1.toNat)) ∧
    (∀ st ∈ [PortState.resetting (drain 0 []), .active, .quiesced, .disabled], ∀ n ∈ [0, 1, 2],
      let s := portIn 3 st [] [] examined;
      Ready s (rq [3, n]) ∧ (rq [3, n]).p0.toNat = (3 : Fin 4).val ∧ (rq [3, n]).p1.toNat = n ∧
        (s.port 3).state = st) ∧
    -- one of each that is counted, and one that is not
    (let s := ({ portIn 2 .active [answeredAccess, waitingAccess .default] [] examined with
                 queue := [transferOf (.fill 0x1000#32 0#32) 1 .stopping none 0,
                   { transferOf (.fill 0x1000#32 0#32) 1 .waiting none 1 with port := 2 }] }).setEntry 15
                (leaseAt .exclusive .default 1#32 none 0);
      (s.port 2).waitingCount = 1 ∧ s.leasesOf 2 = 1 ∧ s.leasesOf 3 = 0 ∧ s.cancelCount 2 = 1 ∧ s.cancelCount 1 = 0) := by
  and_intros <;> decide

theorem test_witness_PortResetDrains :
    (Ready examined (rq [4]) ∧ 3 < (rq [4]).p0.toNat) ∧ (Ready examined (rq [0]) ∧ (rq [0]).p0.toNat = 0) ∧
    (∀ st ∈ [PortState.disabled, .resetting (drain 0 []), FormerState.active.back, FormerState.quiesced.back],
      let s := portIn 3 st [] [] examined;
      Ready s (rq [3]) ∧ (rq [3]).p0.toNat = (3 : Fin 4).val ∧ (s.port 3).state = st) := by
  and_intros <;> decide

/-- Speed control in a state. -/
def speedIn (c : SpeedState) (s : State) : State :=
  { s with speed := { s.speed with state := c, timer := some { remaining := 1, fresh := false, due := true } } }

theorem test_witness_SpeedStartsSequence :
    (Ready examined (rq [2]) ∧ 1 < (rq [2]).p0.toNat) ∧
    (∀ c ∈ [SpeedState.raising, .locking, .switchingUp, .switchingDown, .lowering, .base, .full], ∀ n ∈ [0, 1],
      Ready (speedIn c examined) (rq [n]) ∧ (rq [n]).p0.toNat = n ∧ (speedIn c examined).speed.state = c) ∧
    (leaseAt .exclusive .default 1#32 none 0).holdsPriority = false ∧
    (leaseAt .exclusive .priority 1#32 none 0).holdsPriority = true ∧
    (aLease .exclusive .priority 1#32 none).cls = .priority := by
  and_intros <;> decide

theorem test_witness_SleepTestsAndHandsOff :
    (let s := portIn 3 .active [] [] examined;
      Ready s (rq []) ∧ ¬(s.port 3).idle ∧ ∀ q : Fin 4, q ≠ 0 → q < 3 → (s.port q).idle) ∧
    (∀ p : Fin 4, p ≠ 0 → (examined.port p).idle) ∧ (Ready (queued 1 examined) (rq []) ∧ (queued 1 examined).queue ≠ []) ∧
    (Ready (speedIn .lowering examined) (rq []) ∧ (speedIn .lowering examined).queue = [] ∧
      (speedIn .lowering examined).speed.state ≠ .base) ∧
    (Ready examined (rq []) ∧ examined.queue = [] ∧ examined.speed.state = .base) := by
  simp only [Port.idle]; and_intros <;> decide

/-! ## Hypotheses of the statements: the chain reader -/

theorem test_witness_RecordIsHeldBack :
    (requestOf (.noop (barred (rq []))) = some (fourCC 'N' 'O' 'O' 'P', barred (rq []))) ∧
    (∀ b : Bool, let s := { aborting .watchUnit examined with
                            eng := { (aborting .watchUnit examined).eng with stopPending := b } };
      Returned s ∧ (barred (rq [])).barrier = true ∧ s.eng.active ≠ [] ∧ s.eng.stopPending = b) ∧
    (Ready (queued 4 examined) (rq []) ∧ 4 ≤ (queued 4 examined).queue.length ∧
      requestOf (.scan (rq [])) = some (fourCC 'S' 'C' 'A' 'N', rq []) ∧ transferCode (fourCC 'S' 'C' 'A' 'N')) := by
  simp only [transferCode]; and_intros <;> decide

/-- The RESULT word of the record at `recAddr` has the low byte `v`; the rest of the record is as the DRAM came up. -/
def stored (v : Byte) : State :=
  { reading with mem := [(0x03FF0048, v), (0x03FF0049, 0#8), (0x03FF004A, 0#8), (0x03FF004B, 0#8)] }

theorem test_witness_RecordReadExamines :
    (let s := operatingOn [.recordRead recAddr false] .stopped running;
      s.ctl.state = .run ∧ s.arb.holder = some .chain ∧ s.eng.ops.head? = some (.recordRead recAddr false)) ∧
    (∀ v ∈ [0#8, 1#8],
      (stored v).ctl.state = .run ∧ (stored v).arb.holder = some .chain ∧
        (stored v).eng.ops.head? = some (.recordRead recAddr true)) ∧
    (stored 0#8).wordAt (recAddr.toNat + 8) = 0#32 ∧ (stored 1#8).wordAt (recAddr.toNat + 8) ≠ 0#32 ∧
    ∀ code r, requestOf (.unknown code r) = some (code, r) :=
  ⟨by decide, by decide, by decide, by decide, fun _ _ => rfl⟩

theorem test_witness_LinkStepFollowsLink :
    (running.ctl.state = .run ∧ ({ running with ctl := { running.ctl with state := .entering .draining } } : State).ctl.state
      = .entering .draining) ∧
    ({ running with eng := { running.eng with stopPending := true } } : State).eng.stopPending = true ∧
    running.eng.stopPending = false ∧
    (∀ link ∈ [0x03FF0000#32, 0x04000000#32, 0x03FF0044#32], link ≠ 0#32 ∧
      ¬(running.workBase + 64 ≤ link.toNat ∧ link.toNat < running.dramBytes ∧ link.toNat % 64 = 0)) ∧
    (∀ link ∈ [0x03FF0040#32, 0x03FFFFC0#32], link ≠ 0#32 ∧
      running.workBase + 64 ≤ link.toNat ∧ link.toNat < running.dramBytes ∧ link.toNat % 64 = 0) ∧
    8 ≤ (crowded 8 8 running).eng.active.length ∧
    ((crowded 7 32 running).eng.active.length < 8 ∧ (crowded 7 32 running).eng.takeList.length = 32) ∧
    ((crowded 7 31 running).eng.active.length < 8 ∧ (crowded 7 31 running).eng.takeList.length < 32 ∧
      (crowded 7 31 running).eng.handoff = none) ∧
    ({ running with eng := { running.eng with handoff := some 0 } } : State).eng.handoff ≠ none := by
  and_intros <;> first | (simp [crowded, workBase_running, dramBytes_running]; done) | decide

/-- The reader at AT_TAIL of a record, with a take list. -/
def tailed (l : List TakeRecord) (id : RecId) : State :=
  { running with
    eng := { running.eng with takeList := l, tail := some id, reader := .atTail id, nextId := 2 }
    slots := running.slots.set 0
      (some
        { armed := .matching, addr := recAddr, mask := 0xFFFFFFFF#32, compare := 0#32, timeout := none, release := none
          owner := id }) }

theorem test_witness_CompletionAndRetirement :
    (aborting .watchUnit running).eng.takeList.find? (fun y => y.id == 0) = some (recordOf 0 .active) ∧
    (let out := [recordOf 0 (.final .okay noReplies)]; let rest := [recordOf 1 .active];
      (∀ x ∈ out, x.isFinal = true) ∧ rest.head? = some (recordOf 1 .active) ∧
        (recordOf 1 .active).isFinal = false) ∧
    running.eng.tail = none ∧
    -- the tail record is FINAL and stays, the one before it retires; and one that is not FINAL before the tail
    (let s := tailed [recordOf 0 (.final .okay noReplies), recordOf 1 (.final .okay noReplies)] 1;
      s.eng.takeList = [recordOf 0 (.final .okay noReplies)] ++ [recordOf 1 (.final .okay noReplies)] ∧
        (recordOf 0 (.final .okay noReplies)).isFinal = true ∧ s.eng.tail ≠ some (recordOf 0 .active).id ∧
        s.eng.tail = some (recordOf 1 .active).id ∧ (retire s).eng.takeList = [recordOf 1 (.final .okay noReplies)]) ∧
    (let s := tailed [recordOf 0 .active, recordOf 1 (.final .okay noReplies)] 1;
      s.eng.takeList = [] ++ s.eng.takeList ∧ (recordOf 0 .active).isFinal = false ∧ retire s = s) := by
  and_intros <;> decide

/-! ## Hypotheses of the statements: the register window and the resets -/

/-- The engine in a state, ANCH holding `a`. -/
def anchored (rd : Reader) (a : Word) (s : State) : State :=
  { s with eng := { s.eng with reader := rd }, win := { s.win with anch := a } }

theorem test_witness_GoStartsReader :
    (running.inReset = false ∧ (0x05#32).getLsbD 2 = true ∧ (0x02#32).getLsbD 1 = true ∧ (0x01#32).getLsbD 1 = false) ∧
    (∀ rd ∈ [Reader.stopped, .faulted], ∀ a ∈ [0x03FF0000#32, 0x03FF0040#32, 0x03FFFFC0#32, 0x04000000#32],
      (anchored rd a running).inReset = false ∧
        ((anchored rd a running).eng.reader = .stopped ∨ (anchored rd a running).eng.reader = .faulted) ∧
        (anchored rd a running).win.anch = a) ∧
    (let s := anchored .stopped 0x03F80040#32 running; let base := s.dramBytes - (s.sizeAfter 0xB1#32).workBytes;
      ¬(s.workBase + 64 ≤ s.win.anch.toNat) ∧ base + 64 ≤ s.win.anch.toNat ∧ s.win.anch.toNat < s.dramBytes ∧
        s.win.anch.toNat % 64 = 0) ∧
    ((anchored (.examining recAddr) recAddr running).eng.reader ≠ .stopped ∧
      (anchored (.examining recAddr) recAddr running).eng.reader ≠ .faulted) ∧
    8 ≤ (crowded 8 8 running).eng.active.length ∧ (crowded 7 32 running).eng.takeList.length = 32 ∧
    State.reset.ctl.state = .init true := by
  refine ⟨by decide, by simp [anchored, running, State.reset], ?_, by decide, ?_⟩
  · simp [State.workBase, State.dramBytes, State.workBytes, anchored, running, State.reset, RegisterWindow.reset,
      State.sizeAfter]
  · and_intros <;> first | simp [crowded] | decide

theorem test_witness_StopStopsReader :
    (running.inReset = false ∧ (0x06#32).getLsbD 2 = true ∧ (0x03#32).getLsbD 0 = true ∧ (0x02#32).getLsbD 0 = false) ∧
    (∀ rd ∈ [Reader.stopped, .examining recAddr, .taking 0 recAddr 0#32 .result, .arming 0, .atTail 0, .faulted,
        .stalled .tableFull recAddr, .stalled .waking recAddr],
      (anchored rd recAddr running).eng.reader = rd ∧ (anchored rd recAddr running).inReset = false) ∧
    (let s := operatingOn [.recordRead recAddr true] (.stalled .waking recAddr) running;
      s.eng.ops = .recordRead recAddr true :: [] ∧ s.arb.holder = some .chain) ∧
    (let s := { operatingOn [.recordRead recAddr true] (.stalled .waking recAddr) running with arb := running.arb };
      s.eng.ops = .recordRead recAddr true :: [] ∧ s.arb.holder ≠ some .chain) ∧
    (anchored (.stalled .waking recAddr) recAddr running).eng.ops = [] := by
  and_intros <;> decide

/-- A burst of the transfer unit holds the DRAM, nothing waiting behind its transfer. -/
def burstHeld (j : Job) (half : Dir) (st : TransferState) (n len : Nat) : State :=
  let b := burstOf len half
  { running.setEntry 0 (windowAt false 1) with
    queue := [transferOf j n st (some b) 0]
    arb := { running.arb with holder := some .transfer } }

/-- Port 3 with an access at each stage; an outstanding list of the part holds at most 2 of them. -/
def busy : State :=
  portIn 3 .active
    [{ req := readOf 0x1000#32 1, stage := .waiting .default (some 0) },
      { req := readOf 0x1000#32 1, stage := .inProgress .default (some 0) }] [] (running.setEntry 0 (windowAt true 2))

theorem test_witness_SoftResetEveryBlock :
    (running.inReset = false ∧ busy.inReset = false ∧
      (busy.entry 0).status = .opened ⟨0, 16⟩ { rights := 0xFF#8, locked := true } ∧ kindOf (busy.entry 15) = 0 ∧
      (busy.port 3).outstanding[0]? = some { req := readOf 0x1000#32 1, stage := .waiting .default (some 0) } ∧
      (busy.port 3).outstanding[1]? = some { req := readOf 0x1000#32 1, stage := .inProgress .default (some 0) }) ∧
    (∀ c ∈ [SpeedState.base, .raising, .locking, .switchingUp, .full, .switchingDown, .lowering],
      (speedIn c running).inReset = false ∧ (speedIn c running).speed.state = c ∧
        (speedIn c running).arb.holder ≠ some .transfer) ∧
    (∀ j ∈ [Job.fill 0x1000#32 1#32, .copy 0x1000#32 0x2000#32, .scan 0x1000#32 1#32 1#32],
      let s := burstHeld j .read .running 16 16;
      s.inReset = false ∧ s.arb.holder = some .transfer ∧
        s.queue = transferOf j 16 .running (some (burstOf 16 .read)) 0 :: [] ∧
        (transferOf j 16 .running (some (burstOf 16 .read)) 0).burst = some (burstOf 16 .read)) := by
  and_intros <;> decide

/-- A full reset under way. -/
def inFullReset : State := fullReset { size := 3, wide := false } running

theorem test_witness_RegisterWrites :
    (running.inReset = false ∧ inFullReset.inReset = true ∧ running.win.wsizeFixed = false) ∧
    ({ running with win := { running.win with wsizeFixed := true } } : State).win.wsizeFixed = true ∧
    ((0xB0#32).getLsbD 0 = false ∧ (0xB0#32).getLsbD 1 = false ∧ (0xB0#32).getLsbD 2 = false) ∧
    ((0x81#32).getLsbD 0 = true ∧ (0x82#32).getLsbD 1 = true ∧ (0x84#32).getLsbD 2 = true) ∧
    running.eng.reader = .stopped ∧ (anchored (.atTail 0) 0#32 running).eng.reader ≠ .stopped ∧
    (0x04#32 ≠ 0x00#32 ∧ 0x04#32 ≠ 0x08#32 ∧ 0x04#32 ≠ 0x10#32 ∧ 0x04#32 ≠ 0x14#32) := by
  and_intros <;> decide

theorem test_witness_FullResetValues : inFullReset.inReset = true ∧ running.inReset = false := by
  and_intros <;> decide

theorem test_witness_RegisterReadsAndEvents :
    (0x14#32 ≠ 0x00#32 ∧ 0x14#32 ≠ 0x04#32 ∧ 0x14#32 ≠ 0x08#32 ∧ 0x14#32 ≠ 0x0C#32 ∧ 0x14#32 ≠ 0x10#32) ∧
    ((crowded 8 32 (queued 4 running)).eng.active.length ≤ 8 ∧ (crowded 8 32 (queued 4 running)).queue.length ≤ 4 ∧
      (crowded 8 32 (queued 4 running)).eng.takeList.length ≤ 32) ∧
    (anchored (.stalled .waking recAddr) recAddr running).eng.reader = .stalled .waking recAddr ∧
    Event.speed.bit < 9 := by
  and_intros <;> decide

/-! ## Hypotheses of the statements: the ports -/

theorem test_witness_AccessIsDecidedAtArrival :
    (running.inReset = false ∧ (running.port 3).bus = [] ∧ (running.port 3).outstanding.length < 2) ∧
    (let s := portIn 3 .active [waitingAccess .default] [readOf 0x1000#32 1, readOf 0x1004#32 1] running;
      (s.port 3).bus ≠ [] ∧ (s.port 3).outstanding.length < 2) ∧
    (let s := portIn 3 .active [grantedAccess, waitingAccess .default] [readOf 0x1000#32 1] running;
      (s.port 3).bus ≠ [] ∧ 2 ≤ (s.port 3).outstanding.length) ∧
    (busy.inReset = false ∧ (busy.port 3).bus = [] ∧ 2 ≤ (busy.port 3).outstanding.length) ∧
    (∀ x ∈ [readOf 0x1002#32 1, readOf 0x1000#32 0, readOf 0x1000#32 17, readOf 0x1004#32 16,
        { addr := 0x1000#32, op := .write [] }], badAccess x) ∧
    (∀ x ∈ [readOf 0x1000#32 16, readOf 0x103C#32 1], ¬badAccess x) ∧
    (∀ st ∈ [PortState.quiesced, .disabled, .resetting (drain 0 []), .active],
      ((portIn 3 st [waitingAccess .default] [] running).port 3).state = st ∧
        ((portIn 3 st [waitingAccess .default] [] running).port 3).outstanding.length = 1) ∧
    running.lookup 3 false .read 0x1000 = .denied (.unclaimed .noMatch) ∧
    running.lookup 0 false .read 0x1000 = .allowed .default none ∧
    (running.setEntry 15 (windowAt false 0)).lookup 3 false .write 0xFFFF = .allowed .default (some 15) := by
  simp only [badAccess]; and_intros <;> decide

theorem test_witness_AccessCompletes :
    (let s := portIn 3 .active [answeredAccess, grantedAccess] [] running;
      let t := { s with arb := { s.arb with holder := some (.port 3) } };
      t.arb.holder = some (.port 3) ∧ (t.port 3).outstanding = [answeredAccess] ++ grantedAccess :: [] ∧
        grantedAccess.stage = .inProgress .default (some 0) ∧ answeredAccess.stage = .decided .retry ∧
        (t.port 3).bus = []) ∧
    grantedAccess.req.op = .read 16 ∧ ({ addr := 0x1000#32, op := .write [1#32] } : AccessReq).op = .write [1#32] := by
  and_intros <;> decide

theorem test_witness_LookupDecides :
    running.dramBytes ≤ 67108864 ∧
    (67108863 < running.dramBytes ∧ running.workBase ≤ 67108863) ∧
    (running.workBase ≤ 67043328 ∧ 67043328 < running.dramBytes) ∧
    (67043327 < running.dramBytes ∧ 67043327 < running.workBase ∧ ∀ i : Fin 16, (running.entry i).covers 67043327 = false) ∧
    (∀ e ∈ [windowAt true 0, leaseAt .exclusive .priority 1#32 none 0, leaseAt .sharedRead .default 1#32 none 0,
        leaseAt .holderWrite .priority 1#32 none 0, retiringAt windowKind .closed none 1], ∀ a ∈ [0, 0xFFFF],
      let s := running.setEntry 15 e;
      a < s.workBase ∧ (s.entry 15).rangeHolds a ∧ ∀ j : Fin 16, j < 15 → ¬(s.entry j).rangeHolds a) ∧
    ((aLease .exclusive .priority 1#32 none).holders.getLsbD (2 : Fin 4).val = true ∧
      (aLease .exclusive .priority 1#32 none).holders.getLsbD (3 : Fin 4).val = false) := by
  rw [workBase_running, dramBytes_running]
  simp only [← covers_iff]; and_intros <;> decide

theorem test_witness_PortActions :
    (∀ n ∈ [0, 1, 9],
      let s := running.setEntry 15 (leaseAt .exclusive .default 1#32 none n);
      (s.entry 15).status = .leased ⟨0, 16⟩ (aLease .exclusive .default 1#32 none) ∧ (s.entry 15).inflight = n ∧
        (aLease .exclusive .default 1#32 none).holders.getLsbD (1 : Fin 4).val = true ∧
        (aLease .exclusive .default 1#32 none).holders ≠ 1#4 <<< (1 : Fin 4).val) ∧
    ((8#4 : BitVec 4).getLsbD (3 : Fin 4).val = true ∧ (8#4 : BitVec 4) = 1#4 <<< (3 : Fin 4).val) ∧
    (let s := portIn 3 .active [answeredAccess, grantedAccess] [] running;
      (s.port 3).outstanding = [answeredAccess] ++ [grantedAccess] ∧
        answeredAccess.answer = some (.retry, [0xFFFFFFFF#32, 0xFFFFFFFF#32]) ∧ grantedAccess.answer = none) ∧
    answeredAccess.responds 3 { port := 3, outcome := .retry, data := [0xFFFFFFFF#32, 0xFFFFFFFF#32] } ∧
    ∀ y, ¬grantedAccess.responds 3 y := by
  refine ⟨by decide, by decide, by decide, ⟨rfl, Or.inl ⟨.retry, rfl, rfl, rfl⟩⟩, fun y h => ?_⟩
  rcases h with ⟨_, ⟨o, h, _⟩ | ⟨w, h, _⟩⟩ <;> cases h

/-! ## Hypotheses of the statements: the transfer unit -/

theorem test_witness_BurstIsFormedAndLookedUp :
    (let s := running.setEntry 15 (windowAt false 8);
      let t := transferOf (.fill 0x1000#32 1#32) 16 .running none 0;
      s.lookup t.port true t.nextBurst.half t.nextBurst.addr.toNat = .allowed .default (some 15)) ∧
    (let s := running.setEntry 15 (retiringAt windowKind .closed none 8);
      let t := transferOf (.scan 0x1000#32 1#32 1#32) 16 .running none 0;
      s.lookup t.port true t.nextBurst.half t.nextBurst.addr.toNat = .denied (.entry 15)) ∧
    (let t := transferOf (.copy 0x1000#32 0x2000#32) 16 .running none 0;
      running.lookup t.port true t.nextBurst.half t.nextBurst.addr.toNat = .denied (.unclaimed .noMatch) ∧
        t.buffer = [] ∧ t.job = .copy 0x1000#32 0x2000#32) ∧
    ((portIn 3 (.resetting (drain 0 [5])) [] [] running).port 3).state = .resetting (drain 0 [5]) ∧
    (running.port 3).state = .quiesced := by
  and_intros <;> decide

/-- The first and the last burst of a transfer, and of one that is stopping. -/
theorem test_witness_FillBurstStoresPattern :
    (∀ st ∈ [TransferState.running, .stopping], ∀ n ∈ [1, 2, 4194304],
      let s := burstHeld (.fill 0x1000#32 1#32) .write st n 1;
      s.bursting (transferOf (.fill 0x1000#32 1#32) n st (some (burstOf 1 .write)) 0) (burstOf 1 .write) []) ∧
    ({ running with arb := { running.arb with holder := some (.orphan (.fill 0x1000#32 [1#32])) } } : State).arb.holder
      = some (.orphan (.fill 0x1000#32 [1#32])) := by
  simp [State.bursting, burstHeld, transferOf]

theorem test_witness_CopyBurstsMovePiece :
    (∀ st ∈ [TransferState.running, .stopping], ∀ n ∈ [1, 2], ∀ d ∈ [Dir.read, .write],
      let s := burstHeld (.copy 0x1000#32 0x2000#32) d st n 1;
      s.bursting (transferOf (.copy 0x1000#32 0x2000#32) n st (some (burstOf 1 d)) 0) (burstOf 1 d) [] ∧
        (burstOf 1 d).half = d) ∧
    (∀ o ∈ [OrphanBurst.copyRead, .copyWrite 0x1000#32 [1#32]],
      ({ running with arb := { running.arb with holder := some (.orphan o) } } : State).arb.holder
        = some (.orphan o)) := by
  simp [State.bursting, burstHeld, transferOf, burstOf]

theorem test_witness_ScanBurstExamines :
    (∀ st ∈ [TransferState.running, .stopping], ∀ n ∈ [1, 2],
      let s := burstHeld (.scan 0x1000#32 1#32 1#32) .read st n 1;
      s.bursting (transferOf (.scan 0x1000#32 1#32 1#32) n st (some (burstOf 1 .read)) 0) (burstOf 1 .read) []) ∧
    (∀ v ∈ [0#8, 1#8],
      let s := { burstHeld (.scan 0x1000#32 1#32 1#32) .read .running 1 1 with
                 mem := [(4096, v), (4097, 0#8), (4098, 0#8), (4099, 0#8)] };
      s.wordsAt (burstOf 1 .read).addr.toNat 1 = [] ++ v.zeroExtend 32 :: []) ∧
    ¬((1#32 &&& 1#32 : Word) ≠ 1#32 &&& 1#32) ∧ (0#32 &&& 1#32 : Word) ≠ 1#32 &&& 1#32 ∧
    ({ running with arb := { running.arb with holder := some (.orphan .scan) } } : State).arb.holder
      = some (.orphan .scan) := by
  refine ⟨by simp [State.bursting, burstHeld, transferOf], by decide, by decide, by decide, rfl⟩

/-! ## Hypotheses of the statements: writes and watches -/

theorem test_witness_HeaderWritesComplete :
    ∀ op ∈ [EngineOp.headerGo none, .headerGo (some 0#32), .headerFault .badLink 1#32, .headerFault .notFresh 0x40#32,
        .headerTake 0 1#32 0x40#32],
      ∀ rd ∈ [Reader.taking 0 recAddr 0#32 .header, .taking 0 recAddr 0#32 .result, .stopped],
        (operatingOn [op] rd running).operating op ∧ (operatingOn [op] rd running).eng.reader = rd := by
  simp [State.operating, operatingOn, running]

theorem test_witness_RecordWritesComplete :
    ∀ op ∈ [EngineOp.taknWrite 0 recAddr, .replyWrite 0 recAddr noReplies, .headerRetired recAddr,
        .resultWrite 0 recAddr .okay true, .resultWrite 0 recAddr .parm false],
      ∀ rd ∈ [Reader.taking 0 recAddr 0#32 .result, .stopped],
        (operatingOn [op] rd running).operating op ∧ (operatingOn [op] rd running).eng.reader = rd := by
  simp [State.operating, operatingOn, running]

theorem test_witness_ChainWatchArming :
    (∀ b : Bool, (operatingOn [.armTail 0 recAddr b] (.arming 0) running).operating (.armTail 0 recAddr b)) ∧
    (∀ v ∈ [0#8, 0x40#8],
      ({ operatingOn [.armTail 0 recAddr true] (.arming 0) running with
         mem := [(0x03FF0040, v), (0x03FF0041, 0#8), (0x03FF0042, 0#8), (0x03FF0043, 0#8)] } : State).wordAt
        recAddr.toNat = v.zeroExtend 32) := by
  refine ⟨by simp [State.operating, operatingOn, running], by decide⟩

theorem test_witness_EvaluatedWriteStoresAndActs_slots :
    (∀ st ∈ [ArmedState.waiting, .matching], ∀ k ∈ [(0 : Fin 8), 1, 7],
      let s := running.setSlot k (some (armedSlot st none));
      s.slot k = some (armedSlot st none) ∧ (armedSlot st none).addr.toNat = 0x1000 ∧ (armedSlot st none).armed = st) ∧
    (5#32 &&& 0xFFFFFFFF#32 : Word) = 5#32 &&& 0xFFFFFFFF#32 ∧
    ¬((4#32 &&& 0xFFFFFFFF#32 : Word) = 5#32 &&& 0xFFFFFFFF#32) ∧ (running.slot 7 = none) ∧
    (∀ n ∈ [0, 1],
      let s := running.setEntry 15 (leaseAt .exclusive .default 1#32 none n);
      (s.entry 15).status = .leased ⟨0, 16⟩ (aLease .exclusive .default 1#32 none) ∧ (s.entry 15).inflight = n) ∧
    (∀ g l, (running.entry 15).status ≠ .leased g l) := by
  simp only [not_leased]; and_intros <;> decide

theorem test_witness_EvaluatedWriteStoresAndActs_words :
    ([1#32, 2#32] : List Word)[1]? = some 2#32 ∧ 0xFFF < 0x1000 ∧ 0x1000 + 4 * ([1#32, 2#32] : List Word).length ≤ 0x1008 := by
  decide

/-! ## Hypotheses of the statements: the arbiter, the controller, the timers -/

/-- Port 2 has an access waiting. -/
def claiming (c : BwClass) (n : Nat) (s : State) : State :=
  portIn 2 .active [waitingAccess c] [] { s with arb := { s.arb with pass := Vector.replicate 6 n } }

theorem test_witness_ArbiterChoiceOrder :
    ({ running with ctl := { running.ctl with refreshDue := true } } : State).ctl.refreshDue = true ∧
    running.ctl.refreshDue = false ∧ running.speed.switchWaiting = false ∧
    ({ running with speed := { running.speed with switchWaiting := true } } : State).speed.switchWaiting = true ∧
    ((claiming .default 8 running).waitingClaim (.port 2) = some .default ∧
      (claiming .default 8 running).passOf (.port 2) = 8) ∧
    (∀ c ∈ claimants, c ≠ .port 2 → (claiming .default 8 running).waitingClaim c = none) ∧
    ((claiming .default 7 running).passOf (.port 2) = 7) ∧
    ((claiming .priority 0 running).portClaim 2 = some .priority ∧
      ∀ q : Fin 4, q ≠ 2 → (claiming .priority 0 running).portClaim q = none) ∧
    (∀ c ∈ claimants, running.waitingClaim c = none) ∧
    -- the claims: an answered and a waiting access; one and two operations of the chain; a burst granted and not
    (let s := portIn 2 .active [answeredAccess, waitingAccess .priority] [] running;
      (s.port 2).outstanding = [answeredAccess] ++ waitingAccess .priority :: [] ∧
        answeredAccess.stage = .decided .retry ∧ (waitingAccess .priority).stage = .waiting .priority (some 0) ∧
        s.portClaim 2 = some .priority) ∧
    ((operatingOn [.recordRead recAddr true] .stopped running).chainClaim = false ∧
      (operatingOn [.recordRead recAddr true, .headerRetired recAddr] .stopped running).chainClaim = true) ∧
    ((burstHeld (.fill 0x1000#32 1#32) .write .running 1 1).transferClaim = false ∧
      ({ running with queue := [transferOf (.fill 0x1000#32 0#32) 1 .running
                                  (some { burstOf 1 .write with granted := false }) 0] } : State).transferClaim = true) := by
  and_intros <;> decide

theorem test_witness_ArbiterGrants :
    (State.reset.ctl.state ≠ .run ∧ State.reset.ctl.state ≠ .entering .draining) ∧
    (running.arb.holder = none ∧ running.ctl.state = .run ∧ running.choice = none) ∧
    ((claiming .priority 0 running).choice = some (.priority 2) ∧ (claiming .default 0 running).choice = some (.default (.port 2))) ∧
    ({ running with speed := { running.speed with switchWaiting := true } } : State).choice = some .switch ∧
    ({ running with ctl := { running.ctl with refreshDue := true } } : State).choice = some .refresh ∧
    ({ running with eng := { running.eng with ops := [.recordRead recAddr true],
                                              reader := .stalled .waking recAddr } } : State).choice
      = some (.default .chain) ∧
    (let s := { running with queue := [transferOf (.fill 0x1000#32 0#32) 1 .running
                                         (some { burstOf 1 .write with granted := false }) 0] };
      s.choice = some (.default .transfer)) ∧
    ({ running with ctl := { running.ctl with state := .entering .draining } } : State).ctl.state
      = .entering .draining ∧
    (waitingAccess .priority).stage = .waiting .priority (some 0) ∧ answeredAccess.stage = .decided .retry := by
  and_intros <;> decide

/-- A timer that is due. -/
def dueTimer : Timer := { remaining := 1, fresh := false, due := true }

theorem test_witness_TimersCountAndEnd :
    ((Timer.start 1).due = false ∧ (Timer.start 1).fresh = true) ∧
    (∀ n ∈ [1, 2, 65535], ({ remaining := n, fresh := false, due := false } : Timer).due = false) ∧
    (∀ n ∈ [0, 1],
      let s := running.setEntry 15 (leaseAt .exclusive .default 1#32 (some dueTimer) n);
      (s.entry 15).status = .leased ⟨0, 16⟩ (aLease .exclusive .default 1#32 (some dueTimer)) ∧
        (aLease .exclusive .default 1#32 (some dueTimer)).expiry = some dueTimer ∧ dueTimer.due = true ∧
        (s.entry 15).inflight = n) ∧
    (∀ g l, (running.entry 15).status ≠ .leased g l) ∧
    ((running.setSlot 7 (some (armedSlot .waiting (some dueTimer)))).slot 7 = some (armedSlot .waiting (some dueTimer)) ∧
      (armedSlot .waiting (some dueTimer)).timeout = some dueTimer) ∧ running.slot 7 = none := by
  simp only [not_leased]; and_intros <;> decide

theorem test_witness_SpeedSequenceSteps :
    (∀ c ∈ [SpeedState.raising, .locking, .lowering],
      (speedIn c running).speed.state = c ∧ (speedIn c running).speed.timer = some dueTimer) ∧
    (∀ c ∈ [SpeedState.switchingUp, .switchingDown],
      let s := { speedIn c running with arb := { running.arb with holder := some .switch } };
      s.speed.state = c ∧ s.arb.holder = some .switch) := by
  and_intros <;> decide

theorem test_witness_InitAndRefresh :
    (State.reset.ctl.state = .init true ∧ min 8 (State.reset.ctl.wakeCount + 1) < 8) ∧
    (∀ b : Bool,
      let s := { State.reset with ctl := { State.reset.ctl with wakeCount := 7, released := b } };
      s.ctl.state = .init true ∧ min 8 (s.ctl.wakeCount + 1) = 8 ∧ s.ctl.released = b) ∧
    running.ctl.timer ≠ none ∧
    ({ running with arb := { running.arb with holder := some .refresh } } : State).arb.holder = some .refresh := by
  and_intros <;> decide

/-- The controller in a state, a wake recorded or not. -/
def standbyIn (c : ControllerState) (w : Bool) : State :=
  { running with ctl := { running.ctl with state := c, timer := none, wakeRecorded := w } }

theorem test_witness_StandbySteps :
    (∀ rd ∈ [Reader.stopped, .faulted, .atTail 0, .stalled .tableFull recAddr, .stalled .waking recAddr],
      let s := { running with eng := { running.eng with handoff := some 0, reader := rd } };
      s.ctl.state = .run ∧ s.eng.handoff ≠ none ∧ s.eng.ops = [] ∧ s.eng.reader = rd ∧ s.eng.heldRead = false) ∧
    (let s := { running with eng := { running.eng with handoff := some 0, reader := .stalled .waking recAddr,
                                                        heldRead := true } };
      s.eng.heldRead = true ∧ s.eng.reader = .stalled .waking recAddr) ∧
    (∀ c ∈ [ControllerState.entering .finalRefresh, .entering .selfRefreshEntry, .leaving .selfRefreshExit,
        .leaving .exitRefresh], ∀ w : Bool,
      (standbyIn c w).ctl.state = c ∧ (standbyIn c w).ctl.wakeRecorded = w) := by
  and_intros <;> decide

theorem test_witness_RetiringEntryBecomesFree :
    (∀ k ∈ [windowKind, leaseKind], ∀ c ∈ [EndCause.closed, .released, .expired, .port],
      let s := running.setEntry 15 (retiringAt k c none 0);
      (s.entry 15).status = .retiring ⟨0, 16⟩ k c none ∧ (s.entry 15).inflight = 0) ∧
    ((running.setEntry 15 (retiringAt windowKind .closed none 1)).entry 15).inflight ≠ 0 ∧
    (∀ g k c w, (running.entry 15).status ≠ .retiring g k c w) := by
  simp only [not_retiring]; and_intros <;> decide

theorem test_witness_DrainEnds :
    ∀ n ∈ [0, 1, 2], ∀ l ∈ [[], [5]],
      let s := portIn 3 (.resetting (drain n l)) [] [] running;
      (s.port 3).state = .resetting (drain n l) ∧ (drain n l).drainAccesses = n ∧ (drain n l).drainTransfers = l := by
  decide

theorem test_witness_StallEnds :
    (∀ q ∈ [StallReason.tableFull, .retireFull, .barrier, .queueFull, .waking],
      let s := anchored (.stalled q recAddr) recAddr running;
      s.eng.reader = .stalled q recAddr ∧ s.ctl.state = .run ∧ s.eng.handoff = none ∧ s.eng.active = [] ∧
        s.eng.takeList = [] ∧ s.queue = []) ∧
    ((crowded 8 31 running).eng.active.length = 8 ∧ (crowded 7 31 running).eng.active.length = 7 ∧
      (crowded 7 32 running).eng.takeList.length = 32 ∧ (crowded 7 31 running).eng.takeList.length = 31) ∧
    (queued 4 running).queue.length = 4 ∧ (queued 3 running).queue.length = 3 ∧ (crowded 1 1 running).eng.active ≠ [] ∧
    -- outside RUN, and with a hand-off pending
    (∀ c ∈ [ControllerState.init true, .entering .draining, .standby, .leaving .exitRefresh],
      let s := anchored (.stalled .tableFull recAddr) recAddr (standbyIn c false);
      s.eng.reader = .stalled .tableFull recAddr ∧ s.eng.handoff = none ∧ s.ctl.state ≠ .run) ∧
    (let s := { running with eng := { running.eng with reader := .stalled .barrier recAddr, handoff := some 0 } };
      s.eng.reader = .stalled .barrier recAddr ∧ s.eng.handoff ≠ none ∧ s.eng.active = []) := by
  refine ⟨by decide, by simp [crowded], by decide, by decide, by decide, by decide, by decide⟩

/-! ## Hypotheses of the statements: the step and the invariants -/

/-- The invariants hold in a state whose next step changes something, and a locked window stands in it. -/
theorem test_witness_invariants :
    (let s := { busy with pending := [.accessComplete] };
      Memory.wf s.mem = true ∧ s.lockedAt 0 ⟨0, 16⟩ 0xFF#8 ∧ s.leasesApart ∧ s.priorityFast ∧ s.singleHolder ∧
        s.retiringBusy ∧ s.holdersPresent ∧ s.portZeroActive ∧ s.slotZeroMatching ∧ s.listsBounded ∧ s.queueOrdered ∧
        s.numbered ∧
        (∀ pins, s.pending.head? ≠ some (.fullReset pins))) ∧
    (∃ t, step { busy with pending := [.accessComplete] } = .next t) ∧ running.pending = [] := by
  refine ⟨⟨by decide, by decide, by decide, by decide, by decide, by decide, by decide, by decide, by decide, by decide,
    trivial, by decide, fun pins h => by cases h⟩, ⟨_, rfl⟩, rfl⟩

/-- Two requests active: a CLOS that waits for an entry, and a FILL whose burst has just completed but for its words. -/
def owned : State :=
  let b := burstOf 1 .write
  let s := running.setEntry 15 (retiringAt windowKind .closed (some ⟨0, 1⟩) 1)
  { s.setEntry 0 (windowAt false 1) with
    eng := { running.eng with
      takeList := [recordOf 0 .active, recordOf 1 .active]
      active := [activeOf 0 .regionTable, activeOf 1 .transferUnit]
      nextId := 2 }
    queue := [transferOf (.fill 0x1000#32 0#32) 1 .running (some b) 1]
    arb := { running.arb with holder := some .transfer }
    pending := [.fillBurstComplete] }

/-- The engine's consistency holds at AT_TAIL and in a state whose burst is about to end a request. -/
theorem test_witness_EngineStaysConsistent :
    (tailed [recordOf 1 (.final .okay noReplies)] 1).engineConsistent ∧ owned.engineConsistent ∧ examined.numbered ∧
      ∃ t, step owned = .next t := by
  refine ⟨⟨⟨rfl, fun h => by cases h⟩, ⟨recAddr, rfl⟩, trivial, by decide, by decide⟩,
    ⟨⟨rfl, fun h => by cases h⟩, rfl, trivial, by decide, by decide⟩, by decide, ⟨_, rfl⟩⟩

/-- The owners are active while two requests are, and so after the step that completes one of them. -/
theorem test_witness_LongRequestsAreOwned :
    owned.numbered ∧ owned.engineConsistent ∧ owned.ownersActive ∧ owned.owners = [(1, .transferUnit), (0, .regionTable)] := by
  have own : owned.owners = [(1, .transferUnit), (0, .regionTable)] := by decide
  refine ⟨by decide, test_witness_EngineStaysConsistent.2.1, ⟨?_, ?_, by decide, fun id a l h => ?_, fun _ => rfl⟩, own⟩
  · rw [own]; exact List.Perm.swap _ _ _
  · exact List.Perm.refl _
  · cases h

/-! ## Single steps -/

/-- The state that a command leaves, the state before it if it answers none. -/
def after (c : Instr) (s : State) : State :=
  match exec c s with
  | .next t => t
  | .fault _ => s
  | .refused _ => s

theorem test_open_defines_the_last_entry :
    ((after (.openWindow (rq [15, 16352, 16, 0xC3])) reading).entry 15).status =
      .opened { base := 16352, size := 16 } { rights := 0xC3#8, locked := false } := by decide

theorem test_lease_takes_serial_1 :
    let t := after (.lease (rq [0, 16, 16, 6, 1, 1, 3])) reading;
    (t.entry 0).status =
        .leased { base := 16, size := 16 }
          { holders := 6#4, mode := .exclusive, cls := .default, demoted := false
            expiry := some { remaining := 3, fresh := true, due := false }, serial := 1#32 } ∧
      t.table.serial = 1#32 := by decide

theorem test_answer_is_written_after_takn_and_header :
    (after (.noop (rq [])) reading).eng.ops =
      [.taknWrite 0 recAddr, .headerTake 0 1#32 recAddr, .replyWrite 0 recAddr noReplies,
        .resultWrite 0 recAddr .okay false] := by decide

theorem test_go_with_anchor_0_is_a_chain_fault :
    let t := after (.go 1#32) running;
    t.eng.reader = .faulted ∧ t.eng.ops = [.headerGo (some 0#32)] ∧ t.arb.holder = some .chain := by decide

theorem test_write_access_is_little_endian :
    let s := portIn 0 .active
      [{ req := { addr := 0x1000#32, op := .write [0x04030201#32] }, stage := .inProgress .default none }] [] running;
    (after .accessComplete { s with arb := { s.arb with holder := some (.port 0) } }).mem =
      [(4096, 1#8), (4097, 2#8), (4098, 3#8), (4099, 4#8)] := by decide

theorem test_eclr_clears_the_written_flags :
    (after (.eclrWrite 0x101#32) { running with win := { running.win with evnt := 0x1FF#9 } }).win.evnt = 0x0FE#9 := by
  decide

theorem test_quiesced_port_answers_retry :
    (after (.accessArrival 1 (readOf 0x1000#32 1)) running).delivered =
      [{ port := 1, outcome := .retry, data := [0xFFFFFFFF#32] }] := by decide

/-- The reader at AT_TAIL as the controller enters standby, a granted write of port 0 to the link word left to complete. -/
def tailWritten (link : Word) : State :=
  let s := portIn 0 .active
    [{ req := { addr := recAddr, op := .write [link] }, stage := .inProgress .default none }] []
    (tailed [recordOf 0 (.final .okay noReplies)] 0)
  { s with
    ctl := { s.ctl with state := .entering .draining, timer := none }
    arb := { s.arb with holder := some (.port 0) } }

theorem test_slot_0_fires_in_entering_standby :
    (let t := after .accessComplete (tailWritten 0x03FF0080#32);
      t.eng.reader = .stalled .waking 0x03FF0080#32 ∧ t.eng.ops = [.recordRead 0x03FF0080#32 true] ∧ t.slot 0 = none ∧
        t.ctl.wakeRecorded = true ∧ t.ctl.state = .entering .finalRefresh) ∧
    (let t := after .accessComplete (tailWritten 1#32);
      t.eng.reader = .faulted ∧ t.eng.ops = [.headerRetired recAddr, .headerFault .badLink 1#32] ∧
        t.ctl.wakeRecorded = true) := by decide

theorem test_stop_in_init_keeps_the_header_write_of_go :
    let t := after (.stop 2#32) (after (.go 1#32) (anchored .stopped recAddr State.reset));
    t.eng.reader = .stopped ∧ t.eng.ops = [.headerGo none] ∧ t.ctl.released = true := by decide

theorem test_step_takes_the_front_command :
    step { running with pending := [.emskWrite 0xFFFFFFFF#32, .leaseTick] } =
      .next { after (.emskWrite 0xFFFFFFFF#32) running with pending := [.leaseTick] } ∧
    (after (.emskWrite 0xFFFFFFFF#32) running).win.emsk = 0x1FF#9 := by
  exact ⟨rfl, by decide⟩

/-- The example of 06_agent_ports.md, resetting a port: port 2's write A (entry 4) and read B (entry 6) wait, and a burst of
the FILL X (entry 4) for it, while the record read of the PRST holds the DRAM; A has been passed over 8 times. -/
def portToReset : State :=
  let access (a : Word) (op : AccessOp) (e : Fin 16) : Access :=
    { req := { addr := a, op := op }, stage := .waiting .default (some e) }
  let lease (base size : Nat) (holders : BitVec 4) (m : LeaseMode) (n : Nat) : Entry :=
    { status := .leased { base := base, size := size }
        { holders := holders, mode := m, cls := .default, demoted := false, expiry := none, serial := 1#32 }
      inflight := n, fault := none }
  let s := (running.setEntry 4 (lease 8192 4 4#4 .exclusive 2)).setEntry 6 (lease 8224 8 6#4 .sharedRead 1)
  let t := portIn 2 .active [access 0x02000100#32 (.write [5#32]) 4, access 0x02020040#32 (.read 1) 6] [] s
  { t with
    eng := { t.eng with
      reader := .examining recAddr
      ops := [.recordRead recAddr true]
      takeList := [recordOf 0 .active]
      active := [activeOf 0 .transferUnit]
      nextId := 1 }
    queue := [{ transferOf (.fill 0x02000000#32 0#32) 64 .running
                  (some { addr := 0x02000000#32, len := 16, half := .write, entry := some 4, granted := false }) 0 with
                port := 2 }]
    arb := { t.arb with holder := some .chain, defPtr := .chain, pass := #v[0, 0, 8, 0, 0, 0] } }

/-- The example once the record read has completed, before any choice of the arbiter. -/
def resetRead : State := finishOp { portToReset with arb := { portToReset.arb with reads := 1 } }

/-- What the PRST's take leaves in the example if the arbiter's choice at that moment comes `first` or after. -/
def resetTaken (first : Bool) : State :=
  arbitrate
    (examine (requestRecord (fourCC 'P' 'R' 'S' 'T') (rq [2])) recAddr (if first then arbitrate resetRead else resetRead))

theorem test_reset_taken_by_either_order :
    after (.portReset (rq [2])) portToReset = resetTaken (Config.grantFirst 0) := by
  have waits : ¬resetRead.choice = none := by decide
  have read : readComplete portToReset = if Config.grantFirst 0 then arbitrate resetRead else resetRead :=
    if_neg (t := resetRead) waits
  have taken : after (.portReset (rq [2])) portToReset =
      arbitrate (examine (requestRecord (fourCC 'P' 'R' 'S' 'T') (rq [2])) recAddr (readComplete portToReset)) := rfl
  rw [taken, read, resetTaken]

set_option maxRecDepth 4000 in
/-- Where the grant comes first, the PRST acts as in the example: A is under way and drains, B is withdrawn, X stops, entry 4
retires and entry 6 stays with port 1. -/
theorem test_reset_after_the_grant_is_the_worked_sequence :
    let t := resetTaken true;
    (t.port 2).outstanding.map (fun x => x.stage) = [.inProgress .default (some 4), .decided .aborted] ∧
      (t.port 2).state =
        .resetting
          { former := .active, request := 1, drainAccesses := 2, drainTransfers := [0], withdrawn := 1, released := 2
            cancelled := 1 } ∧
      t.queue.map (fun x => x.state) = [.stopping] ∧ t.arb.holder = some (.port 2) ∧
      (t.entry 4).inflight = 2 ∧ kindOf (t.entry 4) = 3 ∧ (t.entry 6).inflight = 0 ∧ (t.entry 6).leasedTo 1 = true ∧
      (t.entry 6).leasedTo 2 = false := by decide

set_option maxRecDepth 4000 in
/-- Where the take comes first, A has not been granted and is withdrawn as B is; X's burst is granted then. -/
theorem test_reset_before_the_grant_withdraws_both :
    let t := resetTaken false;
    (t.port 2).outstanding = [] ∧ t.delivered.map (fun x => x.outcome) = [.aborted, .aborted] ∧
      t.queue.map (fun x => x.state) = [.stopping] ∧ t.arb.holder = some .transfer ∧ (t.entry 4).inflight = 1 := by
  decide

end Sys2Proof.Tests
end

