-- ==== Sys2Proof/Proofs/Relations.lean ====
section
/-! PROOF. The relations by which the invariants are proved: what an operation that answers no request keeps (`Moves`),
what every operation keeps of the blocks (`Safe`), and how an operation trades requests between the blocks and the active
table (`Owns`). Each of them composes. -/

namespace Sys2Proof.Proofs

open Sys2Proof.Machine Sys2Proof.Laws

/-! ### One entry, one port, the take list -/

/-- What an operation that answers no request keeps of an entry: a locked window (R23), the count of a RETIRING entry (R17),
no holder that was none (R45), the waiting request (R16). -/
structure EntryMoves (e e' : Entry) : Prop where
  locked : ∀ g w, e.status = .opened g w → w.locked = true → e'.status = e.status
  busy : (e.isRetiring = true → 1 ≤ e.inflight) → e'.isRetiring = true → 1 ≤ e'.inflight
  held : ∀ p, e'.heldBy p = true → e.heldBy p = true
  waiter : e'.waiter? = e.waiter?

theorem EntryMoves.refl (e : Entry) : EntryMoves e e := ⟨fun _ _ _ _ => rfl, id, fun _ => id, rfl⟩

theorem EntryMoves.trans {e f g : Entry} (h : EntryMoves e f) (k : EntryMoves f g) : EntryMoves e g where
  locked r w he hw := (k.locked r w ((h.locked r w he hw).trans he) hw).trans (h.locked r w he hw)
  busy he := k.busy (h.busy he)
  held p hp := h.held p (k.held p hp)
  waiter := k.waiter.trans h.waiter

/-- An entry that keeps its state and of its count at least as much. -/
theorem EntryMoves.of_status {e e' : Entry} (h : e'.status = e.status) (hn : e.inflight ≤ e'.inflight) :
    EntryMoves e e' where
  locked _ _ _ _ := h
  busy he hr := (he (by simpa [Entry.isRetiring, h] using hr)).trans hn
  held p hp := by simpa [Entry.heldBy, h] using hp
  waiter := by simp [Entry.waiter?, h]

/-- What an operation that answers no request keeps of a port: its state, but for what a RESETTING port still waits for, and
the bound of the outstanding list (R125). -/
structure PortMoves (q q' : Port) : Prop where
  state : q'.state = q.state ∨ ∃ r r', q.state = .resetting r ∧ q'.state = .resetting r' ∧ r'.request = r.request
  outstanding : q.outstanding.length ≤ 2 → q'.outstanding.length ≤ 2

theorem PortMoves.refl (q : Port) : PortMoves q q := ⟨Or.inl rfl, id⟩

theorem PortMoves.trans {q r t : Port} (h : PortMoves q r) (k : PortMoves r t) : PortMoves q t where
  state := by
    obtain hs | ⟨a, b, ha, hb, hab⟩ := h.state
    · rw [← hs]; exact k.state
    · obtain hs | ⟨c, d, hc, hd, hcd⟩ := k.state
      · exact Or.inr ⟨a, b, ha, hs.trans hb, hab⟩
      · obtain rfl : b = c := PortState.resetting.inj (hb.symm.trans hc)
        exact Or.inr ⟨a, d, ha, hd, hcd.trans hab⟩
  outstanding := k.outstanding ∘ h.outstanding

theorem PortMoves.disabled {q q' : Port} (h : PortMoves q q') (hd : q'.state = .disabled) : q.state = .disabled := by
  obtain hs | ⟨_, _, _, hb, _⟩ := h.state
  · rw [← hs, hd]
  · simp [hb] at hd

theorem PortMoves.active {q q' : Port} (h : PortMoves q q') (ha : q.state = .active) : q'.state = .active := by
  obtain hs | ⟨_, _, hr, _, _⟩ := h.state
  · rw [hs, ha]
  · simp [hr] at ha

theorem PortMoves.request {q q' : Port} (h : PortMoves q q') : q'.resetRequest? = q.resetRequest? := by
  obtain hs | ⟨_, _, ha, hb, hab⟩ := h.state
  · simp [Port.resetRequest?, hs]
  · simp [Port.resetRequest?, ha, hb, hab]

/-- What an operation that neither takes nor answers a record keeps of the take list. -/
structure RecordsMove (l l' : List TakeRecord) : Prop where
  ids : (l'.map TakeRecord.id).Sublist (l.map TakeRecord.id)
  active : l'.filter (fun x => x.stage == .active) = l.filter (fun x => x.stage == .active)
  taking : ∀ x ∈ l, x.stage = .taking → x ∈ l'

theorem RecordsMove.refl (l : List TakeRecord) : RecordsMove l l := ⟨List.Sublist.refl _, rfl, fun _ h _ => h⟩

theorem RecordsMove.trans {l m n : List TakeRecord} (h : RecordsMove l m) (k : RecordsMove m n) : RecordsMove l n where
  ids := k.ids.trans h.ids
  active := k.active.trans h.active
  taking x hx hs := k.taking x (h.taking x hx hs) hs

/-- Records at stage FINAL leave the front of the list (R110). -/
theorem RecordsMove.of_final {gone l : List TakeRecord} (h : ∀ x ∈ gone, x.isFinal = true) :
    RecordsMove (gone ++ l) l where
  ids := by simp
  active := by
    have none_active : gone.filter (fun x => x.stage == .active) = [] := by
      rw [List.filter_eq_nil_iff]
      intro x hx hs
      have hf := h x hx
      simp [TakeRecord.isFinal, eq_of_beq hs] at hf
    rw [List.filter_append, none_active, List.nil_append]
  taking x hx hs := by
    obtain hg | hl := List.mem_append.mp hx
    · have hf := h x hg
      simp [TakeRecord.isFinal, hs] at hf
    · exact hl

/-! ### Operations that answer no request -/

/-- The head of a transfer queue and the others, as R76 orders them. -/
def inOrder : List Transfer → Prop
  | [] => True
  | t :: rest => t.state ≠ .waiting ∧ ∀ x ∈ rest, x.state = .waiting

theorem queueOrdered_iff (s : State) : s.queueOrdered ↔ inOrder s.queue := by
  unfold State.queueOrdered inOrder
  cases s.queue <;> rfl

/-- R161: speed control is in one of the two states between sequences. -/
def SpeedState.resting (c : SpeedState) : Prop := c = .base ∨ c = .full

/-- What an operation keeps that neither takes nor answers a request. -/
structure Moves (s t : State) : Prop where
  entry : ∀ i, EntryMoves (s.entry i) (t.entry i)
  port : ∀ p, PortMoves (s.port p) (t.port p)
  slot : ∀ k, k ≠ 0 → (t.slot k).map WatchSlot.owner = (s.slot k).map WatchSlot.owner
  slotZero : s.slotZeroMatching → t.slotZeroMatching
  transfers : t.queue.map Transfer.owner = s.queue.map Transfer.owner
  ordered : s.queueOrdered → t.queueOrdered
  speedOwner : t.speed.owner = s.speed.owner
  speedRests : SpeedState.resting t.speed.state → SpeedState.resting s.speed.state
  active : t.eng.active = s.eng.active
  nextId : t.eng.nextId = s.eng.nextId
  records : RecordsMove s.eng.takeList t.eng.takeList
  arming : ∀ id a l, t.eng.reader = .taking id a l .arming → s.eng.reader = .taking id a l .arming

theorem Moves.refl (s : State) : Moves s s :=
  ⟨fun _ => .refl _, fun _ => .refl _, fun _ _ => rfl, id, rfl, id, rfl, id, rfl, rfl, .refl _, fun _ _ _ => id⟩

theorem Moves.trans {s t u : State} (h : Moves s t) (k : Moves t u) : Moves s u where
  entry i := (h.entry i).trans (k.entry i)
  port p := (h.port p).trans (k.port p)
  slot n hn := (k.slot n hn).trans (h.slot n hn)
  slotZero := k.slotZero ∘ h.slotZero
  transfers := k.transfers.trans h.transfers
  ordered := k.ordered ∘ h.ordered
  speedOwner := k.speedOwner.trans h.speedOwner
  speedRests := h.speedRests ∘ k.speedRests
  active := k.active.trans h.active
  nextId := k.nextId.trans h.nextId
  records := h.records.trans k.records
  arming id a l := h.arming id a l ∘ k.arming id a l

theorem Moves.after {s t u : State} (k : Moves t u) (h : Moves s t) : Moves s u := h.trans k

/-- The slots, the queue and speed control stand as they were. -/
theorem Moves.of_parts {s t : State} (he : ∀ i, EntryMoves (s.entry i) (t.entry i))
    (hp : ∀ p, PortMoves (s.port p) (t.port p)) (hs : t.slots = s.slots) (hq : t.queue = s.queue)
    (hv : t.speed = s.speed) (ha : t.eng.active = s.eng.active) (hn : t.eng.nextId = s.eng.nextId)
    (hl : RecordsMove s.eng.takeList t.eng.takeList)
    (hr : ∀ id a l, t.eng.reader = .taking id a l .arming → s.eng.reader = .taking id a l .arming) : Moves s t where
  entry := he
  port := hp
  slot k _ := by rw [slot_congr hs]
  slotZero h := by rw [State.slotZeroMatching, slot_congr hs]; exact h
  transfers := by rw [hq]
  ordered h := by rw [queueOrdered_iff, hq]; exact (queueOrdered_iff s).mp h
  speedOwner := by rw [hv]
  speedRests := by rw [hv]; exact id
  active := ha
  nextId := hn
  records := hl
  arming := hr

/-- The chain reader's own moves: every block stands as it was. -/
theorem Moves.of_reader {s t : State} (ht : t.table = s.table) (hp : t.ports = s.ports) (hs : t.slots = s.slots)
    (hq : t.queue = s.queue) (hv : t.speed = s.speed) (ha : t.eng.active = s.eng.active)
    (hn : t.eng.nextId = s.eng.nextId) (hl : RecordsMove s.eng.takeList t.eng.takeList)
    (hr : ∀ id a l, t.eng.reader = .taking id a l .arming → s.eng.reader = .taking id a l .arming) : Moves s t :=
  .of_parts (fun i => by rw [entry_congr ht]; exact .refl _) (fun p => by rw [port_congr hp]; exact .refl _) hs hq hv ha
    hn hl hr

/-- Changes of the table alone. -/
theorem Moves.of_table {s t : State} (he : ∀ i, EntryMoves (s.entry i) (t.entry i)) (hp : t.ports = s.ports)
    (hs : t.slots = s.slots) (hq : t.queue = s.queue) (hv : t.speed = s.speed) (hg : t.eng = s.eng) : Moves s t :=
  .of_parts he (fun p => by rw [port_congr hp]; exact .refl _) hs hq hv (by rw [hg]) (by rw [hg])
    (by rw [hg]; exact .refl _) (by rw [hg]; exact fun _ _ _ => id)

/-- Changes of the ports alone. -/
theorem Moves.of_ports {s t : State} (hp : ∀ p, PortMoves (s.port p) (t.port p)) (ht : t.table = s.table)
    (hs : t.slots = s.slots) (hq : t.queue = s.queue) (hv : t.speed = s.speed) (hg : t.eng = s.eng) : Moves s t :=
  .of_parts (fun i => by rw [entry_congr ht]; exact .refl _) hp hs hq hv (by rw [hg]) (by rw [hg])
    (by rw [hg]; exact .refl _) (by rw [hg]; exact fun _ _ _ => id)

/-- Nothing that an invariant speaks of changes. -/
theorem Moves.of_eq {s t : State} (ht : t.table = s.table) (hp : t.ports = s.ports) (hs : t.slots = s.slots)
    (hq : t.queue = s.queue) (hv : t.speed = s.speed) (hg : t.eng = s.eng) : Moves s t :=
  .of_table (fun i => by rw [entry_congr ht]; exact .refl _) hp hs hq hv hg

/-- One entry changes. -/
theorem moves_setEntry (s : State) (i : Fin 16) (e : Entry) (h : EntryMoves (s.entry i) e) : Moves s (s.setEntry i e) := by
  refine .of_table (fun j => ?_) rfl rfl rfl rfl rfl
  rw [entry_setEntry]
  split
  · next hij => subst hij; exact h
  · exact .refl _

/-- One port changes. -/
theorem moves_setPort (s : State) (p : Fin 4) (q : Port) (h : PortMoves (s.port p) q) : Moves s (s.setPort p q) := by
  refine .of_ports (fun r => ?_) rfl rfl rfl rfl rfl
  rw [port_setPort]
  split
  · next hpr => subst hpr; exact h
  · exact .refl _

end Sys2Proof.Proofs
end

