-- ==== Sys2Proof/Proofs/ChainReader.lean ====
section
/-! PROOF. The operations that answer no request: the chain reader's, those of the table, of the ports and of the arbiter. -/

namespace Sys2Proof.Proofs

open Sys2Proof.Machine Sys2Proof.Laws

/-! ### The chain reader (R99 to R111) -/

@[simp] theorem appendOps_eng (l : List EngineOp) (s : State) :
    (appendOps l s).eng = { s.eng with ops := s.eng.ops ++ l } := by
  unfold appendOps
  cases l <;> simp

/-- A change of the engine in which its reader does not come to wait for the arming read of a WAIT, and its records and
active requests stand. -/
theorem moves_engine (s : State) (e : Engine) (ha : e.active = s.eng.active) (hn : e.nextId = s.eng.nextId)
    (hl : e.takeList = s.eng.takeList)
    (hr : ∀ id a l, e.reader = .taking id a l .arming → s.eng.reader = .taking id a l .arming) :
    Moves s { s with eng := e } :=
  .of_reader rfl rfl rfl rfl rfl ha hn (by rw [hl]; exact .refl _) hr

theorem moves_appendOps (l : List EngineOp) (s : State) : Moves s (appendOps l s) := by
  refine .of_reader ?_ ?_ ?_ ?_ ?_ ?_ ?_ ?_ ?_ <;> simp
  exact .refl _

theorem moves_setReader (r : Reader) (s : State) (h : ∀ id a l, r ≠ .taking id a l .arming) : Moves s (setReader r s) :=
  moves_engine s _ rfl rfl rfl fun id a l hr => absurd hr (h id a l)

theorem moves_stopReader (s : State) : Moves s (stopReader s) := moves_engine s _ rfl rfl rfl nofun

theorem splitRetired_final (tail : Option RecId) (l : List TakeRecord) :
    l = (splitRetired tail l).1 ++ (splitRetired tail l).2 ∧ ∀ x ∈ (splitRetired tail l).1, x.isFinal = true := by
  induction l with
  | nil => simp [splitRetired]
  | cons x l ih =>
    obtain ⟨hl, hf⟩ := ih
    unfold splitRetired
    split
    · next c rw hs =>
      split
      · simp
      · exact ⟨by rw [List.cons_append, ← hl], List.forall_mem_cons.mpr ⟨by simp [TakeRecord.isFinal, hs], hf⟩⟩
    all_goals simp

theorem splitRetired_moves (tail : Option RecId) (l : List TakeRecord) : RecordsMove l (splitRetired tail l).2 := by
  obtain ⟨hl, hf⟩ := splitRetired_final tail l
  conv => arg 1; rw [hl]
  exact .of_final hf

theorem moves_retire (s : State) : Moves s (retire s) :=
  (moves_appendOps _ _).after (.of_reader rfl rfl rfl rfl rfl rfl rfl (splitRetired_moves _ _) fun _ _ _ h => h)

theorem moves_endTail (s : State) : Moves s (endTail s) := by
  unfold endTail
  split
  · exact .refl s
  · exact (moves_retire _).after (moves_engine s _ rfl rfl rfl fun _ _ _ h => h)

theorem moves_chainFault (k : ChainFault) (a : Word) (s : State) : Moves s (chainFault k a s) := by
  unfold chainFault
  refine .trans ?_ ((moves_endTail _).trans (moves_appendOps _ _))
  split
  · exact moves_stopReader s
  · exact moves_setReader _ _ nofun

theorem moves_readRecord (a : Word) (s : State) : Moves s (readRecord a s) := by
  unfold readRecord
  split
  · exact moves_engine s _ rfl rfl rfl nofun
  · refine (moves_setReader _ s ?_).trans (moves_appendOps _ _)
    split <;> nofun

theorem moves_examineNext (a : Word) (s : State) : Moves s (examineNext a s) := by
  unfold examineNext
  split
  · exact moves_setReader _ _ nofun
  split
  · exact moves_setReader _ _ nofun
  · exact moves_readRecord a s

theorem moves_followLink (l : Word) (s : State) : Moves s (followLink l s) := by
  unfold followLink
  split
  · exact moves_examineNext l s
  · exact moves_chainFault _ l s

theorem moves_linkStep (id : RecId) (a l : Word) (s : State) : Moves s (linkStep id a l s) := by
  unfold linkStep
  split
  · exact moves_stopReader s
  split
  · exact (moves_appendOps _ _).after (moves_engine s _ rfl rfl rfl nofun)
  · exact moves_followLink l s

theorem moves_endTakeAt (id : RecId) (e : TakeEnd) (s : State) : Moves s (endTakeAt id e s) := by
  unfold endTakeAt
  split
  · split
    · exact moves_linkStep _ _ _ s
    · exact .refl s
  all_goals exact .refl s

theorem moves_endStall (s : State) : Moves s (endStall s) := by
  unfold endStall
  split
  · split
    · exact moves_examineNext _ s
    · exact .refl s
  · split
    · exact moves_examineNext _ s
    · exact .refl s
  · split
    · exact moves_readRecord _ s
    · exact .refl s
  · split
    · exact moves_readRecord _ s
    · exact .refl s
  all_goals exact .refl s

theorem moves_goAct (s : State) : Moves s (goAct s) := by
  have prepared : Moves s (goPrepare s) := .of_reader rfl rfl rfl rfl rfl rfl rfl (.refl _) fun _ _ _ h => h
  unfold goAct
  dsimp only
  split
  · exact prepared.trans ((moves_appendOps _ _).trans (moves_examineNext _ _))
  · exact ((moves_appendOps _ _).after (moves_setReader .faulted _ nofun)).after prepared

theorem moves_goCommand (s : State) : Moves s (goCommand s) := by
  unfold goCommand
  split
  · exact moves_goAct s
  · exact moves_goAct s
  all_goals exact .refl s

theorem moves_setPass (c : Claimant) (n : Nat) (s : State) : Moves s (setPass c n s) := .of_eq rfl rfl rfl rfl rfl rfl

theorem moves_setHolder (h : Option Holder) (s : State) : Moves s (setHolder h s) := .of_eq rfl rfl rfl rfl rfl rfl

theorem moves_withdrawRead (s : State) : Moves s (withdrawRead s) := by
  unfold withdrawRead
  split
  · exact .refl s
  split
  · exact moves_engine s _ rfl rfl rfl fun _ _ _ h => h
  · dsimp only
    split
    · exact (moves_setPass _ _ _).after (moves_engine s _ rfl rfl rfl fun _ _ _ h => h)
    · exact moves_engine s _ rfl rfl rfl fun _ _ _ h => h

theorem moves_wakeOfStop (s : State) : Moves s (wakeOfStop s) := by
  refine .of_eq ?_ ?_ ?_ ?_ ?_ ?_ <;> simp

theorem moves_endTailAtStop (s : State) : Moves s (endTailAtStop s) := by
  unfold endTailAtStop
  dsimp only
  split
  · exact .refl s
  · exact moves_engine s _ rfl rfl rfl fun _ _ _ h => h
  · exact (moves_wakeOfStop _).after
      (.of_reader rfl rfl rfl rfl rfl rfl rfl (splitRetired_moves none _) fun _ _ _ h => h)

/-- Slot 0 serves no request: that it becomes FREE, or MATCHING, answers none (R70). -/
theorem moves_setSlotZero (w : Option WatchSlot) (s : State) (h : slotNotWaiting w = true) : Moves s (s.setSlot 0 w) :=
  { Moves.refl s with
    slot := fun k hk => by rw [slot_setSlot_ne _ _ _ _ (Ne.symm hk)]
    slotZero := fun _ => by rw [State.slotZeroMatching, slot_setSlot_self]; exact h }

theorem moves_stopCommand (s : State) : Moves s (stopCommand s) := by
  have stops (t : State) : Moves t (endTailAtStop (stopReader t)) := (moves_stopReader t).trans (moves_endTailAtStop _)
  have pends (t : State) : Moves t (endTailAtStop { t with eng := { t.eng with stopPending := true } }) :=
    (moves_endTailAtStop _).after (moves_engine t _ rfl rfl rfl fun _ _ _ h => h)
  unfold stopCommand
  split
  · exact .refl s
  · exact pends s
  · exact pends s
  · exact pends s
  · exact (moves_setSlotZero none s rfl).trans (stops _)
  · exact ((moves_withdrawRead s).trans (stops _)).trans (moves_engine _ _ rfl rfl rfl fun _ _ _ h => h)
  all_goals exact stops s

/-- R71: a fire of slot 0 answers no request; its value is followed as a link. -/
theorem moves_fireChainWatch (v : Word) (s : State) : Moves s (fireChainWatch v s) :=
  (moves_setSlotZero none s rfl).trans (moves_followLink v _)

theorem moves_armTail (id : RecId) (a v : Word) (s : State) : Moves s (armTail id a v s) := by
  unfold armTail
  split
  · exact moves_stopReader s
  split
  · exact (moves_setSlotZero _ s rfl).trans (moves_setReader _ _ nofun)
  · exact moves_followLink v s

theorem moves_stallReader (r : StallReason) (a : Word) (s : State) : Moves s (stallReader r a s) := by
  unfold stallReader
  split
  · exact moves_stopReader s
  · exact moves_setReader _ _ nofun

theorem moves_finishOp (s : State) : Moves s (finishOp s) := .of_reader rfl rfl rfl rfl rfl rfl rfl (.refl _) fun _ _ _ h => h

theorem toFinal_id (id : RecId) (x : TakeRecord) : (x.toFinal id).id = x.id := by
  unfold TakeRecord.toFinal
  split
  · split <;> rfl
  · rfl

/-- R104: only a record at stage WRITING goes to FINAL. -/
theorem toFinal_of_not_writing (id : RecId) (x : TakeRecord) (h : ∀ c rw, x.stage ≠ .writing c rw) : x.toFinal id = x := by
  unfold TakeRecord.toFinal
  split
  · split
    · next c rw hs => exact absurd hs (h c rw)
    all_goals rfl
  · rfl

theorem toFinal_active (id : RecId) (x : TakeRecord) :
    ((x.toFinal id).stage == .active) = (x.stage == .active) := by
  cases hs : x.stage with
  | writing c rw =>
    unfold TakeRecord.toFinal
    split
    · simp [hs]
    · rw [hs]
  | _ => rw [toFinal_of_not_writing id x (by simp [hs]), hs]

theorem toFinal_moves (id : RecId) (l : List TakeRecord) : RecordsMove l (l.map (TakeRecord.toFinal id)) where
  ids := by simp [Function.comp_def, toFinal_id]
  active := by
    rw [List.filter_map, show (fun x : TakeRecord => x.stage == Stage.active) ∘ TakeRecord.toFinal id
      = (fun x => x.stage == Stage.active) from funext (toFinal_active id)]
    conv_rhs => rw [← List.map_id (List.filter _ l)]
    refine List.map_congr_left fun x hx => ?_
    have hs : x.stage = .active := eq_of_beq (List.mem_filter.mp hx).2
    exact toFinal_of_not_writing id x (by simp [hs])
  taking x hx hs := List.mem_map.mpr ⟨x, hx, toFinal_of_not_writing id x (by simp [hs])⟩

theorem moves_raise (e : Event) (s : State) : Moves s (raise e s) := .of_eq rfl rfl rfl rfl rfl rfl

theorem moves_raiseIf (c : Bool) (e : Event) (s : State) : Moves s (raiseIf c e s) := by
  unfold raiseIf
  split
  · exact moves_raise e s
  · exact .refl s

theorem moves_finalize (id : RecId) (n : Bool) (s : State) : Moves s (finalize id n s) :=
  (moves_raiseIf _ _ _).after (.of_reader rfl rfl rfl rfl rfl rfl rfl (toFinal_moves id _) fun _ _ _ h => h)

end Sys2Proof.Proofs
end

