-- ==== Sys2Proof/Proofs/BlockMoves.lean ====
section
/-! PROOF. The operations of the table, of the ports and of the arbiter that answer no request. -/

namespace Sys2Proof.Proofs

open Sys2Proof.Machine Sys2Proof.Laws

/-! ### The table -/

/-- R17: an entry with count 0 that is not RETIRING becomes FREE, or one with a count RETIRING, without a waiting request. -/
theorem moves_setStatus (s : State) (i : Fin 16) (st : EntryStatus)
    (h : EntryMoves (s.entry i) { s.entry i with status := st }) : Moves s (s.setStatus i st) := moves_setEntry s i _ h

theorem moves_countIn (e : Option (Fin 16)) (s : State) : Moves s (countIn e s) := by
  cases e with
  | none => exact .refl s
  | some i => exact moves_setEntry s i _ (.of_status rfl (Nat.le_succ _))

theorem moves_recordDenial (r : DenyRecord) (p : Fin 4) (tr : Bool) (d : Dir) (a : Word) (s : State) :
    Moves s (recordDenial r p tr d a s) := by
  cases r with
  | entry i => exact moves_setEntry s i _ (.of_status rfl le_rfl)
  | unclaimed c => exact .of_table (fun _ => .refl _) rfl rfl rfl rfl rfl

theorem moves_applyDecision (dec : Decision) (p : Fin 4) (tr : Bool) (d : Dir) (a : Word) (s : State) :
    Moves s (applyDecision dec p tr d a s) := by
  cases dec with
  | allowed c e => exact moves_countIn e s
  | denied r => exact (moves_recordDenial r p tr d a s).trans (moves_raise _ _)

theorem moves_clearFault (i : Option (Fin 16)) (s : State) : Moves s (clearFault i s) := by
  cases i with
  | none => exact .of_table (fun _ => .refl _) rfl rfl rfl rfl rfl
  | some i => exact moves_setEntry s i _ (.of_status rfl le_rfl)

/-- R23: whether an entry is a locked window. -/
def Entry.isLocked (e : Entry) : Bool :=
  match e.status with
  | .opened _ w => w.locked
  | .free _ => false
  | .leased _ _ => false
  | .retiring _ _ _ _ => false

theorem isLocked_of_opened {e : Entry} {g : Range} {w : WindowDef} (h : e.status = .opened g w) (hw : w.locked = true) :
    Entry.isLocked e = true := by simp [Entry.isLocked, h, hw]

/-- R16: an ending without a waiting request reaches an entry that is not a locked window. -/
theorem moves_endEntry (i : Fin 16) (c : EndCause) (s : State) (h : Entry.isLocked (s.entry i) = false) :
    Moves s (endEntry i c none s) := by
  have ends (r : Range) (k : Kind) (hk : (s.entry i).waiter? = none) :
      Moves s
        (if (s.entry i).inflight = 0 then raiseIf (c == .expired) .expire (s.setStatus i (.free (some c)))
          else s.setStatus i (.retiring r k c none)) := by
    have locked : ∀ g w, (s.entry i).status = .opened g w → w.locked = true → False := fun g w hs hw => by
      simp [isLocked_of_opened hs hw] at h
    split
    · refine (moves_raiseIf _ _ _).after (moves_setStatus s i _ ⟨fun g w hs hw => (locked g w hs hw).elim, ?_, ?_, ?_⟩)
      · simp [Entry.isRetiring]
      · simp [Entry.heldBy]
      · exact hk.symm
    · next hn =>
      refine moves_setStatus s i _ ⟨fun g w hs hw => (locked g w hs hw).elim, ?_, ?_, ?_⟩
      · exact fun _ _ => Nat.pos_of_ne_zero hn
      · simp [Entry.heldBy]
      · exact hk.symm
  unfold endEntry
  dsimp only
  split
  · next r w hs => exact ends r _ (by simp [Entry.waiter?, hs])
  · next r l hs => exact ends r _ (by simp [Entry.waiter?, hs])
  · exact .refl s
  · exact .refl s

theorem isLocked_leased {e : Entry} {g : Range} {l : LeaseDef} (h : e.status = .leased g l) : Entry.isLocked e = false := by
  simp [Entry.isLocked, h]

/-- A lease goes on with no new holder. -/
theorem leased_moves {e : Entry} {g : Range} {l m : LeaseDef} (h : e.status = .leased g l)
    (hm : ∀ p, m.holds p = true → l.holds p = true) : EntryMoves e { e with status := .leased g m } where
  locked _ _ hs := by simp [h] at hs
  busy _ := by simp [Entry.isRetiring]
  held p hp := by simpa [Entry.heldBy, h] using hm p (by simpa [Entry.heldBy] using hp)
  waiter := by simp [Entry.waiter?, h]

theorem moves_expireLease (i : Fin 16) (s : State) : Moves s (expireLease i s) := by
  unfold expireLease
  split
  · next hs =>
    split
    · exact moves_endEntry i _ s (isLocked_leased hs)
    · exact .refl s
  all_goals exact .refl s

theorem moves_releaseFrom (p : Fin 4) (s : State) (i : Fin 16) : Moves s (releaseFrom p s i) := by
  unfold releaseFrom
  split
  · next g l hs =>
    split
    · split
      · exact moves_endEntry i _ s (isLocked_leased hs)
      · refine moves_setStatus s i _ (leased_moves hs fun q hq => ?_)
        simp only [LeaseDef.holds, BitVec.getLsbD_and, Bool.and_eq_true] at hq
        exact hq.1
    · exact .refl s
  all_goals exact .refl s

/-- What every step of a fold keeps, the fold keeps. -/
theorem moves_foldl {α : Type} (f : State → α → State) (h : ∀ t a, Moves t (f t a)) (l : List α) (s : State) :
    Moves s (l.foldl f s) := by
  induction l generalizing s with
  | nil => exact .refl s
  | cons a l ih => exact (h s a).trans (ih _)

theorem moves_releasePort (p : Fin 4) (s : State) : Moves s (releasePort p s) := moves_foldl _ (moves_releaseFrom p) _ s

theorem moves_watchRelease (i : Option (Fin 16)) (s : State) : Moves s (watchRelease i s) := by
  unfold watchRelease
  split
  · exact .refl s
  · split
    · next hs => exact moves_endEntry _ _ s (isLocked_leased hs)
    all_goals exact .refl s

/-- R52, R53: a demotion takes nothing but the class. -/
theorem demote_moves (e : Entry) : EntryMoves e e.demote := by
  unfold Entry.demote
  split
  · next r l hs =>
    split
    · exact leased_moves hs fun p hp => hp
    · exact .refl e
  · next r l c w hs =>
    split
    · exact
        { locked := fun g v ho => by simp [hs] at ho
          busy := fun hb _ => hb (by simp [Entry.isRetiring, hs])
          held := fun p hp => by simp [Entry.heldBy] at hp
          waiter := by simp [Entry.waiter?, hs] }
    · exact .refl e
  all_goals exact .refl e

theorem entry_mapVec (f : Entry → Entry) (s : State) (i : Fin 16) :
    State.entry { s with table := { s.table with entries := mapVec f s.table.entries } } i = f (s.entry i) := by
  simp [State.entry]

theorem moves_demoteAll (s : State) : Moves s (demoteAll s) :=
  .of_table (fun i => by unfold demoteAll; rw [entry_mapVec]; exact demote_moves _) rfl rfl rfl rfl rfl

theorem moves_demoteOthers (s : State) : Moves s (demoteOthers s) := by
  refine moves_foldl _ (fun t i => ?_) _ s
  split
  · exact .refl t
  · exact moves_setEntry t i _ (demote_moves _)

theorem moves_setPolicy (p : Policy) (s : State) : Moves s (setPolicy p s) :=
  .of_table (fun _ => .refl _) rfl rfl rfl rfl rfl

theorem tick_moves (e : Entry) : EntryMoves e e.tick := by
  unfold Entry.tick
  split
  · next hs => exact leased_moves hs fun p hp => hp
  all_goals exact .refl e

theorem moves_tickTimers (s : State) : Moves s (tickTimers s) := by
  have slot (k : Fin 8) : (tickTimers s).slot k = (s.slot k).map WatchSlot.tick := by simp [State.slot, tickTimers]
  exact
    { Moves.refl s with
      entry := fun i => by
        rw [show (tickTimers s).entry i = (s.entry i).tick by simp [State.entry, tickTimers]]
        exact tick_moves _
      slot := fun k _ => by rw [slot]; cases s.slot k <;> rfl
      slotZero := fun h => by
        unfold State.slotZeroMatching at h ⊢
        rw [slot]
        cases hs : s.slot 0 with
        | none => rfl
        | some w => rw [hs] at h; exact h }

/-! ### The ports -/

theorem drain_moves (st : PortState) (n : Nat) :
    st.drain n = st ∨ ∃ r r', st = .resetting r ∧ st.drain n = .resetting r' ∧ r'.request = r.request := by
  cases st with
  | resetting r => exact Or.inr ⟨r, _, rfl, rfl, rfl⟩
  | _ => exact Or.inl rfl

theorem splitAnswered_length (p : Fin 4) (l : List Access) : (splitAnswered p l).2.length ≤ l.length := by
  induction l with
  | nil => simp [splitAnswered]
  | cons a l ih =>
    unfold splitAnswered
    split
    · exact ih.trans (by simp)
    · rfl

theorem moves_flush (p : Fin 4) (s : State) : Moves s (flush p s) := by
  let split := splitAnswered p (s.port p).outstanding
  have port : Moves s
      (s.setPort p { s.port p with state := (s.port p).state.drain split.1.length, outstanding := split.2 }) :=
    moves_setPort s p _ ⟨drain_moves _ _, (splitAnswered_length _ _).trans⟩
  exact port.trans (.of_eq rfl rfl rfl rfl rfl rfl)

theorem moves_hostCause (p : Fin 4) (s : State) : Moves s (hostCause p s) := by
  refine .of_eq ?_ ?_ ?_ ?_ ?_ ?_ <;> simp

theorem moves_pushAccess (p : Fin 4) (a : Access) (s : State) (h : (s.port p).outstanding.length < 2) :
    Moves s (pushAccess p a s) :=
  moves_setPort s p _ ⟨Or.inl rfl, fun _ => by simpa using h⟩

theorem moves_cause (dec : Decision) (p : Fin 4) (s : State) : Moves s (dec.cause p s) := by
  cases dec with
  | allowed c e => exact moves_hostCause p s
  | denied r => exact .refl s

theorem applyDecision_port (dec : Decision) (p : Fin 4) (tr : Bool) (d : Dir) (a : Word) (s : State) (q : Fin 4) :
    (applyDecision dec p tr d a s).port q = s.port q := port_congr (by simp) q

theorem moves_arrive (p : Fin 4) (a : AccessReq) (s : State) (h : (s.port p).outstanding.length < 2) :
    Moves s (arrive p a s) := by
  unfold arrive
  split
  · exact moves_pushAccess p _ s h
  · refine (moves_cause _ _ _).after ((moves_pushAccess p _ _ ?_).after (moves_applyDecision _ _ _ _ _ s))
    rw [applyDecision_port]
    exact h

theorem moves_setBus (p : Fin 4) (l : List AccessReq) (s : State) : Moves s (s.setPort p { s.port p with bus := l }) :=
  moves_setPort s p _ ⟨Or.inl rfl, id⟩

theorem moves_acceptHeld (p : Fin 4) (l : List AccessReq) (s : State) : Moves s (acceptHeld p l s) := by
  induction l generalizing s with
  | nil => exact moves_setBus p [] s
  | cons a l ih =>
    unfold acceptHeld
    split
    · next h => exact (moves_arrive p a s h).trans ((moves_flush p _).trans (ih _))
    · exact moves_setBus p _ s

theorem moves_answer (p : Fin 4) (s : State) : Moves s (answer p s) := (moves_flush p s).trans (moves_acceptHeld p _ _)

theorem moves_present (p : Fin 4) (a : AccessReq) (s : State) : Moves s (present p a s) := by
  unfold present
  split
  · exact .refl s
  · exact moves_acceptHeld p _ s

/-- The state of a RESETTING port changes in what the port still waits for. -/
theorem moves_setResetting (p : Fin 4) (r r' : Resetting) (s : State) (h : (s.port p).state = .resetting r)
    (hr : r'.request = r.request) : Moves s (setPortState p (.resetting r') s) :=
  moves_setPort s p _ ⟨Or.inr ⟨r, r', h, rfl, hr⟩, id⟩

theorem moves_formDrainAccesses (p : Fin 4) (s : State) : Moves s (formDrainAccesses p s) := by
  unfold formDrainAccesses
  split
  · next h => exact moves_setResetting p _ _ s h rfl
  all_goals exact .refl s

theorem moves_formDrainTransfers (p : Fin 4) (s : State) : Moves s (formDrainTransfers p s) := by
  unfold formDrainTransfers
  split
  · next h => exact moves_setResetting p _ _ s h rfl
  all_goals exact .refl s

theorem dropTransfer_moves (id : RecId) (q : Port) : PortMoves q (q.dropTransfer id) := by
  unfold Port.dropTransfer
  split
  · next r h => exact ⟨Or.inr ⟨r, _, h, rfl, rfl⟩, fun h => h⟩
  all_goals exact .refl q

theorem port_mapVec (f : Port → Port) (s : State) (p : Fin 4) :
    State.port { s with ports := mapVec f s.ports } p = f (s.port p) := by
  simp [State.port]

theorem moves_dropTransfer (id : RecId) (s : State) : Moves s { s with ports := mapVec (Port.dropTransfer id) s.ports } :=
  .of_ports (fun p => by rw [port_mapVec]; exact dropTransfer_moves id _) rfl rfl rfl rfl rfl

/-! ### The arbiter (R151 to R157) -/

theorem grantOldest_length (l : List Access) : (grantOldest l).length = l.length := by
  induction l with
  | nil => rfl
  | cons a l ih => unfold grantOldest; split <;> simp [ih]

theorem moves_grantPort (p : Fin 4) (s : State) : Moves s (grantPort p s) :=
  (moves_setHolder _ _).after ((moves_setPass _ _ _).after
    (moves_setPort s p _ ⟨Or.inl rfl, fun h => by rw [grantOldest_length]; exact h⟩))

theorem moves_wakeReader (s : State) : Moves s { s with eng := wakeReader s.eng } := by
  unfold wakeReader
  split
  · exact moves_engine s _ rfl rfl rfl nofun
  · exact .refl s

theorem moves_grantChain (s : State) : Moves s (grantChain s) :=
  (moves_setHolder _ _).after ((moves_setPass _ _ _).after (moves_wakeReader s))

/-- The transfer at the head goes on, with its owner and in a state other than WAITING. -/
theorem moves_setHead (s : State) (t u : Transfer) (rest : List Transfer) (hq : s.queue = t :: rest)
    (ho : u.owner = t.owner) (hu : t.state ≠ .waiting → u.state ≠ .waiting) : Moves s { s with queue := u :: rest } :=
  { Moves.refl s with
    transfers := by simp [hq, ho]
    ordered := fun h => by
      rw [queueOrdered_iff, hq] at h
      exact ⟨hu h.1, h.2⟩ }

theorem moves_grantTransfer (s : State) : Moves s (grantTransfer s) := by
  refine (moves_setHolder _ _).after ((moves_setPass _ _ _).after ?_)
  split
  · exact .refl s
  · next t rest hq => exact moves_setHead s t _ rest hq rfl fun h => h

theorem moves_bumpPasses (p : Fin 4) (s : State) : Moves s (bumpPasses p s) := by
  refine moves_foldl _ (fun t c => ?_) _ s
  split
  · exact moves_setPass _ _ _
  · exact .refl t

theorem moves_grant (c : Choice) (s : State) : Moves s (grant c s) := by
  have pointer (t u : State) (h : u = { t with arb := u.arb }) : Moves t u := by rw [h]; exact .of_eq rfl rfl rfl rfl rfl rfl
  cases c with
  | refresh => exact .of_eq rfl rfl rfl rfl rfl rfl
  | switch => exact { Moves.refl s with }
  | priority p => exact (pointer _ _ rfl).after ((moves_grantPort p _).after (moves_bumpPasses p s))
  | default c =>
    cases c with
    | port p => exact (pointer _ _ rfl).after (moves_grantPort p s)
    | chain => exact (pointer _ _ rfl).after (moves_grantChain s)
    | transfer => exact (pointer _ _ rfl).after (moves_grantTransfer s)

theorem moves_arbitrate (s : State) : Moves s (arbitrate s) := by
  unfold arbitrate
  split
  · split
    · exact moves_grant _ s
    · exact .refl s
  · exact .of_eq rfl rfl rfl rfl rfl rfl
  · exact .refl s

/-! ### The controller, the registers, the record read -/

theorem moves_readComplete (s : State) : Moves s (readComplete s) := by
  have finished : Moves s (finishOp { s with arb := { s.arb with reads := s.arb.reads + 1 } }) :=
    (moves_finishOp _).after (.of_eq rfl rfl rfl rfl rfl rfl)
  unfold readComplete
  dsimp only
  split
  · exact finished
  split
  · exact finished.trans (moves_arbitrate _)
  · exact finished

theorem moves_releaseHeldRead (s : State) : Moves s (releaseHeldRead s) := by
  unfold releaseHeldRead
  split
  · exact (moves_appendOps _ _).after (moves_engine s _ rfl rfl rfl fun _ _ _ h => h)
  · exact .refl s

theorem moves_handoff (s : State) : Moves s (handoff s) := by
  unfold handoff
  split
  · exact (moves_releaseHeldRead _).after (.of_reader rfl rfl rfl rfl rfl rfl rfl (.refl _) fun _ _ _ h => h)
  · exact .refl s

/-- The steps of the controller beside the hand-off change the controller and the window alone. -/
theorem moves_controller (s : State) (c : Controller) (w : RegisterWindow) : Moves s { s with ctl := c, win := w } :=
  .of_eq rfl rfl rfl rfl rfl rfl

theorem moves_anchStore (v : Word) (s : State) : Moves s (anchStore v s) := by
  unfold anchStore
  split <;> exact .of_eq rfl rfl rfl rfl rfl rfl

theorem moves_ctrlAction (w : Word) (s : State) : Moves s (ctrlAction w s) := by
  unfold ctrlAction
  split
  · exact moves_goCommand s
  split
  · exact moves_stopCommand s
  · exact .refl s

theorem moves_ctrlWsize (w : Word) (s : State) : Moves s (ctrlWsize w s) := by
  unfold ctrlWsize
  split <;> exact .of_eq rfl rfl rfl rfl rfl rfl

end Sys2Proof.Proofs
end

