-- ==== Sys2Proof/Proofs/Owners.lean ====
section
/-! PROOF. What every operation keeps of the blocks, and how requests pass between the blocks and the active table. -/

namespace Sys2Proof.Proofs

open Sys2Proof.Machine Sys2Proof.Laws

/-! ### The blocks -/

/-- What an operation keeps of an entry, its waiting request set aside. -/
structure EntrySafe (e e' : Entry) : Prop where
  locked : ∀ g w, e.status = .opened g w → w.locked = true → e'.status = e.status
  busy : (e.isRetiring = true → 1 ≤ e.inflight) → e'.isRetiring = true → 1 ≤ e'.inflight
  held : ∀ p, e'.heldBy p = true → e.heldBy p = true

theorem EntryMoves.safe {e e' : Entry} (h : EntryMoves e e') : EntrySafe e e' := ⟨h.locked, h.busy, h.held⟩

/-- What an operation keeps of the blocks beside the transfer queue: a locked window, the count of a RETIRING entry, no new
holder and no new DISABLED port, port 0 ACTIVE, slot 0 never ARMED_WAITING, the bound of the outstanding lists, the numbers
of the records below the next one. -/
structure Safe (s t : State) : Prop where
  locked : ∀ i r w, s.lockedAt i r w → t.lockedAt i r w
  busy : s.retiringBusy → t.retiringBusy
  held : ∀ i p, (t.entry i).heldBy p = true → (s.entry i).heldBy p = true
  disabled : ∀ p, (t.port p).state = .disabled → (s.port p).state = .disabled
  portZero : s.portZeroActive → t.portZeroActive
  slotZero : s.slotZeroMatching → t.slotZeroMatching
  outstanding : (∀ p, (s.port p).outstanding.length ≤ 2) → ∀ p, (t.port p).outstanding.length ≤ 2
  numbered : s.numbered → t.numbered

theorem Safe.refl (s : State) : Safe s s := ⟨fun _ _ _ => id, id, fun _ _ => id, fun _ => id, id, id, id, id⟩

theorem Safe.trans {s t u : State} (h : Safe s t) (k : Safe t u) : Safe s u where
  locked i r w := k.locked i r w ∘ h.locked i r w
  busy := k.busy ∘ h.busy
  held i p := h.held i p ∘ k.held i p
  disabled p := h.disabled p ∘ k.disabled p
  portZero := k.portZero ∘ h.portZero
  slotZero := k.slotZero ∘ h.slotZero
  outstanding := k.outstanding ∘ h.outstanding
  numbered := k.numbered ∘ h.numbered

theorem numbered_iff (s : State) :
    s.numbered ↔ (∀ n ∈ s.eng.takeList.map TakeRecord.id, n < s.eng.nextId)
      ∧ ∀ n ∈ s.eng.active.map ActiveRequest.id, n < s.eng.nextId := by
  simp [State.numbered]

/-- The numbers stay below the next one where none is added and the next one is not lowered. -/
theorem numbered_of_subset {s t : State} (hl : t.eng.takeList.map TakeRecord.id ⊆ s.eng.takeList.map TakeRecord.id)
    (ha : t.eng.active.map ActiveRequest.id ⊆ s.eng.active.map ActiveRequest.id) (hn : t.eng.nextId = s.eng.nextId)
    (h : s.numbered) : t.numbered := by
  rw [numbered_iff] at h ⊢
  rw [hn]
  exact ⟨fun n hm => h.1 n (hl hm), fun n hm => h.2 n (ha hm)⟩

theorem Safe.of_parts {s t : State} (he : ∀ i, EntrySafe (s.entry i) (t.entry i))
    (hd : ∀ p, (t.port p).state = .disabled → (s.port p).state = .disabled) (hz : s.portZeroActive → t.portZeroActive)
    (hs : s.slotZeroMatching → t.slotZeroMatching)
    (ho : (∀ p, (s.port p).outstanding.length ≤ 2) → ∀ p, (t.port p).outstanding.length ≤ 2)
    (hn : s.numbered → t.numbered) : Safe s t where
  locked i _ _ h := ((he i).locked _ _ h rfl).trans h
  busy h i := (he i).busy (h i)
  held i := (he i).held
  disabled := hd
  portZero := hz
  slotZero := hs
  outstanding := ho
  numbered := hn

theorem Moves.safe {s t : State} (h : Moves s t) : Safe s t :=
  .of_parts (fun i => (h.entry i).safe) (fun p => (h.port p).disabled) (h.port 0).active h.slotZero
    (fun ho p => (h.port p).outstanding (ho p))
    (numbered_of_subset h.records.ids.subset (by rw [h.active]; exact fun _ => id) h.nextId)

/-- One entry changes. -/
theorem safe_setEntry (s : State) (i : Fin 16) (e : Entry) (h : EntrySafe (s.entry i) e) : Safe s (s.setEntry i e) := by
  refine .of_parts (fun j => ?_) (fun _ => id) id id id id
  rw [entry_setEntry]
  split
  · next hij => subst hij; exact h
  · exact (EntryMoves.refl _).safe

/-- Changes of the engine alone. -/
theorem Safe.of_engine {s t : State} (ht : t.table = s.table) (hp : t.ports = s.ports) (hs : t.slots = s.slots)
    (hn : s.numbered → t.numbered) : Safe s t :=
  .of_parts (fun i => by rw [entry_congr ht]; exact (EntryMoves.refl _).safe) (fun p => by rw [port_congr hp]; exact id)
    (fun h => by rw [State.portZeroActive, port_congr hp]; exact h)
    (fun h => by rw [State.slotZeroMatching, slot_congr hs]; exact h)
    (fun h p => by rw [port_congr hp]; exact h p) hn

/-- What an operation keeps of the transfer queue (R76). -/
structure QueueKept (s t : State) : Prop where
  length : s.queue.length ≤ 4 → t.queue.length ≤ 4
  ordered : s.queueOrdered → t.queueOrdered

theorem QueueKept.of_eq {s t : State} (h : t.queue = s.queue) : QueueKept s t :=
  ⟨by rw [h]; exact id, by rw [queueOrdered_iff, queueOrdered_iff, h]; exact id⟩

theorem QueueKept.trans {s t u : State} (h : QueueKept s t) (k : QueueKept t u) : QueueKept s u :=
  ⟨k.length ∘ h.length, k.ordered ∘ h.ordered⟩

theorem Moves.queue {s t : State} (h : Moves s t) : QueueKept s t where
  length hl := by
    have := congrArg List.length h.transfers
    simp only [List.length_map] at this
    omega
  ordered := h.ordered

/-! ### The owners of the active requests (R109) -/

/-- The active requests are those that the blocks hold, with `x` beside them: requests which have left their block and are
still active, or have entered the active table and no block yet. -/
structure Owned (x : List (RecId × Block)) (s : State) : Prop where
  owners : (x ++ s.owners).Perm (s.eng.active.map (fun a => (a.id, a.block)))
  records : (s.eng.active.map ActiveRequest.id).Perm
    ((s.eng.takeList.filter (fun r => r.stage == .active)).map TakeRecord.id)
  nodup : (s.eng.takeList.map TakeRecord.id).Nodup
  speed : SpeedState.resting s.speed.state → s.speed.owner = none

/-- A record of the take list is being taken. -/
def TakingAt (id : RecId) (s : State) : Prop := ∃ r ∈ s.eng.takeList, r.id = id ∧ r.stage = .taking

/-- The reader waits for the arming read of a WAIT that is being taken. -/
def ArmingFits (s : State) : Prop := ∀ id a l, s.eng.reader = .taking id a l .arming → TakingAt id s

theorem ownersActive_iff (s : State) : s.ownersActive ↔ Owned [] s ∧ ArmingFits s :=
  ⟨fun ⟨h1, h2, h3, h4, h5⟩ => ⟨⟨h1, h2, h3, h5⟩, h4⟩, fun ⟨h, h4⟩ => ⟨h.owners, h.records, h.nodup, h4, h.speed⟩⟩

/-- How an operation trades the requests `x` for `y`. -/
structure Owns (x y : List (RecId × Block)) (s t : State) : Prop where
  owned : ∀ z, Owned (x ++ z) s → Owned (y ++ z) t
  taking : ∀ z id, Owned (x ++ z) s → TakingAt id s → TakingAt id t
  arming : ∀ id a l, t.eng.reader = .taking id a l .arming → s.eng.reader = .taking id a l .arming

theorem Owns.refl (x : List (RecId × Block)) (s : State) : Owns x x s s :=
  ⟨fun _ => id, fun _ _ _ => id, fun _ _ _ => id⟩

theorem Owns.trans {x y z : List (RecId × Block)} {s t u : State} (h : Owns x y s t) (k : Owns y z t u) :
    Owns x z s u where
  owned w := k.owned w ∘ h.owned w
  taking w id ho := k.taking w id (h.owned w ho) ∘ h.taking w id ho
  arming id a l := h.arming id a l ∘ k.arming id a l

theorem Owns.armingFits {s t : State} {y : List (RecId × Block)} (h : Owns [] y s t) (ho : Owned [] s)
    (ha : ArmingFits s) : ArmingFits t :=
  fun id a l hr => h.taking [] id ho (ha id a l (h.arming id a l hr))

theorem owners_congr {s t : State} (hs : ∀ k, k ≠ 0 → (t.slot k).map WatchSlot.owner = (s.slot k).map WatchSlot.owner)
    (hq : t.queue.map Transfer.owner = s.queue.map Transfer.owner)
    (he : ∀ i, (t.entry i).waiter? = (s.entry i).waiter?)
    (hp : ∀ p, (t.port p).resetRequest? = (s.port p).resetRequest?) (hv : t.speed.owner = s.speed.owner) :
    t.owners = s.owners := by
  have slots : waitSlots.filterMap (fun k => (t.slot k).map (fun w => (w.owner, Block.watchUnit)))
      = waitSlots.filterMap (fun k => (s.slot k).map (fun w => (w.owner, Block.watchUnit))) := by
    refine List.filterMap_congr fun k hk => ?_
    have := congrArg (Option.map (fun q => (q, Block.watchUnit))) (hs k ((mem_waitSlots k).mp hk))
    simpa only [Option.map_map, Function.comp_def] using this
  have queue : t.queue.map (fun x => (x.owner, Block.transferUnit)) = s.queue.map (fun x => (x.owner, Block.transferUnit)) := by
    have := congrArg (List.map (fun q => (q, Block.transferUnit))) hq
    simpa only [List.map_map, Function.comp_def] using this
  unfold State.owners
  rw [slots, queue, hv]
  simp only [he, hp]

theorem TakingAt.of_records {id : RecId} {s t : State} (h : RecordsMove s.eng.takeList t.eng.takeList)
    (hi : TakingAt id s) : TakingAt id t := by
  obtain ⟨r, hr, hid, hs⟩ := hi
  exact ⟨r, h.taking r hr hs, hid, hs⟩

theorem Moves.owns {s t : State} (h : Moves s t) (x : List (RecId × Block)) : Owns x x s t where
  owned z ho :=
    { owners := by
        rw [owners_congr h.slot h.transfers (fun i => (h.entry i).waiter) (fun p => (h.port p).request) h.speedOwner,
          h.active]
        exact ho.owners
      records := by rw [h.active, h.records.active]; exact ho.records
      nodup := h.records.ids.nodup ho.nodup
      speed := fun hr => h.speedOwner.trans (ho.speed (h.speedRests hr)) }
  taking _ _ _ := .of_records h.records
  arming := h.arming

/-! ### All of it -/

/-- What an operation keeps that answers requests and takes none. -/
structure Steps (s t : State) : Prop where
  safe : Safe s t
  queue : QueueKept s t
  owns : Owns [] [] s t

theorem Moves.steps {s t : State} (h : Moves s t) : Steps s t := ⟨h.safe, h.queue, h.owns []⟩

theorem Steps.refl (s : State) : Steps s s := (Moves.refl s).steps

theorem Steps.trans {s t u : State} (h : Steps s t) (k : Steps t u) : Steps s u :=
  ⟨h.safe.trans k.safe, h.queue.trans k.queue, h.owns.trans k.owns⟩

theorem Steps.after {s t u : State} (k : Steps t u) (h : Steps s t) : Steps s u := h.trans k

theorem steps_foldl {α : Type} (f : State → α → State) (h : ∀ t a, Steps t (f t a)) (l : List α) (s : State) :
    Steps s (l.foldl f s) := by
  induction l generalizing s with
  | nil => exact .refl s
  | cons a l ih => exact (h s a).trans (ih _)

/-! ### Completions (R104) -/

theorem Owned.active_nodup {x : List (RecId × Block)} {s : State} (h : Owned x s) :
    (s.eng.active.map ActiveRequest.id).Nodup :=
  h.records.nodup_iff.mpr (h.nodup.sublist (List.filter_sublist.map _))

/-- The records of the take list that have a number are one record. -/
theorem Owned.record_unique {x : List (RecId × Block)} {s : State} (h : Owned x s) {r q : TakeRecord}
    (hr : r ∈ s.eng.takeList) (hq : q ∈ s.eng.takeList) (hid : r.id = q.id) : r = q :=
  List.inj_on_of_nodup_map h.nodup hr hq hid

theorem Owned.mem_active_iff {x : List (RecId × Block)} {s : State} (h : Owned x s) (id : RecId) :
    id ∈ s.eng.active.map ActiveRequest.id ↔ ∃ r ∈ s.eng.takeList, r.id = id ∧ r.stage = .active := by
  rw [h.records.mem_iff]
  simp only [List.mem_map, List.mem_filter, beq_iff_eq]
  exact ⟨fun ⟨r, ⟨hr, hs⟩, hid⟩ => ⟨r, hr, hid, hs⟩, fun ⟨r, hr, hid, hs⟩ => ⟨r, ⟨hr, hs⟩, hid⟩⟩

theorem Owned.not_active_of_taking {x : List (RecId × Block)} {s : State} (h : Owned x s) {id : RecId}
    (ht : TakingAt id s) : id ∉ s.eng.active.map ActiveRequest.id := by
  obtain ⟨r, hr, hid, hs⟩ := ht
  rw [h.mem_active_iff]
  rintro ⟨q, hq, hqid, hqs⟩
  obtain rfl := h.record_unique hr hq (hid.trans hqid.symm)
  simp [hs] at hqs

theorem Owned.owner_active {id : RecId} {b : Block} {x : List (RecId × Block)} {s : State}
    (h : Owned ((id, b) :: x) s) : id ∈ s.eng.active.map ActiveRequest.id := by
  have hm : (id, b) ∈ s.eng.active.map (fun a => (a.id, a.block)) := h.owners.subset (by simp)
  obtain ⟨a, ha, he⟩ := List.mem_map.mp hm
  exact List.mem_map.mpr ⟨a, ha, congrArg Prod.fst he⟩

/-- A record with a number is found by it. -/
theorem find_record {l : List TakeRecord} {id : RecId} (h : id ∈ l.map TakeRecord.id) :
    ∃ r ∈ l, r.id = id ∧ l.find? (fun y => y.id == id) = some r := by
  cases hf : l.find? (fun y => y.id == id) with
  | none =>
    obtain ⟨r, hr, hid⟩ := List.mem_map.mp h
    simpa [hid] using List.find?_eq_none.mp hf r hr
  | some r => exact ⟨r, List.mem_of_find?_eq_some hf, by simpa using List.find?_some hf, rfl⟩

theorem handOver_ids (id : RecId) (c : ResultCode) (rw : Replies) (e : Engine) :
    (e.handOver id c rw).takeList.map TakeRecord.id = e.takeList.map TakeRecord.id := by
  simp only [Engine.handOver, List.map_map]
  refine List.map_congr_left fun r _ => ?_
  simp only [Function.comp_apply]
  split <;> rfl

/-- The records at stage ACTIVE after a hand-over: those of before but the one handed over. -/
theorem handOver_active_records (id : RecId) (c : ResultCode) (rw : Replies) (e : Engine) :
    ((e.handOver id c rw).takeList.filter (fun r => r.stage == .active)).map TakeRecord.id
      = ((e.takeList.filter (fun r => r.stage == .active)).map TakeRecord.id).filter (fun n => n != id) := by
  simp only [Engine.handOver]
  induction e.takeList with
  | nil => rfl
  | cons r l ih =>
    rw [List.map_cons, List.filter_cons, List.filter_cons]
    by_cases hid : r.id = id
    · rw [if_pos hid, if_neg (by simp [TakeRecord.withResult]), ih]
      split <;> simp [hid]
    · rw [if_neg hid]
      split <;> simp [hid, ih]

/-- What a completion does to the engine's lists. -/
theorem complete_lists (id : RecId) (c : ResultCode) (rw : Replies) (s : State) :
    (complete id c rw s).eng.nextId = s.eng.nextId ∧
      (complete id c rw s).eng.takeList.map TakeRecord.id = s.eng.takeList.map TakeRecord.id ∧
      (complete id c rw s).eng.active.map ActiveRequest.id ⊆ s.eng.active.map ActiveRequest.id := by
  unfold complete
  split
  · exact ⟨rfl, rfl, fun _ h => h⟩
  · simp only [appendOps_eng]
    exact ⟨rfl, handOver_ids id c rw s.eng, (List.filter_sublist.map _).subset⟩

theorem safe_complete (id : RecId) (c : ResultCode) (rw : Replies) (s : State) : Safe s (complete id c rw s) := by
  obtain ⟨hn, hl, ha⟩ := complete_lists id c rw s
  exact .of_engine (by simp) (by simp) (by simp) (numbered_of_subset (by rw [hl]; exact fun _ h => h) ha hn)

/-- What a completion does to the engine where the number has a record. -/
theorem complete_engine (id : RecId) (c : ResultCode) (rw : Replies) (s : State)
    (h : id ∈ s.eng.takeList.map TakeRecord.id) :
    ∃ l, (complete id c rw s).eng = { s.eng.handOver id c rw with ops := s.eng.ops ++ l } := by
  obtain ⟨r, _, _, hf⟩ := find_record h
  exact ⟨_, by rw [complete_some id c rw s r hf]⟩

theorem complete_owners (id : RecId) (c : ResultCode) (rw : Replies) (s : State) :
    (complete id c rw s).owners = s.owners :=
  owners_congr (fun k _ => congrArg _ (slot_congr (by simp) k)) (by simp)
    (fun i => congrArg Entry.waiter? (entry_congr (by simp) i))
    (fun p => congrArg Port.resetRequest? (port_congr (by simp) p)) (by simp)

theorem takingAt_complete {id j : RecId} (c : ResultCode) (rw : Replies) {s : State} (hj : j ≠ id) (h : TakingAt j s) :
    TakingAt j (complete id c rw s) := by
  obtain ⟨r, hr, hid, hs⟩ := h
  unfold complete
  split
  · exact ⟨r, hr, hid, hs⟩
  · simp only [TakingAt, appendOps_eng, Engine.handOver]
    exact ⟨r, List.mem_map.mpr ⟨r, hr, if_neg (by rw [hid]; exact hj)⟩, hid, hs⟩

/-- R104: the request of a record being taken completes as an instant request: it was not active. -/
theorem Owned.complete_inactive {id : RecId} {x : List (RecId × Block)} {s : State} (h : Owned x s)
    (hid : id ∉ s.eng.active.map ActiveRequest.id) (c : ResultCode) (rw : Replies) : Owned x (complete id c rw s) := by
  by_cases hm : id ∈ s.eng.takeList.map TakeRecord.id
  · obtain ⟨l, he⟩ := complete_engine id c rw s hm
    have same : s.eng.active.filter (fun a => a.id != id) = s.eng.active := by
      rw [List.filter_eq_self]
      intro a ha
      simpa using fun e => hid (List.mem_map.mpr ⟨a, ha, e⟩)
    have records : ((s.eng.handOver id c rw).takeList.filter (fun r => r.stage == .active)).map TakeRecord.id
        = (s.eng.takeList.filter (fun r => r.stage == .active)).map TakeRecord.id := by
      refine (handOver_active_records id c rw s.eng).trans (List.filter_eq_self.mpr fun n hn => ?_)
      simpa using fun e : n = id => hid (by rw [← e]; exact h.records.mem_iff.mpr hn)
    refine ⟨?_, ?_, ?_, by simpa using h.speed⟩
    · rw [complete_owners, he]
      show List.Perm _ (List.map _ (s.eng.active.filter (fun a => a.id != id)))
      rw [same]
      exact h.owners
    · rw [he]
      show List.Perm (List.map _ (s.eng.active.filter (fun a => a.id != id)))
        (List.map _ (List.filter _ (s.eng.handOver id c rw).takeList))
      rw [same, records]
      exact h.records
    · rw [(complete_lists id c rw s).2.1]
      exact h.nodup
  · rw [complete_none id c rw s]
    · exact h
    · rw [List.find?_eq_none]
      intro r hr
      simpa using fun e : r.id = id => hm (List.mem_map.mpr ⟨r, hr, e⟩)

/-- R104: a long request that its block no longer holds completes and leaves the active table. -/
theorem Owned.complete {id : RecId} {b : Block} {x : List (RecId × Block)} {s : State} (h : Owned ((id, b) :: x) s)
    (c : ResultCode) (rw : Replies) : Owned x (complete id c rw s) := by
  have hm : id ∈ s.eng.takeList.map TakeRecord.id := by
    obtain ⟨r, hr, hid, _⟩ := (h.mem_active_iff id).mp h.owner_active
    exact List.mem_map.mpr ⟨r, hr, hid⟩
  obtain ⟨l, he⟩ := complete_engine id c rw s hm
  have others : ∀ y ∈ x ++ s.owners, y.1 ≠ id := by
    have ids := (h.owners.map Prod.fst).nodup_iff.mpr (by simpa [List.map_map, Function.comp_def] using h.active_nodup)
    rw [List.cons_append, List.map_cons, List.nodup_cons] at ids
    exact fun y hy e => ids.1 (List.mem_map.mpr ⟨y, hy, e⟩)
  refine ⟨?_, ?_, ?_, by simpa using h.speed⟩
  · rw [complete_owners, he]
    show List.Perm _ (List.map _ (s.eng.active.filter (fun a => a.id != id)))
    have left := h.owners.filter (fun y => y.1 != id)
    rw [List.cons_append, List.filter_cons_of_neg (by simp),
      List.filter_eq_self.mpr (fun y hy => by simpa using others y hy), List.filter_map] at left
    exact left
  · rw [he]
    show List.Perm (List.map _ (s.eng.active.filter (fun a => a.id != id)))
      (List.map _ (List.filter _ (s.eng.handOver id c rw).takeList))
    rw [handOver_active_records]
    have left := h.records.filter (fun n => n != id)
    rw [List.filter_map] at left
    exact left
  · rw [(complete_lists id c rw s).2.1]
    exact h.nodup

theorem owns_complete (id : RecId) (b : Block) (c : ResultCode) (rw : Replies) (s : State) :
    Owns [(id, b)] [] s (complete id c rw s) where
  owned _ h := h.complete c rw
  taking _ _ h hj := takingAt_complete c rw (fun e => h.not_active_of_taking hj (e ▸ h.owner_active)) hj
  arming j a l hr := by rw [complete_reader] at hr; exact hr

end Sys2Proof.Proofs
end

