-- ==== Sys2Proof/Proofs/OwnerLists.lean ====
section
/-! PROOF. The operations by which a block gives up a request or takes one over, and those that complete what was given up. -/

namespace Sys2Proof.Proofs

open Sys2Proof.Machine Sys2Proof.Laws

/-! ### The requests that a block holds -/

def slotOwners (w : Option WatchSlot) : List (RecId × Block) := w.toList.map (fun w => (w.owner, .watchUnit))
def queueOwners (l : List Transfer) : List (RecId × Block) := l.map (fun t => (t.owner, .transferUnit))
def entryOwners (e : Entry) : List (RecId × Block) := e.waiter?.toList.map (fun q => (q, .regionTable))
def portOwners (q : Port) : List (RecId × Block) := q.resetRequest?.toList.map (fun q => (q, .agentPorts))
def speedOwners (c : SpeedControl) : List (RecId × Block) := c.owner.toList.map (fun q => (q, .speedControl))

theorem filterMap_toList {α β : Type} (l : List α) (f : α → Option β) :
    l.filterMap f = l.flatMap (fun a => (f a).toList) := by
  induction l with
  | nil => rfl
  | cons a l ih => rw [List.flatMap_cons, ← ih, List.filterMap_cons]; cases f a <;> rfl

/-- R109: the owners, each block's in its order. -/
theorem owners_eq (s : State) :
    s.owners = waitSlots.flatMap (fun k => slotOwners (s.slot k)) ++ queueOwners s.queue
      ++ entryIndices.flatMap (fun i => entryOwners (s.entry i)) ++ portIndices.flatMap (fun p => portOwners (s.port p))
      ++ speedOwners s.speed := by
  have option {α β : Type} (f : α → β) (o : Option α) : (o.map f).toList = o.toList.map f := by cases o <;> rfl
  simp only [State.owners, filterMap_toList, option, slotOwners, queueOwners, entryOwners, portOwners, speedOwners]

/-- Where a family of lists changes at one index, the old list there and the new concatenation make the new list there and the
old concatenation. -/
theorem flatMap_update {α β : Type} {l : List α} (hn : l.Nodup) {k : α} (hk : k ∈ l) {f g : α → List β}
    (h : ∀ j, j ≠ k → g j = f j) : (f k ++ l.flatMap g).Perm (g k ++ l.flatMap f) := by
  obtain ⟨a, b, rfl⟩ := List.append_of_mem hk
  have hab : k ∉ a ∧ k ∉ b := by simp [List.nodup_append, List.nodup_cons] at hn; grind
  have same {m : List α} (hm : k ∉ m) : m.flatMap g = m.flatMap f :=
    List.flatMap_congr fun j hj => h j fun e => hm (e ▸ hj)
  simp only [List.flatMap_append, List.flatMap_cons, same hab.1, same hab.2]
  calc (f k ++ (a.flatMap f ++ (g k ++ b.flatMap f))).Perm (f k ++ (g k ++ (a.flatMap f ++ b.flatMap f))) :=
        List.Perm.append_left _ (List.perm_append_comm_assoc _ _ _)
    _ |>.Perm (g k ++ (f k ++ (a.flatMap f ++ b.flatMap f))) := List.perm_append_comm_assoc _ _ _
    _ |>.Perm (g k ++ (a.flatMap f ++ (f k ++ b.flatMap f))) :=
        List.Perm.append_left _ (List.perm_append_comm_assoc _ _ _)

/-- A change of one block, which gives up the owners `y` and takes over `x`. -/
theorem Owns.of_trade {x y : List (RecId × Block)} {s t : State} (ho : (x ++ s.owners).Perm (y ++ t.owners))
    (hg : t.eng = s.eng) (hv : t.speed = s.speed ∨ (SpeedState.resting t.speed.state → t.speed.owner = none)) :
    Owns x y s t where
  owned z h :=
    { owners := by
        rw [hg]
        refine List.Perm.trans ?_ h.owners
        have := ho.append_left z
        simp only [← List.append_assoc] at this ⊢
        exact ((List.perm_append_comm.append_right _).trans this.symm).trans (List.perm_append_comm.append_right _)
      records := by rw [hg]; exact h.records
      nodup := by rw [hg]; exact h.nodup
      speed := by
        obtain hv | hv := hv
        · rw [hv]; exact h.speed
        · exact hv }
  taking _ _ _ h := by unfold TakingAt; rw [hg]; exact h
  arming _ _ _ h := by rw [hg] at h; exact h

/-- A block's list in the middle of the owners. -/
theorem perm_middle {α : Type} {x y a b b' c : List α} (h : (x ++ b).Perm (y ++ b')) :
    (x ++ (a ++ b ++ c)).Perm (y ++ (a ++ b' ++ c)) := by
  have left := (h.append_left a).append_right c
  simp only [List.append_assoc] at left ⊢
  calc (x ++ (a ++ (b ++ c))).Perm (a ++ (x ++ (b ++ c))) := List.perm_append_comm_assoc _ _ _
    _ |>.Perm (a ++ (y ++ (b' ++ c))) := left
    _ |>.Perm (y ++ (a ++ (b' ++ c))) := List.perm_append_comm_assoc _ _ _

theorem owns_setSlot (s : State) (k : Fin 8) (w : Option WatchSlot) (hk : k ≠ 0) :
    Owns (slotOwners w) (slotOwners (s.slot k)) s (s.setSlot k w) := by
  refine .of_trade ?_ rfl (Or.inl rfl)
  have trade := flatMap_update (l := waitSlots) (by decide) ((mem_waitSlots k).mpr hk)
    (f := fun j => slotOwners (s.slot j)) (g := fun j => slotOwners ((s.setSlot k w).slot j))
    (fun j hj => by rw [slot_setSlot_ne _ _ _ _ (Ne.symm hj)])
  simp only [slot_setSlot_self] at trade
  rw [owners_eq, owners_eq]
  have := perm_middle (a := []) (c := queueOwners s.queue ++ entryIndices.flatMap (fun i => entryOwners (s.entry i))
    ++ portIndices.flatMap (fun p => portOwners (s.port p)) ++ speedOwners s.speed) trade.symm
  simp only [List.nil_append, List.append_assoc] at this ⊢
  exact this

theorem owns_setQueue (s : State) (l : List Transfer) (x y : List (RecId × Block))
    (h : (x ++ queueOwners s.queue).Perm (y ++ queueOwners l)) : Owns x y s { s with queue := l } := by
  refine .of_trade ?_ rfl (Or.inl rfl)
  rw [owners_eq, owners_eq]
  have := perm_middle (a := waitSlots.flatMap (fun k => slotOwners (s.slot k)))
    (c := entryIndices.flatMap (fun i => entryOwners (s.entry i))
      ++ portIndices.flatMap (fun p => portOwners (s.port p)) ++ speedOwners s.speed) h
  simp only [List.append_assoc] at this ⊢
  exact this

theorem owns_setEntry (s : State) (i : Fin 16) (e : Entry) :
    Owns (entryOwners e) (entryOwners (s.entry i)) s (s.setEntry i e) := by
  refine .of_trade ?_ rfl (Or.inl rfl)
  have trade := flatMap_update nodup_entryIndices (mem_entryIndices i) (f := fun j => entryOwners (s.entry j))
    (g := fun j => entryOwners ((s.setEntry i e).entry j)) (fun j hj => by rw [entry_setEntry_ne _ _ _ _ (Ne.symm hj)])
  simp only [entry_setEntry_self] at trade
  rw [owners_eq, owners_eq]
  have := perm_middle (a := waitSlots.flatMap (fun k => slotOwners (s.slot k)) ++ queueOwners s.queue)
    (c := portIndices.flatMap (fun p => portOwners (s.port p)) ++ speedOwners s.speed) trade.symm
  simp only [List.append_assoc] at this ⊢
  exact this

theorem owns_setPort (s : State) (p : Fin 4) (q : Port) :
    Owns (portOwners q) (portOwners (s.port p)) s (s.setPort p q) := by
  refine .of_trade ?_ rfl (Or.inl rfl)
  have trade := flatMap_update (l := portIndices) (by decide) (mem_portIndices p) (f := fun r => portOwners (s.port r))
    (g := fun r => portOwners ((s.setPort p q).port r)) (fun r hr => by rw [port_setPort_ne _ _ _ _ (Ne.symm hr)])
  simp only [port_setPort_self] at trade
  rw [owners_eq, owners_eq]
  have := perm_middle (a := waitSlots.flatMap (fun k => slotOwners (s.slot k)) ++ queueOwners s.queue
    ++ entryIndices.flatMap (fun i => entryOwners (s.entry i))) (c := speedOwners s.speed) trade.symm
  simp only [List.append_assoc] at this ⊢
  exact this

theorem owns_setSpeed (s : State) (c : SpeedControl) (h : SpeedState.resting c.state → c.owner = none) :
    Owns (speedOwners c) (speedOwners s.speed) s { s with speed := c } := by
  refine .of_trade ?_ rfl (Or.inr h)
  rw [owners_eq, owners_eq]
  have := perm_middle (a := waitSlots.flatMap (fun k => slotOwners (s.slot k)) ++ queueOwners s.queue
    ++ entryIndices.flatMap (fun i => entryOwners (s.entry i)) ++ portIndices.flatMap (fun p => portOwners (s.port p)))
    (c := []) (List.perm_append_comm (l₁ := speedOwners c) (l₂ := speedOwners s.speed))
  rw [List.append_nil, List.append_nil] at this
  exact this

end Sys2Proof.Proofs
end

