-- ==== Sys2Proof/Proofs/Completions.lean ====
section
/-! PROOF. The operations that answer requests: retirements of entries, fires and ends of watches, ends of transfers, of
drains and of speed sequences, and what is made of them. -/

namespace Sys2Proof.Proofs

open Sys2Proof.Machine Sys2Proof.Laws

/-- Other requests beside those that an operation trades are left alone. -/
theorem Owns.beside {x y : List (RecId × Block)} {s t : State} (h : Owns x y s t) (w : List (RecId × Block)) :
    Owns (x ++ w) (y ++ w) s t where
  owned z ho := by rw [List.append_assoc] at ho ⊢; exact h.owned _ ho
  taking z id ho := by rw [List.append_assoc] at ho; exact h.taking _ id ho
  arming := h.arming

/-- A block gives up a request, which completes. -/
theorem steps_complete {s u : State} {id : RecId} {b : Block} (hs : Safe s u) (hq : QueueKept s u)
    (ho : Owns [] [(id, b)] s u) (c : ResultCode) (rw : Replies) : Steps s (complete id c rw u) where
  safe := hs.trans (safe_complete id c rw u)
  queue := hq.trans (.of_eq (by simp))
  owns := ho.trans (owns_complete id b c rw u)

theorem steps_raise {s u : State} (h : Steps s u) (e : Event) : Steps s (raise e u) := h.trans (moves_raise e u).steps

/-! ### Entries (R16 to R19) -/

/-- The waiting request of an entry completes as it leaves the entry. -/
theorem steps_completeWaiter (s : State) (i : Fin 16) (e : Entry) (q : RecId) (c : ResultCode) (rw : Replies)
    (hs : EntrySafe (s.entry i) e) (hq : (s.entry i).waiter? = some q) (he : e.waiter? = none) :
    Steps s (complete q c rw (s.setEntry i e)) := by
  refine steps_complete (b := .regionTable) (safe_setEntry s i e hs) (.of_eq rfl) ?_ c rw
  have trade := owns_setEntry s i e
  simpa [entryOwners, hq, he] using trade

theorem setStatus_setInflight (s : State) (i : Fin 16) (n : Nat) (st : EntryStatus) :
    (s.setInflight i n).setStatus i st = s.setEntry i { s.entry i with status := st, inflight := n } := by
  unfold State.setStatus State.setInflight
  rw [entry_setEntry_self]
  simp [State.setEntry]

theorem setEntry_self (s : State) (i : Fin 16) : s.setEntry i (s.entry i) = s := by
  simp [State.setEntry, State.entry]

theorem setInflight_self (s : State) (i : Fin 16) : s.setInflight i (s.entry i).inflight = s := setEntry_self s i

/-- R17: the entry is retired whatever its count has become. -/
theorem steps_retireEntry (i : Fin 16) (n : Nat) (s : State) : Steps s (retireEntry i (s.setInflight i n)) := by
  have counted (h : (s.entry i).isRetiring = false) : Moves s (s.setInflight i n) :=
    moves_setEntry s i _
      { locked := fun _ _ _ _ => rfl
        busy := fun _ hr => by rw [Entry.isRetiring] at h hr; simp [h] at hr
        held := fun _ hp => hp
        waiter := rfl }
  have entry : (s.setInflight i n).entry i = { s.entry i with inflight := n } := entry_setEntry_self _ _ _
  unfold retireEntry
  rw [entry]
  dsimp only
  split
  · next r k c w hs =>
    have freed : EntrySafe (s.entry i) { s.entry i with status := .free (some c), inflight := n } :=
      { locked := fun g v ho => by simp [hs] at ho
        busy := fun _ hr => by simp [Entry.isRetiring] at hr
        held := fun p hp => by simp [Entry.heldBy] at hp }
    simp only [setStatus_setInflight]
    refine (moves_raiseIf _ _ _).steps.after ?_
    cases w with
    | none => exact (moves_setEntry s i _
        { locked := freed.locked, busy := freed.busy, held := freed.held, waiter := by simp [Entry.waiter?, hs] }).steps
    | some w => exact steps_completeWaiter s i _ _ _ _ freed (by simp [Entry.waiter?, hs]) rfl
  · next hs => exact (counted (by simp [Entry.isRetiring, hs])).steps
  · next hs => exact (counted (by simp [Entry.isRetiring, hs])).steps
  · next hs => exact (counted (by simp [Entry.isRetiring, hs])).steps

theorem steps_settleEntry (i : Fin 16) (s : State) : Steps s (settleEntry i s) := by
  unfold settleEntry
  split
  · conv => arg 2; rw [← setInflight_self s i]
    exact steps_retireEntry i _ s
  · exact .refl s

theorem steps_countOut (e : Option (Fin 16)) (s : State) : Steps s (countOut e s) := by
  cases e with
  | none => exact .refl s
  | some i =>
    show Steps s (settleEntry i _)
    unfold settleEntry
    have entry (n : Nat) : (s.setInflight i n).entry i = { s.entry i with inflight := n } := entry_setEntry_self _ _ _
    simp only [entry]
    split
    · exact steps_retireEntry i _ s
    · next hn =>
      exact (moves_setEntry s i { s.entry i with inflight := (s.entry i).inflight - 1 }
        { locked := fun _ _ _ _ => rfl, busy := fun _ _ => Nat.pos_of_ne_zero hn, held := fun _ hp => hp
          waiter := rfl }).steps

theorem steps_cancelWaiter (i : Fin 16) (s : State) : Steps s (cancelWaiter i s) := by
  unfold cancelWaiter
  split
  · next r k c w hs =>
    exact steps_completeWaiter s i _ _ _ _
      { locked := fun g v ho => by simp [hs] at ho
        busy := fun hb _ => hb (by simp [Entry.isRetiring, hs])
        held := fun p hp => by simp [Entry.heldBy] at hp } (by simp [Entry.waiter?, hs]) rfl
  all_goals exact .refl s

/-! ### Watches (R59 to R68) -/

theorem safe_setSlot (s : State) (k : Fin 8) (w : Option WatchSlot) (h : k ≠ 0 ∨ slotNotWaiting w = true) :
    Safe s (s.setSlot k w) := by
  refine .of_parts (fun _ => (EntryMoves.refl _).safe) (fun _ => id) id (fun hz => ?_) id id
  unfold State.slotZeroMatching at hz ⊢
  obtain hk | hw := h
  · rwa [slot_setSlot_ne _ _ _ _ hk]
  · by_cases hk : k = 0
    · rw [hk, slot_setSlot_self]; exact hw
    · rwa [slot_setSlot_ne _ _ _ _ hk]

theorem owns_freeSlot (s : State) (k : Fin 8) (w : WatchSlot) (hk : k ≠ 0) (hw : s.slot k = some w) :
    Owns [] [(w.owner, .watchUnit)] s (s.setSlot k none) := by
  simpa [slotOwners, hw] using owns_setSlot s k none hk

theorem steps_fireWait (k : Fin 8) (w : WatchSlot) (v : Word) (s : State) (hk : k ≠ 0) (hw : s.slot k = some w) :
    Steps s (fireWait k w v s) := by
  have released := moves_watchRelease w.release (s.setSlot k none)
  have queue : QueueKept s (s.setSlot k none) := .of_eq rfl
  have owns := (owns_freeSlot s k w hk hw).trans (released.owns [(w.owner, .watchUnit)])
  refine steps_raise (steps_complete ?_ (queue.trans released.queue) owns _ _) _
  exact (safe_setSlot s k none (Or.inl hk)).trans released.safe

theorem steps_dropSlot (k : Fin 8) (w : WatchSlot) (c : ResultCode) (s : State) (hk : k ≠ 0) (hw : s.slot k = some w) :
    Steps s (dropSlot k w c s) :=
  steps_complete (safe_setSlot s k none (Or.inl hk)) (.of_eq rfl) (owns_freeSlot s k w hk hw) _ _

/-- A slot goes on for its owner. -/
theorem moves_setMatching (s : State) (k : Fin 8) (w : WatchSlot) (hw : s.slot k = some w) :
    Moves s (s.setSlot k (some { w with armed := .matching })) := by
  refine { Moves.refl s with slot := fun j _ => ?_, slotZero := (safe_setSlot s k _ (Or.inr rfl)).slotZero }
  by_cases hj : k = j
  · subst hj; rw [slot_setSlot_self, hw]; rfl
  · rw [slot_setSlot_ne _ _ _ _ hj]

theorem steps_evaluateSlot (a : Nat) (v : Word) (s : State) (k : Fin 8) : Steps s (evaluateSlot a v s k) := by
  unfold evaluateSlot
  split
  · exact .refl s
  · next w hw =>
    split
    · split
      · exact .refl s
      · split
        · exact (moves_fireChainWatch v s).steps
        · next hk => exact steps_fireWait k w v s hk hw
      · exact (moves_setMatching s k w hw).steps
      · exact .refl s
    · exact .refl s

theorem steps_evaluate (a : Nat) (ws : List Word) (s : State) : Steps s (evaluate a ws s) := by
  induction ws generalizing a s with
  | nil => exact .refl s
  | cons v vs ih => exact (steps_foldl _ (steps_evaluateSlot a v) slotIndices s).trans (ih _ _)

theorem moves_store (s : State) (a : Nat) (ws : List Word) : Moves s (s.store a ws) := .of_eq rfl rfl rfl rfl rfl rfl

theorem steps_storeAndEvaluate (a : Nat) (ws : List Word) (s : State) : Steps s (storeAndEvaluate a ws s) :=
  (moves_store s a ws).steps.trans (steps_evaluate a ws _)

theorem steps_timeoutSlot (k : Fin 8) (s : State) (hk : k ≠ 0) : Steps s (timeoutSlot k s) := by
  unfold timeoutSlot
  split
  · exact .refl s
  · next w hw =>
    split
    · exact steps_dropSlot k w _ s hk hw
    · exact .refl s

theorem steps_cancelWait (id : RecId) (s : State) : Steps s (cancelWait id s) := by
  unfold cancelWait
  split
  · exact .refl s
  · next k hk =>
    split
    · exact .refl s
    · next w hw => exact steps_dropSlot k w _ s ((mem_waitSlots k).mp (List.mem_of_find?_eq_some hk)) hw

/-! ### Transfers (R81 to R93) -/

theorem owns_finishTransfer (id : RecId) (c : ResultCode) (rw : Replies) (s : State) :
    Owns [(id, .transferUnit)] [] s (finishTransfer id c rw s) :=
  (owns_complete id _ c rw s).trans ((moves_dropTransfer id _).owns [])

theorem safe_finishTransfer (id : RecId) (c : ResultCode) (rw : Replies) (s : State) :
    Safe s (finishTransfer id c rw s) :=
  (safe_complete id c rw s).trans (moves_dropTransfer id _).safe

theorem finishTransfer_setQueue (id : RecId) (c : ResultCode) (rw : Replies) (s : State) (l : List Transfer) :
    finishTransfer id c rw { s with queue := l } = { finishTransfer id c rw s with queue := l } := by
  unfold finishTransfer complete
  dsimp only
  split <;> rfl

theorem applyDecision_setQueue (dec : Decision) (p : Fin 4) (tr : Bool) (d : Dir) (a : Word) (s : State)
    (l : List Transfer) :
    applyDecision dec p tr d a { s with queue := l } = { applyDecision dec p tr d a s with queue := l } := by
  cases dec with
  | allowed c e => cases e <;> rfl
  | denied r => cases r <;> rfl

/-- The run of a queue does not look at the queue that the unit holds, which it replaces. -/
theorem runQueue_setQueue (q l : List Transfer) (s : State) : runQueue q { s with queue := l } = runQueue q s := by
  induction q generalizing s with
  | nil => rfl
  | cons t rest ih =>
    unfold runQueue
    dsimp only
    rw [show State.lookup { s with queue := l } = s.lookup from rfl]
    split
    · rw [applyDecision_setQueue]
    · rw [applyDecision_setQueue, finishTransfer_setQueue, ih]

/-- The head of the queue has ended: it leaves the queue and its request completes. -/
theorem owns_endHead (s : State) (t : Transfer) (rest : List Transfer) (id : RecId) (c : ResultCode) (rw : Replies)
    (hq : s.queue = t :: rest) (hid : id = t.owner) :
    Owns [] [] s { finishTransfer id c rw s with queue := rest } := by
  rw [← finishTransfer_setQueue]
  refine (owns_setQueue s rest [] [(id, .transferUnit)] ?_).trans (owns_finishTransfer id c rw _)
  rw [hq, hid]
  exact List.Perm.refl _

/-- R81, R88: a run of the queue that the unit holds gives up the requests of the transfers that a denial ends. -/
theorem owns_runQueue (q : List Transfer) (s : State) (hq : s.queue = q) : Owns [] [] s (runQueue q s) := by
  induction q generalizing s with
  | nil => rw [show runQueue [] s = s by unfold runQueue; rw [← hq]]; exact .refl _ s
  | cons t rest ih =>
    unfold runQueue
    dsimp only
    split
    · refine ((moves_setHead _ t _ rest (by simpa using hq) ?_ ?_).after (moves_applyDecision _ _ _ _ _ s)).owns []
      · rfl
      · exact fun _ => by simp
    · rw [← runQueue_setQueue rest rest]
      refine Owns.trans ?_ (ih _ rfl)
      exact ((moves_applyDecision _ _ _ _ _ s).owns []).trans (owns_endHead _ t rest _ _ _ (by simpa using hq) rfl)

theorem safe_setQueue (s : State) (l : List Transfer) : Safe s { s with queue := l } := .of_engine rfl rfl rfl id

theorem safe_runQueue (q : List Transfer) (s : State) : Safe s (runQueue q s) := by
  induction q generalizing s with
  | nil => exact safe_setQueue s []
  | cons t rest ih =>
    unfold runQueue
    dsimp only
    split
    · exact (moves_applyDecision _ _ _ _ _ s).safe.trans (safe_setQueue _ _)
    · exact (moves_applyDecision _ _ _ _ _ s).safe.trans ((safe_finishTransfer _ _ _ _).trans (ih _))

/-- R76: what a run leaves in the queue: transfers of the list, in order if those behind its head are WAITING. -/
theorem runQueue_queue (q : List Transfer) (s : State) :
    (runQueue q s).queue.length ≤ q.length ∧
      ((∀ x ∈ q.tail, x.state = .waiting) → inOrder (runQueue q s).queue) := by
  induction q generalizing s with
  | nil => simp [runQueue, inOrder]
  | cons t rest ih =>
    unfold runQueue
    dsimp only
    split
    · exact ⟨by simp, fun h => ⟨by simp, h⟩⟩
    · obtain ⟨hl, ho⟩ := ih _
      exact ⟨hl.trans (by simp), fun h => ho fun x hx => h x (List.mem_of_mem_tail hx)⟩

/-- A run of the transfers behind the head, or of the head with those behind it. -/
theorem queueKept_runQueue {s u : State} {t : Transfer} {rest q : List Transfer} (hs : s.queue = t :: rest)
    (hl : q.length ≤ (t :: rest).length) (hq : ∀ x ∈ q.tail, x ∈ rest) : QueueKept s (runQueue q u) where
  length h := by
    rw [hs] at h
    exact (runQueue_queue q u).1.trans (hl.trans h)
  ordered h := by
    rw [queueOrdered_iff, hs] at h
    exact (queueOrdered_iff _).mpr ((runQueue_queue q u).2 fun x hx => h.2 x (hq x hx))

theorem steps_endHead (s : State) (t : Transfer) (rest : List Transfer) (id : RecId) (c : ResultCode) (rw : Replies)
    (hq : s.queue = t :: rest) (hid : id = t.owner) : Steps s (runQueue rest (finishTransfer id c rw s)) where
  safe := (safe_finishTransfer id c rw s).trans (safe_runQueue rest _)
  queue := queueKept_runQueue hq (by simp) fun _ => List.mem_of_mem_tail
  owns := by
    rw [← runQueue_setQueue rest rest]
    exact (owns_endHead s t rest id c rw hq hid).trans (owns_runQueue rest _ rfl)

/-- R84 to R87, R91: after a burst of the head `t`, which stands as `u` with its work counted. -/
theorem steps_afterBurst (s : State) (t u : Transfer) (fin : Bool) (rest : List Transfer) (hq : s.queue = t :: rest)
    (ho : u.owner = t.owner) (hu : u.state = t.state) : Steps s (afterBurst u fin rest s) := by
  unfold afterBurst
  split
  · exact steps_endHead s t rest _ _ _ hq ho
  split
  · exact steps_endHead s t rest _ _ _ hq ho
  · have head : Moves s { s with queue := u :: rest } := moves_setHead s t u rest hq ho fun h => hu ▸ h
    exact
      { safe := safe_runQueue _ s
        queue := queueKept_runQueue hq le_rfl fun _ => id
        owns := by
          rw [← runQueue_setQueue (u :: rest) (u :: rest)]
          exact (head.owns []).trans (owns_runQueue _ _ rfl) }

/-- The head's burst, counted out of its entry, with what it writes. -/
theorem steps_fillBurstDone (t : Transfer) (b : Burst) (v : Word) (rest : List Transfer) (s : State)
    (hq : s.queue = t :: rest) : Steps s (fillBurstDone t b v rest s) :=
  ((steps_countOut b.entry s).trans (steps_storeAndEvaluate _ _ _)).trans
    (steps_afterBurst _ t _ _ rest (by simpa using hq) rfl rfl)

theorem steps_copyReadDone (t : Transfer) (b : Burst) (rest : List Transfer) (s : State) (hq : s.queue = t :: rest) :
    Steps s (copyReadDone t b rest s) :=
  (steps_countOut b.entry s).trans (steps_afterBurst _ t _ _ rest (by simpa using hq) rfl rfl)

theorem steps_copyWriteDone (t : Transfer) (b : Burst) (rest : List Transfer) (s : State) (hq : s.queue = t :: rest) :
    Steps s (copyWriteDone t b rest s) :=
  ((steps_countOut b.entry s).trans (steps_storeAndEvaluate _ _ _)).trans
    (steps_afterBurst _ t _ _ rest (by simpa using hq) rfl rfl)

theorem steps_scanBurstDone (t : Transfer) (b : Burst) (v m : Word) (rest : List Transfer) (s : State)
    (hq : s.queue = t :: rest) : Steps s (scanBurstDone t b v m rest s) :=
  (steps_countOut b.entry s).trans (steps_afterBurst _ t _ _ rest (by simpa using hq) rfl rfl)

theorem grantedBurst_queue {s : State} {t : Transfer} {b : Burst} {rest : List Transfer}
    (h : s.grantedBurst = some (t, b, rest)) : s.queue = t :: rest := by
  unfold State.grantedBurst at h
  split at h
  · next x l _ hq =>
    cases hb : x.burst <;> simp [hb] at h
    rw [hq, h.1, h.2.2]
  · cases h

theorem steps_fillBurst (s : State) : Steps s (fillBurst s) := by
  have idle := (moves_setHolder none s).steps
  unfold fillBurst
  split
  · next _ _ t b rest hb =>
    split
    · exact idle.trans (steps_fillBurstDone t b _ rest _ (grantedBurst_queue (s := s) hb))
    all_goals exact .refl s
  · exact idle.trans (steps_storeAndEvaluate _ _ _)
  · exact .refl s

theorem steps_copyReadBurst (s : State) : Steps s (copyReadBurst s) := by
  have idle := (moves_setHolder none s).steps
  unfold copyReadBurst
  split
  · next _ _ t b rest hb =>
    split
    · exact idle.trans (steps_copyReadDone t b rest _ (grantedBurst_queue (s := s) hb))
    · exact .refl s
  · exact idle
  · exact .refl s

theorem steps_copyWriteBurst (s : State) : Steps s (copyWriteBurst s) := by
  have idle := (moves_setHolder none s).steps
  unfold copyWriteBurst
  split
  · next _ _ t b rest hb =>
    split
    · exact idle.trans (steps_copyWriteDone t b rest _ (grantedBurst_queue (s := s) hb))
    · exact .refl s
  · exact idle.trans (steps_storeAndEvaluate _ _ _)
  · exact .refl s

theorem steps_scanBurst (s : State) : Steps s (scanBurst s) := by
  have idle := (moves_setHolder none s).steps
  unfold scanBurst
  split
  · next _ _ t b rest hb =>
    split
    · exact idle.trans (steps_scanBurstDone t b _ _ rest _ (grantedBurst_queue (s := s) hb))
    all_goals exact .refl s
  · exact idle
  · exact .refl s

/-- The transfers `l`, which the queue has given up, end with a code and reply words of their own. -/
theorem owns_finishAll (c : ResultCode) (f : Transfer → Replies) (l : List Transfer) (s : State) :
    Owns (queueOwners l) [] s (l.foldl (fun u x => finishTransfer x.owner c (f x) u) s) := by
  induction l generalizing s with
  | nil => exact .refl _ s
  | cons x l ih => exact ((owns_finishTransfer x.owner c (f x) s).beside (queueOwners l)).trans (ih _)

theorem safe_finishAll (c : ResultCode) (f : Transfer → Replies) (l : List Transfer) (s : State) :
    Safe s (l.foldl (fun u x => finishTransfer x.owner c (f x) u) s) := by
  induction l generalizing s with
  | nil => exact .refl s
  | cons x l ih => exact (safe_finishTransfer _ _ _ s).trans (ih _)

/-- R91: the queue after a cancellation. -/
def cancelledQueue (hit : Transfer → Bool) (l : List Transfer) : List Transfer :=
  (l.filter (fun t => !(hit t && t.isWaiting))).map (fun t => if hit t then t.stop else t)

theorem cancelTransfers_queue (hit : Transfer → Bool) (s : State) :
    (cancelTransfers hit s).queue = cancelledQueue hit s.queue := by
  unfold cancelTransfers
  exact foldl_keeps (fun t : State => t.queue) (fun t x => by simp) _ _

/-- The owners of the transfers that stay and of those that are cancelled at once. -/
theorem cancelledQueue_owners (hit : Transfer → Bool) (l : List Transfer) :
    (queueOwners l).Perm
      (queueOwners (l.filter (fun t => hit t && t.isWaiting)) ++ queueOwners (cancelledQueue hit l)) := by
  have stay : queueOwners (cancelledQueue hit l) = queueOwners (l.filter (fun t => !(hit t && t.isWaiting))) := by
    unfold queueOwners cancelledQueue
    rw [List.map_map]
    refine List.map_congr_left fun t _ => ?_
    simp only [Function.comp_apply]
    split <;> rfl
  rw [stay]
  unfold queueOwners
  rw [← List.map_append]
  exact (List.filter_append_perm _ l).symm.map _

/-- R76: a cancellation leaves the head RUNNING or STOPPING and those behind it WAITING. -/
theorem cancelledQueue_inOrder (hit : Transfer → Bool) (l : List Transfer) (h : inOrder l) :
    inOrder (cancelledQueue hit l) := by
  cases l with
  | nil => exact h
  | cons t rest =>
    obtain ⟨ht, hrest⟩ := h
    unfold cancelledQueue
    rw [List.filter_cons_of_pos (by simp [Transfer.isWaiting, ht]), List.map_cons]
    constructor
    · split
      · simp [Transfer.stop]
      · exact ht
    · intro x hx
      obtain ⟨y, hy, rfl⟩ := List.mem_map.mp hx
      obtain ⟨hmem, hstay⟩ := List.mem_filter.mp hy
      have waits := hrest y hmem
      have : hit y = false := by simpa [Transfer.isWaiting, waits] using hstay
      rw [if_neg (by simp [this])]
      exact waits

theorem steps_cancelTransfers (hit : Transfer → Bool) (s : State) : Steps s (cancelTransfers hit s) where
  safe := (safe_setQueue s _).trans (safe_finishAll _ _ _ _)
  queue :=
    { length := fun h => by
        rw [cancelTransfers_queue, cancelledQueue, List.length_map]
        exact (List.length_filter_le _ _).trans h
      ordered := fun h => by
        rw [queueOrdered_iff, cancelTransfers_queue]
        exact cancelledQueue_inOrder hit _ ((queueOrdered_iff s).mp h) }
  owns := (owns_setQueue s _ [] _ (cancelledQueue_owners hit _)).trans (owns_finishAll _ _ _ _)

end Sys2Proof.Proofs
end

