-- ==== Sys2Proof/Proofs/Sequences.lean ====
section
/-! PROOF. Port actions, speed sequences, and the takes of the requests. -/

namespace Sys2Proof.Proofs

open Sys2Proof.Machine Sys2Proof.Laws

/-! ### Ports (R129, R135 to R138) -/

theorem steps_accessStore (a : AccessReq) (s : State) : Steps s (accessStore a s) := by
  unfold accessStore
  split
  · exact .refl s
  · exact steps_storeAndEvaluate _ _ s

/-- The outstanding list of a port changes and does not grow. -/
theorem moves_setOutstanding (p : Fin 4) (l : List Access) (s : State) (h : l.length = (s.port p).outstanding.length) :
    Moves s (s.setPort p { s.port p with outstanding := l }) :=
  moves_setPort s p _ ⟨Or.inl rfl, fun ho => by rw [h]; exact ho⟩

theorem steps_portAccessDone (p : Fin 4) (s : State) : Steps s (portAccessDone p s) := by
  unfold portAccessDone
  split
  · exact .refl s
  · next a e _ =>
    refine ((moves_answer p _).after (moves_setOutstanding p _ _ ?_)).steps.after
      ((steps_countOut e s).trans (steps_accessStore a _))
    simp

theorem steps_accessDone (s : State) : Steps s (accessDone s) := by
  unfold accessDone
  split
  · exact (moves_setHolder none s).steps.trans (steps_portAccessDone _ _)
  · exact .refl s

theorem steps_withdrawPort (p : Fin 4) (s : State) : Steps s (withdrawPort p s) :=
  (steps_foldl _ (fun t e => steps_countOut e t) _ _).after
    ((moves_setPass _ _ _).after (moves_setOutstanding p _ s (by simp))).steps

/-- The state of a port other than port 0 changes and is not DISABLED then. -/
theorem safe_setPortState (p : Fin 4) (st : PortState) (s : State) (hp : s.portZeroActive → p ≠ 0) (hst : st ≠ .disabled) :
    Safe s (setPortState p st s) := by
  have port (r : Fin 4) : (setPortState p st s).port r = if p = r then { s.port p with state := st } else s.port r :=
    port_setPort s p r _
  refine .of_parts (fun _ => (EntryMoves.refl _).safe) (fun r hd => ?_) (fun hz => ?_) id (fun ho r => ?_) id
  · rw [port] at hd
    split at hd
    · exact absurd hd hst
    · exact hd
  · rw [State.portZeroActive, port, if_neg (hp hz)]
    exact hz
  · rw [port]
    split
    · exact ho p
    · exact ho r

theorem steps_drainPort (p : Fin 4) (s : State) : Steps s (drainPort p s) := by
  unfold drainPort
  split
  · next r hr =>
    split
    · have back : r.former.back ≠ .disabled := by cases r.former <;> simp [FormerState.back]
      have ends : Owns [] [(r.request, .agentPorts)] s (setPortState p r.former.back s) := by
        have trade := owns_setPort s p { s.port p with state := r.former.back }
        have none : portOwners { s.port p with state := r.former.back } = [] := by cases r.former <;> rfl
        rw [none, show portOwners (s.port p) = [(r.request, .agentPorts)] by simp [portOwners, Port.resetRequest?, hr]]
          at trade
        exact trade
      refine steps_raise (steps_complete (safe_setPortState p _ s ?_ back) (.of_eq rfl) ends _ _) _
      rintro hz rfl
      simp [State.portZeroActive, hr] at hz
    · exact .refl s
  all_goals exact .refl s

/-! ### Speed sequences (R165 to R169) -/

/-- Speed control changes, its owner set aside. -/
theorem safe_setSpeed (s : State) (c : SpeedControl) : Safe s { s with speed := c } := .of_engine rfl rfl rfl id

/-- R161: a step of a sequence, which goes on for its owner. -/
theorem moves_setSpeed (s : State) (c : SpeedControl) (ho : c.owner = s.speed.owner)
    (hr : SpeedState.resting c.state → SpeedState.resting s.speed.state) : Moves s { s with speed := c } :=
  { Moves.refl s with speedOwner := ho, speedRests := hr }

/-- R169: the end of a sequence with speed control as `v` leaves it: its request completes, if it has one. -/
theorem steps_finishSpeed (s : State) (v : SpeedControl) (c : ResultCode) (rw : Replies) (hv : v.owner = s.speed.owner) :
    Steps s (finishSpeed c rw { s with speed := v }) := by
  unfold finishSpeed
  dsimp only
  split
  · next ho =>
    refine ⟨safe_setSpeed s v, .of_eq rfl, ?_⟩
    have trade := owns_setSpeed s v fun _ => ho
    simpa [speedOwners, ho, ← hv] using trade
  · next id ho =>
    have trade := owns_setSpeed s { v with owner := none } fun _ => rfl
    rw [show speedOwners s.speed = [(id, .speedControl)] by simp [speedOwners, ← hv, ho]] at trade
    refine steps_raise (steps_complete ?_ ?_ trade _ _) _
    · exact safe_setSpeed s _
    · exact .of_eq rfl

theorem steps_endLocking (b : Bool) (s : State) : Steps s (endLocking b s) := by
  unfold endLocking
  split
  · split
    · exact Moves.steps { Moves.refl s with speedRests := by simp [SpeedState.resting] }
    · exact steps_finishSpeed s s.speed.settleBase _ _ rfl
  · exact .refl s

theorem steps_endLowering (s : State) : Steps s (endLowering s) := by
  unfold endLowering
  split
  · exact steps_finishSpeed s { s.speed with state := .base, timer := none, demoted := 0 } _ _ rfl
  · exact .refl s

theorem steps_switchUpDone (s : State) : Steps s (switchUpDone s) := by
  unfold switchUpDone
  split
  · exact (moves_setHolder none s).steps.trans
      (steps_finishSpeed (setHolder none s) { s.speed with state := .full, iface := .full } _ _ rfl)
  · exact .refl s

theorem moves_switchDownDone (s : State) : Moves s (switchDownDone s) := by
  unfold switchDownDone
  split
  · exact (moves_setHolder none _).after (moves_setSpeed s _ rfl (by simp [SpeedState.resting]))
  · exact .refl s

theorem moves_endRaising (s : State) : Moves s (endRaising s) := by
  unfold endRaising
  split
  · exact moves_setSpeed s _ rfl (by simp [SpeedState.resting])
  · exact .refl s

/-! ### What every command keeps -/

/-- The invariants that every command keeps, and the locked windows. -/
structure Keeps (s t : State) : Prop where
  locked : ∀ i r w, s.lockedAt i r w → t.lockedAt i r w
  busy : s.retiringBusy → t.retiringBusy
  holders : s.holdersPresent → t.holdersPresent
  portZero : s.portZeroActive → t.portZeroActive
  slotZero : s.slotZeroMatching → t.slotZeroMatching
  lists : s.listsBounded → t.listsBounded
  ordered : s.queueOrdered → t.queueOrdered
  numbered : s.numbered → t.numbered

theorem Keeps.trans {s t u : State} (h : Keeps s t) (k : Keeps t u) : Keeps s u where
  locked i r w := k.locked i r w ∘ h.locked i r w
  busy := k.busy ∘ h.busy
  holders := k.holders ∘ h.holders
  portZero := k.portZero ∘ h.portZero
  slotZero := k.slotZero ∘ h.slotZero
  lists := k.lists ∘ h.lists
  ordered := k.ordered ∘ h.ordered
  numbered := k.numbered ∘ h.numbered

theorem Safe.keeps {s t : State} (h : Safe s t) (hq : QueueKept s t) : Keeps s t where
  locked := h.locked
  busy := h.busy
  holders hh i p hp hd := hh i p (h.held i p hp) (h.disabled p hd)
  portZero := h.portZero
  slotZero := h.slotZero
  lists hl := ⟨hq.length hl.1, h.outstanding hl.2⟩
  ordered := hq.ordered
  numbered := h.numbered

theorem Steps.keeps {s t : State} (h : Steps s t) : Keeps s t := h.safe.keeps h.queue

theorem Moves.keeps {s t : State} (h : Moves s t) : Keeps s t := h.steps.keeps

/-! ### Instant and long requests (R102, R104, R109) -/

/-- The take of `id` comes to end with its RESULT write: the reader then waits for no arming read of it. -/
theorem endsAt_result {r : Reader} {id j : RecId} {a l : Word} (h : r.endsAt id .result = .taking j a l .arming) :
    j ≠ id ∧ r = .taking j a l .arming := by
  cases r with
  | taking i b m e =>
    simp only [Reader.endsAt] at h
    split at h
    · cases h
    · next hi => cases h; exact ⟨hi, rfl⟩
  | _ => cases h

theorem moves_setTakeEnd_result (id : RecId) (s : State) : Moves s (setTakeEnd id .result s) :=
  moves_engine s _ rfl rfl rfl fun _ _ _ h => (endsAt_result h).2

theorem safe_instant (id : RecId) (c : ResultCode) (rw : Replies) (s : State) : Safe s (instant id c rw s) :=
  (moves_setTakeEnd_result id s).safe.trans (safe_complete id c rw _)

theorem keeps_instant (id : RecId) (c : ResultCode) (rw : Replies) (s : State) : Keeps s (instant id c rw s) :=
  (safe_instant id c rw s).keeps (.of_eq (by simp))

/-- An instant request was in no table and owned by no block. -/
theorem owned_instant {id : RecId} {s : State} (c : ResultCode) (rw : Replies) (h : Owned [] s) (ht : TakingAt id s)
    (ha : ArmingFits s) : Owned [] (instant id c rw s) ∧ ArmingFits (instant id c rw s) := by
  have ended := (moves_setTakeEnd_result id s).owns []
  have h' : Owned [] (setTakeEnd id .result s) := ended.owned [] h
  refine ⟨h'.complete_inactive (h'.not_active_of_taking (ended.taking [] id h ht)) c rw, fun j a l hr => ?_⟩
  rw [instant, complete_reader] at hr
  obtain ⟨hj, hs⟩ := endsAt_result hr
  exact takingAt_complete c rw hj (ended.taking [] j h (ha j a l hs))

/-- What a long request's entry into the active table does to the engine. -/
theorem enterActive_engine {id : RecId} (b : Block) {s : State} {r : TakeRecord}
    (hr : s.eng.takeList.find? (fun y => y.id == id) = some r) :
    (enterActive id b s).eng =
      { s.eng with
        active := s.eng.active ++ [{ id := id, code := r.code, tag := r.tag, block := b }]
        takeList := s.eng.takeList.map (fun r => if r.id = id then { r with stage := .active } else r) } := by
  simp only [enterActive, Engine.enterActive, Engine.record?]
  rw [hr]

theorem activated_ids (id : RecId) (l : List TakeRecord) :
    (l.map (fun r => if r.id = id then { r with stage := Stage.active } else r)).map TakeRecord.id
      = l.map TakeRecord.id := by
  rw [List.map_map]
  refine List.map_congr_left fun r _ => ?_
  simp only [Function.comp_apply]
  split <;> rfl

theorem safe_enterActive (id : RecId) (b : Block) (s : State) : Safe s (enterActive id b s) := by
  refine .of_engine rfl rfl rfl fun h => ?_
  cases hf : s.eng.takeList.find? (fun y => y.id == id) with
  | none =>
    have same : (enterActive id b s).eng = s.eng := by simp only [enterActive, Engine.enterActive, Engine.record?, hf]
    rw [numbered_iff, same, ← numbered_iff]
    exact h
  | some r =>
    rw [numbered_iff] at h ⊢
    rw [enterActive_engine b hf]
    refine ⟨by rw [activated_ids]; exact h.1, fun n hn => ?_⟩
    rw [List.map_append, List.mem_append] at hn
    obtain hn | hn := hn
    · exact h.2 n hn
    · have hid : r.id = id := by simpa using List.find?_some hf
      refine h.1 n (List.mem_map.mpr ⟨r, List.mem_of_find?_eq_some hf, ?_⟩)
      simp only [List.map_cons, List.map_nil, List.mem_singleton] at hn
      exact hid.trans hn.symm

/-- The request of a record being taken enters the active table, and a block has still to take it over. -/
theorem owned_enterActive {id : RecId} (b : Block) {s : State} (h : Owned [] s) (ht : TakingAt id s) :
    Owned [(id, b)] (enterActive id b s) := by
  obtain ⟨q, hq, hqid, hqs⟩ := ht
  obtain ⟨r, _, _, hf⟩ := find_record (List.mem_map.mpr ⟨q, hq, hqid⟩)
  have he := enterActive_engine b hf
  obtain ⟨l₁, l₂, hl⟩ := List.append_of_mem hq
  have others : (∀ x ∈ l₁, x.id ≠ id) ∧ ∀ x ∈ l₂, x.id ≠ id := by
    have hn := h.nodup
    rw [hl, List.map_append, List.map_cons, List.nodup_append, List.nodup_cons] at hn
    obtain ⟨_, ⟨hq2, _⟩, hd⟩ := hn
    exact ⟨fun x hx e => hd _ (List.mem_map.mpr ⟨x, hx, rfl⟩) _ List.mem_cons_self (e.trans hqid.symm),
      fun x hx e => hq2 (List.mem_map.mpr ⟨x, hx, e.trans hqid.symm⟩)⟩
  have same {m : List TakeRecord} (hm : ∀ x ∈ m, x.id ≠ id) :
      m.map (fun r => if r.id = id then { r with stage := Stage.active } else r) = m := by
    conv_rhs => rw [← List.map_id m]
    exact List.map_congr_left fun x hx => if_neg (hm x hx)
  refine ⟨?_, ?_, ?_, h.speed⟩
  · rw [he, show (enterActive id b s).owners = s.owners from rfl, List.map_append]
    exact (h.owners.cons _).trans (List.perm_append_singleton _ _).symm
  · have old := h.records
    have new : s.eng.takeList.map (fun r => if r.id = id then { r with stage := Stage.active } else r)
        = l₁ ++ { q with stage := .active } :: l₂ := by
      rw [hl, List.map_append, List.map_cons, same others.1, same others.2, if_pos hqid]
    rw [hl, List.filter_append, List.filter_cons_of_neg (by simp [hqs]), List.map_append] at old
    rw [he]
    dsimp only
    rw [new, List.filter_append, List.filter_cons_of_pos (by simp), List.map_append, List.map_append, List.map_cons]
    exact ((List.perm_append_singleton _ _).trans ((old.cons id).trans (by rw [hqid]; exact List.perm_middle.symm)))
  · rw [he]
    dsimp only
    rw [activated_ids]
    exact h.nodup

/-! ### Takes (R102, R103) -/

/-- What the hand-off of the record `id` to its block keeps, from the state in which the record has been taken. -/
structure Take (id : RecId) (s t : State) : Prop where
  keeps : Keeps s t
  owned : Owned [] s → TakingAt id s → (∀ j a l, s.eng.reader ≠ .taking j a l .arming) → Owned [] t ∧ ArmingFits t

theorem take_instant {id : RecId} {s u : State} (hk : Keeps s u) (ho : Owns [] [] s u) (c : ResultCode) (rw : Replies) :
    Take id s (instant id c rw u) where
  keeps := hk.trans (keeps_instant id c rw u)
  owned h ht hr :=
    owned_instant c rw (ho.owned [] h) (ho.taking [] id h ht) fun j a l hu => absurd (ho.arming j a l hu) (hr j a l)

/-- An instant request, after what its block does. -/
theorem Steps.take {id : RecId} {s u : State} (h : Steps s u) (c : ResultCode) (rw : Replies) :
    Take id s (instant id c rw u) := take_instant h.keeps h.owns c rw

/-- An instant request that changes nothing else. -/
theorem take_answer (id : RecId) (c : ResultCode) (rw : Replies) (s : State) : Take id s (instant id c rw s) :=
  (Steps.refl s).take c rw

theorem Take.andThen {id : RecId} {s t u : State} (h : Take id s t) (k : Steps t u) : Take id s u where
  keeps := h.keeps.trans k.keeps
  owned ho ht hr :=
    have ⟨h1, h2⟩ := h.owned ho ht hr
    ⟨k.owns.owned [] h1, k.owns.armingFits h1 h2⟩

theorem Take.before {id : RecId} {s t u : State} (k : Take id t u) (h : Steps s t) : Take id s u where
  keeps := h.keeps.trans k.keeps
  owned ho ht hr :=
    k.owned (h.owns.owned [] ho) (h.owns.taking [] id ho ht) fun j a l hj => hr j a l (h.owns.arming j a l hj)

/-- A long request, which its block takes over. -/
theorem take_enter {id : RecId} {b : Block} {s t : State} (hk : Keeps s t)
    (ho : Owned [] s → Owns [(id, b)] [] (enterActive id b s) t) : Take id s t where
  keeps := hk
  owned h ht hr :=
    ⟨(ho h).owned [] (owned_enterActive b h ht),
      fun j a l hj => absurd ((enterActive_reader id b s).symm.trans ((ho h).arming j a l hj)) (hr j a l)⟩

end Sys2Proof.Proofs
end

