-- ==== Sys2Proof/Proofs/Takes.lean ====
section
/-! PROOF. The take of each request (R102, R103). -/

namespace Sys2Proof.Proofs

open Sys2Proof.Machine Sys2Proof.Laws

/-! ### Windows and leases -/

/-- A FREE entry is defined without holders. -/
theorem define_moves {e : Entry} {st : EntryStatus} (h : e.isFree = true) (hr : ∀ r k c w, st ≠ .retiring r k c w)
    (hl : ∀ r l, st ≠ .leased r l) : EntryMoves e { status := st, inflight := 0, fault := none } := by
  cases hs : e.status with
  | free c =>
    cases st with
    | retiring r k c w => exact absurd rfl (hr r k c w)
    | leased r l => exact absurd rfl (hl r l)
    | _ => exact ⟨fun g w ho => by simp [hs] at ho, by simp [Entry.isRetiring], by simp [Entry.heldBy],
        by simp [Entry.waiter?, hs]⟩
  | _ => simp [Entry.isFree, hs] at h

theorem take_open (id : RecId) (r : Request) (s : State) : Take id s (takeOpen id r s) := by
  unfold takeOpen
  split
  · exact take_answer id _ _ s
  split
  · exact take_answer id _ _ s
  split
  · exact take_answer id _ _ s
  split
  · exact take_answer id _ _ s
  · next h =>
    refine Steps.take (Moves.steps ?_) _ _
    exact moves_setEntry s _ _ (define_moves (by simpa using h) (fun _ _ _ _ => nofun) fun _ _ => nofun)

/-- R16: an ending reaches an entry with a count: the request becomes its waiting request and enters the active table. -/
theorem take_retire (id : RecId) (i : Fin 16) (r : Range) (k : Kind) (c : EndCause) (s : State)
    (hl : Entry.isLocked (s.entry i) = false) (hw : (s.entry i).waiter? = none) (hn : (s.entry i).inflight ≠ 0) :
    Take id s (enterActive id .regionTable
      (s.setStatus i (.retiring r k c (some { request := id, count := (s.entry i).inflight })))) := by
  have safe : EntrySafe (s.entry i)
      { s.entry i with status := .retiring r k c (some { request := id, count := (s.entry i).inflight }) } :=
    { locked := fun g w hs hw => by simp [isLocked_of_opened hs hw] at hl
      busy := fun _ _ => Nat.pos_of_ne_zero hn
      held := fun p hp => by simp [Entry.heldBy] at hp }
  refine take_enter (b := .regionTable) ?_ fun _ => ?_
  · exact ((safe_setEntry s i _ safe).trans (safe_enterActive id _ _)).keeps (.of_eq rfl)
  · have trade := owns_setEntry (enterActive id .regionTable s) i
      { s.entry i with status := .retiring r k c (some { request := id, count := (s.entry i).inflight }) }
    rw [show entryOwners ((enterActive id .regionTable s).entry i) = [] by
      rw [show (enterActive id .regionTable s).entry i = s.entry i from rfl, entryOwners, hw]; rfl] at trade
    exact trade

/-- R16: what an ending with a waiting request makes of an entry with a count. -/
theorem endEntry_busy {s : State} {i : Fin 16} (c : EndCause) (id : RecId) (hn : (s.entry i).inflight ≠ 0) :
    (∀ r w, (s.entry i).status = .opened r w → endEntry i c (some id) s =
      s.setStatus i (.retiring r (.window w) c (some { request := id, count := (s.entry i).inflight }))) ∧
    (∀ r l, (s.entry i).status = .leased r l → endEntry i c (some id) s =
      s.setStatus i
        (.retiring r (.lease { l with expiry := none }) c (some { request := id, count := (s.entry i).inflight }))) := by
  constructor <;> intro r x hs <;> unfold endEntry <;> simp [hs, hn]

theorem take_close (id : RecId) (r : Request) (s : State) : Take id s (takeClose id r s) := by
  unfold takeClose
  split
  · exact take_answer id _ _ s
  · next i _ =>
    split
    · next g w hs =>
      split
      · exact take_answer id _ _ s
      · next hw =>
        have unlocked : Entry.isLocked (s.entry i) = false := by simpa [Entry.isLocked, hs] using hw
        split
        · exact (moves_endEntry i _ s unlocked).steps.take _ _
        · next hn =>
          rw [(endEntry_busy _ id hn).1 g w hs]
          exact take_retire id i _ _ _ s unlocked (by simp [Entry.waiter?, hs]) hn
    all_goals exact take_answer id _ _ s

theorem take_lock (id : RecId) (r : Request) (s : State) : Take id s (takeLock id r s) := by
  unfold takeLock
  split
  · exact take_answer id _ _ s
  split
  · next g w hs =>
    refine (moves_setStatus s _ _ ⟨fun g' v ho hv => ?_, ?_, ?_, ?_⟩).steps.take _ _
    · rw [hs] at ho
      cases ho
      rw [hs]
      simp [← hv]
    · simp [Entry.isRetiring]
    · simp [Entry.heldBy]
    · simp [Entry.waiter?, hs]
  all_goals exact take_answer id _ _ s

theorem take_look (id : RecId) (r : Request) (s : State) : Take id s (takeLook id r s) := by
  unfold takeLook
  split
  · exact take_answer id _ _ s
  split
  · exact take_answer id _ _ s
  split
  · exact take_answer id _ _ s
  split
  · exact take_answer id _ _ s
  split
  · split <;> exact take_answer id _ _ s
  · refine Steps.take ?_ _ _
    split
    · exact (moves_clearFault _ s).steps
    · exact .refl s

/-- R32, R35: a grant defines a FREE entry, none of whose holders is DISABLED. -/
theorem keeps_grantLease (i : Fin 16) (r : Request) (m : LeaseMode) (s : State) (hf : (s.entry i).isFree = true)
    (hh : s.shutHolder (r.p3.extractLsb' 0 4) = none) : Keeps s (grantLease i r m s) := by
  have entry (j : Fin 16) : (grantLease i r m s).entry j =
      if i = j then
        { status := .leased { base := r.p1.toNat, size := r.p2.toNat } (s.grantedLease r m), inflight := 0, fault := none }
      else s.entry j := entry_setEntry _ i j _
  have port (p : Fin 4) : (grantLease i r m s).port p = s.port p := rfl
  refine ⟨fun j g w h => ?_, fun h j hr => ?_, fun h j p hp => ?_, id, id, id, id, id⟩
  · unfold State.lockedAt at h ⊢
    rw [entry]
    split
    · next hij => subst hij; simp [Entry.isFree, h] at hf
    · exact h
  · rw [entry] at hr ⊢
    split at hr
    · simp [Entry.isRetiring] at hr
    · next hij => rw [if_neg hij]; exact h j hr
  · rw [port]
    unfold Entry.leasedTo at hp
    rw [entry] at hp
    split at hp
    · have none_shut := List.find?_eq_none.mp hh p (mem_portIndices p)
      have holder : (r.p3.extractLsb' 0 4).getLsbD p.val = true := hp
      rw [holder, Bool.true_and] at none_shut
      intro hd
      simp [hd, PortState.shutOut] at none_shut
    · exact h j p hp

theorem owns_grantLease (i : Fin 16) (r : Request) (m : LeaseMode) (s : State) (hf : (s.entry i).isFree = true) :
    Owns [] [] s (grantLease i r m s) := by
  have serial : Moves s { s with table := { s.table with serial := s.table.serial + 1#32 } } :=
    .of_table (fun _ => .refl _) rfl rfl rfl rfl rfl
  refine (serial.owns []).trans ?_
  have none_waits : entryOwners (s.entry i) = [] := by
    cases hs : (s.entry i).status <;> simp [Entry.isFree, hs] at hf
    simp [entryOwners, Entry.waiter?, hs]
  have trade := owns_setEntry { s with table := { s.table with serial := s.table.serial + 1#32 } } i
    { status := .leased { base := r.p1.toNat, size := r.p2.toNat } (s.grantedLease r m), inflight := 0, fault := none }
  rw [show State.entry { s with table := { s.table with serial := s.table.serial + 1#32 } } i = s.entry i from rfl,
    none_waits] at trade
  exact trade

theorem take_lease (id : RecId) (r : Request) (s : State) : Take id s (takeLease id r s) := by
  unfold takeLease
  split
  · split
    · exact take_answer id _ _ s
    split
    · exact take_answer id _ _ s
    split
    · exact take_answer id _ _ s
    · next hf =>
      split
      · exact take_answer id _ _ s
      · next hh =>
        split
        · exact take_answer id _ _ s
        split
        · exact take_answer id _ _ s
        · exact take_instant (keeps_grantLease _ r _ s (by simpa using hf) hh)
            (owns_grantLease _ r _ s (by simpa using hf)) _ _
  · exact take_answer id _ _ s
  · exact take_answer id _ _ s

theorem take_renew (id : RecId) (r : Request) (s : State) : Take id s (takeRenew id r s) := by
  unfold takeRenew
  split
  · exact take_answer id _ _ s
  split
  · exact take_answer id _ _ s
  split
  · next hs =>
    refine Steps.take (Moves.steps ?_) _ _
    exact moves_setStatus s _ _ (leased_moves hs fun p hp => hp)
  all_goals exact take_answer id _ _ s

theorem take_free (id : RecId) (r : Request) (s : State) : Take id s (takeFree id r s) := by
  unfold takeFree
  split
  · exact take_answer id _ _ s
  split
  · next g l hs =>
    split
    · exact (moves_endEntry _ _ s (isLocked_leased hs)).steps.take _ _
    · next hn =>
      rw [(endEntry_busy _ id hn).2 g l hs]
      exact take_retire id _ _ _ _ s (isLocked_leased hs) (by simp [Entry.waiter?, hs]) hn
  all_goals exact take_answer id _ _ s

theorem take_policy (id : RecId) (r : Request) (s : State) : Take id s (takePolicy id r s) := by
  unfold takePolicy
  split
  · exact take_answer id _ _ s
  split
  · exact (moves_setPolicy _ s).steps.take _ _
  split
  · exact take_answer id _ _ s
  · exact (((moves_demoteOthers s).trans (moves_setPolicy _ _)).trans (moves_raiseIf _ _ _)).steps.take _ _

/-! ### Watches -/

theorem Owned.setReader {x : List (RecId × Block)} {s : State} (h : Owned x s) (r : Reader) : Owned x (setReader r s) :=
  ⟨h.owners, h.records, h.nodup, h.speed⟩

theorem safe_setReader (r : Reader) (s : State) : Safe s (setReader r s) := .of_engine rfl rfl rfl id

/-- R63: the take of a WAIT goes on with its arming read. -/
theorem take_wait (id : RecId) (r : Request) (s : State) : Take id s (takeWait id r s) := by
  unfold takeWait
  split
  · exact take_answer id _ _ s
  split
  · exact take_answer id _ _ s
  · have appended := moves_appendOps [.armWait id (watchSpec r) true] (setTakeEnd id .arming s)
    have keeps : Keeps s (setTakeEnd id .arming s) :=
      (safe_setReader (s.eng.reader.endsAt id .arming) s).keeps (.of_eq rfl)
    refine ⟨keeps.trans appended.keeps, fun h ht hr => ?_⟩
    have ended : Owned [] (setTakeEnd id .arming s) := h.setReader _
    refine ⟨(appended.owns []).owned [] ended, (appended.owns []).armingFits ended fun j a l hj => ?_⟩
    change s.eng.reader.endsAt id .arming = _ at hj
    cases hs : s.eng.reader with
    | taking i b m e =>
      rw [hs] at hj
      simp only [Reader.endsAt] at hj
      split at hj
      · next hi => cases hj; exact hi ▸ ht
      · cases hj; exact absurd hs (hr _ _ _)
    | _ => rw [hs] at hj; cases hj

/-! ### Transfers -/

/-- R80: an accepted transfer joins the queue, which has room; at the head of an empty one it runs. -/
theorem take_acceptTransfer (t : Transfer) (s : State) (hq : s.queue.length < 4) (ht : t.state = .waiting) :
    Take t.owner s (acceptTransfer t s) := by
  have entered := safe_enterActive t.owner .transferUnit s
  unfold acceptTransfer
  split
  · next h =>
    refine take_enter (b := .transferUnit) ((entered.trans (safe_runQueue _ _)).keeps ⟨fun _ => ?_, fun _ => ?_⟩)
      fun _ => ?_
    · exact (runQueue_queue _ _).1.trans (by simp)
    · exact (queueOrdered_iff _).mpr ((runQueue_queue _ _).2 nofun)
    · rw [← runQueue_setQueue [t] [t]]
      refine (owns_setQueue _ [t] _ [] ?_).trans (owns_runQueue [t] _ rfl)
      rw [show (enterActive t.owner .transferUnit s).queue = [] from h]
      exact List.Perm.refl _
  · next hne =>
    refine take_enter (b := .transferUnit) ((entered.trans (safe_setQueue _ _)).keeps ⟨fun _ => ?_, fun ho => ?_⟩)
      fun _ => owns_setQueue _ _ _ [] ?_
    · simpa using hq
    · rw [queueOrdered_iff] at ho ⊢
      dsimp only
      cases hs : s.queue with
      | nil => exact absurd hs hne
      | cons x rest =>
        rw [hs] at ho
        refine ⟨ho.1, fun y hy => ?_⟩
        obtain hy | hy := List.mem_append.mp hy
        · exact ho.2 y hy
        · rw [List.mem_singleton.mp hy, ht]
    · rw [show (enterActive t.owner .transferUnit s).queue = s.queue from rfl, List.nil_append]
      simp only [queueOwners, List.map_append]
      exact List.perm_append_comm

theorem take_startTransfer (id : RecId) (j : Job) (p : Fin 4) (n : Nat) (s : State) (hq : s.queue.length < 4) :
    Take id s (startTransfer id j p n s) := by
  unfold startTransfer
  split
  · exact take_answer id _ _ s
  · exact take_acceptTransfer (newTransfer id j p n) s hq rfl

theorem take_fill (id : RecId) (r : Request) (s : State) (hq : s.queue.length < 4) : Take id s (takeFill id r s) := by
  unfold takeFill
  split
  · exact take_answer id _ _ s
  split
  · exact take_answer id _ _ s
  split
  · exact take_answer id _ _ s
  · exact take_startTransfer id _ _ _ s hq

theorem take_copy (id : RecId) (r : Request) (s : State) (hq : s.queue.length < 4) : Take id s (takeCopy id r s) := by
  unfold takeCopy
  split
  · exact take_answer id _ _ s
  split
  · exact take_answer id _ _ s
  split
  · exact take_answer id _ _ s
  split
  · exact take_answer id _ _ s
  · exact take_startTransfer id _ _ _ s hq

theorem take_scan (id : RecId) (r : Request) (s : State) (hq : s.queue.length < 4) : Take id s (takeScan id r s) := by
  unfold takeScan
  split
  · exact take_answer id _ _ s
  split
  · exact take_answer id _ _ s
  split
  · exact take_answer id _ _ s
  · exact take_startTransfer id _ _ _ s hq

/-! ### ABRT, PORT and PRST -/

theorem steps_cancelRequest (a : ActiveRequest) (s : State) : Steps s (cancelRequest a s) := by
  unfold cancelRequest
  split
  · exact steps_cancelWait _ s
  · exact steps_cancelTransfers _ s
  · split
    · exact .refl s
    · exact steps_cancelWaiter _ s
  · exact .refl s
  · exact .refl s

theorem take_abort (id : RecId) (r : Request) (s : State) : Take id s (takeAbort id r s) := by
  unfold takeAbort
  split
  · exact take_answer id _ _ s
  split
  · exact take_answer id _ _ s
  split
  · exact take_answer id _ _ s
  · exact (steps_cancelRequest _ s).take _ _

@[simp] theorem raiseIf_entry (c : Bool) (e : Event) (s : State) (i : Fin 16) : (raiseIf c e s).entry i = s.entry i :=
  entry_congr (by simp) i

/-- R45: an entry that the port has been released from. -/
theorem releaseFrom_not_held (p : Fin 4) (s : State) (i : Fin 16) : ((releaseFrom p s i).entry i).heldBy p = false := by
  unfold releaseFrom
  split
  · next g l hs =>
    split
    · next hl =>
      split
      · unfold endEntry
        simp only [hs]
        split <;> simp [State.setStatus, Entry.heldBy]
      · have off : (l.holders &&& ~~~onlyPort p).getLsbD p.val = false := by
          simp [onlyPort]
        simpa [State.setStatus, Entry.heldBy, LeaseDef.holds] using off
    · next hl => simpa [Entry.heldBy, hs] using hl
  all_goals next hs => simp [Entry.heldBy, hs]

/-- R45: after its release the port is among the holders of no entry. -/
theorem releasePort_not_held (p : Fin 4) (s : State) (i : Fin 16) : ((releasePort p s).entry i).heldBy p = false := by
  have fold (l : List (Fin 16)) (t : State) (hi : i ∈ l) : ((l.foldl (releaseFrom p) t).entry i).heldBy p = false := by
    induction l generalizing t with
    | nil => cases hi
    | cons a l ih =>
      obtain rfl | hi := List.mem_cons.mp hi
      · have rest := ((moves_foldl _ (moves_releaseFrom p) l (releaseFrom p t i)).entry i).held p
        have := releaseFrom_not_held p t i
        rw [List.foldl_cons]
        grind
      · exact ih _ hi
  exact fold entryIndices s (mem_entryIndices i)

/-- What PORT to DISABLED does beside the state of the port. -/
theorem steps_disable (p : Fin 4) (s : State) : Steps (setPortState p .disabled s) (disablePort p s) := by
  unfold disablePort cancelForPort
  exact (steps_cancelTransfers _ _).after
    (((moves_releasePort p _).after (moves_answer p _)).steps.after (steps_withdrawPort p _))

theorem cancelForPort_entry (p : Fin 4) (s : State) (i : Fin 16) : (cancelForPort p s).entry i = s.entry i :=
  entry_congr (by simp) i

theorem disablePort_not_held (p : Fin 4) (s : State) (i : Fin 16) : ((disablePort p s).entry i).heldBy p = false := by
  unfold disablePort
  rw [cancelForPort_entry]
  exact releasePort_not_held p _ i

/-- R135: what follows on a port's becoming DISABLED, if it ends with the port among the holders of no entry. -/
theorem keeps_disabled {p : Fin 4} {s t : State} (hp : p ≠ 0) (steps : Steps (setPortState p .disabled s) t)
    (released : ∀ i, (t.entry i).heldBy p = false) : Keeps s t := by
  have port (q : Fin 4) (h : p ≠ q) : (setPortState p .disabled s).port q = s.port q := port_setPort_ne s p q _ h
  have own : (setPortState p .disabled s).port p = { s.port p with state := .disabled } := port_setPort_self s p _
  have safe := steps.safe
  refine ⟨safe.locked, safe.busy, fun h i q hq hd => ?_, fun h => safe.portZero ?_, safe.slotZero, fun h =>
    ⟨steps.queue.length h.1, safe.outstanding fun q => ?_⟩, steps.queue.ordered, safe.numbered⟩
  · by_cases hpq : p = q
    · subst hpq
      rw [Entry.leasedTo, released] at hq
      cases hq
    · have hs := safe.disabled q hd
      rw [port q hpq] at hs
      exact h i q (safe.held i q hq) hs
  · rw [State.portZeroActive, port 0 hp]
    exact h
  · by_cases hpq : p = q
    · subst hpq
      rw [own]
      exact h.2 p
    · rw [port q hpq]
      exact h.2 q

theorem keeps_disablePort (p : Fin 4) (s : State) (hp : p ≠ 0) : Keeps s (disablePort p s) :=
  keeps_disabled hp (steps_disable p s) (disablePort_not_held p s)

/-- A port without a reset request comes to a state without one. -/
theorem owns_setPortState (p : Fin 4) (st : PortState) (s : State) (hs : (s.port p).resetRequest? = none)
    (hst : ∀ r, st ≠ .resetting r) : Owns [] [] s (setPortState p st s) := by
  have trade := owns_setPort s p { s.port p with state := st }
  rw [show portOwners (s.port p) = [] by rw [portOwners, hs]; rfl,
    show portOwners { s.port p with state := st } = [] by
      cases st with
      | resetting r => exact absurd rfl (hst r)
      | _ => rfl] at trade
  exact trade

theorem take_disablePort (id : RecId) (p : Fin 4) (rw : Replies) (s : State) (hp : p ≠ 0)
    (hs : (s.port p).resetRequest? = none) : Take id s (instant id .okay rw (disablePort p s)) :=
  take_instant (keeps_disablePort p s hp) ((owns_setPortState p .disabled s hs fun _ => nofun).trans (steps_disable p s).owns) _ _

theorem take_setPortState (id : RecId) (p : Fin 4) (st : PortState) (rw : Replies) (s : State) (hp : p ≠ 0)
    (hs : (s.port p).resetRequest? = none) (hst : ∀ r, st ≠ .resetting r) (hd : st ≠ .disabled) :
    Take id s (instant id .okay rw (setPortState p st s)) :=
  take_instant ((safe_setPortState p st s (fun _ => hp) hd).keeps (.of_eq rfl)) (owns_setPortState p st s hs hst) _ _

theorem targetState_not_resetting {w : Word} {st : PortState} (h : targetState? w = some st) (r : Resetting) :
    st ≠ .resetting r := by
  unfold targetState? at h
  rintro rfl
  split at h
  · cases h
  split at h
  · cases h
  split at h <;> cases h

theorem take_port (id : RecId) (r : Request) (s : State) : Take id s (takePort id r s) := by
  unfold takePort
  split
  · next p st _ hst =>
    have steady := targetState_not_resetting hst
    split
    · exact take_answer id _ _ s
    · next hp =>
      split
      · exact take_answer id _ _ s
      · next hs =>
        have idle : (s.port p).resetRequest? = none := by simp [Port.resetRequest?, hs]
        split
        · exact take_disablePort id p _ s hp idle
        · next hd => exact take_setPortState id p st _ s hp idle steady hd
      · next hs =>
        have idle : (s.port p).resetRequest? = none := by simp [Port.resetRequest?, hs]
        split
        · exact take_disablePort id p _ s hp idle
        · next hd => exact take_setPortState id p st _ s hp idle steady hd
      · next hs =>
        by_cases hd : st = .disabled
        · refine Steps.take (Moves.steps ?_) _ _
          exact moves_setPort s p _ ⟨Or.inl (hd.trans hs.symm), fun h => h⟩
        · exact take_setPortState id p st _ s hp (by simp [Port.resetRequest?, hs]) steady hd
  · exact take_answer id _ _ s
  · exact take_answer id _ _ s

/-- R137: PRST of a port that is ACTIVE or QUIESCED. -/
theorem take_resetPort (id : RecId) (p : Fin 4) (f : FormerState) (s : State) (hp : p ≠ 0)
    (hs : (s.port p).resetRequest? = none) : Take id s (resetPort id p f s) := by
  let n := (s.port p).waitingCount
  let st := startResetting id f n (s.leasesOf p) (s.cancelCount p)
  let entered := enterActive id .agentPorts s
  have resetting : Owns [(id, .agentPorts)] [] entered (setPortState p st entered) := by
    have trade := owns_setPort entered p { entered.port p with state := st }
    rw [show portOwners (entered.port p) = [] by
      rw [portOwners, show (entered.port p).resetRequest? = none from hs]; rfl] at trade
    exact trade
  have rest : Steps (setPortState p st entered) (resetPort id p f s) := by
    unfold resetPort
    exact (steps_drainPort p _).after ((moves_releasePort p _).steps.after ((moves_formDrainTransfers p _).steps.after
      ((steps_cancelTransfers _ _).after ((moves_answer p _).steps.after
        (((moves_formDrainAccesses p _).after (moves_flush p _)).steps.after (steps_withdrawPort p _))))))
  refine take_enter (b := .agentPorts) ?_ fun _ => resetting.trans rest.owns
  exact (((safe_enterActive id .agentPorts s).trans (safe_setPortState p st entered (fun _ => hp) nofun)).keeps
    (.of_eq rfl)).trans rest.keeps

theorem take_portReset (id : RecId) (r : Request) (s : State) : Take id s (takePortReset id r s) := by
  unfold takePortReset
  split
  · exact take_answer id _ _ s
  · next p _ =>
    split
    · exact take_answer id _ _ s
    · next hp =>
      split
      · exact take_answer id _ _ s
      · exact take_answer id _ _ s
      · next hs => exact take_resetPort id p _ s hp (by simp [Port.resetRequest?, hs])
      · next hs => exact take_resetPort id p _ s hp (by simp [Port.resetRequest?, hs])

/-! ### The requests of the engine, of the controller and of speed control -/

theorem take_refreshInterval (id : RecId) (r : Request) (s : State) : Take id s (takeRefreshInterval id r s) := by
  unfold takeRefreshInterval
  split
  · exact take_answer id _ _ s
  · refine Steps.take (Moves.steps ?_) _ _
    exact .of_eq rfl rfl rfl rfl rfl rfl

theorem take_sleep (id : RecId) (r : Request) (s : State) : Take id s (takeSleep id r s) := by
  unfold takeSleep
  split
  · exact take_answer id _ _ s
  split
  · exact take_answer id _ _ s
  split
  · exact take_answer id _ _ s
  · refine Steps.take (Moves.steps ?_) _ _
    exact moves_engine s _ rfl rfl rfl fun _ _ _ h => h

/-- R165, R168: a sequence starts for its owner, from a state between sequences. -/
theorem take_startSpeed (id : RecId) (s : State) (v : SpeedControl) (hr : SpeedState.resting s.speed.state)
    (ho : v.owner = some id) (hv : ¬SpeedState.resting v.state) :
    Take id s (enterActive id .speedControl { s with speed := v }) := by
  refine take_enter (b := .speedControl) ?_ fun h => ?_
  · exact ((safe_setSpeed s v).trans (safe_enterActive id _ _)).keeps (.of_eq rfl)
  · have trade := owns_setSpeed (enterActive id .speedControl s) v fun h => absurd h hv
    rw [show speedOwners v = [(id, .speedControl)] by rw [speedOwners, ho]; rfl,
      show speedOwners (enterActive id .speedControl s).speed = [] by
        rw [speedOwners, show (enterActive id .speedControl s).speed.owner = none from h.speed hr]; rfl] at trade
    exact trade

theorem take_speed (id : RecId) (r : Request) (s : State) : Take id s (takeSpeed id r s) := by
  unfold takeSpeed
  split
  · exact take_answer id _ _ s
  split
  · next hs =>
    split
    · exact (take_answer id _ _ s).andThen (moves_raise _ _).steps
    · exact take_startSpeed id s _ (Or.inl hs) rfl (by simp [SpeedState.resting, SpeedControl.raise])
  · next hs =>
    split
    · exact (take_answer id _ _ s).andThen (moves_raise _ _).steps
    · refine (take_startSpeed id (raiseIf _ .cls (demoteAll s)) _ (Or.inr ?_) rfl ?_).before
        ((moves_demoteAll s).trans (moves_raiseIf _ _ _)).steps
      · simpa using hs
      · simp [SpeedState.resting]
  all_goals exact take_answer id _ _ s

end Sys2Proof.Proofs
end

