-- ==== Sys2Proof/Proofs/EngineReads.lean ====
section
/-! PROOF. What the commands keep that complete the engine's reads: a record that is examined and taken (R101 to R103), and
the arming read of a WAIT (R63). -/

namespace Sys2Proof.Proofs

open Sys2Proof.Machine Sys2Proof.Laws

/-! ### What a command keeps -/

/-- What every command but a full reset keeps. The owners need the numbers and the engine as the invariants have them. -/
structure CommandKeeps (s t : State) : Prop where
  keeps : Keeps s t
  owned : s.numbered → s.engineConsistent → s.ownersActive → t.ownersActive

theorem Steps.ownersActive {s t : State} (h : Steps s t) (ho : s.ownersActive) : t.ownersActive :=
  have ⟨owned, fits⟩ := (ownersActive_iff s).mp ho
  (ownersActive_iff t).mpr ⟨h.owns.owned [] owned, h.owns.armingFits owned fits⟩

theorem Steps.command {s t : State} (h : Steps s t) : CommandKeeps s t := ⟨h.keeps, fun _ _ => h.ownersActive⟩

theorem Moves.command {s t : State} (h : Moves s t) : CommandKeeps s t := h.steps.command

/-- A command goes on with steps that answer requests and take none. -/
theorem CommandKeeps.andThen {s t u : State} (h : CommandKeeps s t) (k : Steps t u) : CommandKeeps s u where
  keeps := h.keeps.trans k.keeps
  owned hn hc ho := k.ownersActive (h.owned hn hc ho)

/-! ### A record is taken (R102, R103) -/

/-- R102: the record read from `addr` has joined the take list, and the reader is taking it. -/
def joinRecord (addr code : Word) (r : Request) (s : State) : State :=
  { s with eng :=
      { s.eng with
        takeList := s.eng.takeList ++ [newRecord s.eng.nextId addr code r]
        taken := s.eng.taken + 1#32
        nextId := s.eng.nextId + 1
        reader := .taking s.eng.nextId addr r.link .header } }

/-- R102: what follows the joining answers no request. -/
theorem moves_takeRecord (addr code : Word) (r : Request) (s : State) :
    Moves (joinRecord addr code r s) (takeRecord addr code r s) :=
  (moves_endTail _).after (moves_appendOps _ _)

theorem takeRecord_queue (addr code : Word) (r : Request) (s : State) : (takeRecord addr code r s).queue = s.queue := by
  simp [takeRecord]

theorem takeRecord_not_arming (addr code : Word) (r : Request) (s : State) (id : RecId) (a l : Word) :
    (takeRecord addr code r s).eng.reader ≠ .taking id a l .arming :=
  fun h => by cases (moves_takeRecord addr code r s).arming id a l h

theorem keeps_takeRecord (addr code : Word) (r : Request) (s : State) : Keeps s (takeRecord addr code r s) := by
  have joined : Safe s (joinRecord addr code r s) := by
    refine .of_engine rfl rfl rfl fun h => ?_
    rw [numbered_iff] at h ⊢
    refine ⟨fun n hn => ?_, fun n hn => Nat.lt_succ_of_lt (h.2 n hn)⟩
    simp only [joinRecord, List.map_append, List.mem_append, List.map_cons, List.map_nil, List.mem_singleton] at hn ⊢
    obtain hn | rfl := hn
    · exact Nat.lt_succ_of_lt (h.1 n hn)
    · exact Nat.lt_succ_self _
  exact (joined.keeps (.of_eq rfl)).trans (moves_takeRecord addr code r s).keeps

/-- The new record has a number of its own and is in no table. -/
theorem owned_joinRecord (addr code : Word) (r : Request) {s : State} (hn : s.numbered) (h : Owned [] s) :
    Owned [] (joinRecord addr code r s) where
  owners := h.owners
  records := by
    have same : (s.eng.takeList ++ [newRecord s.eng.nextId addr code r]).filter (fun r => r.stage == .active)
        = s.eng.takeList.filter (fun r => r.stage == .active) := by
      rw [List.filter_append, List.filter_cons_of_neg (by simp [newRecord]), List.filter_nil, List.append_nil]
    simp only [joinRecord, same]
    exact h.records
  nodup := by
    have fresh : s.eng.nextId ∉ s.eng.takeList.map TakeRecord.id := fun hm =>
      Nat.lt_irrefl _ (((numbered_iff s).mp hn).1 _ hm)
    simp only [joinRecord, List.map_append, List.map_cons, List.map_nil]
    exact List.nodup_append.mpr ⟨h.nodup, by simp, fun n hm m hm' e => by
      obtain rfl : m = s.eng.nextId := by simpa [newRecord] using hm'
      exact fresh (e ▸ hm)⟩
  speed := h.speed

theorem owned_takeRecord (addr code : Word) (r : Request) {s : State} (hn : s.numbered) (h : Owned [] s) :
    Owned [] (takeRecord addr code r s) ∧ TakingAt s.eng.nextId (takeRecord addr code r s) := by
  have joined := owned_joinRecord addr code r hn h
  have after := (moves_takeRecord addr code r s).owns []
  exact ⟨after.owned [] joined, after.taking [] _ joined
    ⟨newRecord s.eng.nextId addr code r, List.mem_append_right _ List.mem_cons_self, rfl, rfl⟩⟩

theorem take_handOff (c : Option Code) (id : RecId) (r : Request) (s : State)
    (hq : Code.needsRoom c = true → s.queue.length < 4) : Take id s (handOff c id r s) := by
  cases c with
  | none => exact take_answer id _ _ s
  | some c =>
    cases c with
    | openWindow => exact take_open id r s
    | closeWindow => exact take_close id r s
    | lock => exact take_lock id r s
    | look => exact take_look id r s
    | lease => exact take_lease id r s
    | renew => exact take_renew id r s
    | freeLease => exact take_free id r s
    | policy => exact take_policy id r s
    | waitWord => exact take_wait id r s
    | fill => exact take_fill id r s (hq rfl)
    | copy => exact take_copy id r s (hq rfl)
    | scan => exact take_scan id r s (hq rfl)
    | abort => exact take_abort id r s
    | noop => exact take_answer id _ _ s
    | port => exact take_port id r s
    | portReset => exact take_portReset id r s
    | refreshInterval => exact take_refreshInterval id r s
    | speed => exact take_speed id r s
    | sleep => exact take_sleep id r s

/-- R101: the record stalls the reader, is a chain fault, or is taken and handed to its block. -/
theorem command_examine {s t : State} (h : Moves s t) (rec : Record) (addr : Word) :
    CommandKeeps s (examine rec addr t) := by
  unfold examine
  split
  · exact (h.trans (moves_chainFault _ _ _)).command
  split
  · exact (h.trans (moves_stallReader _ _ _)).command
  split
  · exact (h.trans (moves_stallReader _ _ _)).command
  · next room =>
    have handed := take_handOff (Code.ofWord rec.code) t.eng.nextId rec.req (takeRecord addr rec.code rec.req t)
      fun needs => by
        rw [takeRecord_queue]
        exact Nat.lt_of_not_le fun full => room ⟨needs, full⟩
    refine ⟨(h.keeps.trans (keeps_takeRecord _ _ _ t)).trans handed.keeps, fun hn _ ho => ?_⟩
    have owned := (h.owns []).owned [] ((ownersActive_iff s).mp ho).1
    obtain ⟨taken, taking⟩ := owned_takeRecord addr rec.code rec.req (h.keeps.numbered hn) owned
    exact (ownersActive_iff _).mpr (handed.owned taken taking (takeRecord_not_arming _ _ _ t))

theorem command_recordReadReturns (rec : Option Record) (s : State) : CommandKeeps s (recordReadReturns rec s) := by
  unfold recordReadReturns
  split
  · exact command_examine (moves_readComplete s) _ _
  · exact (moves_finishOp s).command
  · exact (Moves.refl s).command

/-! ### A WAIT is armed (R63) -/

theorem freeSlot_ne_zero {s : State} {k : Fin 8} (h : s.freeSlot = some k) : k ≠ 0 :=
  (mem_waitSlots k).mp (List.mem_of_find?_eq_some h)

theorem freeSlot_free {s : State} {k : Fin 8} (h : s.freeSlot = some k) : s.slot k = none := by
  simpa using List.find?_some h

theorem keeps_armSlot (id : RecId) (k : Fin 8) (w : WatchSpec) (st : ArmedState) (s : State) (hk : k ≠ 0) :
    Keeps s (armSlot id k w st s) := by
  have armed := (safe_setSlot s k (some (w.slot st id)) (Or.inl hk)).trans
    (safe_enterActive id .watchUnit (s.setSlot k (some (w.slot st id))))
  exact (armed.keeps (.of_eq rfl)).trans (moves_endTakeAt id .arming _).keeps

theorem keeps_armWait (id : RecId) (w : WatchSpec) (v : Word) (s : State) : Keeps s (armWait id w v s) := by
  unfold armWait
  split
  · exact keeps_instant id _ _ s
  · next k hk =>
    split
    · exact keeps_armSlot id k w _ s (freeSlot_ne_zero hk)
    split
    · exact ((moves_watchRelease w.release s).keeps.trans (keeps_instant id _ _ _)).trans (moves_raise .watch _).keeps
    · exact keeps_armSlot id k w _ s (freeSlot_ne_zero hk)

/-- The link step does not read the reader's state. -/
theorem linkStep_setReader (id : RecId) (a l : Word) (r : Reader) (s : State) :
    linkStep id a l (setReader r s) = linkStep id a l s := rfl

/-- The WAIT whose arming read has returned stands armed, and the reader takes its link step. -/
theorem owned_armSlot {id : RecId} {a l : Word} {k : Fin 8} (w : WatchSpec) (st : ArmedState) {s : State} (hk : k ≠ 0)
    (hf : s.slot k = none) (hr : s.eng.reader = .taking id a l .arming) (h : Owned [] s) (ht : TakingAt id s) :
    Owned [] (armSlot id k w st s) ∧ ArmingFits (armSlot id k w st s) := by
  let entered := enterActive id .watchUnit s
  let armed := entered.setSlot k (some (w.slot st id))
  have step : armSlot id k w st s = linkStep id a l (setReader .stopped armed) := by
    rw [linkStep_setReader, armSlot, endTakeAt]
    rw [show (enterActive id .watchUnit (s.setSlot k (some (w.slot st id)))).eng.reader = .taking id a l .arming by
      rw [enterActive_reader]; exact hr]
    exact if_pos ⟨rfl, rfl⟩
  have trade := owns_setSlot entered k (some (w.slot st id)) hk
  rw [show entered.slot k = none from hf] at trade
  have standing : Owned [] (setReader .stopped armed) :=
    (trade.owned [] (owned_enterActive .watchUnit h ht)).setReader .stopped
  rw [step]
  have after := (moves_linkStep id a l (setReader .stopped armed)).owns []
  exact ⟨after.owned [] standing, after.armingFits standing nofun⟩

theorem owned_armWait {id : RecId} {a l : Word} (w : WatchSpec) (v : Word) {s : State}
    (hr : s.eng.reader = .taking id a l .arming) (h : Owned [] s) (ha : ArmingFits s) :
    Owned [] (armWait id w v s) ∧ ArmingFits (armWait id w v s) := by
  have ht := ha id a l hr
  unfold armWait
  split
  · exact owned_instant _ _ h ht ha
  · next k hk =>
    split
    · exact owned_armSlot w _ (freeSlot_ne_zero hk) (freeSlot_free hk) hr h ht
    split
    · have released := (moves_watchRelease w.release s).owns []
      obtain ⟨owned, fits⟩ := owned_instant (id := id) .okay (fireReplies k v (s.releaseOutcome w.release))
        (released.owned [] h) (released.taking [] id h ht) (released.armingFits h ha)
      have raised := (moves_raise .watch
        (instant id .okay (fireReplies k v (s.releaseOutcome w.release)) (watchRelease w.release s))).owns []
      exact ⟨raised.owned [] owned, raised.armingFits owned fits⟩
    · exact owned_armSlot w _ (freeSlot_ne_zero hk) (freeSlot_free hk) hr h ht

theorem grantedOp_mem {s : State} {o : EngineOp} (h : s.grantedOp = some o) : o ∈ s.eng.ops := by
  unfold State.grantedOp at h
  split at h
  · exact List.mem_of_head? h
  · cases h

/-- R100, R107: the arming read of a WAIT is wanted by the reader alone, which is taking that WAIT. -/
theorem reader_of_armWait {e : Engine} (h : e.readsFit) {id : RecId} {w : WatchSpec} (hm : .armWait id w true ∈ e.ops) :
    ∃ a l, e.reader = .taking id a l .arming := by
  have wanted : .armWait id w true ∈ e.ops.filter EngineOp.isWantedRead := List.mem_filter.mpr ⟨hm, rfl⟩
  obtain ⟨reads, _⟩ := h
  split at reads
  · simp [reads] at wanted
  · rw [reads] at wanted
    split at wanted <;> simp at wanted
  · next i a l hr =>
    obtain ⟨v, hv⟩ := reads
    obtain ⟨rfl, _⟩ : id = i ∧ w = v := by simpa [hv] using wanted
    exact ⟨a, l, hr⟩
  · obtain ⟨a, ha⟩ := reads
    simp [ha] at wanted
  · simp [reads] at wanted

theorem command_waitArmingDone (s : State) : CommandKeeps s (waitArmingDone s) := by
  unfold waitArmingDone
  split
  · next id w hg =>
    have finished := moves_finishOp s
    refine ⟨finished.keeps.trans (keeps_armWait id w _ _), fun _ hc ho => ?_⟩
    obtain ⟨a, l, hr⟩ := reader_of_armWait hc.1 (grantedOp_mem hg)
    have ⟨owned, fits⟩ := (ownersActive_iff s).mp ho
    exact (ownersActive_iff _).mpr (owned_armWait w _ hr ((finished.owns []).owned [] owned)
      ((finished.owns []).armingFits owned fits))
  · exact (moves_finishOp s).command
  · exact (Moves.refl s).command

theorem moves_tailArmingDone (s : State) : Moves s (tailArmingDone s) := by
  unfold tailArmingDone
  split
  · exact (moves_finishOp s).trans (moves_armTail _ _ _ _)
  · exact moves_finishOp s
  · exact .refl s

/-! ### The engine's writes (R59, R97, R104) -/

theorem steps_engineWrite (op : EngineOp) (s : State) : Steps s (engineWrite op s) := by
  unfold engineWrite
  split
  · exact .refl s
  · exact (moves_finishOp s).steps.trans (steps_storeAndEvaluate _ _ _)

theorem steps_headerWriteDone (s : State) : Steps s (headerWriteDone s) := by
  unfold headerWriteDone
  split
  · exact (steps_engineWrite _ s).trans (moves_raiseIf _ _ _).steps
  · exact (steps_engineWrite _ s).trans (moves_endTakeAt _ _ _).steps
  · exact steps_raise (steps_engineWrite _ s) _
  · exact .refl s

theorem steps_resultWriteDone (s : State) : Steps s (resultWriteDone s) := by
  unfold resultWriteDone
  split
  · exact (steps_engineWrite _ s).trans
      (((moves_finalize _ _ _).trans (moves_endTakeAt _ _ _)).trans (moves_retire _)).steps
  · exact .refl s

theorem steps_otherWriteDone (s : State) : Steps s (otherWriteDone s) := by
  unfold otherWriteDone
  split
  · exact steps_engineWrite _ s
  · exact steps_engineWrite _ s
  · exact steps_engineWrite _ s
  · exact .refl s

/-! ### The timeout of a slot (R66) -/

/-- R70: slot 0 has no timeout, so a due timer is one of a WAIT. -/
theorem command_timeoutSlot (k : Fin 8) (s : State) : CommandKeeps s (timeoutSlot k s) := by
  by_cases hk : k = 0
  · subst hk
    refine ⟨?_, fun hn hc ho => ?_⟩
    · unfold timeoutSlot
      split
      · exact (Moves.refl s).keeps
      split
      · exact ((safe_setSlot s 0 none (Or.inr rfl)).trans (safe_complete _ _ _ _)).keeps (.of_eq (by simp))
      · exact (Moves.refl s).keeps
    · have stays : timeoutSlot 0 s = s := by
        have fits := hc.2.1
        unfold State.chainWatchFits at fits
        unfold timeoutSlot
        split at fits
        · obtain ⟨a, ha⟩ := fits
          simp [ha, timerDue]
        · simp [fits]
      rw [stays]
      exact ho
  · exact (steps_timeoutSlot k s hk).command

end Sys2Proof.Proofs
end

