-- ==== Sys2Proof/Proofs/EveryStep.lean ====
section
/-! PROOF. The resets, every command, and the invariants that every step keeps (R16, R17, R23, R28, R45, R70, R76, R109, R125,
R131). -/

namespace Sys2Proof.Proofs

open Sys2Proof.Machine Sys2Proof.Laws

/-! ### Resets (R27, R28) -/

/-- A state whose blocks hold no request: a reset leaves one. -/
structure Quiet (t : State) : Prop where
  entry : ∀ i, (∃ c, (t.entry i).status = .free c) ∨ ∃ g w, (t.entry i).status = .opened g w
  portZero : t.portZeroActive
  port : ∀ p, (t.port p).resetRequest? = none
  slot : ∀ k, t.slot k = none
  queue : t.queue = []
  reader : t.eng.reader = .stopped
  takeList : t.eng.takeList = []
  active : t.eng.active = []
  speed : t.speed.owner = none

section
variable {t : State} (h : Quiet t)
include h

theorem Quiet.retiringBusy : t.retiringBusy := fun i hr => by
  obtain ⟨c, hc⟩ | ⟨g, w, hw⟩ := h.entry i
  · simp [Entry.isRetiring, hc] at hr
  · simp [Entry.isRetiring, hw] at hr

theorem Quiet.holdersPresent : t.holdersPresent := fun i p hp => by
  obtain ⟨c, hc⟩ | ⟨g, w, hw⟩ := h.entry i
  · simp [Entry.leasedTo, Entry.heldBy, hc] at hp
  · simp [Entry.leasedTo, Entry.heldBy, hw] at hp

theorem Quiet.slotZeroMatching : t.slotZeroMatching := by rw [State.slotZeroMatching, h.slot]; rfl

theorem Quiet.queueOrdered : t.queueOrdered := by rw [queueOrdered_iff, h.queue]; trivial

theorem Quiet.numbered : t.numbered := by rw [numbered_iff, h.takeList, h.active]; exact ⟨nofun, nofun⟩

theorem Quiet.owners : t.owners = [] := by
  have waiter (i : Fin 16) : (t.entry i).waiter? = none := by
    obtain ⟨c, hc⟩ | ⟨g, w, hw⟩ := h.entry i
    · simp [Entry.waiter?, hc]
    · simp [Entry.waiter?, hw]
  simp [State.owners, h.slot, h.queue, waiter, h.port, h.speed]

theorem Quiet.ownersActive : t.ownersActive := by
  refine (ownersActive_iff t).mpr ⟨⟨?_, ?_, ?_, fun _ => h.speed⟩, fun id a l hr => ?_⟩
  · rw [h.owners, h.active]
    exact List.Perm.refl _
  · rw [h.active, h.takeList]
    exact List.Perm.refl _
  · rw [h.takeList]
    exact List.nodup_nil
  · rw [h.reader] at hr
    cases hr

end

theorem softResetBlocks_entry (s : State) (i : Fin 16) : (softResetBlocks s).entry i = (s.entry i).softReset := by
  simp [softResetBlocks, State.entry, RegionTable.softReset]

/-- R28: what a soft reset leaves of an entry. -/
theorem softReset_status (e : Entry) :
    (∃ g w, e.status = .opened g w ∧ w.locked = true ∧ e.softReset.status = .opened g w)
      ∨ e.softReset.status = .free none := by
  unfold Entry.softReset
  split
  · next g w hs =>
    split
    · next hw => exact Or.inl ⟨g, w, hs, hw, rfl⟩
    · exact Or.inr rfl
  all_goals exact Or.inr rfl

/-- R140: the ports after a soft reset. -/
theorem softResetBlocks_port (s : State) (p : Fin 4) :
    (softResetBlocks s).port p = (s.port p).softReset (if p = 0 then .active else .quiesced) := by
  match p with
  | 0 => rfl
  | 1 => rfl
  | 2 => rfl
  | 3 => rfl

theorem softReset_owner (b : Bool) (c : SpeedControl) : (c.softReset b).owner = none := by
  unfold SpeedControl.softReset
  split
  case h_5 => split <;> rfl
  all_goals rfl

theorem softResetBlocks_quiet (s : State) : Quiet (softResetBlocks s) where
  entry i := by
    rw [softResetBlocks_entry]
    obtain ⟨g, w, _, _, h⟩ | h := softReset_status (s.entry i)
    · exact Or.inr ⟨g, w, h⟩
    · exact Or.inl ⟨none, h⟩
  portZero := rfl
  port p := by
    rw [softResetBlocks_port]
    split <;> rfl
  slot k := by simp [softResetBlocks, State.slot]
  queue := rfl
  reader := rfl
  takeList := rfl
  active := rfl
  speed := softReset_owner _ _

theorem command_softReset (s : State) : CommandKeeps s (softReset s) := by
  have quiet := softResetBlocks_quiet s
  have blocks : CommandKeeps s (softResetBlocks s) :=
    { keeps :=
        { locked := fun i r w h => by
            rw [State.lockedAt, softResetBlocks_entry, Entry.softReset, h]
            rfl
          busy := fun _ => quiet.retiringBusy
          holders := fun _ => quiet.holdersPresent
          portZero := fun _ => quiet.portZero
          slotZero := fun _ => quiet.slotZeroMatching
          lists := fun hl => ⟨Nat.zero_le _, fun p => by
            rw [softResetBlocks_port]
            simpa [Port.softReset] using hl.2 p⟩
          ordered := fun _ => quiet.queueOrdered
          numbered := fun _ => quiet.numbered }
      owned := fun _ _ _ => quiet.ownersActive }
  exact blocks.andThen (moves_foldl _ (fun t p => moves_answer p t) portIndices _).steps

/-- The state right after reset. -/
theorem reset_quiet : Quiet State.reset where
  entry i := Or.inl ⟨none, by simp [State.entry, State.reset, RegionTable.reset, Entry.reset]⟩
  portZero := rfl
  port := by decide
  slot k := by simp [State.slot, State.reset]
  queue := rfl
  reader := rfl
  takeList := rfl
  active := rfl
  speed := rfl

theorem reset_listsBounded : State.reset.listsBounded := by decide

/-- A full reset leaves the blocks as the reset state has them. -/
theorem moves_fullReset (pins : Straps) (s : State) : Moves State.reset (fullReset pins s) := .of_eq rfl rfl rfl rfl rfl rfl

theorem moves_fullResetEnds (pins : Straps) (s : State) : Moves s (fullResetEnds pins s) := by
  unfold fullResetEnds
  split
  · exact .of_eq rfl rfl rfl rfl rfl rfl
  · exact .refl s

/-! ### Register writes (R119, R121, R180 to R185) -/

theorem command_ctrlWrite (w : Word) (s : State) : CommandKeeps s (ctrlWrite w s) := by
  unfold ctrlWrite
  split
  · exact command_softReset s
  split
  · exact (Moves.refl s).command
  · exact ((moves_ctrlWsize w s).trans (moves_ctrlAction w _)).command

theorem command_regWrite (offset v : Word) (s : State) : CommandKeeps s (regWrite offset v s) := by
  unfold regWrite
  split
  · exact (Moves.refl s).command
  split
  · exact command_ctrlWrite v s
  split
  · exact (moves_anchStore v s).command
  split
  · exact (moves_controller s s.ctl _).command
  split
  · exact (moves_controller s s.ctl _).command
  · exact (Moves.refl s).command

/-! ### The controller's own steps (R145 to R149, R174, R177) -/

theorem moves_setCtl (s : State) (c : Controller) : Moves s { s with ctl := c } := moves_controller s c s.win

theorem moves_wakeCycleDone (s : State) : Moves s (wakeCycleDone s) := by
  unfold wakeCycleDone
  split
  · exact moves_setCtl s _
  · exact .refl s

theorem moves_refreshInterval (s : State) : Moves s (refreshInterval s) := by
  unfold refreshInterval
  split
  · exact .refl s
  · exact moves_setCtl s _

theorem moves_refreshDone (s : State) : Moves s (refreshDone s) := by
  unfold refreshDone
  split
  · exact moves_setHolder none s
  · exact .refl s

theorem moves_finalRefreshDone (s : State) : Moves s (finalRefreshDone s) := by
  unfold finalRefreshDone
  split
  · exact moves_setCtl s _
  · exact .refl s

theorem moves_selfRefreshEntered (s : State) : Moves s (selfRefreshEntered s) := by
  unfold selfRefreshEntered
  split
  · split
    · exact moves_setCtl s _
    · exact moves_setCtl s _
  · exact .refl s

theorem moves_selfRefreshLeft (s : State) : Moves s (selfRefreshLeft s) := by
  unfold selfRefreshLeft
  split
  · exact moves_setCtl s _
  · exact .refl s

theorem moves_exitRefreshDone (s : State) : Moves s (exitRefreshDone s) := by
  unfold exitRefreshDone
  split
  · exact (moves_setCtl s _).trans (moves_raise .wake _)
  · exact .refl s

/-! ### Every command -/

/-- The command's state is the answer. -/
theorem CommandKeeps.next {s u t : State} (k : CommandKeeps s u)
    (h : (.next u : Host.Outcome State Fault Refusal) = .next t) : CommandKeeps s t := by
  cases h
  exact k

/-- The answer is the arbiter's choice on the command's state (R151). -/
theorem CommandKeeps.answered {s u t : State} (k : CommandKeeps s u) (h : answerNext u = .next t) : CommandKeeps s t :=
  (k.andThen (moves_arbitrate u).steps).next h

theorem exec_keeps (c : Instr) (s t : State) (hc : ∀ pins, c ≠ .fullReset pins) (h : exec c s = .next t) :
    CommandKeeps s t := by
  cases c with
  | openWindow r | closeWindow r | lock r | look r | lease r | renew r | freeLease r | policy r | waitWord r | fill r
  | copy r | scan r | abort r | noop r | port r | portReset r | refreshInterval r | speed r | sleep r | unknown code r
  | recordReadComplete => exact (command_recordReadReturns _ s).answered h
  | waitArmingReadComplete => exact (command_waitArmingDone s).answered h
  | chainWatchArmingReadComplete => exact (moves_tailArmingDone s).command.answered h
  | headerWriteComplete => exact (steps_headerWriteDone s).command.answered h
  | resultWriteComplete => exact (steps_resultWriteDone s).command.answered h
  | engineWriteComplete => exact (steps_otherWriteDone s).command.answered h
  | go w | stop w | softReset w | wset w => exact (command_regWrite _ _ s).answered h
  | registerWriteOther offset v => exact (command_regWrite offset v s).answered h
  | anchWrite v | emskWrite v | eclrWrite v => exact (command_regWrite _ v s).next h
  | fullReset pins => exact absurd rfl (hc pins)
  | fullResetEnd pins => exact (moves_fullResetEnds pins s).command.next h
  | accessArrival p a => exact (moves_present p a s).command.answered h
  | accessComplete => exact (steps_accessDone s).command.answered h
  | fillBurstComplete => exact (steps_fillBurst s).command.answered h
  | copyReadBurstComplete => exact (steps_copyReadBurst s).command.answered h
  | copyWriteBurstComplete => exact (steps_copyWriteBurst s).command.answered h
  | scanBurstComplete => exact (steps_scanBurst s).command.answered h
  | leaseTick => exact (moves_tickTimers s).command.next h
  | leaseExpiry i => exact (moves_expireLease i s).command.next h
  | watchTimeout k => exact (command_timeoutSlot k s).answered h
  | raisingEnd => exact (moves_endRaising s).command.next h
  | lockingEnd present => exact (steps_endLocking present s).command.answered h
  | loweringEnd => exact (steps_endLowering s).command.answered h
  | switchUpComplete => exact (steps_switchUpDone s).command.answered h
  | switchDownComplete => exact (moves_switchDownDone s).command.answered h
  | refreshIntervalEnd => exact (moves_refreshInterval s).command.answered h
  | refreshComplete => exact (moves_refreshDone s).command.answered h
  | wakeCycleComplete => exact (moves_wakeCycleDone s).command.answered h
  | standbyHandoff => exact (moves_handoff s).command.answered h
  | finalRefreshComplete => exact (moves_finalRefreshDone s).command.next h
  | selfRefreshEntryComplete => exact (moves_selfRefreshEntered s).command.next h
  | selfRefreshExitComplete => exact (moves_selfRefreshLeft s).command.next h
  | exitRefreshComplete => exact (moves_exitRefreshDone s).command.answered h
  | prstDrainComplete p => exact (steps_drainPort p s).command.answered h
  | entryRetired i => exact (steps_settleEntry i s).command.answered h
  | stallEnd => exact (moves_endStall s).command.answered h

/-- A step that is no full reset keeps what its command keeps; the queue of commands is in no invariant. -/
theorem step_keeps {s t : State} (h : step s = .next t) (hc : ∀ pins, s.pending.head? ≠ some (.fullReset pins)) :
    CommandKeeps s t := by
  unfold step at h
  split at h
  · exact (Moves.refl s).command.next h
  · next c rest hp =>
    have kept := exec_keeps c { s with pending := rest } t (fun pins e => hc pins (by rw [hp, e]; rfl)) h
    have queued : Moves s { s with pending := rest } := .of_eq rfl rfl rfl rfl rfl rfl
    exact ⟨queued.keeps.trans kept.keeps, kept.owned⟩

/-- A step whose command is a full reset. -/
theorem step_fullReset {s t : State} {pins : Straps} (h : step s = .next t)
    (hp : s.pending.head? = some (.fullReset pins)) : Moves State.reset t := by
  unfold step at h
  split at h
  · next hs => simp [hs] at hp
  · next c rest hs =>
    obtain rfl : c = .fullReset pins := by simpa [hs] using hp
    cases h
    exact moves_fullReset pins _

/-! ### The obligations -/

/-- Settles O57: every command but a full reset keeps the locked windows. -/
theorem lockedWindowStands : Obligations.LockedWindowStands := by
  intro s t i r rights hl h hc
  exact (step_keeps h hc).keeps.locked i r rights hl

/-- Settles O60: every command keeps each invariant, and a full reset leaves the blocks of the reset state. -/
theorem blocksStayConsistent : Obligations.BlocksStayConsistent := by
  intro s t h
  by_cases hf : ∃ pins, s.pending.head? = some (.fullReset pins)
  · obtain ⟨pins, hp⟩ := hf
    have kept := (step_fullReset h hp).keeps
    have quiet := reset_quiet
    exact ⟨fun _ => kept.busy quiet.retiringBusy, fun _ => kept.holders quiet.holdersPresent,
      fun _ => kept.portZero quiet.portZero, fun _ => kept.slotZero quiet.slotZeroMatching,
      fun _ => kept.lists reset_listsBounded, fun _ => kept.ordered quiet.queueOrdered,
      fun _ => kept.numbered quiet.numbered⟩
  · have kept := (step_keeps h fun pins hp => hf ⟨pins, hp⟩).keeps
    exact ⟨kept.busy, kept.holders, kept.portZero, kept.slotZero, kept.lists, kept.ordered, kept.numbered⟩

/-- Settles O44: every command keeps the owners of the active requests, and a full reset leaves none. -/
theorem longRequestsAreOwned : Obligations.LongRequestsAreOwned := by
  intro s t hn hc ho h
  by_cases hf : ∃ pins, s.pending.head? = some (.fullReset pins)
  · obtain ⟨pins, hp⟩ := hf
    exact (step_fullReset h hp).steps.ownersActive reset_quiet.ownersActive
  · exact (step_keeps h fun pins hp => hf ⟨pins, hp⟩).owned hn hc ho

end Sys2Proof.Proofs
end

