-- ==== Sys2Proof/Proofs/TableRequests.lean ====
section
/-! PROOF. OPEN, CLOS, LOCK and LOOK: what their commands answer (R20 to R24, R26). -/

namespace Sys2Proof.Proofs

open Sys2Proof.Machine Sys2Proof.Laws

/-! ### A request's command, from the record read to its block -/

section
variable {s₀ s : State} {a : Word} {r : Request}

/-- The state in which the record of a request has been taken and its block is to carry it out (R102). -/
abbrev takenAs (s : State) (a : Word) (c : Code) (r : Request) : State := s.afterTake a c.word r .taking .header []

/-- A request that needs no room in the transfer queue is handed to its block (R101 to R103). -/
theorem request_handed (c : Code) (hs : s₀.recordReturns a s) (hb : s.noBarrier r)
    (hc : Code.needsRoom (some c) = false) :
    answerNext (requestReturns c r s₀) = .next (arbitrate (handOff (some c) s.eng.nextId r (takenAs s a c r))) :=
  next_congr (requestReturns_eq s₀ s a c r hs hb (by simp [hc]))

/-- An instant request that changes nothing but the engine. -/
theorem instant_answered (c : Code) (hs : s₀.recordReturns a s) (rc : ResultCode) (rw : Replies) :
    instant s.eng.nextId rc rw (takenAs s a c r) = s.answered a c.word r rc rw :=
  have ⟨hr, hn, _, _⟩ := recordReturns_keeps s₀ s a hs
  instant_taken s (takenAs s a c r) a c.word r rc rw hn hr rfl

/-- An instant request that changes one entry. -/
theorem instant_setEntry (c : Code) (hs : s₀.recordReturns a s) (rc : ResultCode) (rw : Replies) (i : Fin 16)
    (e : Entry) :
    instant s.eng.nextId rc rw ((takenAs s a c r).setEntry i e) = (s.answered a c.word r rc rw).putEntry i e :=
  have ⟨hr, hn, _, _⟩ := recordReturns_keeps s₀ s a hs
  instant_taken s ((takenAs s a c r).setEntry i e) a c.word r rc rw hn hr rfl

end

/-! ### OPEN (R20, R21) -/

theorem takeOpen_parm {r : Request} {s : State}
    (h : 15 < r.p0.toNat ∨ s.badRegion r.p1.toNat r.p2.toNat ∨ 256 ≤ r.p3.toNat) (id : RecId) :
    takeOpen id r s = instant id .parm noReplies s := by
  unfold takeOpen
  split
  · rfl
  · next i hi =>
    obtain h | h := h
    · rw [entryIndex_none _ h] at hi
      cases hi
    · exact if_pos (by rwa [badRange_iff])

theorem takeOpen_passed {r : Request} {s : State} {i : Fin 16} (hi : r.p0.toNat = i.val)
    (hg : ¬s.badRegion r.p1.toNat r.p2.toNat) (hw : r.p3.toNat < 256) (id : RecId) :
    takeOpen id r s =
      if s.workGranule < r.p1.toNat + r.p2.toNat then instant id .area noReplies s
      else if (s.entry i).isFree = false then instant id .used noReplies s
      else
        instant id .okay noReplies
          (s.setEntry i
            { status := .opened { base := r.p1.toNat, size := r.p2.toNat }
                { rights := r.p3.extractLsb' 0 8, locked := false }
              inflight := 0
              fault := none }) := by
  unfold takeOpen
  rw [entryIndex_some _ i hi]
  simp only [badRange_iff, hg, Nat.not_le.mpr hw, or_false, if_false, State.touchesWork, decide_eq_true_eq]
  rfl

/-- Settles O1: the tests of OPEN in their order, each on the state in which the record is taken. -/
theorem openDefinesWindow : Obligations.OpenDefinesWindow := by
  intro s₀ s a r hs hb answer
  let taken := takenAs s a .openWindow r
  have run : exec (.openWindow r) s₀ = .next (arbitrate (takeOpen s.eng.nextId r taken)) :=
    request_handed .openWindow hs hb rfl
  rw [run]
  refine ⟨fun bad => next_congr ?_, fun i hi good small => ?_⟩
  · rw [takeOpen_parm (s := taken) bad]
    exact instant_answered .openWindow hs _ _
  rw [takeOpen_passed (s := taken) hi good small]
  refine ⟨fun work => next_congr ?_, fun below => ?_⟩
  · rw [if_pos (show taken.workGranule < _ from work)]
    exact instant_answered .openWindow hs _ _
  rw [if_neg (show ¬taken.workGranule < _ from Nat.not_lt.mpr below)]
  refine ⟨fun used => next_congr ?_, fun free => next_congr ?_⟩
  · rw [if_pos (show (taken.entry i).isFree = false from used)]
    exact instant_answered .openWindow hs _ _
  · rw [if_neg (show (taken.entry i).isFree ≠ false from ne_false_of_eq_true free)]
    exact instant_setEntry .openWindow hs _ _ i _

/-! ### CLOS (R22) and LOCK (R23) -/

section
variable {r : Request} {s : State}

theorem takeClose_parm (h : 15 < r.p0.toNat) (id : RecId) : takeClose id r s = instant id .parm noReplies s := by
  unfold takeClose
  rw [entryIndex_none _ h]

theorem takeLock_parm (h : 15 < r.p0.toNat) (id : RecId) : takeLock id r s = instant id .parm noReplies s := by
  unfold takeLock
  rw [entryIndex_none _ h]

variable {i : Fin 16} (hi : r.p0.toNat = i.val)
include hi

theorem takeClose_not_opened (h : ∀ g w, (s.entry i).status ≠ .opened g w) (id : RecId) :
    takeClose id r s = instant id .noen noReplies s := by
  unfold takeClose
  rw [entryIndex_some _ i hi]
  dsimp only
  split
  · next g w hs => exact absurd hs (h _ w)
  all_goals rfl

theorem takeLock_not_opened (h : ∀ g w, (s.entry i).status ≠ .opened g w) (id : RecId) :
    takeLock id r s = instant id .noen noReplies s := by
  unfold takeLock
  rw [entryIndex_some _ i hi]
  dsimp only
  split
  · next g w hs => exact absurd hs (h g w)
  all_goals rfl

variable {g : Range} {w : WindowDef} (ho : (s.entry i).status = .opened g w)
include ho

/-- R16, R22: the close of a window ends its entry, at once or with the request waiting for the count. -/
theorem takeClose_opened (id : RecId) :
    takeClose id r s =
      if w.locked = true then instant id .lked noReplies s
      else if (s.entry i).inflight = 0 then instant id .okay noReplies (s.setStatus i (.free (some .closed)))
      else
        enterActive id .regionTable
          (s.setStatus i (.retiring g (.window w) .closed (some { request := id, count := (s.entry i).inflight }))) := by
  unfold takeClose
  rw [entryIndex_some _ i hi]
  simp only [ho]
  split
  · rfl
  split
  · next hn => simp [endEntry, ho, hn, raiseIf]
  · next hn => rw [(endEntry_busy .closed id hn).1 g w ho]

theorem takeLock_opened (id : RecId) :
    takeLock id r s = instant id .okay noReplies (s.setStatus i (.opened g { w with locked := true })) := by
  unfold takeLock
  rw [entryIndex_some _ i hi]
  simp only [ho]

end

/-- Settles O2: each request by the state of the entry that it names. -/
theorem closeAndLockWindow : Obligations.CloseAndLockWindow := by
  intro s₀ s a r hs hb closed locked
  have numbered := (recordReturns_keeps s₀ s a hs).2.1
  constructor
  · let taken := takenAs s a .closeWindow r
    have run : exec (.closeWindow r) s₀ = .next (arbitrate (takeClose s.eng.nextId r taken)) :=
      request_handed .closeWindow hs hb rfl
    rw [run]
    refine ⟨fun bad => next_congr ?_, fun i hi => ⟨fun none => next_congr ?_, fun g w ho => ?_⟩⟩
    · rw [takeClose_parm bad]
      exact instant_answered .closeWindow hs _ _
    · rw [takeClose_not_opened hi (s := taken) none]
      exact instant_answered .closeWindow hs _ _
    · rw [takeClose_opened hi (s := taken) ho]
      refine ⟨fun hl => next_congr ?_, fun hl hn => next_congr ?_, fun hl hn => next_congr ?_⟩
      · rw [if_pos hl]
        exact instant_answered .closeWindow hs _ _
      · rw [if_neg (by simp [hl]), if_pos (show (taken.entry i).inflight = 0 from hn)]
        exact instant_setEntry .closeWindow hs _ _ i _
      · rw [if_neg (by simp [hl]), if_neg (show (taken.entry i).inflight ≠ 0 from Nat.ne_of_gt hn)]
        exact enterActive_taken s _ a _ r .regionTable numbered rfl
  · let taken := takenAs s a .lock r
    have run : exec (.lock r) s₀ = .next (arbitrate (takeLock s.eng.nextId r taken)) := request_handed .lock hs hb rfl
    rw [run]
    refine ⟨fun bad => next_congr ?_, fun i hi => ⟨fun none => next_congr ?_, fun g w ho => next_congr ?_⟩⟩
    · rw [takeLock_parm bad]
      exact instant_answered .lock hs _ _
    · rw [takeLock_not_opened hi (s := taken) none]
      exact instant_answered .lock hs _ _
    · rw [takeLock_opened hi (s := taken) ho]
      exact instant_setEntry .lock hs _ _ i _

/-! ### LOOK (R24, R26) -/

theorem takeLook_parm {r : Request}
    (h : 16 < r.p0.toNat ∨ 1 < r.p1.toNat ∨ (r.p1.toNat = 0 ∧ r.p0.toNat = 16) ∨ (r.opt = true ∧ r.p1.toNat = 0))
    (id : RecId) (s : State) : takeLook id r s = instant id .parm noReplies s := by
  unfold takeLook
  split
  · rfl
  · next h1 =>
    split
    · rfl
    · next h2 =>
      split
      · rfl
      · next h3 => exact if_pos (((h.resolve_left h1).resolve_left h2).resolve_left h3)

/-- View 0: the definition of an entry. -/
theorem takeLook_definition {r : Request} {i : Fin 16} (hi : r.p0.toNat = i.val) (hv : r.p1.toNat = 0)
    (ho : r.opt = false) (id : RecId) (s : State) :
    takeLook id r s = instant id .okay (s.entry i).lookDefinition s := by
  have range := i.isLt
  unfold takeLook
  rw [if_neg (by omega), if_neg (by omega), if_neg (by omega), if_neg (by simp [ho]), if_pos hv, entryIndex_some _ i hi]

/-- View 1: a fault record, which CLEAR makes absent. -/
theorem takeLook_fault {r : Request} (hi : r.p0.toNat ≤ 16) (hv : r.p1.toNat = 1) (id : RecId) (s : State) :
    takeLook id r s =
      instant id .okay (lookFault (s.faultOf (entryIndex? r.p0)))
        (if r.opt then clearFault (entryIndex? r.p0) s else s) := by
  unfold takeLook
  rw [if_neg (by omega), if_neg (by omega), if_neg (by omega), if_neg (by omega), if_neg (by omega)]

/-- Settles O4: the refused combinations, view 0, and view 1 of an entry and of pseudo-entry 16. -/
theorem lookReadsOneRecord : Obligations.LookReadsOneRecord := by
  intro s₀ s a r hs hb answer
  have run : exec (.look r) s₀ = .next (arbitrate (takeLook s.eng.nextId r (takenAs s a .look r))) :=
    request_handed .look hs hb rfl
  have state := recordReturns_keeps s₀ s a hs
  rw [run]
  refine ⟨fun bad => next_congr ?_, fun i hi => ⟨fun hv ho => next_congr ?_, fun hv ho => next_congr ?_,
    fun hv ho => next_congr ?_⟩, fun hi hv => ⟨fun ho => next_congr ?_, fun ho => next_congr ?_⟩⟩
  · rw [takeLook_parm bad]
    exact instant_answered .look hs _ _
  · rw [takeLook_definition hi hv ho]
    exact instant_answered .look hs _ _
  · rw [takeLook_fault (by omega) hv, entryIndex_some _ i hi, if_neg (by simp [ho])]
    exact instant_answered .look hs _ _
  · rw [takeLook_fault (by omega) hv, entryIndex_some _ i hi, if_pos ho]
    exact instant_setEntry .look hs _ _ i _
  · rw [takeLook_fault (by omega) hv, entryIndex_none _ (by omega), if_neg (by simp [ho])]
    exact instant_answered .look hs _ _
  · rw [takeLook_fault (by omega) hv, entryIndex_none _ (by omega), if_pos ho]
    exact instant_taken s _ a _ r .okay _ state.2.1 state.1 rfl

end Sys2Proof.Proofs
end

