-- ==== Sys2Proof/Proofs/LookReplies.lean ====
section
/-! PROOF. The layouts of LOOK's replies (R25, R26). -/

namespace Sys2Proof.Proofs

open Sys2Proof.Machine Sys2Proof.Laws

/-! ### View 1: a fault record (R26) -/

/-- RW0 of a fault record, as a number. -/
def faultWord (f : FaultRecord) : Nat :=
  1 + f.port.val * 16 + f.transfer.toNat * 64 + f.dir.code * 128 + f.cause.code * 256 + f.denied * 65536

theorem dir_code (d : Dir) : d.code = (d == .write).toNat := by cases d <;> rfl

theorem cause_code_lt (c : FaultCause) : c.code < 4 := by cases c <;> decide

theorem cause_word (c : FaultCause) :
    BitVec.ofNat 2 c.code =
      (match c with | .entry => 0#2 | .noMatch => 1#2 | .workArea => 2#2 | .beyondDram => 3#2) := by
  cases c <;> rfl

/-- The fields of RW0 of a fault record, from the lowest bit up. -/
structure FaultFields (v : Word) (f : FaultRecord) : Prop where
  present : v.getLsbD 0 = true
  zeroAt1 : v.extractLsb' 1 3 = 0#3
  port : v.extractLsb' 4 2 = BitVec.ofNat 2 f.port.val
  transfer : v.getLsbD 6 = f.transfer
  dir : v.getLsbD 7 = (f.dir == .write)
  cause : v.extractLsb' 8 2 = BitVec.ofNat 2 f.cause.code
  zeroAt10 : v.extractLsb' 10 6 = 0#6
  denied : v.extractLsb' 16 8 = BitVec.ofNat 8 f.denied
  zeroAt24 : v.extractLsb' 24 8 = 0#8

theorem faultWord_fields (f : FaultRecord) (h : f.denied ≤ 255) : FaultFields (BitVec.ofNat 32 (faultWord f)) f := by
  have port := f.port.isLt
  have transfer := Bool.toNat_le f.transfer
  have dir := Bool.toNat_le (f.dir == .write)
  have cause := cause_code_lt f.cause
  have bound : faultWord f < 2 ^ 32 := by rw [faultWord, dir_code]; omega
  have one := Bool.toNat_true
  refine ⟨flag_ofNat _ _ true ?_ (by decide), field_ofNat _ _ _ _ ?_ bound, field_ofNat _ _ _ _ ?_ bound,
    flag_ofNat _ _ _ ?_ (by decide), flag_ofNat _ _ _ ?_ (by decide), field_ofNat _ _ _ _ ?_ bound,
    field_ofNat _ _ _ _ ?_ bound, field_ofNat _ _ _ _ ?_ bound, field_ofNat _ _ _ _ ?_ bound⟩
  all_goals
    rw [faultWord, dir_code]
    omega

/-! ### View 0: the definition of an entry (R25) -/

/-- RW0 of an entry: the state, the kind's part, the end cause and the in-flight count, as a number. -/
def entryWord (st kind cause n : Nat) : Nat := st + kind + cause * 4096 + n * 65536

/-- The fields of RW0 that an entry of any kind has. -/
structure EntryFields (v : Word) (st cause n : Nat) : Prop where
  state : v.extractLsb' 0 2 = BitVec.ofNat 2 st
  zeroAt10 : v.extractLsb' 10 2 = 0#2
  cause : v.extractLsb' 12 3 = BitVec.ofNat 3 cause
  zeroAt15 : v.extractLsb' 15 1 = 0#1
  count : v.extractLsb' 16 4 = BitVec.ofNat 4 n
  zeroAt20 : v.extractLsb' 20 4 = 0#4

/-- The fields of RW0 that describe a window. -/
structure WindowFields (v : Word) (w : WindowDef) : Prop where
  kind : v.extractLsb' 2 2 = 1#2
  locked : v.getLsbD 4 = w.locked
  zeroAt5 : v.extractLsb' 5 5 = 0#5
  rights : v.extractLsb' 24 8 = w.rights

/-- The fields of RW0 that describe a lease. -/
structure LeaseFields (v : Word) (l : LeaseDef) : Prop where
  kind : v.extractLsb' 2 2 = 2#2
  unlocked : v.getLsbD 4 = false
  mode : v.extractLsb' 5 2 = BitVec.ofNat 2 l.mode.code
  cls : v.getLsbD 7 = (l.cls == .priority)
  demoted : v.getLsbD 8 = l.demoted
  expiry : v.getLsbD 9 = l.expiry.isSome
  holders : v.extractLsb' 24 4 = l.holders
  zeroAt28 : v.extractLsb' 28 4 = 0#4

theorem mode_code_lt (m : LeaseMode) : m.code < 4 := by cases m <;> decide

theorem class_code (c : BwClass) : c.code = (c == .priority).toNat := by cases c <;> rfl

theorem endCause_code_lt (c : EndCause) : c.code < 8 := by cases c <;> decide

/-- The kind's part of RW0 lies in bits 2 to 9 and 24 to 31. -/
theorem kind_look_bits (k : Kind) : ∃ low high, k.look = low * 4 + high * 16777216 ∧ low < 256 ∧ high < 256 := by
  cases k with
  | window w =>
    have locked := Bool.toNat_le w.locked
    exact ⟨1 + w.locked.toNat * 4, w.rights.toNat, by rw [Kind.look]; omega, by omega, w.rights.isLt⟩
  | lease l =>
    have mode := mode_code_lt l.mode
    have cls := Bool.toNat_le (l.cls == .priority)
    have demoted := Bool.toNat_le l.demoted
    have expiry := Bool.toNat_le l.expiry.isSome
    have holders := l.holders.isLt
    refine ⟨2 + l.mode.code * 8 + l.cls.code * 32 + l.demoted.toNat * 64 + l.expiry.isSome.toNat * 128,
      l.holders.toNat, by rw [Kind.look]; omega, ?_, by omega⟩
    rw [class_code]
    omega

section
variable {st cause n : Nat} (hs : st < 4) (hc : cause < 8) (hn : n ≤ 9)
include hs hc hn

/-- The fields common to all kinds; a FREE entry has no kind. -/
theorem entryWord_fields {kind low high : Nat} (hk : kind = low * 4 + high * 16777216) (hl : low < 256)
    (hh : high < 256) : EntryFields (BitVec.ofNat 32 (entryWord st kind cause n)) st cause n := by
  have bound : entryWord st kind cause n < 2 ^ 32 := by rw [entryWord]; omega
  refine ⟨field_ofNat _ _ _ _ ?_ bound, field_ofNat _ _ _ _ ?_ bound, field_ofNat _ _ _ _ ?_ bound,
    field_ofNat _ _ _ _ ?_ bound, field_ofNat _ _ _ _ ?_ bound, field_ofNat _ _ _ _ ?_ bound⟩
  all_goals
    rw [entryWord]
    omega

theorem entryWord_window (w : WindowDef) :
    WindowFields (BitVec.ofNat 32 (entryWord st (Kind.window w).look cause n)) w := by
  have locked := Bool.toNat_le w.locked
  have rights := w.rights.isLt
  have bound : entryWord st (Kind.window w).look cause n < 2 ^ 32 := by rw [entryWord, Kind.look]; omega
  refine ⟨field_ofNat _ _ _ _ ?_ bound, flag_ofNat _ _ _ ?_ (by decide), field_ofNat _ _ _ _ ?_ bound,
    (field_ofNat _ _ _ w.rights.toNat ?_ bound).trans (by simp)⟩
  all_goals
    rw [entryWord, Kind.look]
    omega

theorem entryWord_lease (l : LeaseDef) :
    LeaseFields (BitVec.ofNat 32 (entryWord st (Kind.lease l).look cause n)) l := by
  have mode := mode_code_lt l.mode
  have cls := Bool.toNat_le (l.cls == .priority)
  have demoted := Bool.toNat_le l.demoted
  have expiry := Bool.toNat_le l.expiry.isSome
  have holders := l.holders.isLt
  have bound : entryWord st (Kind.lease l).look cause n < 2 ^ 32 := by rw [entryWord, Kind.look, class_code]; omega
  have zero := Bool.toNat_false
  refine ⟨field_ofNat _ _ _ _ ?_ bound, flag_ofNat _ _ false ?_ (by decide), field_ofNat _ _ _ _ ?_ bound,
    flag_ofNat _ _ _ ?_ (by decide), flag_ofNat _ _ _ ?_ (by decide), flag_ofNat _ _ _ ?_ (by decide),
    (field_ofNat _ _ _ l.holders.toNat ?_ bound).trans (by simp), field_ofNat _ _ _ _ ?_ bound⟩
  all_goals
    rw [entryWord, Kind.look, class_code]
    omega

end

/-- RW1: base and size of a range of `2 ^ k` granules. -/
theorem range_look_fields {g : Range} {k : Nat} (hk : k ≤ 16) (hg : g.size = 2 ^ k) (hb : g.base < 65536) :
    (BitVec.ofNat 32 g.look).extractLsb' 0 16 = BitVec.ofNat 16 g.base ∧
      (BitVec.ofNat 32 g.look).extractLsb' 16 5 = BitVec.ofNat 5 k ∧
      (BitVec.ofNat 32 g.look).extractLsb' 21 11 = 0#11 := by
  have look : g.look = g.base + k * 65536 := by rw [Range.look, hg, Nat.log2_two_pow]
  rw [look]
  exact ⟨field_ofNat _ _ _ _ (by omega) (by omega), field_ofNat _ _ _ _ (by omega) (by omega),
    field_ofNat _ _ _ _ (by omega) (by omega)⟩

/-! ### What LOOK replies of an entry, by its state -/

/-- The state's code in RW0 (R25). -/
def stateCode : EntryStatus → Nat
  | .free _ => 0
  | .opened _ _ => 1
  | .leased _ _ => 2
  | .retiring _ _ _ _ => 3

/-- The kind of an entry that has one. -/
def kindOf? : EntryStatus → Option (Range × Kind)
  | .free _ => none
  | .opened g w => some (g, .window w)
  | .leased g l => some (g, .lease l)
  | .retiring g k _ _ => some (g, k)

/-- The end cause that an entry shows. -/
def endCauseOf : EntryStatus → Nat
  | .free c => causeCode c
  | .opened _ _ => 0
  | .leased _ _ => 0
  | .retiring _ _ c _ => c.code

theorem lookDefinition_kind {e : Entry} {g : Range} {k : Kind} (h : kindOf? e.status = some (g, k)) :
    e.lookDefinition =
      replies (entryWord (stateCode e.status) k.look (endCauseOf e.status) e.inflight) g.look k.lookExpiry
        k.lookSerial := by
  unfold Entry.lookDefinition
  cases hs : e.status with
  | free c => simp [hs, kindOf?] at h
  | opened g' w =>
    obtain ⟨rfl, rfl⟩ : g' = g ∧ Kind.window w = k := by simpa [hs, kindOf?] using h
    simp [entryWord, stateCode, endCauseOf, Kind.lookExpiry, Kind.lookSerial]
  | leased g' l =>
    obtain ⟨rfl, rfl⟩ : g' = g ∧ Kind.lease l = k := by simpa [hs, kindOf?] using h
    simp [entryWord, stateCode, endCauseOf]
  | retiring g' k' c w =>
    obtain ⟨rfl, rfl⟩ : g' = g ∧ k' = k := by simpa [hs, kindOf?] using h
    rfl

theorem lookDefinition_free {e : Entry} {c : Option EndCause} (h : e.status = .free c) :
    e.lookDefinition = replies (entryWord 0 0 (causeCode c) e.inflight) 0 0 0 := by
  simp [Entry.lookDefinition, h, entryWord]

theorem endCauseOf_lt (st : EntryStatus) : endCauseOf st < 8 := by
  rcases st with (_ | c) | _ | _ | ⟨_, _, c, _⟩
  · decide
  · exact endCause_code_lt c
  · exact Nat.succ_pos 7
  · exact Nat.succ_pos 7
  · exact endCause_code_lt c

theorem stateCode_lt (st : EntryStatus) : stateCode st < 4 := by cases st <;> simp [stateCode]

/-- The fields common to all states. -/
theorem lookDefinition_fields (e : Entry) (hn : e.inflight ≤ 9) :
    EntryFields e.lookDefinition.rw0 (stateCode e.status) (endCauseOf e.status) e.inflight := by
  have hs := stateCode_lt e.status
  have hc := endCauseOf_lt e.status
  cases hk : kindOf? e.status with
  | none =>
    cases he : e.status with
    | free c =>
      rw [he] at hs hc
      rw [lookDefinition_free he]
      exact entryWord_fields hs hc hn (low := 0) (high := 0) rfl (by decide) (by decide)
    | opened g w => simp [he, kindOf?] at hk
    | leased g l => simp [he, kindOf?] at hk
    | retiring g k c w => simp [he, kindOf?] at hk
  | some gk =>
    obtain ⟨low, high, hlook, hlow, hhigh⟩ := kind_look_bits gk.2
    rw [lookDefinition_kind hk]
    exact entryWord_fields hs hc hn hlook hlow hhigh

/-- The replies of an entry that describes a window. -/
theorem lookDefinition_window {e : Entry} {g : Range} {w : WindowDef} (h : kindOf? e.status = some (g, .window w))
    (hn : e.inflight ≤ 9) :
    WindowFields e.lookDefinition.rw0 w ∧ e.lookDefinition.rw2 = 0#32 ∧ e.lookDefinition.rw3 = 0#32 := by
  rw [lookDefinition_kind h]
  exact ⟨entryWord_window (stateCode_lt _) (endCauseOf_lt _) hn w, rfl, rfl⟩

/-- The replies of an entry that describes a lease. -/
theorem lookDefinition_lease {e : Entry} {g : Range} {l : LeaseDef} (h : kindOf? e.status = some (g, .lease l))
    (hn : e.inflight ≤ 9) :
    LeaseFields e.lookDefinition.rw0 l ∧
      e.lookDefinition.rw2 = (match l.expiry with | none => 0#32 | some t => BitVec.ofNat 32 t.remaining) ∧
      e.lookDefinition.rw3 = l.serial := by
  rw [lookDefinition_kind h]
  refine ⟨entryWord_lease (stateCode_lt _) (endCauseOf_lt _) hn l, ?_, ?_⟩
  · cases hx : l.expiry <;> simp [replies, Kind.lookExpiry, hx]
  · simp [replies, Kind.lookSerial]

/-- RW1 of an entry that has a range. -/
theorem lookDefinition_range {e : Entry} {g : Range} {k : Kind} (h : kindOf? e.status = some (g, k)) :
    e.lookDefinition.rw1 = BitVec.ofNat 32 g.look := by
  rw [lookDefinition_kind h]
  rfl

theorem mode_word (m : LeaseMode) :
    BitVec.ofNat 2 m.code = (match m with | .exclusive => 1#2 | .sharedRead => 2#2 | .holderWrite => 3#2) := by
  cases m <;> rfl

theorem endCause_word (c : EndCause) :
    BitVec.ofNat 3 c.code = (match c with | .released => 1#3 | .expired => 2#3 | .closed => 3#3 | .port => 4#3) := by
  cases c <;> rfl

theorem shownCause_word (c : Option EndCause) :
    BitVec.ofNat 3 (causeCode c) =
      (match c with
        | none => 0#3 | some .released => 1#3 | some .expired => 2#3 | some .closed => 3#3 | some .port => 4#3) := by
  obtain _ | c := c
  · rfl
  · cases c <;> rfl

/-- RW0 of a FREE entry, below its end cause and above its count. -/
theorem lookDefinition_free_fields {e : Entry} {c : Option EndCause} (h : e.status = .free c) (hn : e.inflight ≤ 9) :
    e.lookDefinition.rw0.extractLsb' 0 10 = 0#10 ∧ e.lookDefinition.rw0.extractLsb' 24 8 = 0#8 := by
  have hc : causeCode c < 8 := by
    have := endCauseOf_lt e.status
    rwa [h] at this
  rw [lookDefinition_free h]
  exact ⟨field_ofNat _ _ _ _ (by rw [entryWord]; omega) (by rw [entryWord]; omega),
    field_ofNat _ _ _ _ (by rw [entryWord]; omega) (by rw [entryWord]; omega)⟩

/-- Settles O5: view 1 field by field, and view 0 by the state of the entry. -/
theorem lookReplyLayouts : Obligations.LookReplyLayouts := by
  refine ⟨⟨rfl, fun f hf => ?_⟩, fun e hn => ?_⟩
  · have fields := faultWord_fields f hf
    exact ⟨fields.present, fields.zeroAt1, fields.port, fields.transfer, fields.dir,
      fields.cause.trans (cause_word f.cause), fields.zeroAt10, fields.denied, fields.zeroAt24, by simp [lookFault, replies],
      rfl, rfl⟩
  have fields := lookDefinition_fields e hn
  refine ⟨fields.count, fields.zeroAt10, fields.zeroAt15, fields.zeroAt20, fun c h => ?_, fun g w h => ?_,
    fun g l h => ?_, fun g k c w h => ?_, fun g w h k hk hg hb => ?_, fun g l h k hk hg hb => ?_⟩
  · obtain ⟨low, high⟩ := lookDefinition_free_fields h hn
    have cause := fields.cause
    rw [h] at cause
    rw [lookDefinition_free h] at low high cause ⊢
    exact ⟨low, high, rfl, rfl, rfl, cause.trans (shownCause_word c)⟩
  · rw [h] at fields
    obtain ⟨window, rw2, rw3⟩ := lookDefinition_window (g := g) (w := w) (by rw [h]; rfl) hn
    exact ⟨fields.state, window.kind, window.locked, window.zeroAt5, fields.cause, window.rights, rw2, rw3⟩
  · rw [h] at fields
    obtain ⟨lease, rw2, rw3⟩ := lookDefinition_lease (g := g) (l := l) (by rw [h]; rfl) hn
    exact ⟨fields.state, lease.kind, lease.unlocked, lease.mode.trans (mode_word l.mode), lease.cls, lease.demoted,
      lease.expiry, fields.cause, lease.holders, lease.zeroAt28, rw2, rw3⟩
  · rw [h] at fields
    refine ⟨fields.state, fields.cause.trans (endCause_word c), fun v hv => ?_, fun l hl => ?_⟩
    · obtain ⟨window, rw2, rw3⟩ := lookDefinition_window (g := g) (w := v) (by rw [h, hv]; rfl) hn
      exact ⟨window.kind, window.locked, window.zeroAt5, window.rights, rw2, rw3⟩
    · obtain ⟨lease, rw2, rw3⟩ := lookDefinition_lease (g := g) (l := l) (by rw [h, hl]; rfl) hn
      exact ⟨lease.kind, lease.unlocked, lease.mode.trans (mode_word l.mode), lease.cls, lease.demoted, lease.expiry,
        lease.holders, lease.zeroAt28, rw3, rw2⟩
  · have range : kindOf? e.status = some (g, .window w) := by obtain h | ⟨c, q, h⟩ := h <;> rw [h] <;> rfl
    rw [lookDefinition_range range]
    exact range_look_fields hk hg hb
  · have range : kindOf? e.status = some (g, .lease l) := by obtain h | ⟨c, q, h⟩ := h <;> rw [h] <;> rfl
    rw [lookDefinition_range range]
    exact range_look_fields hk hg hb

end Sys2Proof.Proofs
end

