-- ==== Sys2Proof/Proofs/Lookup.lean ====
section
/-! PROOF. The lookup (R8 to R12), and an access's arrival (R126, R130). -/

namespace Sys2Proof.Proofs

open Sys2Proof.Machine Sys2Proof.Laws

/-! ### The entry that decides (R9) -/

theorem not_covers_iff (e : Entry) (a : Nat) : e.covers a = false ↔ ¬e.rangeHolds a := by
  rw [← covers_iff, Bool.not_eq_true]

theorem decider_none {s : State} {a : Nat} (h : ∀ i : Fin 16, ¬(s.entry i).rangeHolds a) : s.decider a = none :=
  List.find?_eq_none.mpr fun i _ hc => h i ((covers_iff _ a).mp hc)

theorem decider_first {s : State} {a : Nat} {i : Fin 16} (h : (s.entry i).rangeHolds a)
    (hf : ∀ j : Fin 16, j < i → ¬(s.entry j).rangeHolds a) : s.decider a = some i :=
  find_first _ entryIndices i (mem_entryIndices i) sorted_entryIndices ((covers_iff _ a).mpr h)
    fun j _ hj => (not_covers_iff _ a).mpr (hf j hj)

section
variable {s : State} {p : Fin 4} {tr : Bool} {d : Dir} {a : Nat}

/-- Below the work area the deciding entry decides, or the port's kind where there is none. -/
theorem lookup_none (hd : a < s.dramBytes) (hw : a < s.workBase) (h : s.decider a = none) :
    s.lookup p tr d a = if p = 0 then .allowed .default none else .denied (.unclaimed .noMatch) := by
  rw [State.lookup, if_neg (Nat.not_le.mpr hd), if_neg (Nat.not_le.mpr hw), h]

variable {i : Fin 16} (hd : a < s.dramBytes) (hw : a < s.workBase) (h : s.decider a = some i)
include hd hw h

theorem lookup_allowed {c : BwClass} (hc : (s.entry i).decides p tr d = some c) :
    s.lookup p tr d a = .allowed c (some i) := by
  rw [State.lookup, if_neg (Nat.not_le.mpr hd), if_neg (Nat.not_le.mpr hw), h]
  simp only [hc]

theorem lookup_denied (hc : (s.entry i).decides p tr d = none) : s.lookup p tr d a = .denied (.entry i) := by
  rw [State.lookup, if_neg (Nat.not_le.mpr hd), if_neg (Nat.not_le.mpr hw), h]
  simp only [hc]

end

/-! ### What an entry decides (R10, R11) -/

theorem dir_bit (d : Dir) : d.code = if d = .read then 0 else 1 := by cases d <;> rfl

theorem mode_allows_iff (m : LeaseMode) (h : Bool) (d : Dir) :
    m.allows h d = true ↔
      (m = .exclusive ∧ h = true) ∨ (m = .sharedRead ∧ h = true ∧ d = .read)
        ∨ (m = .holderWrite ∧ (h = true ∨ d = .read)) := by
  cases m <;> cases d <;> simp [LeaseMode.allows]

section
variable {e : Entry} (p : Fin 4) (tr : Bool) (d : Dir)

theorem decides_retiring {g : Range} {k : Kind} {c : EndCause} {q : Option Waiter}
    (h : e.status = .retiring g k c q) : e.decides p tr d = none := by rw [Entry.decides, h]

theorem decides_opened {g : Range} {w : WindowDef} (h : e.status = .opened g w) :
    e.decides p tr d =
      if w.rights.getLsbD (2 * p.val + (if d = .read then 0 else 1)) = true then some .default else none := by
  rw [Entry.decides, h]
  simp only [WindowDef.allows, dir_bit]

theorem decides_leased {g : Range} {l : LeaseDef} (h : e.status = .leased g l) :
    e.decides p tr d = if l.mode.allows (l.holders.getLsbD p.val) d = true then some (l.grantClass p tr) else none := by
  rw [Entry.decides, h]
  rfl

end

/-- Settles O34: above the DRAM, in the work area, and below it by the first entry that holds the address. -/
theorem lookupDecides : Obligations.LookupDecides := by
  intro s p tr d a
  refine ⟨fun beyond => if_pos beyond, fun hd work => ?_, fun hd hw => ⟨fun none => ?_, fun i hi hf => ?_⟩⟩
  · rw [State.lookup, if_neg (Nat.not_le.mpr hd), if_pos work]
    exact ⟨fun hp => if_pos hp, fun hp => if_neg hp⟩
  · rw [lookup_none hd hw (decider_none none)]
    exact ⟨fun hp => if_pos hp, fun hp => if_neg hp⟩
  · have decider := decider_first hi hf
    refine ⟨fun g k c q h => ?_, fun g w h => ?_, fun g l h => ?_⟩
    · exact lookup_denied hd hw decider (decides_retiring p tr d h)
    · refine ⟨fun right => lookup_allowed hd hw decider ?_, fun right => lookup_denied hd hw decider ?_⟩
      · rw [decides_opened p tr d h, if_pos right]
      · rw [decides_opened p tr d h, if_neg (Bool.not_eq_true _ ▸ right)]
    · intro holder allowed
      have decides := decides_leased p tr d h
      refine ⟨fun no => lookup_denied hd hw decider ?_, fun yes priority holds agent => lookup_allowed hd hw decider ?_,
        fun yes default => lookup_allowed hd hw decider ?_⟩
      · rw [decides, if_neg fun ha => no ((mode_allows_iff _ _ d).mp ha)]
      · rw [decides, if_pos ((mode_allows_iff _ _ d).mpr yes), LeaseDef.grantClass, if_pos ⟨priority, holds, agent⟩]
      · rw [decides, if_pos ((mode_allows_iff _ _ d).mpr yes), LeaseDef.grantClass, if_neg]
        rintro ⟨priority, holds, agent⟩
        obtain hc | hh | ht := default
        · rw [hc] at priority
          cases priority
        · rw [show l.holds p = false from hh] at holds
          cases holds
        · rw [ht] at agent
          cases agent

/-! ### Arrival (R126, R130) -/

theorem countIn_ports (e : Option (Fin 16)) (s : State) : (countIn e s).ports = s.ports := by cases e <;> rfl

theorem recordDenial_ports (r : DenyRecord) (p : Fin 4) (tr : Bool) (d : Dir) (a : Word) (s : State) :
    (recordDenial r p tr d a s).ports = s.ports := by cases r <;> rfl

/-- An access joins the outstanding list of a port as the list stood. -/
theorem pushAccess_eq {p : Fin 4} {y : Access} {s u : State} (h : u.ports = s.ports) :
    pushAccess p y u = u.putOutstanding p ((s.port p).outstanding ++ [y]) := by
  rw [← port_congr h]
  rfl

section
variable {s : State} {p : Fin 4} {x : AccessReq}

/-- An access that is decided without a lookup. -/
theorem arrive_decided {o : PortOutcome} (h : decidedAtArrival (s.port p).state x = some o) :
    arrive p x s = s.putOutstanding p ((s.port p).outstanding ++ [{ req := x, stage := .decided o }]) := by
  rw [arrive, h]
  rfl

/-- An access that the lookup denies. -/
theorem arrive_denied {r : DenyRecord} (h : decidedAtArrival (s.port p).state x = none)
    (hl : s.lookup p false x.dir x.addr.toNat = .denied r) :
    arrive p x s =
      (raise .fence (recordDenial r p false x.dir x.addr s)).putOutstanding p
        ((s.port p).outstanding ++ [{ req := x, stage := .decided .denied }]) := by
  rw [arrive, h]
  simp only [hl]
  exact pushAccess_eq (recordDenial_ports r p false x.dir x.addr s)

/-- An access that the lookup allows. -/
theorem arrive_allowed {c : BwClass} {e : Option (Fin 16)} (h : decidedAtArrival (s.port p).state x = none)
    (hl : s.lookup p false x.dir x.addr.toNat = .allowed c e) :
    arrive p x s =
      State.putOutstanding { countIn e s with ctl := if p = 0 then s.ctl.release.wake else s.ctl } p
        ((s.port p).outstanding ++ [{ req := x, stage := .waiting c e }]) := by
  have control : (countIn e s).ctl = s.ctl := by cases e <;> rfl
  rw [arrive, h]
  simp only [hl, Decision.cause, Decision.stage, applyDecision, hostCause]
  rw [pushAccess_eq (countIn_ports e s), ← control]
  split <;> rfl

theorem arrive_bus : ((arrive p x s).port p).bus = (s.port p).bus := by
  cases hd : decidedAtArrival (s.port p).state x with
  | some o =>
    rw [arrive_decided hd]
    simp [State.putOutstanding, State.port]
  | none =>
    cases hl : s.lookup p false x.dir x.addr.toNat with
    | allowed c e =>
      rw [arrive_allowed hd hl]
      simp [State.putOutstanding, State.port]
    | denied r =>
      rw [arrive_denied hd hl]
      simp [State.putOutstanding, State.port]

end

/-- R126: an access is presented on the bus, behind those held there. -/
theorem exec_accessArrival {s : State} (h : s.inReset = false) (p : Fin 4) (x : AccessReq) :
    exec (.accessArrival p x) s = .next (arbitrate (acceptHeld p ((s.port p).bus ++ [x]) s)) := by
  refine next_congr ?_
  rw [present, if_neg (by simp [h])]

/-- The oldest access of a bus arrives where the outstanding list has a place. -/
theorem acceptHeld_cons {s : State} {p : Fin 4} (h : (s.port p).outstanding.length < 2) (x : AccessReq)
    (held : List AccessReq) : acceptHeld p (x :: held) s = acceptHeld p held (flush p (arrive p x s)) := by
  rw [acceptHeld, if_pos h]

/-- What the arrival of an access leaves: on an empty bus, and as the oldest held on one. -/
theorem arrival_becomes {s : State} {p : Fin 4} {x : AccessReq} (hr : s.inReset = false)
    (ho : (s.port p).outstanding.length < 2) {w : State} (hw : arrive p x s = w) :
    ((s.port p).bus = [] → exec (.accessArrival p x) s = .next (arbitrate (flush p w))) ∧
      ∀ held, acceptHeld p (x :: held) s = acceptHeld p held (flush p w) := by
  subst hw
  refine ⟨fun hb => ?_, acceptHeld_cons ho x⟩
  rw [exec_accessArrival hr, hb]
  refine next_congr ((acceptHeld_cons ho x []).trans (setPort_bus p _ ?_))
  rw [flush_bus, arrive_bus, hb]

/-- R130: what an access that is not malformed meets at a port in each state. -/
theorem decidedAtArrival_good {x : AccessReq} (h : ¬badAccess x) :
    decidedAtArrival .active x = none ∧ decidedAtArrival .quiesced x = some .retry ∧
      decidedAtArrival .disabled x = some .unclaimed ∧ ∀ q, decidedAtArrival (.resetting q) x = some .aborted := by
  have good : ¬x.malformed = true := by rwa [malformed_iff]
  exact ⟨if_neg good, if_neg good, if_neg good, fun _ => if_neg good⟩

theorem decidedAtArrival_bad {x : AccessReq} (h : badAccess x) (st : PortState) :
    decidedAtArrival st x = some .aborted :=
  if_pos ((malformed_iff x).mpr h)

/-- Settles O32: a malformed access, one by the state of its port, and one by the lookup. -/
theorem accessIsDecidedAtArrival : Obligations.AccessIsDecidedAtArrival := by
  intro s p x hr joins becomes
  refine ⟨exec_accessArrival hr p x, rfl, rfl, fun full held => ?_, fun ho => ⟨fun bad => ?_, fun good => ?_⟩,
    fun i => rfl, rfl, fun i tr d a => rfl, fun c tr d a => rfl⟩
  · rw [acceptHeld, if_neg (Nat.not_lt.mpr full)]
    rfl
  · exact arrival_becomes hr ho (arrive_decided (decidedAtArrival_bad bad _))
  · obtain ⟨active, quiesced, disabled, resetting⟩ := decidedAtArrival_good good
    refine ⟨fun hs => ?_, fun hs => ?_, fun ⟨q, hs⟩ => ?_, fun hs => ⟨fun r hl => ?_, fun c e hl => ?_⟩⟩
    · exact arrival_becomes hr ho (arrive_decided (by rw [hs, quiesced]))
    · exact arrival_becomes hr ho (arrive_decided (by rw [hs, disabled]))
    · exact arrival_becomes hr ho (arrive_decided (by rw [hs, resetting]))
    · exact arrival_becomes hr ho (arrive_denied (by rw [hs, active]) hl)
    · exact arrival_becomes hr ho (arrive_allowed (by rw [hs, active]) hl)

end Sys2Proof.Proofs
end

