-- ==== Sys2Proof/Proofs/Resets.lean ====
section
/-! PROOF. A RETIRING entry with nothing in flight (R17), the soft reset (R28) and the full reset (R27), block by block. -/

namespace Sys2Proof.Proofs

open Sys2Proof.Machine Sys2Proof.Laws

/-! ### A RETIRING entry becomes FREE (R17) -/

theorem settleEntry_busy {s : State} {i : Fin 16} (h : (s.entry i).inflight ≠ 0) : settleEntry i s = s := if_neg h

theorem settleEntry_not_retiring {s : State} {i : Fin 16} (h : ∀ g k c w, (s.entry i).status ≠ .retiring g k c w) :
    settleEntry i s = s := by
  unfold settleEntry retireEntry
  split
  · split
    · next g k c w hs => exact absurd hs (h g k c w)
    all_goals rfl
  · rfl

section
variable {s : State} {i : Fin 16} {g : Range} {k : Kind} {c : EndCause}

/-- The entry becomes FREE, and EXPIRE is raised for end cause EXPIRED. -/
theorem settleEntry_alone (h : (s.entry i).status = .retiring g k c none) (hn : (s.entry i).inflight = 0) :
    settleEntry i s = raiseIf (c == .expired) .expire (s.setStatus i (.free (some c))) := by
  rw [settleEntry, if_pos hn, retireEntry, h]

/-- The entry becomes FREE and its waiting request completes before EXPIRE is raised. -/
theorem settleEntry_waiting {q : Waiter} (h : (s.entry i).status = .retiring g k c (some q))
    (hn : (s.entry i).inflight = 0) :
    settleEntry i s =
      raiseIf (c == .expired) .expire
        (complete q.request .okay (replies q.count 0 0 0) (s.setStatus i (.free (some c)))) := by
  rw [settleEntry, if_pos hn, retireEntry, h]

end

theorem raiseIf_expired (c : EndCause) (s : State) :
    raiseIf (c == .expired) .expire s = if c = .expired then raise .expire s else s := by
  cases c <;> rfl

/-- Settles O51: the entry RETIRING at count 0, and every other entry. -/
theorem retiringEntryBecomesFree : Obligations.RetiringEntryBecomesFree := by
  intro s i
  refine ⟨fun g k c w h hn => next_congr ?_, fun stays => next_congr ?_, rfl, rfl, rfl⟩
  · cases w with
    | none => exact (settleEntry_alone h hn).trans (raiseIf_expired c _)
    | some q => exact (settleEntry_waiting h hn).trans (raiseIf_expired c _)
  · obtain busy | other := stays
    · exact settleEntry_busy busy
    · exact settleEntry_not_retiring other

/-! ### The soft reset (R28, R94, R123, R140, R170) -/

theorem ctrl_or_softReset (w : Word) : (w ||| 0x04#32).getLsbD 2 = true := by
  rw [BitVec.getLsbD_or]
  simp

/-- R181: a write to CTRL with bit 2 set. -/
theorem exec_softReset {s : State} (h : s.inReset = false) (w : Word) :
    exec (.softReset w) s =
      .next (arbitrate
        (Machine.answer 3 (Machine.answer 2 (Machine.answer 1 (Machine.answer 0 (softResetBlocks s)))))) := by
  refine next_congr ?_
  rw [regWrite_running s _ _ h, if_pos rfl, ctrlWrite, if_pos (ctrl_or_softReset w), softReset, portIndices]
  simp only [List.foldl]

theorem softReset_locked {e : Entry} {g : Range} {w : WindowDef} (h : e.status = .opened g w) (hw : w.locked = true) :
    e.softReset = { status := .opened g w, inflight := 0, fault := none } := by
  rw [Entry.softReset, h]
  exact if_pos hw

theorem softReset_unlocked {e : Entry} (h : ∀ g w, e.status = .opened g w → w.locked = false) :
    e.softReset = { status := .free none, inflight := 0, fault := none } := by
  unfold Entry.softReset
  split
  · next g w hs => rw [if_neg (by simp [h g w hs])]; rfl
  all_goals rfl

/-- R123: the operation that holds the DRAM goes on, its data unwanted. -/
theorem softResetOps_eq (s : State) :
    s.softResetOps = if s.arb.holder = some .chain then (s.eng.ops.take 1).map EngineOp.discard else [] := by
  unfold State.softResetOps
  split
  · next hc ho => simp [hc, ho]
  · next hne =>
    split
    · next hc =>
      cases ho : s.eng.ops with
      | nil => rfl
      | cons op l => exact absurd ho (hne op l hc)
    · rfl

/-- R94: the holder stands, but for a burst of the transfer unit. -/
theorem softResetHolder_other {s : State} (h : s.arb.holder ≠ some .transfer) : s.softResetHolder = s.arb.holder := by
  unfold State.softResetHolder
  split
  · next t rest hh hq => exact absurd hh h
  · rfl

theorem softResetHolder_bursting {s : State} {t : Transfer} {b : Burst} {rest : List Transfer}
    (h : s.bursting t b rest) : s.softResetHolder = some (.orphan (t.orphan b)) := by
  obtain ⟨hh, hq, hb⟩ := h
  simp [State.softResetHolder, hh, hq, hb]

theorem softReset_stage (x : Access) :
    x.softReset.req = x.req ∧ (∀ c e, x.stage = .waiting c e → x.softReset.stage = .decided .retry) ∧
      (∀ c e, x.stage = .inProgress c e → x.softReset.stage = .inProgress c none) ∧
      (∀ o, x.stage = .decided o → x.softReset.stage = x.stage) ∧
      (∀ d, x.stage = .done d → x.softReset.stage = x.stage) := by
  cases h : x.stage <;> simp [Access.softReset, h]

theorem softReset_speed (b : Bool) (v : SpeedControl) :
    (v.softReset b).owner = none ∧ (v.softReset b).demoted = 0 ∧
      (v.state = .base ∨ v.state = .full ∨ v.state = .switchingDown ∨ v.state = .lowering
          ∨ (v.state = .switchingUp ∧ b = true) → v.softReset b = { v with owner := none, demoted := 0 }) ∧
      (v.state = .raising ∨ v.state = .locking →
        v.softReset b = { v with owner := none, demoted := 0, state := .base, supply := .low, pll := .off, timer := none }) ∧
      (v.state = .switchingUp → b = false →
        v.softReset b =
          { v with
            owner := none, demoted := 0, state := .base, supply := .low, pll := .off, timer := none
            switchWaiting := false }) := by
  cases h : v.state <;> cases b <;> simp [SpeedControl.softReset, SpeedControl.settleBase, h]

theorem discard_cases (op : EngineOp) :
    (∀ a b, op = .recordRead a b → op.discard = .recordRead a false) ∧
      (∀ id w b, op = .armWait id w b → op.discard = .armWait id w false) ∧
      (∀ id a b, op = .armTail id a b → op.discard = .armTail id a false) ∧
      ((∃ id a, op = .taknWrite id a) ∨ (∃ id a rw, op = .replyWrite id a rw) ∨ (∃ id a c n, op = .resultWrite id a c n)
          ∨ (∃ b, op = .headerGo b) ∨ (∃ id n l, op = .headerTake id n l) ∨ (∃ a, op = .headerRetired a)
          ∨ (∃ k a, op = .headerFault k a) →
        op.discard = op) := by
  cases op <;> simp [EngineOp.discard]

/-- Settles O28: the blocks as `softResetBlocks` leaves them, one by one. -/
theorem softResetEveryBlock : Obligations.SoftResetEveryBlock := by
  intro s w hr
  obtain ⟨owner, demoted, stands, settles, aborts⟩ := softReset_speed (s.arb.holder == some .switch) s.speed
  refine ⟨softResetBlocks s, exec_softReset hr w, fun i => ⟨fun g v h hl => ?_, fun h => ?_⟩, rfl, rfl, rfl,
    (softResetBlocks_quiet s).slot, rfl, ?_, rfl, fun p hp => ?_, fun p => ⟨?_, ?_, fun n x hx => ?_⟩, owner, demoted,
    fun h => stands ?_, settles, fun h hs => aborts h (by simpa using hs), softResetHolder_other,
    fun t b rest h => ⟨fun a v hj => ?_, fun a v m hj => ?_, fun x y hj => ⟨fun hb => ?_, fun hb => ?_⟩⟩, rfl, rfl,
    fun c => ?_, rfl, rfl, rfl, rfl, rfl, hr, rfl, rfl, rfl, discard_cases⟩
  · rw [softResetBlocks_entry]
    exact softReset_locked h hl
  · rw [softResetBlocks_entry]
    exact softReset_unlocked h
  · rw [← softResetOps_eq]
    rfl
  · rw [softResetBlocks_port, if_neg hp]
    rfl
  · rw [softResetBlocks_port]
    rfl
  · rw [softResetBlocks_port]
    simp [Port.softReset]
  · refine ⟨x.softReset, ?_, softReset_stage x⟩
    rw [softResetBlocks_port]
    simp [Port.softReset, hx]
  · simpa using h
  · exact (softResetHolder_bursting h).trans (by rw [Transfer.orphan, hj])
  · exact (softResetHolder_bursting h).trans (by rw [Transfer.orphan, hj])
  · exact (softResetHolder_bursting h).trans (by rw [Transfer.orphan, hj, hb])
  · exact (softResetHolder_bursting h).trans (by rw [Transfer.orphan, hj, hb])
  · simp [softResetBlocks, State.passOf]

/-! ### The full reset (R27, R142, R145, R160) -/

/-- The state of a reset port. -/
theorem fullReset_port (pins : Straps) (s : State) (p : Fin 4) (hp : p ≠ 0) :
    (fullReset pins s).port p = { state := .quiesced, outstanding := [], bus := [] } := by
  match p with
  | 0 => exact absurd rfl hp
  | 1 => rfl
  | 2 => rfl
  | 3 => rfl

theorem reset_entry (i : Fin 16) : State.reset.entry i = { status := .free none, inflight := 0, fault := none } := by
  simp [State.entry, State.reset, RegionTable.reset, Entry.reset]

theorem fullResetEnds_running {s : State} (h : s.inReset = false) (pins : Straps) : fullResetEnds pins s = s :=
  if_neg (by simp [h])

theorem fullResetEnds_inReset {s : State} (h : s.inReset = true) (pins : Straps) :
    fullResetEnds pins s = { s with straps := pins, inReset := false, ctl := { s.ctl with state := .init true } } :=
  if_pos h

/-- Settles O30: the state that a full reset leaves, and what its end does. -/
theorem fullResetValues : Obligations.FullResetValues := by
  intro s pins
  refine ⟨⟨fullReset pins s, rfl, reset_entry, rfl, rfl, rfl, reset_quiet.slot, rfl, rfl, rfl, fullReset_port pins s, rfl,
    rfl, rfl, rfl, rfl, fun c => ?_, rfl, rfl, rfl, rfl, rfl, rfl, rfl, rfl⟩, fun h => ?_, fun h => ?_⟩
  · simp [fullReset, Arbiter.reset, State.passOf]
  · exact congrArg Host.Outcome.next (fullResetEnds_inReset h pins)
  · exact congrArg Host.Outcome.next (fullResetEnds_running h pins)

/-! ### The reset state has the invariants -/

theorem reset_engineConsistent : State.reset.engineConsistent :=
  ⟨⟨rfl, nofun⟩, reset_quiet.slot 0, trivial, Nat.zero_le _, Nat.zero_le _⟩

/-- Settles O55: the reset state holds no window, no lease and no request. -/
theorem resetHasInvariants : Obligations.ResetHasInvariants := by
  have quiet := reset_quiet
  refine ⟨fun u => rfl, rfl, quiet.retiringBusy, fun i hp => ?_, nofun, fun i j => ?_, quiet.holdersPresent,
    quiet.portZero, reset_listsBounded, quiet.queueOrdered, quiet.slotZeroMatching, quiet.numbered,
    reset_engineConsistent, quiet.ownersActive⟩
  · simp [reset_entry, Entry.holdsPriority] at hp
  · simp [reset_entry, Entry.apart, Entry.lease?]

end Sys2Proof.Proofs
end

