-- ==== Sys2Proof/Proofs/LeaseRelations.lean ====
section
/-! PROOF. The relation by which R33, R50 and R53 are proved: what an operation that grants no lease and sets no policy
SINGLE does to the leases (`Eases`), and the operations of the table, of the ports and of the watch unit that have it. -/

namespace Sys2Proof.Proofs

open Sys2Proof.Machine Sys2Proof.Laws

/-! ### One entry -/

/-- An entry keeps its lease's range and mode or loses the lease, and does not come to hold PRIORITY. -/
structure EntryEases (e e' : Entry) : Prop where
  lease : e'.lease? = none ∨ e'.lease? = e.lease?
  priority : e'.holdsPriority = true → e.holdsPriority = true

theorem EntryEases.refl (e : Entry) : EntryEases e e := ⟨Or.inr rfl, id⟩

theorem EntryEases.trans {e f g : Entry} (h : EntryEases e f) (k : EntryEases f g) : EntryEases e g where
  lease := by
    obtain hk | hk := k.lease
    · exact Or.inl hk
    · rw [hk]; exact h.lease
  priority := h.priority ∘ k.priority

theorem EntryEases.of_status {e e' : Entry} (h : e'.status = e.status) : EntryEases e e' :=
  ⟨Or.inr (by simp [Entry.lease?, h]), by simp [Entry.holdsPriority, h]⟩

theorem EntryEases.of_free {e e' : Entry} {c : Option EndCause} (h : e'.status = .free c) : EntryEases e e' :=
  ⟨Or.inl (by simp [Entry.lease?, h]), by simp [Entry.holdsPriority, h]⟩

theorem EntryEases.of_opened {e e' : Entry} {g : Range} {w : WindowDef} (h : e'.status = .opened g w) :
    EntryEases e e' :=
  ⟨Or.inl (by simp [Entry.lease?, h]), by simp [Entry.holdsPriority, h]⟩

/-- A LEASED entry stays so: holders, expiry and serial may change, and PRIORITY may go. -/
theorem EntryEases.of_leased {e e' : Entry} {g : Range} {l m : LeaseDef} (h : e.status = .leased g l)
    (h' : e'.status = .leased g m) (hm : m.mode = l.mode) (hc : m.cls = .priority → l.cls = .priority) :
    EntryEases e e' :=
  ⟨Or.inr (by simp [Entry.lease?, h, h', hm]), by simpa [Entry.holdsPriority, h, h'] using hc⟩

/-- R16: a lease that ends with a count goes on as RETIRING. -/
theorem EntryEases.of_retiring {e e' : Entry} {g : Range} {l m : LeaseDef} {c : EndCause} {w : Option Waiter}
    (h : e.status = .leased g l ∨ ∃ c w, e.status = .retiring g (.lease l) c w)
    (h' : e'.status = .retiring g (.lease m) c w) (hm : m.mode = l.mode) (hc : m.cls = .priority → l.cls = .priority) :
    EntryEases e e' := by
  obtain h | ⟨_, _, h⟩ := h
  all_goals exact ⟨Or.inr (by simp [Entry.lease?, h, h', hm]), by simpa [Entry.holdsPriority, h, h'] using hc⟩

theorem EntryEases.of_retiring_window {e e' : Entry} {g : Range} {v : WindowDef} {c : EndCause} {w : Option Waiter}
    (h : e'.status = .retiring g (.window v) c w) : EntryEases e e' :=
  ⟨Or.inl (by simp [Entry.lease?, h]), by simp [Entry.holdsPriority, h]⟩

/-! ### The whole -/

/-- What an operation does that grants no lease, sets no policy SINGLE and leaves state FULL only without PRIORITY. -/
structure Eases (s t : State) : Prop where
  entry : ∀ i, EntryEases (s.entry i) (t.entry i)
  policy : t.table.policy = .single → s.table.policy = .single
  full : ∀ i, (t.entry i).holdsPriority = true → s.speed.state = .full → t.speed.state = .full

theorem Eases.refl (s : State) : Eases s s := ⟨fun _ => .refl _, id, fun _ _ => id⟩

theorem Eases.trans {s t u : State} (h : Eases s t) (k : Eases t u) : Eases s u where
  entry i := (h.entry i).trans (k.entry i)
  policy := h.policy ∘ k.policy
  full i hi := k.full i hi ∘ h.full i ((k.entry i).priority hi)

theorem Eases.after {s t u : State} (k : Eases t u) (h : Eases s t) : Eases s u := h.trans k

/-- Neither the table nor the speed state changes. -/
theorem Eases.of_same {s t : State} (ht : t.table = s.table) (hv : t.speed.state = s.speed.state) : Eases s t where
  entry i := by rw [entry_congr ht]; exact .refl _
  policy := by rw [ht]; exact id
  full _ _ := by rw [hv]; exact id

theorem Eases.of_frame {s t : State} (ht : t.table = s.table) (hv : t.speed = s.speed) : Eases s t :=
  .of_same ht (by rw [hv])

/-- The table and speed control of the next operation are those that the first one leaves. -/
theorem Eases.andSame {s t u : State} (h : Eases s t) (ht : u.table = t.table) (hv : u.speed = t.speed) : Eases s u :=
  h.trans (.of_frame ht hv)

/-- No entry holds a lease afterwards, and the policy is SHARED: every reset. -/
theorem Eases.of_quiet {s t : State} (h : Quiet t) (hp : t.table.policy = .shared) : Eases s t where
  entry i := by
    obtain ⟨c, hc⟩ | ⟨g, w, hw⟩ := h.entry i
    · exact .of_free hc
    · exact .of_opened hw
  policy hs := by rw [hp] at hs; cases hs
  full i hi := by
    obtain ⟨c, hc⟩ | ⟨g, w, hw⟩ := h.entry i
    · simp [Entry.holdsPriority, hc] at hi
    · simp [Entry.holdsPriority, hw] at hi

theorem eases_foldl {α : Type} (f : State → α → State) (h : ∀ t a, Eases t (f t a)) (l : List α) (s : State) :
    Eases s (l.foldl f s) := by
  induction l generalizing s with
  | nil => exact .refl s
  | cons a l ih => exact (h s a).trans (ih _)

/-- One entry changes. -/
theorem eases_setEntry (s : State) (i : Fin 16) (e : Entry) (h : EntryEases (s.entry i) e) : Eases s (s.setEntry i e) where
  entry j := by
    rw [entry_setEntry]
    split
    · next hij => subst hij; exact h
    · exact .refl _
  policy := id
  full _ _ := id

theorem eases_setStatus (s : State) (i : Fin 16) (st : EntryStatus)
    (h : EntryEases (s.entry i) { s.entry i with status := st }) : Eases s (s.setStatus i st) := eases_setEntry s i _ h

/-! ### The table -/

theorem eases_countIn (e : Option (Fin 16)) (s : State) : Eases s (countIn e s) := by
  cases e with
  | none => exact .refl s
  | some i => exact eases_setEntry s i _ (.of_status rfl)

theorem eases_recordDenial (r : DenyRecord) (p : Fin 4) (tr : Bool) (d : Dir) (a : Word) (s : State) :
    Eases s (recordDenial r p tr d a s) := by
  cases r with
  | entry i => exact eases_setEntry s i _ (.of_status rfl)
  | unclaimed c => exact ⟨fun _ => .refl _, id, fun _ _ => id⟩

theorem eases_applyDecision (dec : Decision) (p : Fin 4) (tr : Bool) (d : Dir) (a : Word) (s : State) :
    Eases s (applyDecision dec p tr d a s) := by
  cases dec with
  | allowed c e => exact eases_countIn e s
  | denied r => exact (eases_recordDenial r p tr d a s).andSame rfl rfl

theorem eases_clearFault (i : Option (Fin 16)) (s : State) : Eases s (clearFault i s) := by
  cases i with
  | none => exact ⟨fun _ => .refl _, id, fun _ _ => id⟩
  | some i => exact eases_setEntry s i _ (.of_status rfl)

theorem eases_retireEntry (i : Fin 16) (s : State) : Eases s (retireEntry i s) := by
  unfold retireEntry
  split
  · next r k c w hs =>
    have freed : Eases s (s.setStatus i (.free (some c))) := eases_setStatus s i _ (.of_free rfl)
    cases w with
    | none => exact freed.andSame (by simp) (by simp)
    | some w => exact freed.andSame (by simp) (by simp)
  all_goals exact .refl s

theorem eases_settleEntry (i : Fin 16) (s : State) : Eases s (settleEntry i s) := by
  unfold settleEntry
  split
  · exact eases_retireEntry i s
  · exact .refl s

theorem eases_countOut (e : Option (Fin 16)) (s : State) : Eases s (countOut e s) := by
  cases e with
  | none => exact .refl s
  | some i => exact (eases_settleEntry i _).after (eases_setEntry s i _ (.of_status rfl))

theorem eases_endEntry (i : Fin 16) (c : EndCause) (q : Option RecId) (s : State) : Eases s (endEntry i c q s) := by
  have freed : Eases s (raiseIf (c == .expired) .expire (s.setStatus i (.free (some c)))) :=
    (eases_setStatus s i (.free (some c)) (.of_free rfl)).andSame (by simp) (by simp)
  unfold endEntry
  dsimp only
  split
  · split
    · exact freed
    · exact eases_setStatus s i _ (.of_retiring_window rfl)
  · next g l hs =>
    split
    · exact freed
    · exact eases_setStatus s i _ (.of_retiring (Or.inl hs) rfl rfl id)
  all_goals exact .refl s

theorem eases_cancelWaiter (i : Fin 16) (s : State) : Eases s (cancelWaiter i s) := by
  unfold cancelWaiter
  split
  · next g k c w hs =>
    refine (eases_setStatus s i (.retiring g k c none) ?_).andSame (by simp) (by simp)
    cases k with
    | window v => exact .of_retiring_window rfl
    | lease l => exact .of_retiring (Or.inr ⟨c, _, hs⟩) rfl rfl id
  all_goals exact .refl s

theorem eases_expireLease (i : Fin 16) (s : State) : Eases s (expireLease i s) := by
  unfold expireLease
  split
  · split
    · exact eases_endEntry i _ none s
    · exact .refl s
  all_goals exact .refl s

theorem eases_releaseFrom (p : Fin 4) (s : State) (i : Fin 16) : Eases s (releaseFrom p s i) := by
  unfold releaseFrom
  split
  · next g l hs =>
    split
    · split
      · exact eases_endEntry i _ none s
      · exact eases_setStatus s i _ (.of_leased hs rfl rfl id)
    · exact .refl s
  all_goals exact .refl s

theorem eases_releasePort (p : Fin 4) (s : State) : Eases s (releasePort p s) := eases_foldl _ (eases_releaseFrom p) _ s

theorem eases_watchRelease (i : Option (Fin 16)) (s : State) : Eases s (watchRelease i s) := by
  unfold watchRelease
  split
  · exact .refl s
  · split
    · exact eases_endEntry _ _ none s
    all_goals exact .refl s

/-- R52, R53: a demotion takes the class alone. -/
theorem demote_eases (e : Entry) : EntryEases e e.demote := by
  unfold Entry.demote
  split
  · next g l hs =>
    split
    · exact .of_leased hs rfl rfl nofun
    · exact .refl e
  · next g l c w hs =>
    split
    · exact .of_retiring (Or.inr ⟨c, w, hs⟩) rfl rfl nofun
    · exact .refl e
  all_goals exact .refl e

theorem eases_mapEntries (f : Entry → Entry) (s : State) (h : ∀ e, EntryEases e (f e)) :
    Eases s { s with table := { s.table with entries := mapVec f s.table.entries } } where
  entry i := by rw [entry_mapVec]; exact h _
  policy := id
  full _ _ := id

theorem tick_eases (e : Entry) : EntryEases e e.tick := by
  unfold Entry.tick
  split
  · next hs => exact .of_leased hs rfl rfl id
  all_goals exact .refl e

theorem eases_tickTimers (s : State) : Eases s (tickTimers s) :=
  (eases_mapEntries Entry.tick s tick_eases).trans (.of_same rfl rfl)

/-! ### The watch unit -/

theorem eases_fireWait (k : Fin 8) (w : WatchSlot) (v : Word) (s : State) : Eases s (fireWait k w v s) := by
  unfold fireWait
  exact ((eases_watchRelease w.release (s.setSlot k none)).andSame (by simp) (by simp)).after (.of_frame rfl rfl)

theorem eases_evaluateSlot (a : Nat) (v : Word) (s : State) (k : Fin 8) : Eases s (evaluateSlot a v s k) := by
  unfold evaluateSlot
  split
  · exact .refl s
  split
  · split
    · exact .refl s
    · split
      · exact .of_frame (by simp [fireChainWatch]) (by simp)
      · exact eases_fireWait k _ v s
    · exact .of_frame rfl rfl
    · exact .refl s
  · exact .refl s

theorem eases_evaluate (a : Nat) (ws : List Word) (s : State) : Eases s (evaluate a ws s) := by
  induction ws generalizing a s with
  | nil => exact .refl s
  | cons v vs ih => exact (eases_foldl _ (eases_evaluateSlot a v) slotIndices s).trans (ih _ _)

theorem eases_storeAndEvaluate (a : Nat) (ws : List Word) (s : State) : Eases s (storeAndEvaluate a ws s) :=
  (eases_evaluate a ws (s.store a ws)).after (.of_frame rfl rfl)

theorem eases_armWait (id : RecId) (w : WatchSpec) (v : Word) (s : State) : Eases s (armWait id w v s) := by
  unfold armWait
  split
  · exact .of_frame (by simp) (by simp)
  split
  · exact .of_frame (by simp) (by simp)
  split
  · exact (eases_watchRelease w.release s).andSame (by simp [fireAtArming]) (by simp [fireAtArming])
  · exact .of_frame (by simp) (by simp)

/-! ### The transfer unit -/

theorem eases_finishTransfer (id : RecId) (c : ResultCode) (rw : Replies) (s : State) :
    Eases s (finishTransfer id c rw s) := .of_frame (by simp) (by simp)

theorem eases_runQueue (q : List Transfer) (s : State) : Eases s (runQueue q s) := by
  induction q generalizing s with
  | nil => exact .of_frame rfl rfl
  | cons t rest ih =>
    unfold runQueue
    dsimp only
    split
    · exact (eases_applyDecision _ _ _ _ _ s).andSame rfl rfl
    · exact (ih _).after ((eases_finishTransfer _ _ _ _).after (eases_applyDecision _ _ _ _ _ s))

theorem eases_afterBurst (t : Transfer) (fin : Bool) (rest : List Transfer) (s : State) :
    Eases s (afterBurst t fin rest s) := by
  have ended (c : ResultCode) (rw : Replies) : Eases s (runQueue rest (finishTransfer t.owner c rw s)) :=
    (eases_finishTransfer _ c rw s).trans (eases_runQueue rest _)
  unfold afterBurst
  split
  · exact ended _ _
  split
  · exact ended _ _
  · exact eases_runQueue _ s

/-- A burst's end at the head: its count, then what it writes, then what comes after it. -/
theorem eases_fillBurstDone (t : Transfer) (b : Burst) (v : Word) (rest : List Transfer) (s : State) :
    Eases s (fillBurstDone t b v rest s) :=
  ((eases_countOut b.entry s).trans (eases_storeAndEvaluate _ _ _)).trans (eases_afterBurst _ _ _ _)

theorem eases_copyReadDone (t : Transfer) (b : Burst) (rest : List Transfer) (s : State) :
    Eases s (copyReadDone t b rest s) := (eases_countOut b.entry s).trans (eases_afterBurst _ _ _ _)

theorem eases_copyWriteDone (t : Transfer) (b : Burst) (rest : List Transfer) (s : State) :
    Eases s (copyWriteDone t b rest s) :=
  ((eases_countOut b.entry s).trans (eases_storeAndEvaluate _ _ _)).trans (eases_afterBurst _ _ _ _)

theorem eases_scanBurstDone (t : Transfer) (b : Burst) (v m : Word) (rest : List Transfer) (s : State) :
    Eases s (scanBurstDone t b v m rest s) := (eases_countOut b.entry s).trans (eases_afterBurst _ _ _ _)

theorem eases_setHolder (h : Option Holder) (s : State) : Eases s (setHolder h s) := .of_frame rfl rfl

theorem eases_fillBurst (s : State) : Eases s (fillBurst s) := by
  unfold fillBurst
  split
  · split
    · exact (eases_setHolder none s).trans (eases_fillBurstDone _ _ _ _ _)
    all_goals exact .refl s
  · exact (eases_setHolder none s).trans (eases_storeAndEvaluate _ _ _)
  · exact .refl s

theorem eases_copyReadBurst (s : State) : Eases s (copyReadBurst s) := by
  unfold copyReadBurst
  split
  · split
    · exact (eases_setHolder none s).trans (eases_copyReadDone _ _ _ _)
    · exact .refl s
  · exact eases_setHolder none s
  · exact .refl s

theorem eases_copyWriteBurst (s : State) : Eases s (copyWriteBurst s) := by
  unfold copyWriteBurst
  split
  · split
    · exact (eases_setHolder none s).trans (eases_copyWriteDone _ _ _ _)
    · exact .refl s
  · exact (eases_setHolder none s).trans (eases_storeAndEvaluate _ _ _)
  · exact .refl s

theorem eases_scanBurst (s : State) : Eases s (scanBurst s) := by
  unfold scanBurst
  split
  · split
    · exact (eases_setHolder none s).trans (eases_scanBurstDone _ _ _ _ _ _)
    all_goals exact .refl s
  · exact eases_setHolder none s
  · exact .refl s

/-! ### The ports -/

theorem eases_flush (p : Fin 4) (s : State) : Eases s (flush p s) := .of_frame (by simp) (by simp)

theorem eases_arrive (p : Fin 4) (a : AccessReq) (s : State) : Eases s (arrive p a s) := by
  unfold arrive
  split
  · exact .of_frame rfl rfl
  · dsimp only
    generalize s.lookup p false a.dir a.addr.toNat = dec
    refine (eases_applyDecision dec p false a.dir a.addr s).andSame ?_ ?_
    all_goals cases dec <;> simp [Decision.cause]

theorem eases_acceptHeld (p : Fin 4) (l : List AccessReq) (s : State) : Eases s (acceptHeld p l s) := by
  induction l generalizing s with
  | nil => exact .of_frame rfl rfl
  | cons a l ih =>
    unfold acceptHeld
    split
    · exact (eases_arrive p a s).trans ((eases_flush p _).trans (ih _))
    · exact .of_frame rfl rfl

theorem eases_answer (p : Fin 4) (s : State) : Eases s (answer p s) := (eases_flush p s).trans (eases_acceptHeld p _ _)

theorem eases_present (p : Fin 4) (a : AccessReq) (s : State) : Eases s (present p a s) := by
  unfold present
  split
  · exact .refl s
  · exact eases_acceptHeld p _ s

theorem eases_withdrawPort (p : Fin 4) (s : State) : Eases s (withdrawPort p s) :=
  (eases_foldl _ (fun t e => eases_countOut e t) _ _).after (.of_frame rfl rfl)

theorem eases_cancelForPort (p : Fin 4) (s : State) : Eases s (cancelForPort p s) := .of_frame (by simp) (by simp)

theorem eases_formDrainAccesses (p : Fin 4) (s : State) : Eases s (formDrainAccesses p s) :=
  .of_frame (by simp) (by simp)

theorem eases_formDrainTransfers (p : Fin 4) (s : State) : Eases s (formDrainTransfers p s) :=
  .of_frame (by simp) (by simp)

theorem eases_drainPort (p : Fin 4) (s : State) : Eases s (drainPort p s) := .of_frame (by simp) (by simp)

theorem eases_disablePort (p : Fin 4) (s : State) : Eases s (disablePort p s) :=
  (eases_cancelForPort p _).after ((eases_releasePort p _).after ((eases_answer p _).after
    ((eases_withdrawPort p _).after (.of_frame rfl rfl))))

theorem eases_resetPort (id : RecId) (p : Fin 4) (f : FormerState) (s : State) : Eases s (resetPort id p f s) := by
  unfold resetPort
  exact (eases_drainPort p _).after ((eases_releasePort p _).after ((eases_formDrainTransfers p _).after
    ((eases_cancelForPort p _).after ((eases_answer p _).after ((eases_formDrainAccesses p _).after
      ((eases_flush p _).after ((eases_withdrawPort p _).after (.of_frame rfl rfl))))))))

theorem eases_accessStore (a : AccessReq) (s : State) : Eases s (accessStore a s) := by
  unfold accessStore
  split
  · exact .refl s
  · exact eases_storeAndEvaluate _ _ s

theorem eases_portAccessDone (p : Fin 4) (s : State) : Eases s (portAccessDone p s) := by
  unfold portAccessDone
  split
  · exact .refl s
  · next a e _ =>
    refine (eases_answer p _).after (Eases.andSame (t := accessStore a (countOut e s)) ?_ rfl rfl)
    exact (eases_countOut e s).trans (eases_accessStore a _)

theorem eases_accessDone (s : State) : Eases s (accessDone s) := by
  unfold accessDone
  split
  · exact (eases_setHolder none s).trans (eases_portAccessDone _ _)
  · exact .refl s

end Sys2Proof.Proofs
end

