-- ==== Sys2Proof/Proofs/LeaseTakes.lean ====
section
/-! PROOF. What the leases keep at the take of each request: the grant of a lease (R33, R34), the policy SINGLE (R50 to R52),
the speed sequences (R53), and the other requests by `Eases`. -/

namespace Sys2Proof.Proofs

open Sys2Proof.Machine Sys2Proof.Laws

/-! ### What a command keeps -/

/-- R33, R50, R53: the invariants of the leases. -/
structure KeepsLeases (s t : State) : Prop where
  apart : s.leasesApart → t.leasesApart
  restricted : s.priorityFast → s.singleHolder → t.priorityFast ∧ t.singleHolder

theorem KeepsLeases.trans {s t u : State} (h : KeepsLeases s t) (k : KeepsLeases t u) : KeepsLeases s u where
  apart := k.apart ∘ h.apart
  restricted hf hs := (h.restricted hf hs).elim k.restricted

/-- Two leases stay apart where each is as it was or gone. -/
theorem apart_of_eases {e e' f f' : Entry} (he : EntryEases e e') (hf : EntryEases f f') (h : e.apart f = true) :
    e'.apart f' = true := by
  unfold Entry.apart at h ⊢
  obtain he | he := he.lease
  · simp [he]
  obtain hf | hf := hf.lease
  · cases h' : e'.lease? <;> simp [hf]
  · rw [he, hf]
    exact h

theorem Eases.keeps {s t : State} (h : Eases s t) : KeepsLeases s t where
  apart ha i j hij := apart_of_eases (h.entry i) (h.entry j) (ha i j hij)
  restricted hf hs :=
    ⟨fun i hi => h.full i hi (hf i ((h.entry i).priority hi)),
      fun hp i j hi hj => hs (h.policy hp) i j ((h.entry i).priority hi) ((h.entry j).priority hj)⟩

theorem keepsLeases_refl (s : State) : KeepsLeases s s := (Eases.refl s).keeps

theorem eases_instant (id : RecId) (c : ResultCode) (rw : Replies) (s : State) : Eases s (instant id c rw s) :=
  .of_frame (by simp) (by simp)

/-- A request's answer changes neither the table nor speed control. -/
theorem KeepsLeases.answers {s u : State} (h : KeepsLeases s u) (id : RecId) (c : ResultCode) (rw : Replies) :
    KeepsLeases s (instant id c rw u) := h.trans (eases_instant id c rw u).keeps

theorem keepsLeases_answer (id : RecId) (c : ResultCode) (rw : Replies) (s : State) :
    KeepsLeases s (instant id c rw s) := (keepsLeases_refl s).answers id c rw

theorem eases_enterActive (id : RecId) (b : Block) (s : State) : Eases s (enterActive id b s) := .of_frame rfl rfl

/-! ### The grant of a lease (R33, R34) -/

theorem overlaps_comm (g h : Range) : g.overlaps h = h.overlaps g := by
  unfold Range.overlaps
  rw [Bool.and_comm]

theorem apart_comm (e f : Entry) : e.apart f = f.apart e := by
  unfold Entry.apart
  cases e.lease? <;> cases f.lease? <;> simp [overlaps_comm, Bool.and_comm]

/-- R33: an entry that does not refuse a lease is apart from it. -/
theorem apart_of_not_refuses {e f : Entry} {g : Range} {m : LeaseMode} (hf : f.lease? = some (g, m))
    (h : e.refusesLease g m = false) : e.apart f = true := by
  unfold Entry.apart
  rw [hf]
  cases he : e.lease? with
  | none => rfl
  | some a =>
    have free : ¬e.blocksLease g m := by rw [← refusesLease_iff, h]; exact Bool.false_ne_true
    have both : a.1.overlaps g = true → a.2 = .sharedRead ∧ m = .sharedRead :=
      fun ho => not_not.mp fun hn => free ⟨a.1, a.2, he, ho, hn⟩
    cases ho : a.1.overlaps g
    · simp [ho]
    · simp [both ho]

/-- R34: PRIORITY is given in state FULL alone, and under SINGLE where no entry holds it. -/
theorem priorityReason_zero {s : State} (h : s.priorityReason = 0) :
    s.speed.state = .full ∧ (s.table.policy = .single → ∀ j, (s.entry j).holdsPriority = false) := by
  unfold State.priorityReason at h
  split at h
  · cases h
  · next hf =>
    split at h
    · cases h
    · next hs =>
      refine ⟨not_not.mp hf, fun hp j => ?_⟩
      have none_holds : s.priorityHolders = [] := not_not.mp fun hn => hs ⟨hp, hn⟩
      simpa using List.filter_eq_nil_iff.mp none_holds j (mem_entryIndices j)

theorem leaseClass_priority {s : State} {w : Word} (h : s.leaseClass w = .priority) : s.priorityReason = 0 := by
  unfold State.leaseClass at h
  split at h
  · next hw => exact hw.2
  · cases h

theorem grantLease_entry (i j : Fin 16) (r : Request) (m : LeaseMode) (s : State) :
    (grantLease i r m s).entry j =
      if i = j then
        { status := .leased { base := r.p1.toNat, size := r.p2.toNat } (s.grantedLease r m), inflight := 0, fault := none }
      else s.entry j := entry_setEntry _ i j _

/-- R33, R34: the new lease overlaps none that excludes it, and holds PRIORITY only where it may. -/
theorem keepsLeases_grantLease (i : Fin 16) (r : Request) (m : LeaseMode) (s : State)
    (ho : s.overlapWith { base := r.p1.toNat, size := r.p2.toNat } m = none) :
    KeepsLeases s (grantLease i r m s) := by
  have granted : (grantLease i r m s).entry i =
      { status := .leased { base := r.p1.toNat, size := r.p2.toNat } (s.grantedLease r m), inflight := 0
        fault := none } := by rw [grantLease_entry, if_pos rfl]
  have other (j : Fin 16) (hj : i ≠ j) : (grantLease i r m s).entry j = s.entry j := by
    rw [grantLease_entry, if_neg hj]
  have lease : ((grantLease i r m s).entry i).lease? = some ({ base := r.p1.toNat, size := r.p2.toNat }, m) := by
    rw [granted]
    rfl
  have new_apart (j : Fin 16) : (s.entry j).apart ((grantLease i r m s).entry i) = true :=
    apart_of_not_refuses lease (by simpa using List.find?_eq_none.mp ho j (mem_entryIndices j))
  have new_priority (h : ((grantLease i r m s).entry i).holdsPriority = true) : s.priorityReason = 0 := by
    rw [granted] at h
    exact leaseClass_priority (by simpa [Entry.holdsPriority, State.grantedLease] using h)
  refine ⟨fun ha j k hjk => ?_, fun hf hs => ⟨fun j hj => ?_, fun hp j k hj hk => ?_⟩⟩
  · by_cases hj : i = j
    · subst hj
      rw [other k hjk, apart_comm]
      exact new_apart k
    by_cases hk : i = k
    · subst hk
      rw [other j hj]
      exact new_apart j
    · rw [other j hj, other k hk]
      exact ha j k hjk
  · by_cases hij : i = j
    · subst hij
      exact (priorityReason_zero (new_priority hj)).1
    · rw [other j hij] at hj
      exact hf j hj
  · have alone (j : Fin 16) (hi : ((grantLease i r m s).entry i).holdsPriority = true)
        (hj : ((grantLease i r m s).entry j).holdsPriority = true) : i = j := by
      by_contra hij
      rw [other j hij, (priorityReason_zero (new_priority hi)).2 hp j] at hj
      cases hj
    by_cases hij : i = j
    · exact hij.symm.trans (alone k (hij ▸ hj) hk)
    by_cases hik : i = k
    · exact ((alone j (hik ▸ hk) hj).symm.trans hik)
    · rw [other j hij] at hj
      rw [other k hik] at hk
      exact hs hp j k hj hk

theorem keepsLeases_takeLease (id : RecId) (r : Request) (s : State) : KeepsLeases s (takeLease id r s) := by
  unfold takeLease
  split
  · split
    · exact keepsLeases_answer id _ _ s
    split
    · exact keepsLeases_answer id _ _ s
    split
    · exact keepsLeases_answer id _ _ s
    split
    · exact keepsLeases_answer id _ _ s
    split
    · exact keepsLeases_answer id _ _ s
    · next ho =>
      split
      · exact keepsLeases_answer id _ _ s
      · exact (keepsLeases_grantLease _ r _ s ho).answers id _ _
  · exact keepsLeases_answer id _ _ s
  · exact keepsLeases_answer id _ _ s

/-! ### Demotions (R52, R53) -/

theorem demote_holds (e : Entry) : e.demote.holdsPriority = false := by
  unfold Entry.demote
  split
  · next hs => split <;> simp_all [Entry.holdsPriority, LeaseDef.demote]
  · next hs => split <;> simp_all [Entry.holdsPriority, LeaseDef.demote]
  all_goals next hs => simp [Entry.holdsPriority, hs]

theorem mem_priorityHolders {s : State} {i : Fin 16} : i ∈ s.priorityHolders ↔ (s.entry i).holdsPriority = true := by
  simp [State.priorityHolders, mem_entryIndices]

theorem nodup_priorityHolders (s : State) : s.priorityHolders.Nodup := nodup_entryIndices.filter _

theorem lowestSerial_some {s : State} {l : List (Fin 16)} (h : l ≠ []) : ∃ k, s.lowestSerial l = some k := by
  cases l with
  | nil => exact absurd rfl h
  | cons i l =>
    unfold State.lowestSerial
    split
    · exact ⟨i, rfl⟩
    · split
      · exact ⟨_, rfl⟩
      · exact ⟨i, rfl⟩

theorem demoteOthers_none {s : State} (h : s.priorityHolders = []) : demoteOthers s = s := by simp [demoteOthers, h]

/-- R52: every holder of PRIORITY but the kept one is demoted. -/
theorem demoteOthers_entry {s : State} {k : Fin 16} (h : s.lowestSerial s.priorityHolders = some k) (i : Fin 16) :
    (demoteOthers s).entry i = if i ∈ s.priorityHolders ∧ i ≠ k then (s.entry i).demote else s.entry i := by
  unfold demoteOthers
  simp only [h]
  rw [foldl_demote k _ (nodup_priorityHolders s)]
  simp [State.entry]

theorem eases_demoteOthers (s : State) : Eases s (demoteOthers s) := by
  refine eases_foldl _ (fun t i => ?_) _ s
  split
  · exact .refl t
  · exact eases_setEntry t i _ (demote_eases _)

/-- R52: after the demotions at most one entry holds PRIORITY. -/
theorem demoteOthers_alone {s : State} {i j : Fin 16} (hi : ((demoteOthers s).entry i).holdsPriority = true)
    (hj : ((demoteOthers s).entry j).holdsPriority = true) : i = j := by
  have holds (n : Fin 16) (h : ((demoteOthers s).entry n).holdsPriority = true) : (s.entry n).holdsPriority = true :=
    ((eases_demoteOthers s).entry n).priority h
  obtain ⟨k, hk⟩ := lowestSerial_some (s := s) (List.ne_nil_of_mem (mem_priorityHolders.mpr (holds i hi)))
  have kept (n : Fin 16) (h : ((demoteOthers s).entry n).holdsPriority = true) : n = k := by
    by_contra hn
    have held := mem_priorityHolders.mpr (holds n h)
    rw [demoteOthers_entry hk, if_pos ⟨held, hn⟩, demote_holds] at h
    cases h
  exact (kept i hi).trans (kept j hj).symm

/-- R51, R52: the policy becomes SINGLE over at most one holder. -/
theorem keepsLeases_single (s : State) : KeepsLeases s (setPolicy .single (demoteOthers s)) where
  apart := (eases_demoteOthers s).keeps.apart
  restricted hf hs := ⟨((eases_demoteOthers s).keeps.restricted hf hs).1, fun _ _ _ => demoteOthers_alone⟩

theorem keepsLeases_takePolicy (id : RecId) (r : Request) (s : State) : KeepsLeases s (takePolicy id r s) := by
  unfold takePolicy
  split
  · exact keepsLeases_answer id _ _ s
  split
  · have shared : Eases s (setPolicy .shared s) := ⟨fun _ => .refl _, nofun, fun _ _ h => h⟩
    exact shared.keeps.answers id _ _
  split
  · exact keepsLeases_answer id _ _ s
  · have raised : Eases (setPolicy .single (demoteOthers s))
        (raiseIf (decide (2 ≤ s.priorityHolders.length)) .cls (setPolicy .single (demoteOthers s))) :=
      .of_frame (by simp) (by simp)
    exact ((keepsLeases_single s).trans raised.keeps).answers id _ _

/-! ### The speed sequences (R53, R164 to R169) -/

theorem demoteAll_entry (s : State) (i : Fin 16) : (demoteAll s).entry i = (s.entry i).demote := entry_mapVec _ s i

/-- R53, R168: a down sequence leaves FULL with no holder of PRIORITY. -/
theorem eases_startDown (id : RecId) (s : State) : Eases s (startDown id s) := by
  have entry (i : Fin 16) : (startDown id s).entry i = (s.entry i).demote := by
    rw [← demoteAll_entry]
    exact entry_congr (by simp [startDown]) i
  refine ⟨fun i => ?_, fun hp => ?_, fun i hi => ?_⟩
  · rw [entry]
    exact demote_eases _
  · rw [show (startDown id s).table = (demoteAll s).table by simp [startDown]] at hp
    exact hp
  · rw [entry, demote_holds] at hi
    cases hi

/-- Speed control changes and does not leave FULL. -/
theorem eases_setSpeed (s : State) (v : SpeedControl) (h : s.speed.state = .full → v.state = .full) :
    Eases s { s with speed := v } := ⟨fun _ => .refl _, id, fun _ _ => h⟩

theorem eases_finishSpeed (c : ResultCode) (rw : Replies) (s : State) : Eases s (finishSpeed c rw s) := by
  refine .of_same (by simp) ?_
  unfold finishSpeed
  split
  · rfl
  · simp

theorem eases_endRaising (s : State) : Eases s (endRaising s) := by
  unfold endRaising
  split
  · next h => exact eases_setSpeed s _ (by simp [h.1])
  · exact .refl s

theorem eases_endLocking (b : Bool) (s : State) : Eases s (endLocking b s) := by
  unfold endLocking
  split
  · next h =>
    split
    · exact eases_setSpeed s _ (by simp [h.1])
    · exact (eases_finishSpeed _ _ _).after (eases_setSpeed s _ (by simp [h.1]))
  · exact .refl s

theorem eases_endLowering (s : State) : Eases s (endLowering s) := by
  unfold endLowering
  split
  · next h => exact (eases_finishSpeed _ _ _).after (eases_setSpeed s _ (by simp [h.1]))
  · exact .refl s

theorem eases_switchUpDone (s : State) : Eases s (switchUpDone s) := by
  unfold switchUpDone
  split
  · exact (eases_finishSpeed _ _ _).after ((eases_setHolder none _).after (eases_setSpeed s _ fun _ => rfl))
  · exact .refl s

theorem eases_switchDownDone (s : State) : Eases s (switchDownDone s) := by
  unfold switchDownDone
  split
  · next h => exact (eases_setHolder none _).after (eases_setSpeed s _ (by simp [h.2]))
  · exact .refl s

/-! ### The takes of the other requests -/

theorem Eases.answers {s u : State} (h : Eases s u) (id : RecId) (c : ResultCode) (rw : Replies) :
    Eases s (instant id c rw u) := h.trans (eases_instant id c rw u)

theorem eases_takeOpen (id : RecId) (r : Request) (s : State) : Eases s (takeOpen id r s) := by
  unfold takeOpen
  split
  · exact eases_instant id _ _ s
  split
  · exact eases_instant id _ _ s
  split
  · exact eases_instant id _ _ s
  split
  · exact eases_instant id _ _ s
  · exact (eases_instant id _ _ _).after (eases_setEntry s _ _ (.of_opened rfl))

theorem eases_takeClose (id : RecId) (r : Request) (s : State) : Eases s (takeClose id r s) := by
  unfold takeClose
  split
  · exact eases_instant id _ _ s
  split
  · split
    · exact eases_instant id _ _ s
    split
    · exact (eases_endEntry _ _ none s).answers id _ _
    · exact (eases_endEntry _ _ (some id) s).trans (eases_enterActive id _ _)
  all_goals exact eases_instant id _ _ s

theorem eases_takeLock (id : RecId) (r : Request) (s : State) : Eases s (takeLock id r s) := by
  unfold takeLock
  split
  · exact eases_instant id _ _ s
  split
  · exact (eases_instant id _ _ _).after (eases_setStatus s _ _ (.of_opened rfl))
  all_goals exact eases_instant id _ _ s

theorem eases_takeLook (id : RecId) (r : Request) (s : State) : Eases s (takeLook id r s) := by
  unfold takeLook
  split
  · exact eases_instant id _ _ s
  split
  · exact eases_instant id _ _ s
  split
  · exact eases_instant id _ _ s
  split
  · exact eases_instant id _ _ s
  split
  · split <;> exact eases_instant id _ _ s
  · refine Eases.answers ?_ id _ _
    split
    · exact eases_clearFault _ s
    · exact .refl s

theorem eases_takeRenew (id : RecId) (r : Request) (s : State) : Eases s (takeRenew id r s) := by
  unfold takeRenew
  split
  · exact eases_instant id _ _ s
  split
  · exact eases_instant id _ _ s
  split
  · next hs => exact (eases_instant id _ _ _).after (eases_setStatus s _ _ (.of_leased hs rfl rfl fun h => h))
  all_goals exact eases_instant id _ _ s

theorem eases_takeFree (id : RecId) (r : Request) (s : State) : Eases s (takeFree id r s) := by
  unfold takeFree
  split
  · exact eases_instant id _ _ s
  split
  · split
    · exact (eases_endEntry _ _ none s).answers id _ _
    · exact (eases_endEntry _ _ (some id) s).trans (eases_enterActive id _ _)
  all_goals exact eases_instant id _ _ s

theorem eases_takeWait (id : RecId) (r : Request) (s : State) : Eases s (takeWait id r s) := by
  unfold takeWait
  split
  · exact eases_instant id _ _ s
  split
  · exact eases_instant id _ _ s
  · exact .of_frame (by simp) (by simp)

theorem eases_startTransfer (id : RecId) (j : Job) (p : Fin 4) (n : Nat) (s : State) :
    Eases s (startTransfer id j p n s) := by
  unfold startTransfer
  split
  · exact eases_instant id _ _ s
  · unfold acceptTransfer
    split
    · exact (eases_runQueue _ _).after (eases_enterActive _ _ s)
    · exact .of_frame rfl rfl

theorem eases_takeFill (id : RecId) (r : Request) (s : State) : Eases s (takeFill id r s) := by
  unfold takeFill
  split
  · exact eases_instant id _ _ s
  split
  · exact eases_instant id _ _ s
  split
  · exact eases_instant id _ _ s
  · exact eases_startTransfer id _ _ _ s

theorem eases_takeCopy (id : RecId) (r : Request) (s : State) : Eases s (takeCopy id r s) := by
  unfold takeCopy
  split
  · exact eases_instant id _ _ s
  split
  · exact eases_instant id _ _ s
  split
  · exact eases_instant id _ _ s
  split
  · exact eases_instant id _ _ s
  · exact eases_startTransfer id _ _ _ s

theorem eases_takeScan (id : RecId) (r : Request) (s : State) : Eases s (takeScan id r s) := by
  unfold takeScan
  split
  · exact eases_instant id _ _ s
  split
  · exact eases_instant id _ _ s
  split
  · exact eases_instant id _ _ s
  · exact eases_startTransfer id _ _ _ s

theorem eases_cancelRequest (a : ActiveRequest) (s : State) : Eases s (cancelRequest a s) := by
  unfold cancelRequest
  split
  · exact .of_frame (by simp) (by simp)
  · exact .of_frame (by simp) (by simp)
  · split
    · exact .refl s
    · exact eases_cancelWaiter _ s
  · exact .refl s
  · exact .refl s

theorem eases_takeAbort (id : RecId) (r : Request) (s : State) : Eases s (takeAbort id r s) := by
  unfold takeAbort
  split
  · exact eases_instant id _ _ s
  split
  · exact eases_instant id _ _ s
  split
  · exact eases_instant id _ _ s
  · exact (eases_cancelRequest _ s).answers id _ _

theorem eases_takePort (id : RecId) (r : Request) (s : State) : Eases s (takePort id r s) := by
  have set (p : Fin 4) (st : PortState) : Eases s (setPortState p st s) := .of_frame rfl rfl
  unfold takePort
  split
  · split
    · exact eases_instant id _ _ s
    split
    · exact eases_instant id _ _ s
    · split
      · exact (eases_disablePort _ s).answers id _ _
      · exact (set _ _).answers id _ _
    · split
      · exact (eases_disablePort _ s).answers id _ _
      · exact (set _ _).answers id _ _
    · exact (set _ _).answers id _ _
  · exact eases_instant id _ _ s
  · exact eases_instant id _ _ s

theorem eases_takePortReset (id : RecId) (r : Request) (s : State) : Eases s (takePortReset id r s) := by
  unfold takePortReset
  split
  · exact eases_instant id _ _ s
  split
  · exact eases_instant id _ _ s
  split
  · exact eases_instant id _ _ s
  · exact eases_instant id _ _ s
  · exact eases_resetPort id _ _ s
  · exact eases_resetPort id _ _ s

theorem eases_takeRefreshInterval (id : RecId) (r : Request) (s : State) : Eases s (takeRefreshInterval id r s) := by
  unfold takeRefreshInterval
  split
  · exact eases_instant id _ _ s
  · exact .of_frame (by simp) (by simp)

theorem eases_takeSpeed (id : RecId) (r : Request) (s : State) : Eases s (takeSpeed id r s) := by
  unfold takeSpeed
  split
  · exact eases_instant id _ _ s
  split
  · next hs =>
    split
    · exact .of_frame (by simp) (by simp)
    · exact (eases_enterActive id _ _).after (eases_setSpeed s _ (by simp [hs]))
  · split
    · exact .of_frame (by simp) (by simp)
    · exact (eases_startDown id s).trans (eases_enterActive id _ _)
  all_goals exact eases_instant id _ _ s

theorem eases_takeSleep (id : RecId) (r : Request) (s : State) : Eases s (takeSleep id r s) := by
  unfold takeSleep
  split
  · exact eases_instant id _ _ s
  split
  · exact eases_instant id _ _ s
  split
  · exact eases_instant id _ _ s
  · exact .of_frame (by simp) (by simp)

theorem keepsLeases_handOff (c : Option Code) (id : RecId) (r : Request) (s : State) :
    KeepsLeases s (handOff c id r s) := by
  cases c with
  | none => exact keepsLeases_answer id _ _ s
  | some c =>
    cases c with
    | openWindow => exact (eases_takeOpen id r s).keeps
    | closeWindow => exact (eases_takeClose id r s).keeps
    | lock => exact (eases_takeLock id r s).keeps
    | look => exact (eases_takeLook id r s).keeps
    | lease => exact keepsLeases_takeLease id r s
    | renew => exact (eases_takeRenew id r s).keeps
    | freeLease => exact (eases_takeFree id r s).keeps
    | policy => exact keepsLeases_takePolicy id r s
    | waitWord => exact (eases_takeWait id r s).keeps
    | fill => exact (eases_takeFill id r s).keeps
    | copy => exact (eases_takeCopy id r s).keeps
    | scan => exact (eases_takeScan id r s).keeps
    | abort => exact (eases_takeAbort id r s).keeps
    | noop => exact keepsLeases_answer id _ _ s
    | port => exact (eases_takePort id r s).keeps
    | portReset => exact (eases_takePortReset id r s).keeps
    | refreshInterval => exact (eases_takeRefreshInterval id r s).keeps
    | speed => exact (eases_takeSpeed id r s).keeps
    | sleep => exact (eases_takeSleep id r s).keeps

end Sys2Proof.Proofs
end

