-- ==== Sys2Proof/Proofs/LeasesKept.lean ====
section
/-! PROOF. Every command keeps the leases apart (R33) and PRIORITY restricted (R50, R53). -/

namespace Sys2Proof.Proofs

open Sys2Proof.Machine Sys2Proof.Laws

/-! ### The engine's operations -/

theorem grant_speed (c : Choice) (s : State) : (grant c s).speed.state = s.speed.state := by
  cases c with
  | refresh | switch => rfl
  | priority p => simp [grant]
  | default c => cases c <;> simp [grant]

theorem eases_arbitrate (s : State) : Eases s (arbitrate s) := by
  refine .of_same (by simp) ?_
  unfold arbitrate
  split
  · split
    · exact grant_speed _ s
    · rfl
  · rfl
  · rfl

theorem eases_finishOp (s : State) : Eases s (finishOp s) := .of_frame rfl rfl

theorem eases_readComplete (s : State) : Eases s (readComplete s) := by
  have finished : Eases s (finishOp { s with arb := { s.arb with reads := s.arb.reads + 1 } }) := .of_frame rfl rfl
  unfold readComplete
  dsimp only
  split
  · exact finished
  split
  · exact finished.trans (eases_arbitrate _)
  · exact finished

theorem keepsLeases_recordReadReturns (rec : Option Record) (s : State) : KeepsLeases s (recordReadReturns rec s) := by
  have examines (x : Record) (a : Word) (t : State) : KeepsLeases t (examine x a t) := by
    unfold examine
    split
    · exact (Eases.of_frame (by simp) (by simp)).keeps
    split
    · exact (Eases.of_frame (by simp) (by simp)).keeps
    split
    · exact (Eases.of_frame (by simp) (by simp)).keeps
    · have taken : Eases t (takeRecord a x.code x.req t) := .of_frame (by simp) (by simp)
      exact taken.keeps.trans (keepsLeases_handOff _ _ _ _)
  unfold recordReadReturns
  split
  · exact (eases_readComplete s).keeps.trans (examines _ _ _)
  · exact (eases_finishOp s).keeps
  · exact keepsLeases_refl s

theorem eases_waitArmingDone (s : State) : Eases s (waitArmingDone s) := by
  unfold waitArmingDone
  split
  · exact (eases_finishOp s).trans (eases_armWait _ _ _ _)
  · exact eases_finishOp s
  · exact .refl s

theorem eases_tailArmingDone (s : State) : Eases s (tailArmingDone s) := by
  unfold tailArmingDone
  split
  · exact (eases_finishOp s).andSame (by simp) (by simp)
  · exact eases_finishOp s
  · exact .refl s

theorem eases_engineWrite (op : EngineOp) (s : State) : Eases s (engineWrite op s) := by
  unfold engineWrite
  split
  · exact .refl s
  · exact (eases_finishOp s).trans (eases_storeAndEvaluate _ _ _)

theorem eases_raiseIf (c : Bool) (e : Event) (s : State) : Eases s (raiseIf c e s) := .of_frame (by simp) (by simp)

theorem eases_endTakeAt (id : RecId) (e : TakeEnd) (s : State) : Eases s (endTakeAt id e s) :=
  .of_frame (by simp) (by simp)

theorem eases_headerWriteDone (s : State) : Eases s (headerWriteDone s) := by
  unfold headerWriteDone
  split
  · exact (eases_raiseIf _ _ _).after (eases_engineWrite _ s)
  · exact (eases_endTakeAt _ _ _).after (eases_engineWrite _ s)
  · exact (Eases.of_frame (raise_table _ _) (raise_speed _ _)).after (eases_engineWrite _ s)
  · exact .refl s

theorem eases_resultWriteDone (s : State) : Eases s (resultWriteDone s) := by
  have ends (id : RecId) (n : Bool) (t : State) : Eases t (retire (endTakeAt id .result (finalize id n t))) :=
    .of_frame (by simp) (by simp)
  unfold resultWriteDone
  split
  · exact (ends _ _ _).after (eases_engineWrite _ s)
  · exact .refl s

theorem eases_otherWriteDone (s : State) : Eases s (otherWriteDone s) := by
  unfold otherWriteDone
  split
  · exact eases_engineWrite _ s
  · exact eases_engineWrite _ s
  · exact eases_engineWrite _ s
  · exact .refl s

/-! ### Resets and register writes -/

theorem eases_softReset (s : State) : Eases s (softReset s) :=
  (Eases.of_quiet (softResetBlocks_quiet s) rfl).trans (eases_foldl _ (fun t p => eases_answer p t) portIndices _)

theorem fullReset_quiet (pins : Straps) (s : State) : Quiet (fullReset pins s) :=
  { reset_quiet with }

theorem eases_fullResetEnds (pins : Straps) (s : State) : Eases s (fullResetEnds pins s) := by
  unfold fullResetEnds
  split <;> exact .of_frame rfl rfl

theorem eases_ctrlWrite (w : Word) (s : State) : Eases s (ctrlWrite w s) := by
  unfold ctrlWrite
  split
  · exact eases_softReset s
  split
  · exact .refl s
  · have sized : Eases s (ctrlWsize w s) := by
      unfold ctrlWsize
      split <;> exact .of_frame rfl rfl
    refine sized.trans ?_
    unfold ctrlAction
    split
    · exact .of_frame (by simp) (by simp)
    split
    · exact .of_frame (by simp) (by simp)
    · exact .refl _

theorem eases_regWrite (offset v : Word) (s : State) : Eases s (regWrite offset v s) := by
  have anch : Eases s (anchStore v s) := by
    unfold anchStore
    split <;> exact .of_frame rfl rfl
  unfold regWrite
  split
  · exact .refl s
  split
  · exact eases_ctrlWrite v s
  split
  · exact anch
  split
  · exact .of_frame rfl rfl
  split
  · exact .of_frame rfl rfl
  · exact .refl s

/-! ### The controller's own steps -/

theorem eases_handoff (s : State) : Eases s (handoff s) := by
  unfold handoff
  split
  · unfold releaseHeldRead
    split
    · exact .of_frame (by simp) (by simp)
    · exact .of_frame rfl rfl
  · exact .refl s

theorem eases_refreshInterval (s : State) : Eases s (refreshInterval s) := by
  unfold refreshInterval
  split <;> exact .of_frame rfl rfl

theorem eases_refreshDone (s : State) : Eases s (refreshDone s) := by
  unfold refreshDone
  split <;> exact .of_frame rfl rfl

theorem eases_wakeCycleDone (s : State) : Eases s (wakeCycleDone s) := by
  unfold wakeCycleDone
  split <;> exact .of_frame rfl rfl

theorem eases_finalRefreshDone (s : State) : Eases s (finalRefreshDone s) := by
  unfold finalRefreshDone
  split <;> exact .of_frame rfl rfl

theorem eases_selfRefreshEntered (s : State) : Eases s (selfRefreshEntered s) := by
  unfold selfRefreshEntered
  split
  · split <;> exact .of_frame rfl rfl
  · exact .refl s

theorem eases_selfRefreshLeft (s : State) : Eases s (selfRefreshLeft s) := by
  unfold selfRefreshLeft
  split <;> exact .of_frame rfl rfl

theorem eases_exitRefreshDone (s : State) : Eases s (exitRefreshDone s) := by
  unfold exitRefreshDone
  split <;> exact .of_frame rfl rfl

/-! ### Every command -/

theorem KeepsLeases.next {s u t : State} (k : KeepsLeases s u)
    (h : (.next u : Host.Outcome State Fault Refusal) = .next t) : KeepsLeases s t := by
  cases h
  exact k

/-- The answer is the arbiter's choice on the command's state (R151). -/
theorem KeepsLeases.answered {s u t : State} (k : KeepsLeases s u) (h : answerNext u = .next t) : KeepsLeases s t :=
  (k.trans (eases_arbitrate u).keeps).next h

theorem exec_keepsLeases (c : Instr) (s t : State) (h : exec c s = .next t) : KeepsLeases s t := by
  cases c with
  | openWindow r | closeWindow r | lock r | look r | lease r | renew r | freeLease r | policy r | waitWord r | fill r
  | copy r | scan r | abort r | noop r | port r | portReset r | refreshInterval r | speed r | sleep r | unknown code r
  | recordReadComplete => exact (keepsLeases_recordReadReturns _ s).answered h
  | waitArmingReadComplete => exact (eases_waitArmingDone s).keeps.answered h
  | chainWatchArmingReadComplete => exact (eases_tailArmingDone s).keeps.answered h
  | headerWriteComplete => exact (eases_headerWriteDone s).keeps.answered h
  | resultWriteComplete => exact (eases_resultWriteDone s).keeps.answered h
  | engineWriteComplete => exact (eases_otherWriteDone s).keeps.answered h
  | go w | stop w | softReset w | wset w => exact (eases_regWrite _ _ s).keeps.answered h
  | registerWriteOther offset v => exact (eases_regWrite offset v s).keeps.answered h
  | anchWrite v | emskWrite v | eclrWrite v => exact (eases_regWrite _ v s).keeps.next h
  | fullReset pins => exact (Eases.of_quiet (fullReset_quiet pins s) rfl).keeps.next h
  | fullResetEnd pins => exact (eases_fullResetEnds pins s).keeps.next h
  | accessArrival p a => exact (eases_present p a s).keeps.answered h
  | accessComplete => exact (eases_accessDone s).keeps.answered h
  | fillBurstComplete => exact (eases_fillBurst s).keeps.answered h
  | copyReadBurstComplete => exact (eases_copyReadBurst s).keeps.answered h
  | copyWriteBurstComplete => exact (eases_copyWriteBurst s).keeps.answered h
  | scanBurstComplete => exact (eases_scanBurst s).keeps.answered h
  | leaseTick => exact (eases_tickTimers s).keeps.next h
  | leaseExpiry i => exact (eases_expireLease i s).keeps.next h
  | watchTimeout k => exact (Eases.of_frame (by simp) (by simp)).keeps.answered h
  | raisingEnd => exact (eases_endRaising s).keeps.next h
  | lockingEnd present => exact (eases_endLocking present s).keeps.answered h
  | loweringEnd => exact (eases_endLowering s).keeps.answered h
  | switchUpComplete => exact (eases_switchUpDone s).keeps.answered h
  | switchDownComplete => exact (eases_switchDownDone s).keeps.answered h
  | refreshIntervalEnd => exact (eases_refreshInterval s).keeps.answered h
  | refreshComplete => exact (eases_refreshDone s).keeps.answered h
  | wakeCycleComplete => exact (eases_wakeCycleDone s).keeps.answered h
  | standbyHandoff => exact (eases_handoff s).keeps.answered h
  | finalRefreshComplete => exact (eases_finalRefreshDone s).keeps.next h
  | selfRefreshEntryComplete => exact (eases_selfRefreshEntered s).keeps.next h
  | selfRefreshExitComplete => exact (eases_selfRefreshLeft s).keeps.next h
  | exitRefreshComplete => exact (eases_exitRefreshDone s).keeps.answered h
  | prstDrainComplete p => exact (eases_drainPort p s).keeps.answered h
  | entryRetired i => exact (eases_settleEntry i s).keeps.answered h
  | stallEnd => exact (Eases.of_frame (by simp) (by simp)).keeps.answered h

/-- The queue of commands is in no invariant. -/
theorem step_keepsLeases {s t : State} (h : step s = .next t) : KeepsLeases s t := by
  unfold step at h
  split at h
  · exact (keepsLeases_refl s).next h
  · next c rest _ =>
    have queued : Eases s { s with pending := rest } := .of_frame rfl rfl
    exact queued.keeps.trans (exec_keepsLeases c _ t h)

/-! ### The obligations -/

/-- Settles O58: the grant is apart from every lease that it overlaps, and nothing else brings two leases together. -/
theorem leasesStayApart : Obligations.LeasesStayApart := fun _ _ ha h => (step_keepsLeases h).apart ha

/-- Settles O59: PRIORITY is granted in FULL alone and under SINGLE to one entry, and is taken away before FULL or SHARED
is left. -/
theorem priorityStaysRestricted : Obligations.PriorityStaysRestricted :=
  fun _ _ hf hs h => (step_keepsLeases h).restricted hf hs

end Sys2Proof.Proofs
end

