-- ==== Sys2Proof/Proofs/LeaseRequests.lean ====
section
/-! PROOF. RENW, FREE and POLI: what their commands answer (R16, R40, R42, R50 to R52). -/

namespace Sys2Proof.Proofs

open Sys2Proof.Machine Sys2Proof.Laws

/-! ### The end of a lease (R16) -/

section
variable {s : State} {i : Fin 16} {g : Range} {l : LeaseDef} (hl : (s.entry i).status = .leased g l)
include hl

/-- R37: EXPIRE is raised where the lease ends at once by expiry. -/
theorem endEntry_idle (hn : (s.entry i).inflight = 0) (c : EndCause) (q : Option RecId) :
    endEntry i c q s = raiseIf (c == .expired) .expire (s.setStatus i (.free (some c))) := by
  unfold endEntry
  simp [hl, hn]

/-- The lease goes on as RETIRING, its timer stopped. -/
theorem endEntry_counted (hn : (s.entry i).inflight ≠ 0) (c : EndCause) (q : Option RecId) :
    endEntry i c q s =
      s.setStatus i
        (.retiring g (.lease { l with expiry := none }) c
          (q.map fun q => { request := q, count := (s.entry i).inflight })) := by
  unfold endEntry
  simp [hl, hn]

end

/-! ### RENW (R40) -/

section
variable {r : Request} {s : State}

theorem takeRenew_parm (h : 15 < r.p0.toNat ∨ 65535 < r.p1.toNat) (id : RecId) :
    takeRenew id r s = instant id .parm noReplies s := by
  unfold takeRenew
  split
  · rfl
  · next i hi =>
    obtain h | h := h
    · rw [entryIndex_none _ h] at hi
      cases hi
    · exact if_pos h

variable {i : Fin 16} (hi : r.p0.toNat = i.val) (hd : r.p1.toNat ≤ 65535)
include hi hd

theorem takeRenew_leased {g : Range} {l : LeaseDef} (hl : (s.entry i).status = .leased g l) (id : RecId) :
    takeRenew id r s =
      instant id .okay (replies (expiryReport l.expiry).1 (expiryReport l.expiry).2 l.serial.toNat 0)
        (s.setStatus i (.leased g { l with expiry := freshTimer r.p1.toNat })) := by
  unfold takeRenew
  rw [entryIndex_some _ i hi]
  dsimp only
  rw [if_neg (Nat.not_lt.mpr hd)]
  simp only [hl]
  rfl

theorem takeRenew_expired
    (h : (s.entry i).status = .free (some .expired) ∨ ∃ g k w, (s.entry i).status = .retiring g k .expired w)
    (id : RecId) : takeRenew id r s = instant id .late noReplies s := by
  unfold takeRenew
  rw [entryIndex_some _ i hi]
  dsimp only
  rw [if_neg (Nat.not_lt.mpr hd)]
  obtain h | ⟨g, k, w, h⟩ := h <;> simp only [h]

/-- An entry that holds no lease which a renewal could reach, and lost none by expiry. -/
theorem takeRenew_none
    (h : (∃ c, c ≠ some .expired ∧ (s.entry i).status = .free c) ∨ (∃ g w, (s.entry i).status = .opened g w) ∨
      ∃ g k c w, c ≠ .expired ∧ (s.entry i).status = .retiring g k c w)
    (id : RecId) : takeRenew id r s = instant id .noen noReplies s := by
  unfold takeRenew
  rw [entryIndex_some _ i hi]
  dsimp only
  rw [if_neg (Nat.not_lt.mpr hd)]
  split
  · next hs => simp [hs] at h
  · next hs => simp [hs] at h
  · next hs => simp [hs] at h
  all_goals rfl

end

/-- Settles O7: each renewal by the state of the entry that it names. -/
theorem renewRestartsExpiry : Obligations.RenewRestartsExpiry := by
  intro s₀ s a r hs hb answer
  let taken := takenAs s a .renew r
  have run : exec (.renew r) s₀ = .next (arbitrate (takeRenew s.eng.nextId r taken)) := request_handed .renew hs hb rfl
  rw [run]
  refine ⟨fun bad => next_congr ?_, fun i hi hd => ⟨fun g l hl => next_congr ?_, fun late => next_congr ?_,
    fun none => next_congr ?_⟩⟩
  · rw [takeRenew_parm bad]
    exact instant_answered .renew hs _ _
  · rw [takeRenew_leased hi hd (s := taken) hl]
    refine (instant_setEntry .renew hs _ _ i _).trans ?_
    cases l.expiry <;> rfl
  · rw [takeRenew_expired hi hd (s := taken) late]
    exact instant_answered .renew hs _ _
  · rw [takeRenew_none hi hd (s := taken) none]
    exact instant_answered .renew hs _ _

/-! ### FREE (R42) -/

section
variable {r : Request} {s : State}

theorem takeFree_parm (h : 15 < r.p0.toNat) (id : RecId) : takeFree id r s = instant id .parm noReplies s := by
  unfold takeFree
  rw [entryIndex_none _ h]

variable {i : Fin 16} (hi : r.p0.toNat = i.val)
include hi

theorem takeFree_leased {g : Range} {l : LeaseDef} (hl : (s.entry i).status = .leased g l) (id : RecId) :
    takeFree id r s =
      if (s.entry i).inflight = 0 then instant id .okay noReplies (s.setStatus i (.free (some .released)))
      else
        enterActive id .regionTable
          (s.setStatus i
            (.retiring g (.lease { l with expiry := none }) .released
              (some { request := id, count := (s.entry i).inflight }))) := by
  unfold takeFree
  rw [entryIndex_some _ i hi]
  simp only [hl]
  split
  · next hn => rw [endEntry_idle hl hn]; rfl
  · next hn => rw [endEntry_counted hl hn]; rfl

theorem takeFree_expired
    (h : (s.entry i).status = .free (some .expired) ∨ ∃ g k w, (s.entry i).status = .retiring g k .expired w)
    (id : RecId) : takeFree id r s = instant id .late noReplies s := by
  unfold takeFree
  rw [entryIndex_some _ i hi]
  obtain h | ⟨g, k, w, h⟩ := h <;> simp only [h]

theorem takeFree_retiring {g : Range} {l : LeaseDef} {c : EndCause} {w : Option Waiter} (hc : c ≠ .expired)
    (h : (s.entry i).status = .retiring g (.lease l) c w) (id : RecId) :
    takeFree id r s = instant id .busy (replies c.code 0 0 0) s := by
  unfold takeFree
  rw [entryIndex_some _ i hi]
  cases c with
  | expired => exact absurd rfl hc
  | _ => simp only [h]

theorem takeFree_none
    (h : (∃ c, c ≠ some .expired ∧ (s.entry i).status = .free c) ∨ (∃ g w, (s.entry i).status = .opened g w) ∨
      ∃ g v c w, c ≠ .expired ∧ (s.entry i).status = .retiring g (.window v) c w)
    (id : RecId) : takeFree id r s = instant id .noen noReplies s := by
  unfold takeFree
  rw [entryIndex_some _ i hi]
  dsimp only
  split
  · next hs => simp [hs] at h
  · next hs => simp [hs] at h
  · next hs => simp [hs] at h
  · next hs => simp [hs] at h
  all_goals rfl

end

/-- Settles O8: each FREE by the state of the entry that it names. -/
theorem freeEndsLease : Obligations.FreeEndsLease := by
  intro s₀ s a r hs hb answer
  let taken := takenAs s a .freeLease r
  have numbered := (recordReturns_keeps s₀ s a hs).2.1
  have run : exec (.freeLease r) s₀ = .next (arbitrate (takeFree s.eng.nextId r taken)) :=
    request_handed .freeLease hs hb rfl
  rw [run]
  refine ⟨fun bad => next_congr ?_, fun i hi => ⟨fun g l hl => ?_, fun late => next_congr ?_,
    fun g l c w hc hr => next_congr ?_, fun none => next_congr ?_⟩⟩
  · rw [takeFree_parm bad]
    exact instant_answered .freeLease hs _ _
  · rw [takeFree_leased hi (s := taken) hl]
    refine ⟨fun hn => next_congr ?_, fun hn => next_congr ?_⟩
    · rw [if_pos (show (taken.entry i).inflight = 0 from hn)]
      exact instant_setEntry .freeLease hs _ _ i _
    · rw [if_neg (show (taken.entry i).inflight ≠ 0 from Nat.ne_of_gt hn)]
      exact enterActive_taken s _ a _ r .regionTable numbered rfl
  · rw [takeFree_expired hi (s := taken) late]
    exact instant_answered .freeLease hs _ _
  · rw [takeFree_retiring hi hc (s := taken) hr]
    exact instant_answered .freeLease hs _ _
  · rw [takeFree_none hi (s := taken) none]
    exact instant_answered .freeLease hs _ _

/-! ### POLI (R51, R52) -/

theorem word_of_toNat {w : Word} {n : Nat} (h : w.toNat = n) : w = BitVec.ofNat 32 n := by
  rw [← h, BitVec.ofNat_toNat, BitVec.setWidth_eq]

section
variable {r : Request} {s : State}

theorem takePolicy_parm (h : 1 < r.p0.toNat) (id : RecId) : takePolicy id r s = instant id .parm noReplies s := if_pos h

theorem takePolicy_shared (h : r.p0.toNat = 0) (id : RecId) :
    takePolicy id r s = instant id .okay (replies 0 s.table.policy.code 0 0) (setPolicy .shared s) := by
  unfold takePolicy
  rw [if_neg (by omega), if_pos (word_of_toNat h)]

theorem takePolicy_single (h : r.p0.toNat = 1) (id : RecId) :
    takePolicy id r s =
      if s.table.policy = .single then instant id .okay (replies 0 1 0 0) s
      else
        instant id .okay (replies (s.priorityHolders.length - 1) 0 0 0)
          (raiseIf (decide (2 ≤ s.priorityHolders.length)) .cls (setPolicy .single (demoteOthers s))) := by
  unfold takePolicy
  rw [if_neg (by omega), if_neg (by rw [word_of_toNat h]; decide)]

end

/-- R52: with one holder of PRIORITY or none, a change to SINGLE demotes no entry. -/
theorem demoteOthers_few {s : State} (h : s.priorityHolders.length ≤ 1) : demoteOthers s = s := by
  cases hl : s.priorityHolders with
  | nil => exact demoteOthers_none hl
  | cons k l =>
    obtain rfl : l = [] := by
      rw [hl, List.length_cons] at h
      exact List.length_eq_zero_iff.mp (by omega)
    simp [demoteOthers, hl, State.lowestSerial]

theorem demote_of_not_holds {e : Entry} (h : e.holdsPriority = false) : e.demote = e := by
  unfold Entry.demote
  split
  · next hs => exact if_neg fun hc => by simp [Entry.holdsPriority, hs, hc] at h
  · next hs => exact if_neg fun hc => by simp [Entry.holdsPriority, hs, hc] at h
  all_goals rfl

/-- R52: the holder of lowest serial, of equal serials the one of lowest index, keeps its class. -/
theorem demoteOthers_eq {s : State} {k : Fin 16} (hk : (s.entry k).holdsPriority = true)
    (low : ∀ j : Fin 16, (s.entry j).holdsPriority = true →
      (s.entry k).serial < (s.entry j).serial ∨ ((s.entry k).serial = (s.entry j).serial ∧ k ≤ j)) :
    demoteOthers s =
      { s with table :=
          { s.table with entries := Vector.ofFn fun j : Fin 16 => if j = k then s.entry j else (s.entry j).demote } } := by
  have kept : s.lowestSerial s.priorityHolders = some k :=
    lowestSerial_eq s _ (sorted_entryIndices.filter _) k (mem_priorityHolders.mpr hk)
      fun j hj => low j (mem_priorityHolders.mp hj)
  unfold demoteOthers
  simp only [kept]
  rw [foldl_demote k _ (nodup_priorityHolders s)]
  have entries (j : Fin 16) : (if j ∈ s.priorityHolders ∧ j ≠ k then (s.entry j).demote else s.entry j) =
      if j = k then s.entry j else (s.entry j).demote := by
    by_cases hj : j = k
    · rw [if_neg fun h => h.2 hj, if_pos hj]
    · rw [if_neg hj]
      split
      · rfl
      · next hn =>
        refine (demote_of_not_holds ?_).symm
        rw [← Bool.not_eq_true]
        exact fun hp => hn ⟨mem_priorityHolders.mpr hp, hj⟩
  simp only [entries]

/-- An instant request that changes the table, and raises events. -/
theorem instant_setTable {s₀ s : State} {a : Word} {r : Request} (c : Code) (hs : s₀.recordReturns a s) (rc : ResultCode)
    (rw : Replies) (tb : RegionTable) (w : RegisterWindow) :
    instant s.eng.nextId rc rw { takenAs s a c r with table := tb, win := w } =
      { s.answered a c.word r rc rw with table := tb, win := w } :=
  have ⟨hr, hn, _, _⟩ := recordReturns_keeps s₀ s a hs
  instant_taken s { takenAs s a c r with table := tb, win := w } a c.word r rc rw hn hr rfl

/-- Settles O9: the policy asked, the policy in force, and the number of holders of PRIORITY. -/
theorem policyDemotesAllButOne : Obligations.PolicyDemotesAllButOne := by
  intro s₀ s a r hs hb answer n
  let taken := takenAs s a .policy r
  have run : exec (.policy r) s₀ = .next (arbitrate (takePolicy s.eng.nextId r taken)) :=
    request_handed .policy hs hb rfl
  have holders : taken.priorityHolders.length = n := rfl
  have shared (hp : s.table.policy = .shared) : taken.table.policy ≠ .single := by
    rw [show taken.table = s.table from rfl, hp]
    exact nofun
  rw [run]
  refine ⟨fun bad => next_congr ?_, fun same => next_congr ?_, fun h0 hp => next_congr ?_,
    fun h1 hp few => next_congr ?_, fun h1 hp many kept hk low => next_congr ?_⟩
  · rw [takePolicy_parm bad]
    exact instant_answered .policy hs _ _
  · cases hp : s.table.policy with
    | shared =>
      have stays : setPolicy .shared taken = taken := by rw [← hp]; rfl
      rw [hp] at same
      rw [takePolicy_shared same, stays, show taken.table.policy = .shared from hp]
      exact instant_answered .policy hs _ _
    | single =>
      rw [hp] at same
      rw [takePolicy_single same, if_pos (show taken.table.policy = .single from hp)]
      exact instant_answered .policy hs _ _
  · rw [takePolicy_shared h0, show taken.table.policy = .single from hp]
    exact instant_setTable .policy hs _ _ { s.table with policy := .shared } s.win
  · have none_raised : decide (2 ≤ n) = false := decide_eq_false (Nat.not_le.mpr (Nat.lt_succ_of_le few))
    rw [takePolicy_single h1, if_neg (shared hp), demoteOthers_few (s := taken) few, holders, none_raised,
      Nat.sub_eq_zero_of_le few]
    exact instant_setTable .policy hs _ _ { s.table with policy := .single } s.win
  · have raised : decide (2 ≤ n) = true := decide_eq_true many
    have demoted : demoteOthers taken =
        { taken with table :=
            { s.table with
              entries := Vector.ofFn (fun j : Fin 16 => if j = kept then s.entry j else (s.entry j).demote) } } :=
      demoteOthers_eq (s := taken) hk low
    generalize Vector.ofFn (fun j : Fin 16 => if j = kept then s.entry j else (s.entry j).demote) = entries at demoted ⊢
    rw [takePolicy_single h1, if_neg (shared hp), demoted, holders, raised]
    exact instant_setTable .policy hs _ _ { s.table with policy := .single, entries := entries } (s.win.raise .cls)

end Sys2Proof.Proofs
end

