-- ==== Sys2Proof/Proofs/LeaseGrant.lean ====
section
/-! PROOF. LEAS: its tests in their order, and the lease that it grants (R31 to R35). -/

namespace Sys2Proof.Proofs

open Sys2Proof.Machine Sys2Proof.Laws

/-! ### The tests of a port and of an entry -/

theorem shutOut_iff (st : PortState) : st.shutOut = true ↔ st = .disabled ∨ ∃ q, st = .resetting q := by
  cases st <;> simp [PortState.shutOut]

theorem isFree_iff (e : Entry) : e.isFree = true ↔ ∃ c, e.status = .free c := by
  unfold Entry.isFree
  cases e.status <;> simp

/-! ### The parameters (R31) -/

/-- R31: what of a LEAS is refused beside its index and mode. -/
theorem badLease_iff (s : State) (r : Request) :
    s.badLease r = true ↔
      s.badRegion r.p1.toNat r.p2.toNat ∨ r.p3.toNat = 0 ∨ 16 ≤ r.p3.toNat ∨ 1 < r.p5.toNat ∨ 65535 < r.p6.toNat := by
  simp only [State.badLease, Bool.or_eq_true, badRange_iff, decide_eq_true_eq, or_assoc]

theorem leaseMode_none {w : Word} (h : w.toNat = 0 ∨ 3 < w.toNat) : leaseMode? w = none := by
  unfold leaseMode?
  rw [if_neg (by rintro rfl; simp at h), if_neg (by rintro rfl; simp at h), if_neg (by rintro rfl; simp at h)]

theorem leaseMode_some {w : Word} {m : LeaseMode} (h : w.toNat = m.code) : leaseMode? w = some m := by
  rw [word_of_toNat h]
  cases m <;> rfl

/-- R31: the holder set is the low four bits of P3. -/
theorem holder_bit (w : Word) (p : Fin 4) : (w.extractLsb' 0 4).getLsbD p.val = w.getLsbD p.val := by
  simp [p.isLt]

section
variable {r : Request} {s : State}

theorem takeLease_parm (h : 15 < r.p0.toNat ∨ r.p4.toNat = 0 ∨ 3 < r.p4.toNat ∨ s.badLease r = true) (id : RecId) :
    takeLease id r s = instant id .parm noReplies s := by
  unfold takeLease
  split
  · next i m hi hm =>
    obtain h | h | h | h := h
    · rw [entryIndex_none _ h] at hi
      cases hi
    · rw [leaseMode_none (Or.inl h)] at hm
      cases hm
    · rw [leaseMode_none (Or.inr h)] at hm
      cases hm
    · exact if_pos h
  all_goals rfl

/-! ### The tests behind the parameters (R32 to R34) -/

variable {i : Fin 16} {m : LeaseMode} (hi : r.p0.toNat = i.val) (hm : r.p4.toNat = m.code)
  (good : ¬s.badLease r = true)
include hi hm good

theorem takeLease_work (h : s.workGranule < r.p1.toNat + r.p2.toNat) (id : RecId) :
    takeLease id r s = instant id .area noReplies s := by
  unfold takeLease
  simp only [entryIndex_some _ i hi, leaseMode_some hm]
  rw [if_neg good, if_pos (by simpa [State.touchesWork] using h)]

variable (below : r.p1.toNat + r.p2.toNat ≤ s.workGranule)
include below

theorem takeLease_used (h : (s.entry i).isFree = false) (id : RecId) :
    takeLease id r s = instant id .used noReplies s := by
  unfold takeLease
  simp only [entryIndex_some _ i hi, leaseMode_some hm]
  rw [if_neg good, if_neg (by simpa [State.touchesWork] using below), if_pos h]

variable (free : (s.entry i).isFree = true)
include free

theorem takeLease_shut {p : Fin 4} (h : s.shutHolder (r.p3.extractLsb' 0 4) = some p) (id : RecId) :
    takeLease id r s = instant id .refu (replies p.val 0 0 0) s := by
  unfold takeLease
  simp only [entryIndex_some _ i hi, leaseMode_some hm]
  rw [if_neg good, if_neg (by simpa [State.touchesWork] using below), if_neg (by simp [free])]
  simp only [h]

variable (present : s.shutHolder (r.p3.extractLsb' 0 4) = none)
include present

theorem takeLease_overlap {j : Fin 16} (h : s.overlapWith { base := r.p1.toNat, size := r.p2.toNat } m = some j)
    (id : RecId) : takeLease id r s = instant id .ovlp (replies j.val 0 0 0) s := by
  unfold takeLease
  simp only [entryIndex_some _ i hi, leaseMode_some hm]
  rw [if_neg good, if_neg (by simpa [State.touchesWork] using below), if_neg (by simp [free])]
  simp only [present, h]

/-- R34, R35: the last test of LEAS, and the grant. -/
theorem takeLease_classed (h : s.overlapWith { base := r.p1.toNat, size := r.p2.toNat } m = none) (id : RecId) :
    takeLease id r s =
      if r.opt = true ∧ s.classReason r.p5 ≠ 0 then instant id .clas (replies (s.classReason r.p5) 0 0 0) s
      else
        instant id .okay (replies i.val (s.leaseClass r.p5).code (s.table.serial + 1#32).toNat (s.classReason r.p5))
          (grantLease i r m s) := by
  unfold takeLease
  simp only [entryIndex_some _ i hi, leaseMode_some hm]
  rw [if_neg good, if_neg (by simpa [State.touchesWork] using below), if_neg (by simp [free])]
  simp only [present, h]

end

/-! ### Holders, overlaps and the class -/

section
variable {s : State} {w : Word}

/-- R32: the lowest holder that is DISABLED or RESETTING. -/
theorem shutHolder_some {p : Fin 4} (hp : w.getLsbD p.val = true) (shut : (s.port p).state.shutOut = true)
    (low : ∀ q : Fin 4, q < p → w.getLsbD q.val = true → (s.port q).state.shutOut = false) :
    s.shutHolder (w.extractLsb' 0 4) = some p := by
  refine find_first _ portIndices p (mem_portIndices p) sorted_portIndices ?_ fun q _ hq => ?_
  · rw [holder_bit, hp, shut]
    rfl
  · rw [holder_bit]
    cases hw : w.getLsbD q.val
    · rfl
    · exact low q hq hw

theorem shutHolder_none (h : ∀ p : Fin 4, w.getLsbD p.val = true → (s.port p).state.shutOut = false) :
    s.shutHolder (w.extractLsb' 0 4) = none := by
  refine List.find?_eq_none.mpr fun p _ hp => ?_
  rw [holder_bit, Bool.and_eq_true] at hp
  rw [h p hp.1] at hp
  exact Bool.false_ne_true hp.2

variable {g : Range} {m : LeaseMode}

/-- R33: the lowest entry whose lease refuses the new one. -/
theorem overlapWith_some {j : Fin 16} (hj : (s.entry j).blocksLease g m)
    (low : ∀ k : Fin 16, k < j → ¬(s.entry k).blocksLease g m) : s.overlapWith g m = some j :=
  find_first _ entryIndices j (mem_entryIndices j) sorted_entryIndices ((refusesLease_iff _ g m).mpr hj)
    fun k _ hk => by rw [← Bool.not_eq_true, refusesLease_iff]; exact low k hk

theorem overlapWith_none (h : ∀ j : Fin 16, ¬(s.entry j).blocksLease g m) : s.overlapWith g m = none :=
  List.find?_eq_none.mpr fun j _ hj => h j ((refusesLease_iff _ g m).mp hj)

end

theorem priorityHolders_ne_nil {s : State} : s.priorityHolders ≠ [] ↔ ∃ j, (s.entry j).holdsPriority = true := by
  rw [Ne, List.eq_nil_iff_forall_not_mem, not_forall_not]
  simp only [mem_priorityHolders]

/-- R34: the reason that a LEAS is given. -/
theorem classReason_eq {s : State} {w : Word} {reason : Nat} (h : s.lowerClass w.toNat reason) :
    s.classReason w = reason := by
  unfold State.classReason State.priorityReason
  obtain ⟨hw, rfl⟩ | ⟨hw, slow, rfl⟩ | ⟨hw, fast, single, held, rfl⟩ | ⟨hw, fast, free, rfl⟩ := h
  · rw [word_of_toNat hw]
    rfl
  · rw [if_pos (word_of_toNat hw), if_pos slow]
  · rw [if_pos (word_of_toNat hw), if_neg (not_not.mpr fast), if_pos ⟨single, priorityHolders_ne_nil.mpr held⟩]
  · rw [if_pos (word_of_toNat hw), if_neg (not_not.mpr fast), if_neg]
    rintro ⟨single, held⟩
    obtain shared | none_holds := free
    · rw [single] at shared
      cases shared
    · obtain ⟨j, hj⟩ := priorityHolders_ne_nil.mp held
      rw [none_holds j] at hj
      cases hj

theorem word_one_iff (w : Word) : w = 1#32 ↔ w.toNat = 1 := ⟨fun h => by rw [h]; rfl, word_of_toNat⟩

/-- R34: the class that a LEAS is given. -/
theorem leaseClass_eq (s : State) (w : Word) :
    s.leaseClass w = if w.toNat = 1 ∧ s.classReason w = 0 then .priority else .default := by
  unfold State.leaseClass State.classReason
  by_cases hw : w = 1#32
  · simp [hw]
  · rw [if_neg fun h => hw h.1, if_neg fun h => hw ((word_one_iff w).mpr h.1)]

/-! ### The obligation -/

/-- Settles O6: the tests of LEAS in their order, each on the state in which the record is taken, and the grant. -/
theorem leaseGrant : Obligations.LeaseGrant := by
  refine ⟨shutOut_iff, isFree_iff, fun s₀ s a r hs hb => ?_⟩
  intro answer g bad
  let taken := takenAs s a .lease r
  have run : exec (.lease r) s₀ = .next (arbitrate (takeLease s.eng.nextId r taken)) := request_handed .lease hs hb rfl
  rw [run]
  refine ⟨fun refused => next_congr ?_, fun i m hi hm passed => ?_⟩
  · rw [takeLease_parm (s := taken) (by rw [badLease_iff]; exact refused)]
    exact instant_answered .lease hs _ _
  have good : ¬taken.badLease r = true := by rw [badLease_iff]; exact passed
  refine ⟨fun work => next_congr ?_, fun below => ⟨fun used => next_congr ?_, fun free => ⟨fun p hp shut low =>
    next_congr ?_, fun present => ⟨fun j hj low => next_congr ?_, fun apart reason hr => ⟨fun opt hn => next_congr ?_,
    fun given => next_congr ?_⟩⟩⟩⟩⟩
  · rw [takeLease_work hi hm good work]
    exact instant_answered .lease hs _ _
  · rw [takeLease_used hi hm good below used]
    exact instant_answered .lease hs _ _
  · rw [takeLease_shut hi hm good below free (shutHolder_some hp shut low)]
    exact instant_answered .lease hs _ _
  · rw [takeLease_overlap hi hm good below free (shutHolder_none present) (overlapWith_some hj low)]
    exact instant_answered .lease hs _ _
  · have reason_eq : taken.classReason r.p5 = reason := classReason_eq (s := taken) hr
    rw [takeLease_classed hi hm good below free (shutHolder_none present) (overlapWith_none apart),
      reason_eq, if_pos ⟨opt, hn⟩]
    exact instant_answered .lease hs _ _
  · have reason_eq : taken.classReason r.p5 = reason := classReason_eq (s := taken) hr
    have class_eq : taken.leaseClass r.p5 = if r.p5.toNat = 1 ∧ reason = 0 then .priority else .default := by
      rw [leaseClass_eq, reason_eq]
    rw [takeLease_classed hi hm good below free (shutHolder_none present) (overlapWith_none apart),
      reason_eq, if_neg (by rintro ⟨opt, hn⟩; simp [opt, hn] at given), grantLease, State.grantedLease, class_eq]
    exact instant_setTable .lease hs _ _ _ s.win

end Sys2Proof.Proofs
end

