-- ==== Sys2Proof/Proofs/EvaluatedWrites.lean ====
section
/-! PROOF. A completed write: what is stored, and what its evaluation does at a slot (R58 to R60, R64, R71, R151), with the
release that a fire asks for (R47). -/

namespace Sys2Proof.Proofs

open Sys2Proof.Machine Sys2Proof.Laws

/-! ### What is stored -/

theorem store_word (s : State) (a : Nat) {ws : List Word} {n : Nat} {w : Word} (h : ws[n]? = some w) :
    (s.store a ws).wordAt (a + 4 * n) = w := by
  obtain ⟨h0, h1, h2, h3⟩ := byte?_storeWords_byte ws s.mem a n w h
  rw [State.wordAt, byteAt_of_byte? (s.store a ws) _ _ h0, byteAt_of_byte? (s.store a ws) _ _ h1,
    byteAt_of_byte? (s.store a ws) _ _ h2, byteAt_of_byte? (s.store a ws) _ _ h3]
  exact word_of_bytes w

theorem store_other (s : State) (a : Nat) (ws : List Word) {b : Nat} (h : b < a ∨ a + 4 * ws.length ≤ b) :
    (s.store a ws).byteAt b = s.byteAt b :=
  byteAt_congr s (s.store a ws) b (byte?_storeWords_other ws s.mem a b h) rfl

/-! ### One word at one slot (R60) -/

theorem wordMatches_iff (v mask compare : Word) : wordMatches v mask compare = true ↔ v &&& mask = compare &&& mask :=
  beq_iff_eq

section
variable {s : State} {a : Nat} {k : Fin 8}

theorem evaluateSlot_free (v : Word) (h : s.slot k = none) : evaluateSlot a v s k = s := by
  unfold evaluateSlot
  rw [h]

variable {w : WatchSlot} (hw : s.slot k = some w)
include hw

theorem evaluateSlot_elsewhere (v : Word) (h : w.addr.toNat ≠ a) : evaluateSlot a v s k = s := by
  unfold evaluateSlot
  rw [hw]
  exact if_neg h

variable (ha : w.addr.toNat = a) {v : Word}
include ha

theorem evaluateSlot_matching_same (hm : w.armed = .matching) (same : v &&& w.mask = w.compare &&& w.mask) :
    evaluateSlot a v s k = s := by
  unfold evaluateSlot
  simp only [hw, ha, if_true, hm, (wordMatches_iff _ _ _).mpr same]

theorem evaluateSlot_waiting_other (hm : w.armed = .waiting) (other : ¬v &&& w.mask = w.compare &&& w.mask) :
    evaluateSlot a v s k = s := by
  have differs : wordMatches v w.mask w.compare = false := by rw [← Bool.not_eq_true, wordMatches_iff]; exact other
  unfold evaluateSlot
  simp only [hw, ha, if_true, hm, differs]

theorem evaluateSlot_waiting_same (hm : w.armed = .waiting) (same : v &&& w.mask = w.compare &&& w.mask) :
    evaluateSlot a v s k = s.setSlot k (some { w with armed := .matching }) := by
  unfold evaluateSlot
  simp only [hw, ha, if_true, hm, (wordMatches_iff _ _ _).mpr same]

/-- A word that does not match fires an ARMED_MATCHING slot. -/
theorem evaluateSlot_fires (hm : w.armed = .matching) (other : ¬v &&& w.mask = w.compare &&& w.mask) :
    evaluateSlot a v s k = if k = 0 then fireChainWatch v s else fireWait k w v s := by
  have differs : wordMatches v w.mask w.compare = false := by rw [← Bool.not_eq_true, wordMatches_iff]; exact other
  unfold evaluateSlot
  simp only [hw, ha, if_true, hm, differs]

end

/-! ### The release of a fire (R47) -/

section
variable {s : State} {i : Fin 16}

theorem watchRelease_none (h : ∀ g l, (s.entry i).status ≠ .leased g l) :
    s.releaseOutcome (some i) = 3 ∧ watchRelease (some i) s = s := by
  cases hs : (s.entry i).status with
  | leased g l => exact absurd hs (h g l)
  | _ => simp only [State.releaseOutcome, watchRelease, hs, and_self]

variable {g : Range} {l : LeaseDef} (hl : (s.entry i).status = .leased g l)
include hl

theorem releaseOutcome_leased : s.releaseOutcome (some i) = if (s.entry i).inflight = 0 then 1 else 2 := by
  simp only [State.releaseOutcome, hl]

theorem watchRelease_leased : watchRelease (some i) s = endEntry i .released none s := by
  simp only [watchRelease, hl]

end

/-- Settles O43: the store, the order of the evaluation, the cases of one slot, and the release of a fire. -/
theorem evaluatedWriteStoresAndActs : Obligations.EvaluatedWriteStoresAndActs := by
  refine ⟨fun s a ws => ⟨rfl, fun n w h => store_word s a h, fun b h => store_other s a ws h⟩, fun _ _ _ => rfl,
    fun _ _ => rfl, fun _ _ _ _ => rfl, fun s a v k => ⟨evaluateSlot_free v, fun w hw => ?_⟩, fun s => ⟨rfl, rfl,
    fun i => ⟨watchRelease_none, fun g l hl => ⟨fun hn => ⟨?_, ?_⟩, fun hn => ⟨?_, ?_⟩⟩⟩⟩⟩
  · intro same freed
    refine ⟨evaluateSlot_elsewhere hw v, fun ha => ⟨evaluateSlot_matching_same hw ha, evaluateSlot_waiting_other hw ha,
      evaluateSlot_waiting_same hw ha, fun hm other hk => ?_, fun hm other hk => ?_⟩⟩
    · rw [evaluateSlot_fires hw ha hm other, if_neg hk, fireWait]
      rfl
    · rw [evaluateSlot_fires hw ha hm other, if_pos hk, fireChainWatch]
      subst hk
      rfl
  · rw [releaseOutcome_leased hl, if_pos hn]
  · rw [watchRelease_leased hl, endEntry_idle hl hn]
    rfl
  · rw [releaseOutcome_leased hl, if_neg (Nat.ne_of_gt hn)]
  · rw [watchRelease_leased hl, endEntry_counted hl (Nat.ne_of_gt hn)]
    rfl

end Sys2Proof.Proofs
end

