-- ==== Sys2Proof/Proofs/LeaseTimers.lean ====
section
/-! PROOF. The lease tick at a timer and at an entry (R36), the expiry of a lease (R37) and the timeout of a slot (R66). -/

namespace Sys2Proof.Proofs

open Sys2Proof.Machine Sys2Proof.Laws

/-! ### One lease tick (R36) -/

section
variable {t : Timer} (running : t.due = false)
include running

/-- The first tick after the start is not counted. -/
theorem tick_fresh (h : t.fresh = true) : t.tick = { t with fresh := false } := by
  unfold Timer.tick
  rw [if_neg (by simp [running]), if_pos h]

theorem tick_counts (h : t.fresh = false) (hr : 2 ≤ t.remaining) : t.tick = { t with remaining := t.remaining - 1 } := by
  unfold Timer.tick
  rw [if_neg (by simp [running]), if_neg (by simp [h]), if_neg (by omega)]

/-- The tick that would bring the count to 0 makes the timer due (log 5). -/
theorem tick_due (h : t.fresh = false) (hr : t.remaining ≤ 1) : t.tick = { t with due := true } := by
  unfold Timer.tick
  rw [if_neg (by simp [running]), if_neg (by simp [h]), if_pos hr]

end

theorem entry_tick_leased {e : Entry} {g : Range} {l : LeaseDef} (h : e.status = .leased g l) :
    e.tick = { e with status := .leased g { l with expiry := l.expiry.map Timer.tick } } := by
  simp only [Entry.tick, h]

theorem entry_tick_other {e : Entry} (h : ∀ g l, e.status ≠ .leased g l) : e.tick = e := by
  unfold Entry.tick
  split
  · next g l hs => exact absurd hs (h g l)
  all_goals rfl

/-! ### The ends of timers (R37, R66) -/

section
variable {s : State}

theorem expireLease_due {i : Fin 16} {g : Range} {l : LeaseDef} {t : Timer} (hl : (s.entry i).status = .leased g l)
    (ht : l.expiry = some t) (hd : t.due = true) : expireLease i s = endEntry i .expired none s := by
  simp [expireLease, hl, ht, timerDue, hd]

/-- Log 3: a timer that is not due, or no timer. -/
theorem expireLease_not_due {i : Fin 16}
    (h : ∀ g l t, (s.entry i).status = .leased g l → l.expiry = some t → t.due = false) : expireLease i s = s := by
  unfold expireLease
  split
  · next g l hl =>
    cases ht : l.expiry with
    | none => rfl
    | some t => exact if_neg (by simp [timerDue, h g l t hl ht])
  all_goals rfl

theorem timeoutSlot_due {k : Fin 8} {w : WatchSlot} {t : Timer} (hw : s.slot k = some w) (ht : w.timeout = some t)
    (hd : t.due = true) : timeoutSlot k s = dropSlot k w .time s := by
  simp [timeoutSlot, hw, ht, timerDue, hd]

theorem timeoutSlot_not_due {k : Fin 8} (h : ∀ w t, s.slot k = some w → w.timeout = some t → t.due = false) :
    timeoutSlot k s = s := by
  unfold timeoutSlot
  split
  · rfl
  · next w hw =>
    cases ht : w.timeout with
    | none => rfl
    | some t => exact if_neg (by simp [timerDue, h w t hw ht])

end

/-- Settles O47: the tick at every timer, and the end of each timer by whether it is due. -/
theorem timersCountAndEnd : Obligations.TimersCountAndEnd := by
  intro s
  refine ⟨rfl, fun t running => ⟨tick_fresh running, tick_counts running, tick_due running⟩,
    fun e => ⟨fun g l => entry_tick_leased, entry_tick_other⟩,
    fun i => ⟨fun g l t hl ht hd => ⟨fun hn => congrArg Host.Outcome.next ?_, fun hn => congrArg Host.Outcome.next ?_⟩,
      fun h => congrArg Host.Outcome.next (expireLease_not_due h)⟩,
    fun k => ⟨fun w t hw ht hd => next_congr ?_, fun h => next_congr (timeoutSlot_not_due h)⟩⟩
  · rw [expireLease_due hl ht hd, endEntry_idle hl hn]
    rfl
  · rw [expireLease_due hl ht hd, endEntry_counted hl (Nat.ne_of_gt hn)]
    rfl
  · rw [timeoutSlot_due hw ht hd, dropSlot]
    cases w.armed <;> rfl

end Sys2Proof.Proofs
end

