-- ==== Sys2Proof/Proofs/PortActions.lean ====
section
/-! PROOF. The steps that PORT to DISABLED and PRST share: the withdrawal (R135, R136), the release from leases (R45), the
cancellation of transfers (R91, R93); and the delivery of responses (R128, R138). -/

namespace Sys2Proof.Proofs

open Sys2Proof.Machine Sys2Proof.Laws

/-! ### The withdrawal -/

theorem withdraw_aborted (x : Access) :
    x.withdraw .aborted = match x.stage with | .waiting _ _ => { x with stage := .decided .aborted } | _ => x := by
  unfold Access.withdraw Access.isWaiting
  cases x.stage <;> rfl

/-! ### The release from leases (R45) -/

/-- What the release of port `p` makes of an entry. -/
def releasedEntry (p : Fin 4) (e : Entry) : Entry :=
  match e.status with
  | .leased g l =>
    if l.holds p then
      if l.holders = onlyPort p then
        if e.inflight = 0 then { e with status := .free (some .port) }
        else { e with status := .retiring g (.lease { l with expiry := none }) .port none }
      else { e with status := .leased g { l with holders := l.holders &&& ~~~(onlyPort p) } }
    else e
  | .free _ => e
  | .opened _ _ => e
  | .retiring _ _ _ _ => e

theorem releaseFrom_eq (p : Fin 4) (s : State) (i : Fin 16) :
    releaseFrom p s i = s.setEntry i (releasedEntry p (s.entry i)) := by
  unfold releaseFrom releasedEntry
  cases hs : (s.entry i).status with
  | leased g l =>
    dsimp only
    split
    · split
      · split
        · next hn => rw [endEntry_idle hs hn]; rfl
        · next hn => rw [endEntry_counted hs hn]; rfl
      · rfl
    · exact (setEntry_self s i).symm
  | _ => exact (setEntry_self s i).symm

/-- A change of each listed entry by itself. -/
theorem foldl_setEntry (f : Entry → Entry) (l : List (Fin 16)) (hn : l.Nodup) (s : State) :
    ∃ v : Vector Entry 16,
      l.foldl (fun t i => t.setEntry i (f (t.entry i))) s = { s with table := { s.table with entries := v } } ∧
        ∀ i : Fin 16, v[i] = if i ∈ l then f (s.entry i) else s.entry i := by
  induction l generalizing s with
  | nil => exact ⟨s.table.entries, rfl, fun i => by simp [State.entry]⟩
  | cons a l ih =>
    obtain ⟨hal, hl⟩ := List.nodup_cons.mp hn
    obtain ⟨v, hv, he⟩ := ih hl (s.setEntry a (f (s.entry a)))
    refine ⟨v, hv, fun i => ?_⟩
    rw [he i, entry_setEntry]
    by_cases hai : a = i
    · subst hai
      simp [hal]
    · simp [hai, Ne.symm hai]

theorem releasePort_entries (p : Fin 4) (s : State) :
    ∃ v : Vector Entry 16, releasePort p s = { s with table := { s.table with entries := v } } ∧
      ∀ i : Fin 16, v[i] = releasedEntry p (s.entry i) := by
  obtain ⟨v, hv, he⟩ := foldl_setEntry (releasedEntry p) entryIndices nodup_entryIndices s
  refine ⟨v, ?_, fun i => by rw [he i, if_pos (mem_entryIndices i)]⟩
  rw [← hv, releasePort]
  congr 1
  funext t i
  exact releaseFrom_eq p t i

section
variable {p : Fin 4} {e : Entry}

theorem releasedEntry_not_held (h : ∀ g l, e.status = .leased g l → l.holds p = false) : releasedEntry p e = e := by
  unfold releasedEntry
  split
  · next g l hs => exact if_neg (by simp [h g l hs])
  all_goals rfl

variable {g : Range} {l : LeaseDef} (hl : e.status = .leased g l) (hp : l.holds p = true)
include hl hp

/-- The last holder's lease ends with end cause PORT. -/
theorem releasedEntry_last (ho : l.holders = onlyPort p) :
    releasedEntry p e =
      if e.inflight = 0 then { e with status := .free (some .port) }
      else { e with status := .retiring g (.lease { l with expiry := none }) .port none } := by
  simp only [releasedEntry, hl, hp, if_true, if_pos ho]

theorem releasedEntry_shared (ho : l.holders ≠ onlyPort p) :
    releasedEntry p e = { e with status := .leased g { l with holders := l.holders &&& ~~~(onlyPort p) } } := by
  simp only [releasedEntry, hl, hp, if_true, if_neg ho]

end

/-! ### The cancellation of transfers -/

/-- R91, R93: WAITING transfers of the port complete, a RUNNING one goes to STOPPING. -/
theorem cancelForPort_eq (p : Fin 4) (s : State) :
    cancelForPort p s =
      (s.queue.filter (fun t => t.port == p && t.state == .waiting)).foldl
        (fun u t => finishTransfer t.owner .canc t.cancReplies u)
        { s with
          queue :=
            (s.queue.filter (fun t => !(t.port == p && t.state == .waiting))).map
              (fun t => if t.port = p then { t with state := .stopping } else t) } := by
  have stopped : (fun t : Transfer => if (t.port == p) = true then t.stop else t) =
      fun t => if t.port = p then { t with state := .stopping } else t := by
    funext t
    simp only [beq_iff_eq, Transfer.stop]
  rw [← stopped]
  rfl

/-! ### The delivery of responses (R128) -/

theorem responds_iff (p : Fin 4) (x : Access) (y : Response) :
    x.responds p y ↔ y.port = p ∧ x.answer = some (y.outcome, y.data) := by
  unfold Access.responds Access.answer
  cases x.stage with
  | decided o =>
    have ones : allOnes = 0xFFFFFFFF#32 := rfl
    cases hop : x.req.op <;> simp [AccessReq.refusedData, hop, ones, eq_comm]
  | done ws => simp [eq_comm, and_comm]
  | waiting c e => simp
  | inProgress c e => simp

/-- An access that no response answers stays, with those behind it. -/
theorem splitAnswered_stays {p : Fin 4} {l : List Access} (h : ∀ x, l.head? = some x → ∀ y, ¬x.responds p y) :
    splitAnswered p l = ([], l) := by
  cases l with
  | nil => rfl
  | cons x l =>
    have none_answers : x.answer = none := by
      rw [Option.eq_none_iff_forall_not_mem]
      rintro ⟨o, ws⟩ ha
      exact h x rfl { port := p, outcome := o, data := ws } ((responds_iff p x _).mpr ⟨rfl, ha⟩)
    unfold splitAnswered
    rw [none_answers]

/-- The accesses at the front whose outcomes are known are answered in order. -/
theorem splitAnswered_append {p : Fin 4} {first rest : List Access} {given : List Response}
    (hg : List.Forall₂ (Access.responds p) first given)
    (h : ∀ x, rest.head? = some x → ∀ y, ¬x.responds p y) : splitAnswered p (first ++ rest) = (given, rest) := by
  induction hg with
  | nil => exact splitAnswered_stays h
  | @cons x y first given hxy _ ih =>
    obtain ⟨hp, ha⟩ := (responds_iff p x y).mp hxy
    rw [List.cons_append, splitAnswered, ha]
    simp only [ih]
    rw [← hp]

theorem forall₂_of_getElem? {α β : Type} {R : α → β → Prop} {l : List α} {m : List β} (hl : l.length = m.length)
    (h : ∀ (n : Nat) (x : α) (y : β), l[n]? = some x → m[n]? = some y → R x y) : List.Forall₂ R l m :=
  List.forall₂_iff_get.mpr
    ⟨hl, fun n h₁ h₂ => h n _ _ (List.getElem?_eq_getElem h₁) (List.getElem?_eq_getElem h₂)⟩

theorem flush_eq {p : Fin 4} {s : State} {rest : List Access} {given : List Response}
    (h : splitAnswered p (s.port p).outstanding = (given, rest)) :
    flush p s =
      { s with
        delivered := s.delivered ++ given
        ports :=
          s.ports.set p { s.port p with outstanding := rest, state := (s.port p).state.drain given.length } } := by
  unfold flush
  rw [h]
  rfl

/-- Settles O35: the four steps one by one. -/
theorem portActions : Obligations.PortActions := by
  intro s p
  refine ⟨?_, ?_, cancelForPort_eq p s, fun first rest given ho hl hg hr => ?_⟩
  · unfold withdrawPort
    rw [show Access.withdraw .aborted = _ from funext withdraw_aborted]
    rfl
  · obtain ⟨v, hv, he⟩ := releasePort_entries p s
    refine ⟨v, hv, fun i => ⟨fun h => ?_, fun g l hl hp => ⟨fun ho hn => ?_, fun ho hn => ?_, fun ho => ?_⟩⟩⟩
    · rw [he i, releasedEntry_not_held h]
    · rw [he i, releasedEntry_last hl hp ho, if_pos hn]
    · rw [he i, releasedEntry_last hl hp ho, if_neg (Nat.ne_of_gt hn)]
    · rw [he i, releasedEntry_shared hl hp ho]
      rfl
  · have split : splitAnswered p (s.port p).outstanding = (given, rest) := by
      rw [ho]
      exact splitAnswered_append (forall₂_of_getElem? hl hg) hr
    rw [flush_eq split, hl]
    cases (s.port p).state <;> rfl

end Sys2Proof.Proofs
end

