-- ==== Sys2Proof/Proofs/SteadyEngine.lean ====
section
/-! PROOF. The engine as its consistency sees it (R70, R99 to R101, R106 to R109): what an operation leaves of it that does
not move the chain reader, and the states in which the reader waits for nothing. -/

namespace Sys2Proof.Proofs

open Sys2Proof.Machine Sys2Proof.Laws

/-! ### Operations that leave the reader alone -/

/-- The reads of the operation list whose data is still wanted (R121, R123). -/
def wantedReads (e : Engine) : List EngineOp := e.ops.filter EngineOp.isWantedRead

/-- What an operation leaves of the engine that does not move the reader: the wanted reads and slot 0 stand, and the take
list and the active table do not grow. -/
structure Steady (s t : State) : Prop where
  reader : t.eng.reader = s.eng.reader
  reads : wantedReads t.eng = wantedReads s.eng
  held : t.eng.heldRead = s.eng.heldRead
  slotZero : t.slot 0 = s.slot 0
  active : t.eng.active.length ≤ s.eng.active.length
  takeList : t.eng.takeList.length ≤ s.eng.takeList.length

theorem Steady.trans {s t u : State} (h : Steady s t) (k : Steady t u) : Steady s u where
  reader := k.reader.trans h.reader
  reads := k.reads.trans h.reads
  held := k.held.trans h.held
  slotZero := k.slotZero.trans h.slotZero
  active := k.active.trans h.active
  takeList := k.takeList.trans h.takeList

theorem Steady.after {s t u : State} (k : Steady t u) (h : Steady s t) : Steady s u := h.trans k

/-- Neither the engine nor the slots change. -/
theorem Steady.of_eq {s t : State} (hg : t.eng = s.eng) (hs : t.slots = s.slots) : Steady s t where
  reader := by rw [hg]
  reads := by rw [hg]
  held := by rw [hg]
  slotZero := slot_congr hs 0
  active := by rw [hg]
  takeList := by rw [hg]

theorem Steady.refl (s : State) : Steady s s := .of_eq rfl rfl

/-- A change of the engine beside its reader and its held read. -/
theorem Steady.of_engine {s t : State} (hs : t.slots = s.slots) (hr : t.eng.reader = s.eng.reader)
    (hw : wantedReads t.eng = wantedReads s.eng) (hh : t.eng.heldRead = s.eng.heldRead)
    (ha : t.eng.active.length ≤ s.eng.active.length) (hl : t.eng.takeList.length ≤ s.eng.takeList.length) : Steady s t :=
  ⟨hr, hw, hh, slot_congr hs 0, ha, hl⟩

theorem hasRoom_of_le {e e' : Engine} (hr : e'.reader = e.reader) (ha : e'.active.length ≤ e.active.length)
    (hl : e'.takeList.length ≤ e.takeList.length) (h : e.hasRoom) : e'.hasRoom := by
  have room : e.active.length < 8 ∧ e.takeList.length < 32 → e'.active.length < 8 ∧ e'.takeList.length < 32 :=
    And.imp ha.trans_lt hl.trans_lt
  unfold Engine.hasRoom at h ⊢
  rw [hr]
  split
  · next hs => rw [hs] at h; exact room h
  · next hs => rw [hs] at h; exact room h
  · next hs => rw [hs] at h; exact room h
  · next hs => rw [hs] at h; exact room h
  · next hs => rw [hs] at h; exact ha.trans_lt h
  · trivial

theorem Steady.consistent {s t : State} (h : Steady s t) (hc : s.engineConsistent) : t.engineConsistent := by
  obtain ⟨reads, tail, room, active, takeList⟩ := hc
  refine ⟨?_, ?_, hasRoom_of_le h.reader h.active h.takeList room, h.active.trans active, h.takeList.trans takeList⟩
  · have same : t.eng.ops.filter EngineOp.isWantedRead = s.eng.ops.filter EngineOp.isWantedRead := h.reads
    unfold Engine.readsFit at reads ⊢
    rw [same, h.reader, h.held]
    exact reads
  · unfold State.chainWatchFits at tail ⊢
    rw [h.reader, h.slotZero]
    exact tail

/-! ### The reader waits for nothing -/

/-- Whether the reader waits for a read of its own, or for a fire of slot 0. -/
def readerWaits : Reader → Bool
  | .examining _ => true
  | .stalled .waking _ => true
  | .taking _ _ _ .arming => true
  | .arming _ => true
  | .atTail _ => true
  | _ => false

/-- No read is wanted or held, slot 0 is FREE, and the lists are within their bounds. -/
structure AtRest (s : State) : Prop where
  reads : wantedReads s.eng = []
  held : s.eng.heldRead = false
  slotZero : s.slot 0 = none
  active : s.eng.active.length ≤ 8
  takeList : s.eng.takeList.length ≤ 32

theorem AtRest.steady {s t : State} (h : AtRest s) (k : Steady s t) : AtRest t :=
  ⟨k.reads.trans h.reads, k.held.trans h.held, k.slotZero.trans h.slotZero, k.active.trans h.active,
    k.takeList.trans h.takeList⟩

theorem atRest_setReader {s : State} (h : AtRest s) (r : Reader) : AtRest (setReader r s) :=
  ⟨h.reads, h.held, h.slotZero, h.active, h.takeList⟩

theorem atRest_stopReader {s : State} (h : AtRest s) : AtRest (stopReader s) :=
  ⟨h.reads, h.held, h.slotZero, h.active, h.takeList⟩

/-- A reader that waits for nothing is consistent exactly with such an engine. -/
theorem consistent_iff_atRest {s : State} (hr : readerWaits s.eng.reader = false) :
    s.engineConsistent ↔ AtRest s ∧ s.eng.hasRoom := by
  have reads : s.eng.readsFit ↔ wantedReads s.eng = [] ∧ s.eng.heldRead = false := by
    unfold Engine.readsFit wantedReads
    generalize s.eng.reader = r at hr
    refine and_congr ?_ ⟨fun h => ?_, fun h => by simp [h]⟩
    · split
      · cases hr
      · cases hr
      · cases hr
      · cases hr
      · rfl
    · by_contra held
      obtain ⟨a, rfl⟩ := h (by simpa using held)
      cases hr
  have tail : s.chainWatchFits ↔ s.slot 0 = none := by
    unfold State.chainWatchFits
    split
    · next h => simp [h, readerWaits] at hr
    · rfl
  unfold State.engineConsistent
  rw [reads, tail]
  exact ⟨fun ⟨⟨h1, h2⟩, h3, h4, h5, h6⟩ => ⟨⟨h1, h2, h3, h5, h6⟩, h4⟩,
    fun ⟨h, h4⟩ => ⟨⟨h.reads, h.held⟩, h.slotZero, h4, h.active, h.takeList⟩⟩


theorem AtRest.consistent {s : State} (h : AtRest s) (hr : readerWaits s.eng.reader = false) (room : s.eng.hasRoom) :
    s.engineConsistent := (consistent_iff_atRest hr).mpr ⟨h, room⟩

theorem AtRest.consistent_stopped {s : State} (h : AtRest s) : (stopReader s).engineConsistent :=
  (atRest_stopReader h).consistent rfl trivial

/-- At AT_TAIL a fire of slot 0, or a STOP, leaves the reader waiting for nothing. -/
theorem atRest_of_atTail {s : State} {id : RecId} (hr : s.eng.reader = .atTail id) (hc : s.engineConsistent) :
    AtRest (s.setSlot 0 none) := by
  obtain ⟨⟨reads, held⟩, _, _, active, takeList⟩ := hc
  rw [hr] at reads held
  refine ⟨reads, ?_, slot_setSlot_self s 0 none, active, takeList⟩
  by_contra h
  obtain ⟨a, ha⟩ := held (by simpa using h)
  cases ha

/-- R70: slot 0 is armed at AT_TAIL alone, on a word that fires at a value other than 0. -/
theorem slotZero_armed {s : State} (hc : s.engineConsistent) {w : WatchSlot} (hw : s.slot 0 = some w) :
    ∃ id a, s.eng.reader = .atTail id ∧ w = chainWatchSlot id a := by
  have tail := hc.2.1
  unfold State.chainWatchFits at tail
  split at tail
  · next id hr =>
    obtain ⟨a, ha⟩ := tail
    exact ⟨id, a, hr, Option.some.inj (hw.symm.trans ha)⟩
  · rw [hw] at tail
    cases tail

theorem slotZero_free {s : State} (hc : s.engineConsistent) (hr : ∀ id, s.eng.reader ≠ .atTail id) : s.slot 0 = none := by
  cases hw : s.slot 0 with
  | none => rfl
  | some w =>
    obtain ⟨id, _, h, _⟩ := slotZero_armed hc hw
    exact absurd h (hr id)

/-! ### The reads that the reader waits for (R100) -/

theorem grantedOp_ops {s : State} {o : EngineOp} (h : s.grantedOp = some o) : s.eng.ops = o :: (finishOp s).eng.ops := by
  unfold State.grantedOp at h
  split at h
  · obtain ⟨rest, hrest⟩ := List.head?_eq_some_iff.mp h
    show s.eng.ops = o :: s.eng.ops.tail
    rw [hrest]
    rfl
  · cases h

/-- An operation that is no wanted read completes. -/
theorem steady_finishOp {s : State} {o : EngineOp} (h : s.grantedOp = some o) (ho : o.isWantedRead = false) :
    Steady s (finishOp s) := by
  refine .of_engine rfl rfl ?_ rfl le_rfl le_rfl
  rw [wantedReads, wantedReads, grantedOp_ops h, List.filter_cons_of_neg (by simp [ho])]

/-- What the reader is doing while it waits for a read. -/
def awaits (o : EngineOp) (r : Reader) : Prop :=
  match o with
  | .recordRead a _ => r = .examining a ∨ r = .stalled .waking a
  | .armWait id _ _ => ∃ a l, r = .taking id a l .arming
  | .armTail id _ _ => r = .arming id
  | _ => False

/-- A wanted read completes: it was the one that the reader waits for, and no other is left. -/
theorem atRest_finishOp {s : State} {o : EngineOp} (h : s.grantedOp = some o) (ho : o.isWantedRead = true)
    (hc : s.engineConsistent) : AtRest (finishOp s) ∧ awaits o s.eng.reader := by
  have free := slotZero_free hc
  obtain ⟨⟨reads, held⟩, _, _, active, takeList⟩ := hc
  have wanted : s.eng.ops.filter EngineOp.isWantedRead = o :: wantedReads (finishOp s).eng := by
    rw [grantedOp_ops h, List.filter_cons_of_pos ho]
    rfl
  have unheld (hs : ∀ a, s.eng.reader ≠ .stalled .waking a) : s.eng.heldRead = false := by
    by_contra hh
    obtain ⟨a, ha⟩ := held (by simpa using hh)
    exact hs a ha
  have only : wantedReads (finishOp s).eng = [] ∧ s.eng.heldRead = false ∧ awaits o s.eng.reader := by
    rw [wanted] at reads
    split at reads
    · next a hr =>
      obtain ⟨rfl, none_left⟩ := List.cons.inj reads
      exact ⟨none_left, unheld (by simp [hr]), Or.inl hr⟩
    · next a hr =>
      split at reads
      · cases reads
      · next hh =>
        obtain ⟨rfl, none_left⟩ := List.cons.inj reads
        exact ⟨none_left, by simpa using hh, Or.inr hr⟩
    · next id a l hr =>
      obtain ⟨w, reads⟩ := reads
      obtain ⟨rfl, none_left⟩ := List.cons.inj reads
      exact ⟨none_left, unheld (by simp [hr]), a, l, hr⟩
    · next id hr =>
      obtain ⟨a, reads⟩ := reads
      obtain ⟨rfl, none_left⟩ := List.cons.inj reads
      exact ⟨none_left, unheld (by simp [hr]), hr⟩
    · cases reads
  obtain ⟨none_left, hh, waiting⟩ := only
  refine ⟨⟨none_left, hh, free fun id hr => ?_, active, takeList⟩, waiting⟩
  rw [hr] at waiting
  cases o <;> simp [awaits] at waiting

/-- A wanted read joins the list of a reader that then waits for it. -/
theorem AtRest.consistent_waiting {s t : State} {o : EngineOp} (h : AtRest s) (ho : o.isWantedRead = true)
    (hr : awaits o t.eng.reader) (room : t.eng.hasRoom) (hops : t.eng.ops = s.eng.ops ++ [o] := by simp)
    (hh : t.eng.heldRead = s.eng.heldRead := by simp) (hs : t.slots = s.slots := by simp)
    (ha : t.eng.active = s.eng.active := by simp) (hl : t.eng.takeList = s.eng.takeList := by simp) :
    t.engineConsistent := by
  have reads : t.eng.ops.filter EngineOp.isWantedRead = [o] := by
    rw [hops, List.filter_append, show s.eng.ops.filter EngineOp.isWantedRead = [] from h.reads,
      List.filter_cons_of_pos ho]
    rfl
  have unheld : t.eng.heldRead = false := hh.trans h.held
  refine ⟨⟨?_, by simp [unheld]⟩, ?_, room, ha ▸ h.active, hl ▸ h.takeList⟩
  · rw [reads]
    cases o with
    | recordRead a live =>
      obtain rfl : live = true := ho
      obtain hr | hr := hr <;> rw [hr]
      simp [unheld]
    | armWait id w live =>
      obtain rfl : live = true := ho
      obtain ⟨a, l, hr⟩ := hr
      rw [hr]
      exact ⟨w, rfl⟩
    | armTail id a live =>
      obtain rfl : live = true := ho
      rw [show t.eng.reader = .arming id from hr]
      exact ⟨a, rfl⟩
    | _ => cases hr
  · have free : t.slot 0 = none := (slot_congr hs 0).trans h.slotZero
    unfold State.chainWatchFits
    split
    · next hr' => cases o <;> simp [awaits, hr'] at hr
    · exact free

end Sys2Proof.Proofs
end

