-- ==== Sys2Proof/Proofs/ReaderConsistent.lean ====
section
/-! PROOF. The chain reader's moves leave a consistent engine (R70, R71, R101, R105 to R107, R119, R121, R122), and so does
the grant of its record read (R107). -/

namespace Sys2Proof.Proofs

open Sys2Proof.Machine Sys2Proof.Laws

/-! ### The operation list and the take list -/

theorem wantedReads_append {l : List EngineOp} (e : Engine) (h : ∀ o ∈ l, o.isWantedRead = false) :
    (e.ops ++ l).filter EngineOp.isWantedRead = wantedReads e := by
  have unwanted : l.filter EngineOp.isWantedRead = [] := List.filter_eq_nil_iff.mpr fun o ho => by simp [h o ho]
  rw [List.filter_append, unwanted, List.append_nil]
  rfl

theorem steady_appendOps (l : List EngineOp) (s : State) (h : ∀ o ∈ l, o.isWantedRead = false) :
    Steady s (appendOps l s) := by
  refine .of_engine (by simp) (by simp) ?_ (by simp) (by simp) (by simp)
  rw [appendOps_eng]
  exact wantedReads_append s.eng h

theorem retiredWrites_unwanted (l : List TakeRecord) : ∀ o ∈ retiredWrites l, o.isWantedRead = false := by
  intro o ho
  obtain ⟨r, _, rfl⟩ := List.mem_map.mp ho
  rfl

theorem splitRetired_length (tail : Option RecId) (l : List TakeRecord) : (splitRetired tail l).2.length ≤ l.length := by
  have parts := congrArg List.length (splitRetired_final tail l).1
  rw [List.length_append] at parts
  omega

theorem steady_retire (s : State) : Steady s (retire s) :=
  (steady_appendOps _ _ (retiredWrites_unwanted _)).after
    (.of_engine rfl rfl rfl rfl le_rfl (splitRetired_length _ _))

theorem steady_endTail (s : State) : Steady s (endTail s) := by
  unfold endTail
  split
  · exact .refl s
  · exact (steady_retire _).after (.of_engine rfl rfl rfl rfl le_rfl le_rfl)

theorem steady_wakeOfStop (s : State) : Steady s (wakeOfStop s) := .of_eq (by simp) (by simp)

theorem steady_endTailAtStop (s : State) : Steady s (endTailAtStop s) := by
  unfold endTailAtStop
  dsimp only
  split
  · exact .refl s
  · exact .of_engine rfl rfl rfl rfl le_rfl le_rfl
  · let pushed := pushOps (retiredWrites (splitRetired none s.eng.takeList).1)
      { s with eng := { s.eng with tail := none, takeList := (splitRetired none s.eng.takeList).2 } }
    have steady : Steady s pushed := by
      refine .of_engine rfl rfl ?_ rfl le_rfl (splitRetired_length _ _)
      exact wantedReads_append _ (retiredWrites_unwanted _)
    exact steady.trans (steady_wakeOfStop pushed)

/-- R121: a withdrawal changes the operation list alone. -/
theorem withdrawRead_eng (s : State) : (withdrawRead s).eng = { s.eng with ops := (withdrawRead s).eng.ops } := by
  unfold withdrawRead
  split
  · rfl
  split
  · rfl
  · dsimp only
    split <;> rfl

/-! ### Links (R105 to R107, R117) -/

section
variable {s : State} (h : AtRest s)
include h

theorem AtRest.consistent_chainFault (k : ChainFault) (a : Word) : (chainFault k a s).engineConsistent := by
  have faulted : (if s.eng.stopPending then stopReader s else setReader .faulted s).engineConsistent := by
    split
    · exact h.consistent_stopped
    · exact (atRest_setReader h _).consistent rfl trivial
  exact ((steady_endTail _).trans (steady_appendOps _ _ (by simp [EngineOp.isWantedRead]))).consistent faulted

/-- R122: the record read is wanted from now on, or held for the hand-off. -/
theorem AtRest.consistent_readRecord (a : Word) (ha : s.eng.active.length < 8) (hl : s.eng.takeList.length < 32) :
    (readRecord a s).engineConsistent := by
  have none_wanted : s.eng.ops.filter EngineOp.isWantedRead = [] := h.reads
  unfold readRecord
  split
  · exact ⟨⟨none_wanted, fun _ => ⟨a, rfl⟩⟩, h.slotZero, ⟨ha, hl⟩, h.active, h.takeList⟩
  · split
    · exact h.consistent_waiting (o := .recordRead a true) rfl (Or.inl rfl) ⟨ha, hl⟩
    · exact h.consistent_waiting (o := .recordRead a true) rfl (Or.inr rfl) ⟨ha, hl⟩

theorem AtRest.consistent_examineNext (a : Word) : (examineNext a s).engineConsistent := by
  unfold examineNext
  split
  · exact (atRest_setReader h _).consistent rfl trivial
  split
  · exact (atRest_setReader h _).consistent rfl trivial
  · next ha hl => exact h.consistent_readRecord a (by omega) (by omega)

theorem AtRest.consistent_followLink (l : Word) : (followLink l s).engineConsistent := by
  unfold followLink
  split
  · exact h.consistent_examineNext l
  · exact h.consistent_chainFault _ l

theorem AtRest.consistent_linkStep (id : RecId) (a l : Word) : (linkStep id a l s).engineConsistent := by
  unfold linkStep
  split
  · exact h.consistent_stopped
  split
  · exact h.consistent_waiting (o := .armTail id a true) rfl rfl trivial
  · exact h.consistent_followLink l

theorem AtRest.consistent_armTail (id : RecId) (a v : Word) : (armTail id a v s).engineConsistent := by
  unfold armTail
  split
  · exact h.consistent_stopped
  split
  · refine ⟨⟨h.reads, fun held => ?_⟩, ⟨a, slot_setSlot_self s 0 _⟩, trivial, h.active, h.takeList⟩
    exact absurd (h.held.symm.trans held) Bool.false_ne_true
  · exact h.consistent_followLink v

/-- R119: a GO that acts starts from a reader that waits for nothing. -/
theorem AtRest.consistent_goAct : (goAct s).engineConsistent := by
  have prepared : AtRest (goPrepare s) := ⟨h.reads, rfl, h.slotZero, h.active, h.takeList⟩
  unfold goAct
  dsimp only
  split
  · exact (prepared.steady (steady_appendOps _ _ (by simp [EngineOp.isWantedRead]))).consistent_examineNext _
  · exact (steady_appendOps _ _ (by simp [EngineOp.isWantedRead])).consistent
      ((atRest_setReader prepared .faulted).consistent rfl trivial)

end

section
variable {s : State} (hc : s.engineConsistent)
include hc

theorem atRest_of_reader {r : Reader} (hr : s.eng.reader = r) (hw : readerWaits r = false) : AtRest s :=
  ((consistent_iff_atRest (by rw [hr]; exact hw)).mp hc).1

/-- R71: slot 0 fires only at AT_TAIL. -/
theorem consistent_fireChainWatch (v : Word) {w : WatchSlot} (hw : s.slot 0 = some w) :
    (fireChainWatch v s).engineConsistent := by
  obtain ⟨id, _, hr, _⟩ := slotZero_armed hc hw
  exact (atRest_of_atTail hr hc).consistent_followLink v

/-- R102: the write that ends a take completes. -/
theorem consistent_endTakeAt (id : RecId) {e : TakeEnd} (he : e ≠ .arming) : (endTakeAt id e s).engineConsistent := by
  unfold endTakeAt
  split
  · next i a l e0 hr =>
    split
    · next hi =>
      obtain ⟨rfl, rfl⟩ := hi
      exact (atRest_of_reader hc hr (by cases e0 <;> simp [readerWaits] at he ⊢)).consistent_linkStep _ _ _
    · exact hc
  all_goals exact hc

/-- R101, R107: a stall with a reason other than WAKING ends. -/
theorem consistent_endStall : (endStall s).engineConsistent := by
  have room := hc.2.2.1
  unfold Engine.hasRoom at room
  unfold endStall
  split
  · next a hr =>
    split
    · exact (atRest_of_reader hc hr rfl).consistent_examineNext a
    · exact hc
  · next a hr =>
    split
    · exact (atRest_of_reader hc hr rfl).consistent_examineNext a
    · exact hc
  · next a hr =>
    rw [hr] at room
    split
    · exact (atRest_of_reader hc hr rfl).consistent_readRecord a room.1 room.2
    · exact hc
  · next a hr =>
    rw [hr] at room
    split
    · exact (atRest_of_reader hc hr rfl).consistent_readRecord a room.1 room.2
    · exact hc
  all_goals exact hc

/-! ### GO and STOP (R119, R121) -/

theorem consistent_goCommand : (goCommand s).engineConsistent := by
  unfold goCommand
  split
  · next hr => exact (atRest_of_reader hc hr rfl).consistent_goAct
  · next hr => exact (atRest_of_reader hc hr rfl).consistent_goAct
  all_goals exact hc

section
variable {a : Word} (hr : s.eng.reader = .stalled .waking a)
include hr

theorem waking_reads : wantedReads s.eng = if s.eng.heldRead then [] else [.recordRead a true] := by
  have reads := hc.1.1
  rw [hr] at reads
  exact reads

theorem waking_room : s.eng.active.length < 8 ∧ s.eng.takeList.length < 32 := by
  have room := hc.2.2.1
  unfold Engine.hasRoom at room
  rw [hr] at room
  exact room

end

/-- R121: the record read of a stall with reason WAKING is the only wanted one, and it is withdrawn. -/
theorem withdrawRead_reads {a : Word} (hr : s.eng.reader = .stalled .waking a) :
    wantedReads (withdrawRead s).eng = [] := by
  have only : ∀ o ∈ s.eng.ops, o.isWantedRead = true → o.isRecordRead = true := by
    intro o ho hw
    have wanted : o ∈ wantedReads s.eng := List.mem_filter.mpr ⟨ho, hw⟩
    rw [waking_reads hc hr] at wanted
    split at wanted
    · cases wanted
    · rw [List.mem_singleton.mp wanted]
      rfl
  have others {l : List EngineOp} (hl : l ⊆ s.eng.ops) :
      ∀ o ∈ l.filter (fun o => !o.isRecordRead), ¬o.isWantedRead = true := by
    intro o ho hw
    obtain ⟨hm, hn⟩ := List.mem_filter.mp ho
    simp [only o (hl hm) hw] at hn
  unfold withdrawRead
  split
  · next hops => simp [wantedReads, hops]
  · next o rest hops =>
    have head : ¬(if o.isRecordRead = true then o.discard else o).isWantedRead = true := by
      split
      · next hd => cases o <;> simp [EngineOp.isRecordRead, EngineOp.discard, EngineOp.isWantedRead] at hd ⊢
      · next hd => exact fun hw => hd (only o (by simp [hops]) hw)
    split
    · exact List.filter_eq_nil_iff.mpr (List.forall_mem_cons.mpr ⟨head, others (by simp [hops])⟩)
    · dsimp only
      split
      · exact List.filter_eq_nil_iff.mpr (others (by simp [hops]))
      · exact List.filter_eq_nil_iff.mpr (others (by simp [hops]))

theorem consistent_stopCommand : (stopCommand s).engineConsistent := by
  have pends : (endTailAtStop { s with eng := { s.eng with stopPending := true } }).engineConsistent :=
    ((steady_endTailAtStop _).after (.of_engine rfl rfl rfl rfl le_rfl le_rfl)).consistent hc
  have stops {t : State} (h : AtRest t) : (endTailAtStop (stopReader t)).engineConsistent :=
    (steady_endTailAtStop _).consistent h.consistent_stopped
  unfold stopCommand
  split
  · exact hc
  · exact pends
  · exact pends
  · exact pends
  · next id hr => exact stops (atRest_of_atTail hr hc)
  · next a hr =>
    let stopped := endTailAtStop (stopReader (withdrawRead s))
    have steady : Steady (stopReader (withdrawRead s)) stopped := steady_endTailAtStop _
    obtain ⟨active, takeList⟩ : (withdrawRead s).eng.active = s.eng.active ∧
        (withdrawRead s).eng.takeList = s.eng.takeList := by
      rw [withdrawRead_eng]
      exact ⟨rfl, rfl⟩
    have rest : AtRest { stopped with eng := { stopped.eng with heldRead := false } } :=
      { reads := steady.reads.trans (withdrawRead_reads hc hr)
        held := rfl
        slotZero := steady.slotZero.trans ((slot_congr (by simp) 0).trans (slotZero_free hc (by simp [hr])))
        active := steady.active.trans (active ▸ hc.2.2.2.1)
        takeList := steady.takeList.trans (takeList ▸ hc.2.2.2.2) }
    have reader : stopped.eng.reader = .stopped := steady.reader
    exact rest.consistent (by simp [reader, readerWaits]) (by simp [Engine.hasRoom, reader])
  · next hr => exact stops (atRest_of_reader hc hr rfl)
  · next hr => exact stops (atRest_of_reader hc hr rfl)
  · next hr => exact stops (atRest_of_reader hc hr rfl)
  · next hr => exact stops (atRest_of_reader hc hr rfl)
  · next hr => exact stops (atRest_of_reader hc hr rfl)

/-! ### The controller and the arbiter (R107, R122) -/

/-- R122: the held record read joins the list at the hand-off. -/
theorem consistent_releaseHeldRead : (releaseHeldRead s).engineConsistent := by
  unfold releaseHeldRead
  split
  · next a held hr =>
    have free : s.slot 0 = none := slotZero_free hc (by simp [hr])
    have unheld : AtRest { s with eng := { s.eng with heldRead := false } } :=
      { reads := (waking_reads hc hr).trans (if_pos held)
        held := rfl
        slotZero := free
        active := hc.2.2.2.1
        takeList := hc.2.2.2.2 }
    refine unheld.consistent_waiting (o := .recordRead a true) rfl (Or.inr ?_) ?_
    · rw [appendOps_eng]
      exact hr
    · rw [appendOps_eng, Engine.hasRoom, hr]
      exact waking_room hc hr
  · exact hc

theorem consistent_handoff : (handoff s).engineConsistent := by
  unfold handoff
  split
  · exact consistent_releaseHeldRead ((Steady.of_engine rfl rfl rfl rfl le_rfl le_rfl).consistent hc)
  · exact hc

/-- R107: the stall with reason WAKING ends at the grant of its record read, which was not held. -/
theorem consistent_wakeReader {t : State} (hg : t.eng = wakeReader s.eng) (hs : t.slots = s.slots) :
    t.engineConsistent := by
  unfold wakeReader at hg
  split at hg
  · next b rest a hops hr =>
    have reads := waking_reads hc hr
    have asked : wantedReads s.eng = .recordRead b true :: rest.filter EngineOp.isWantedRead := by
      rw [wantedReads, hops]
      rfl
    have unheld : s.eng.heldRead = false := by
      by_contra held
      rw [if_pos (by simpa using held), asked] at reads
      cases reads
    rw [if_neg (by simp [unheld])] at reads
    unfold State.engineConsistent State.chainWatchFits Engine.readsFit
    rw [hg, slot_congr hs 0]
    exact ⟨⟨reads, by simp [unheld]⟩, slotZero_free hc (by simp [hr]), waking_room hc hr, hc.2.2.2⟩
  · exact (Steady.of_eq hg hs).consistent hc

end

theorem arbitrate_eng (s : State) : (arbitrate s).eng = s.eng ∨ (arbitrate s).eng = wakeReader s.eng := by
  unfold arbitrate
  split
  · split
    · next c _ =>
      cases c with
      | refresh => exact Or.inl rfl
      | switch => exact Or.inl rfl
      | priority p => exact Or.inl (by simp [grant])
      | default c =>
        cases c with
        | port p => exact Or.inl (by simp [grant])
        | chain => exact Or.inr rfl
        | transfer => exact Or.inl (by simp [grant])
    · exact Or.inl rfl
  · exact Or.inl rfl
  · exact Or.inl rfl

theorem consistent_arbitrate {s : State} (hc : s.engineConsistent) : (arbitrate s).engineConsistent := by
  obtain h | h := arbitrate_eng s
  · exact (Steady.of_eq h (by simp)).consistent hc
  · exact consistent_wakeReader hc h (by simp)

/-- Where no read is wanted the arbiter's choice leaves the engine alone. -/
theorem steady_arbitrate {s : State} (h : wantedReads s.eng = []) : Steady s (arbitrate s) := by
  have asleep : wakeReader s.eng = s.eng := by
    unfold wakeReader
    split
    · next hops _ => simp [wantedReads, hops, EngineOp.isWantedRead] at h
    · rfl
  obtain he | he := arbitrate_eng s
  · exact .of_eq he (by simp)
  · exact .of_eq (he.trans asleep) (by simp)

end Sys2Proof.Proofs
end

