-- ==== Sys2Proof/Proofs/SteadyBlocks.lean ====
section
/-! PROOF. The completions of requests and what is made of them leave the chain reader alone (R104); an evaluated write moves
it where slot 0 fires (R59, R71). -/

namespace Sys2Proof.Proofs

open Sys2Proof.Machine Sys2Proof.Laws

/-! ### Completions (R104) -/

theorem steady_complete (id : RecId) (c : ResultCode) (rw : Replies) (s : State) : Steady s (complete id c rw s) := by
  unfold complete
  split
  · exact .refl s
  · refine (steady_appendOps _ _ (by simp [EngineOp.isWantedRead])).after
      (.of_engine rfl rfl rfl rfl (List.length_filter_le _ _) ?_)
    simp [Engine.handOver]

theorem steady_raise (e : Event) (s : State) : Steady s (raise e s) := .of_eq rfl rfl

theorem steady_raiseIf (c : Bool) (e : Event) (s : State) : Steady s (raiseIf c e s) := .of_eq (by simp) (by simp)

theorem steady_foldl {α : Type} (f : State → α → State) (h : ∀ t a, Steady t (f t a)) (l : List α) (s : State) :
    Steady s (l.foldl f s) := by
  induction l generalizing s with
  | nil => exact .refl s
  | cons a l ih => exact (h s a).trans (ih _)

/-! ### Entries (R16 to R19) -/

theorem steady_setEntry (i : Fin 16) (e : Entry) (s : State) : Steady s (s.setEntry i e) := .of_eq rfl rfl

theorem steady_retireEntry (i : Fin 16) (s : State) : Steady s (retireEntry i s) := by
  unfold retireEntry
  split
  · refine (steady_raiseIf _ _ _).after ?_
    split
    · exact (steady_setEntry i _ s).trans (steady_complete _ _ _ _)
    · exact steady_setEntry i _ s
  all_goals exact .refl s

theorem steady_settleEntry (i : Fin 16) (s : State) : Steady s (settleEntry i s) := by
  unfold settleEntry
  split
  · exact steady_retireEntry i s
  · exact .refl s

theorem steady_countOut (e : Option (Fin 16)) (s : State) : Steady s (countOut e s) := by
  cases e with
  | none => exact .refl s
  | some i => exact (steady_setEntry i _ s).trans (steady_settleEntry i _)

theorem steady_cancelWaiter (i : Fin 16) (s : State) : Steady s (cancelWaiter i s) := by
  unfold cancelWaiter
  split
  · exact (steady_setEntry i _ s).trans (steady_complete _ _ _ _)
  all_goals exact .refl s

/-! ### Watches (R59 to R68) -/

/-- A slot that serves a WAIT changes. -/
theorem steady_setSlot (k : Fin 8) (w : Option WatchSlot) (s : State) (hk : k ≠ 0) : Steady s (s.setSlot k w) :=
  { Steady.refl s with slotZero := slot_setSlot_ne s k 0 w hk }

theorem steady_fireWait (k : Fin 8) (w : WatchSlot) (v : Word) (s : State) (hk : k ≠ 0) : Steady s (fireWait k w v s) := by
  have released : Steady s (watchRelease w.release (s.setSlot k none)) :=
    (steady_setSlot k none s hk).trans (.of_eq (by simp) (by simp))
  exact (released.trans (steady_complete _ _ _ _)).trans (steady_raise _ _)

theorem steady_dropSlot (k : Fin 8) (w : WatchSlot) (c : ResultCode) (s : State) (hk : k ≠ 0) :
    Steady s (dropSlot k w c s) := (steady_setSlot k none s hk).trans (steady_complete _ _ _ _)

theorem steady_cancelWait (id : RecId) (s : State) : Steady s (cancelWait id s) := by
  unfold cancelWait
  split
  · exact .refl s
  · next k hk =>
    split
    · exact .refl s
    · exact steady_dropSlot k _ _ s ((mem_waitSlots k).mp (List.mem_of_find?_eq_some hk))

/-- R60: slot 0, never ARMED_WAITING, can only fire. -/
theorem consistent_evaluateSlot (a : Nat) (v : Word) {s : State} (hc : s.engineConsistent) (k : Fin 8) :
    (evaluateSlot a v s k).engineConsistent := by
  unfold evaluateSlot
  split
  · exact hc
  · next w hw =>
    split
    · split
      · exact hc
      · split
        · next hk => subst hk; exact consistent_fireChainWatch hc v hw
        · next hk => exact (steady_fireWait k w v s hk).consistent hc
      · next armed _ =>
        refine (steady_setSlot k _ s ?_).consistent hc
        rintro rfl
        obtain ⟨_, _, _, rfl⟩ := slotZero_armed hc hw
        cases armed
      · exact hc
    · exact hc

theorem consistent_evaluateWord (a : Nat) (v : Word) {s : State} (hc : s.engineConsistent) :
    (evaluateWord a v s).engineConsistent :=
  List.foldlRecOn slotIndices _ hc fun _ ht k _ => consistent_evaluateSlot a v ht k

theorem consistent_evaluate (a : Nat) (ws : List Word) {s : State} (hc : s.engineConsistent) :
    (evaluate a ws s).engineConsistent := by
  induction ws generalizing a s with
  | nil => exact hc
  | cons v vs ih => exact ih _ (consistent_evaluateWord a v hc)

theorem consistent_storeAndEvaluate (a : Nat) (ws : List Word) {s : State} (hc : s.engineConsistent) :
    (storeAndEvaluate a ws s).engineConsistent :=
  consistent_evaluate a ws ((Steady.of_eq (s := s) (t := s.store a ws) rfl rfl).consistent hc)

/-- R70: slot 0 has no timeout, so the slot that times out serves a WAIT. -/
theorem consistent_timeoutSlot (k : Fin 8) {s : State} (hc : s.engineConsistent) : (timeoutSlot k s).engineConsistent := by
  unfold timeoutSlot
  split
  · exact hc
  · next w hw =>
    split
    · next hd =>
      refine (steady_dropSlot k w _ s ?_).consistent hc
      rintro rfl
      obtain ⟨_, _, _, rfl⟩ := slotZero_armed hc hw
      cases hd
    · exact hc

/-! ### Transfers (R81 to R93) -/

theorem steady_finishTransfer (id : RecId) (c : ResultCode) (rw : Replies) (s : State) :
    Steady s (finishTransfer id c rw s) := (steady_complete id c rw s).trans (.of_eq rfl rfl)

theorem steady_applyDecision (dec : Decision) (p : Fin 4) (tr : Bool) (d : Dir) (a : Word) (s : State) :
    Steady s (applyDecision dec p tr d a s) := .of_eq (by simp) (by simp)

theorem steady_setQueue (s : State) (l : List Transfer) : Steady s { s with queue := l } := .of_eq rfl rfl

theorem steady_runQueue (q : List Transfer) (s : State) : Steady s (runQueue q s) := by
  induction q generalizing s with
  | nil => exact steady_setQueue s []
  | cons t rest ih =>
    unfold runQueue
    dsimp only
    split
    · exact (steady_applyDecision _ _ _ _ _ s).trans (steady_setQueue _ _)
    · exact ((steady_applyDecision _ _ _ _ _ s).trans (steady_finishTransfer _ _ _ _)).trans (ih _)

theorem steady_afterBurst (t : Transfer) (b : Bool) (rest : List Transfer) (s : State) :
    Steady s (afterBurst t b rest s) := by
  unfold afterBurst
  split
  · exact (steady_finishTransfer _ _ _ s).trans (steady_runQueue _ _)
  split
  · exact (steady_finishTransfer _ _ _ s).trans (steady_runQueue _ _)
  · exact steady_runQueue _ s

theorem steady_cancelTransfers (hit : Transfer → Bool) (s : State) : Steady s (cancelTransfers hit s) :=
  (steady_setQueue s _).trans (steady_foldl _ (fun _ _ => steady_finishTransfer _ _ _ _) _ _)

/-- R113: the cancellation of a request in its block. -/
theorem steady_cancelRequest (a : ActiveRequest) (s : State) : Steady s (cancelRequest a s) := by
  unfold cancelRequest
  split
  · exact steady_cancelWait _ s
  · exact steady_cancelTransfers _ s
  · split
    · exact .refl s
    · exact steady_cancelWaiter _ s
  · exact .refl s
  · exact .refl s

/-! ### Ports (R135 to R138) -/

theorem steady_setPort (p : Fin 4) (q : Port) (s : State) : Steady s (s.setPort p q) := .of_eq rfl rfl

theorem steady_setPortState (p : Fin 4) (st : PortState) (s : State) : Steady s (setPortState p st s) :=
  steady_setPort p _ s

theorem steady_flush (p : Fin 4) (s : State) : Steady s (flush p s) := .of_eq (by simp) (by simp)

theorem steady_answer (p : Fin 4) (s : State) : Steady s (answer p s) := .of_eq (by simp) (by simp)

theorem steady_releasePort (p : Fin 4) (s : State) : Steady s (releasePort p s) := .of_eq (by simp) (by simp)

theorem steady_cancelForPort (p : Fin 4) (s : State) : Steady s (cancelForPort p s) := steady_cancelTransfers _ s

theorem steady_withdrawPort (p : Fin 4) (s : State) : Steady s (withdrawPort p s) :=
  (steady_foldl _ (fun t e => steady_countOut e t) _ _).after (.of_eq rfl rfl)

theorem steady_disablePort (p : Fin 4) (s : State) : Steady s (disablePort p s) := by
  unfold disablePort
  exact (steady_cancelForPort p _).after ((steady_releasePort p _).after ((steady_answer p _).after
    ((steady_withdrawPort p _).after (steady_setPortState p _ s))))

theorem steady_formDrainAccesses (p : Fin 4) (s : State) : Steady s (formDrainAccesses p s) := .of_eq (by simp) (by simp)

theorem steady_formDrainTransfers (p : Fin 4) (s : State) : Steady s (formDrainTransfers p s) := .of_eq (by simp) (by simp)

theorem steady_drainPort (p : Fin 4) (s : State) : Steady s (drainPort p s) := by
  unfold drainPort
  split
  · split
    · exact ((steady_setPort p _ s).trans (steady_complete _ _ _ _)).trans (steady_raise _ _)
    · exact .refl s
  all_goals exact .refl s

/-- R137: what a PRST does once its request stands in the active table. -/
theorem steady_resetPort (id : RecId) (p : Fin 4) (f : FormerState) (s : State) :
    Steady (enterActive id .agentPorts s) (resetPort id p f s) := by
  unfold resetPort
  exact (steady_drainPort p _).after ((steady_releasePort p _).after ((steady_formDrainTransfers p _).after
    ((steady_cancelForPort p _).after ((steady_answer p _).after ((steady_formDrainAccesses p _).after
      ((steady_flush p _).after ((steady_withdrawPort p _).after (steady_setPortState p _ _))))))))

/-! ### Speed sequences (R165 to R169) -/

theorem steady_setSpeed (s : State) (c : SpeedControl) : Steady s { s with speed := c } := .of_eq rfl rfl

theorem steady_finishSpeed (c : ResultCode) (rw : Replies) (s : State) : Steady s (finishSpeed c rw s) := by
  unfold finishSpeed
  split
  · exact .refl s
  · exact ((steady_setSpeed s _).trans (steady_complete _ _ _ _)).trans (steady_raise _ _)

theorem steady_endLocking (b : Bool) (s : State) : Steady s (endLocking b s) := by
  unfold endLocking
  split
  · split
    · exact steady_setSpeed s _
    · exact (steady_setSpeed s _).trans (steady_finishSpeed _ _ _)
  · exact .refl s

theorem steady_endLowering (s : State) : Steady s (endLowering s) := by
  unfold endLowering
  split
  · exact (steady_setSpeed s _).trans (steady_finishSpeed _ _ _)
  · exact .refl s

theorem steady_switchUpDone (s : State) : Steady s (switchUpDone s) := by
  unfold switchUpDone
  split
  · exact (steady_finishSpeed _ _ _).after (.of_eq rfl rfl)
  · exact .refl s

end Sys2Proof.Proofs
end

