-- ==== Sys2Proof/Proofs/ConsistentTakes.lean ====
section
/-! PROOF. A record is examined and taken, its request handed to its block (R101 to R103), the arming reads of the watch unit
complete (R63, R70): the engine stays consistent. -/

namespace Sys2Proof.Proofs

open Sys2Proof.Machine Sys2Proof.Laws

/-! ### A record that is being taken -/

/-- The record `id` has been taken and its block has not answered yet: there is room for its request (R107). -/
structure BeingTaken (id : RecId) (s : State) : Prop where
  rest : AtRest s
  reader : ∃ a l, s.eng.reader = .taking id a l .header
  room : s.eng.active.length < 8

theorem BeingTaken.steady {id : RecId} {s t : State} (h : BeingTaken id s) (k : Steady s t) : BeingTaken id t :=
  have ⟨a, l, hr⟩ := h.reader
  ⟨h.rest.steady k, ⟨a, l, k.reader.trans hr⟩, k.active.trans_lt h.room⟩

/-- The end of a take changes in the reader alone. -/
theorem atRest_setTakeEnd {s : State} (h : AtRest s) (id : RecId) (e : TakeEnd) : AtRest (setTakeEnd id e s) :=
  atRest_setReader h _

theorem consistent_instant {id : RecId} {a l : Word} {e : TakeEnd} {s : State} (h : AtRest s)
    (hr : s.eng.reader = .taking id a l e) (c : ResultCode) (rw : Replies) : (instant id c rw s).engineConsistent := by
  have ended : (setTakeEnd id .result s).eng.reader = .taking id a l .result := by
    show s.eng.reader.endsAt id .result = _
    rw [hr, Reader.endsAt, if_pos rfl]
  refine (steady_complete id c rw _).consistent ((atRest_setTakeEnd h id .result).consistent ?_ ?_)
  · rw [ended]
    rfl
  · rw [Engine.hasRoom, ended]
    trivial

theorem enterActive_lengths (id : RecId) (b : Block) (e : Engine) :
    (e.enterActive id b).active.length ≤ e.active.length + 1 ∧
      (e.enterActive id b).takeList.length = e.takeList.length := by
  unfold Engine.enterActive
  split <;> simp

theorem enterActive_keeps (id : RecId) (b : Block) (e : Engine) :
    (e.enterActive id b).ops = e.ops ∧ (e.enterActive id b).heldRead = e.heldRead ∧
      (e.enterActive id b).reader = e.reader := by
  unfold Engine.enterActive
  split <;> exact ⟨rfl, rfl, rfl⟩

theorem atRest_enterActive {id : RecId} {s : State} (hs : AtRest s) (room : s.eng.active.length < 8) (b : Block) : AtRest (enterActive id b s) := by
  obtain ⟨ops, held, _⟩ := enterActive_keeps id b s.eng
  obtain ⟨active, takeList⟩ := enterActive_lengths id b s.eng
  refine ⟨?_, held.trans hs.held, hs.slotZero, active.trans room, takeList.trans_le hs.takeList⟩
  rw [wantedReads, show (enterActive id b s).eng.ops = s.eng.ops from ops]
  exact hs.reads

section
variable {id : RecId} {s : State} (h : BeingTaken id s)
include h

/-- An instant request, after what its block does. -/
theorem BeingTaken.answered {u : State} (k : Steady s u) (c : ResultCode) (rw : Replies) :
    (instant id c rw u).engineConsistent :=
  have ⟨_, _, hr⟩ := (h.steady k).reader
  consistent_instant (h.rest.steady k) hr c rw

/-- An instant request that touches neither the engine nor the slots beside its answer. -/
theorem BeingTaken.answer {u : State} (c : ResultCode) (rw : Replies) (hg : u.eng = s.eng := by simp)
    (hs : u.slots = s.slots := by simp) : (instant id c rw u).engineConsistent := h.answered (.of_eq hg hs) c rw

/-- A long request, with what its block does once it stands in the active table. -/
theorem BeingTaken.entered {b : Block} {t : State} (k : Steady (enterActive id b s) t) : t.engineConsistent := by
  obtain ⟨a, l, hr⟩ := h.reader
  have reader : (enterActive id b s).eng.reader = .taking id a l .header := (enterActive_reader id b s).trans hr
  refine k.consistent ((atRest_enterActive h.rest h.room b).consistent ?_ ?_)
  · rw [reader]
    rfl
  · rw [Engine.hasRoom, reader]
    trivial

/-! ### The take of each request -/

theorem BeingTaken.consistent_open (r : Request) : (takeOpen id r s).engineConsistent := by
  unfold takeOpen
  repeat' split
  all_goals exact h.answer _ _

theorem BeingTaken.consistent_close (r : Request) : (takeClose id r s).engineConsistent := by
  unfold takeClose
  split
  · exact h.answer _ _
  split
  · split
    · exact h.answer _ _
    split
    · exact h.answer _ _
    · exact (h.steady (.of_eq (by simp) (by simp))).entered (.refl _)
  all_goals exact h.answer _ _

theorem BeingTaken.consistent_lock (r : Request) : (takeLock id r s).engineConsistent := by
  unfold takeLock
  repeat' split
  all_goals exact h.answer _ _

theorem BeingTaken.consistent_look (r : Request) : (takeLook id r s).engineConsistent := by
  unfold takeLook
  repeat' split
  all_goals exact h.answer _ _

theorem BeingTaken.consistent_lease (r : Request) : (takeLease id r s).engineConsistent := by
  unfold takeLease
  repeat' split
  all_goals exact h.answer _ _

theorem BeingTaken.consistent_renew (r : Request) : (takeRenew id r s).engineConsistent := by
  unfold takeRenew
  repeat' split
  all_goals exact h.answer _ _

theorem BeingTaken.consistent_free (r : Request) : (takeFree id r s).engineConsistent := by
  unfold takeFree
  split
  · exact h.answer _ _
  split
  · split
    · exact h.answer _ _
    · exact (h.steady (.of_eq (by simp) (by simp))).entered (.refl _)
  all_goals exact h.answer _ _

theorem BeingTaken.consistent_policy (r : Request) : (takePolicy id r s).engineConsistent := by
  unfold takePolicy
  repeat' split
  all_goals exact h.answer _ _

/-- R62: the arming read joins the list of the reader, which waits for it with room for the WAIT. -/
theorem BeingTaken.consistent_wait (r : Request) : (takeWait id r s).engineConsistent := by
  unfold takeWait
  split
  · exact h.answer _ _
  split
  · exact h.answer _ _
  · obtain ⟨a, l, hr⟩ := h.reader
    have armed : s.eng.reader.endsAt id .arming = .taking id a l .arming := by rw [hr, Reader.endsAt, if_pos rfl]
    refine h.rest.consistent_waiting (o := .armWait id (watchSpec r) true) rfl ⟨a, l, ?_⟩ ?_
    · rw [appendOps_eng]
      exact armed
    · rw [appendOps_eng, Engine.hasRoom, setTakeEnd_eng, armed]
      exact h.room

theorem BeingTaken.consistent_startTransfer (j : Job) (p : Fin 4) (n : Nat) :
    (startTransfer id j p n s).engineConsistent := by
  unfold startTransfer acceptTransfer
  split
  · exact h.answer _ _
  · dsimp only
    split
    · exact h.entered (steady_runQueue _ _)
    · exact h.entered (steady_setQueue _ _)

theorem BeingTaken.consistent_fill (r : Request) : (takeFill id r s).engineConsistent := by
  unfold takeFill
  split
  · exact h.answer _ _
  split
  · exact h.answer _ _
  split
  · exact h.answer _ _
  · exact h.consistent_startTransfer _ _ _

theorem BeingTaken.consistent_copy (r : Request) : (takeCopy id r s).engineConsistent := by
  unfold takeCopy
  split
  · exact h.answer _ _
  split
  · exact h.answer _ _
  split
  · exact h.answer _ _
  split
  · exact h.answer _ _
  · exact h.consistent_startTransfer _ _ _

theorem BeingTaken.consistent_scan (r : Request) : (takeScan id r s).engineConsistent := by
  unfold takeScan
  split
  · exact h.answer _ _
  split
  · exact h.answer _ _
  split
  · exact h.answer _ _
  · exact h.consistent_startTransfer _ _ _

theorem BeingTaken.consistent_abort (r : Request) : (takeAbort id r s).engineConsistent := by
  unfold takeAbort
  split
  · exact h.answer _ _
  split
  · exact h.answer _ _
  split
  · exact h.answer _ _
  · exact h.answered (steady_cancelRequest _ s) _ _

theorem BeingTaken.consistent_port (r : Request) : (takePort id r s).engineConsistent := by
  have disables (p : Fin 4) := h.answered (steady_disablePort p s)
  unfold takePort
  split
  · next p st _ _ =>
    split
    · exact h.answer _ _
    split
    · exact h.answer _ _
    · split
      · exact disables p _ _
      · exact h.answer _ _
    · split
      · exact disables p _ _
      · exact h.answer _ _
    · exact h.answer _ _
  · exact h.answer _ _
  · exact h.answer _ _

theorem BeingTaken.consistent_portReset (r : Request) : (takePortReset id r s).engineConsistent := by
  have resets (p : Fin 4) (f : FormerState) := h.entered (steady_resetPort id p f s)
  unfold takePortReset
  split
  · exact h.answer _ _
  split
  · exact h.answer _ _
  split
  · exact h.answer _ _
  · exact h.answer _ _
  · exact resets _ _
  · exact resets _ _

theorem BeingTaken.consistent_refreshInterval (r : Request) : (takeRefreshInterval id r s).engineConsistent := by
  unfold takeRefreshInterval
  split
  all_goals exact h.answer _ _

theorem BeingTaken.consistent_speed (r : Request) : (takeSpeed id r s).engineConsistent := by
  have spoken (rw : Replies) : (raise .speed (instant id .okay rw s)).engineConsistent :=
    (steady_raise _ _).consistent (h.answer _ _)
  unfold takeSpeed
  split
  · exact h.answer _ _
  split
  · split
    · exact spoken _
    · exact (h.steady (steady_setSpeed s _)).entered (.refl _)
  · split
    · exact spoken _
    · exact (h.steady (.of_eq (by simp) (by simp))).entered (.refl _)
  all_goals exact h.answer _ _

theorem BeingTaken.consistent_sleep (r : Request) : (takeSleep id r s).engineConsistent := by
  unfold takeSleep
  split
  · exact h.answer _ _
  split
  · exact h.answer _ _
  split
  · exact h.answer _ _
  · refine h.answered ?_ _ _
    exact .of_engine rfl rfl rfl rfl le_rfl le_rfl

theorem BeingTaken.consistent_handOff (c : Option Code) (r : Request) : (handOff c id r s).engineConsistent := by
  cases c with
  | none => exact h.answer _ _
  | some c =>
    cases c with
    | openWindow => exact h.consistent_open r
    | closeWindow => exact h.consistent_close r
    | lock => exact h.consistent_lock r
    | look => exact h.consistent_look r
    | lease => exact h.consistent_lease r
    | renew => exact h.consistent_renew r
    | freeLease => exact h.consistent_free r
    | policy => exact h.consistent_policy r
    | waitWord => exact h.consistent_wait r
    | fill => exact h.consistent_fill r
    | copy => exact h.consistent_copy r
    | scan => exact h.consistent_scan r
    | abort => exact h.consistent_abort r
    | noop => exact h.answer _ _
    | port => exact h.consistent_port r
    | portReset => exact h.consistent_portReset r
    | refreshInterval => exact h.consistent_refreshInterval r
    | speed => exact h.consistent_speed r
    | sleep => exact h.consistent_sleep r

end

/-! ### The examination of a record (R101) -/

/-- R102: what follows the joining of the record leaves the reader alone. -/
theorem steady_takeRecord (addr code : Word) (r : Request) (s : State) :
    Steady (joinRecord addr code r s) (takeRecord addr code r s) :=
  (steady_endTail _).after (steady_appendOps _ _ (by simp [EngineOp.isWantedRead]))

section
variable {s : State} (h : AtRest s) (ha : s.eng.active.length < 8) (hl : s.eng.takeList.length < 32)
include h ha hl

theorem beingTaken_takeRecord (addr code : Word) (r : Request) :
    BeingTaken s.eng.nextId (takeRecord addr code r s) := by
  have joined : BeingTaken s.eng.nextId (joinRecord addr code r s) :=
    ⟨⟨h.reads, h.held, h.slotZero, h.active, by simpa [joinRecord] using hl⟩, ⟨addr, r.link, rfl⟩, ha⟩
  exact joined.steady (steady_takeRecord addr code r s)

theorem AtRest.consistent_stallReader {c : StallReason} (hs : c = .barrier ∨ c = .queueFull) (a : Word) :
    (stallReader c a s).engineConsistent := by
  unfold stallReader
  split
  · exact h.consistent_stopped
  · obtain rfl | rfl := hs
    · exact (atRest_setReader h _).consistent rfl ⟨ha, hl⟩
    · exact (atRest_setReader h _).consistent rfl ⟨ha, hl⟩

theorem AtRest.consistent_examine (rec : Record) (addr : Word) : (examine rec addr s).engineConsistent := by
  unfold examine
  split
  · exact h.consistent_chainFault _ _
  split
  · exact h.consistent_stallReader ha hl (Or.inl rfl) addr
  split
  · exact h.consistent_stallReader ha hl (Or.inr rfl) addr
  · exact (beingTaken_takeRecord h ha hl addr _ _).consistent_handOff _ _

end

/-- R136: the arbiter's choice before the examination finds no read wanted. -/
theorem steady_readComplete {s : State} (h : wantedReads (finishOp s).eng = []) : Steady (finishOp s) (readComplete s) := by
  have finished : Steady (finishOp s) (finishOp { s with arb := { s.arb with reads := s.arb.reads + 1 } }) :=
    .of_eq rfl rfl
  unfold readComplete
  dsimp only
  split
  · exact finished
  split
  · exact finished.trans (steady_arbitrate h)
  · exact finished

section
variable {s : State} (hc : s.engineConsistent)
include hc

theorem consistent_recordReadReturns (rec : Option Record) : (recordReadReturns rec s).engineConsistent := by
  unfold recordReadReturns
  split
  · next a hg =>
    obtain ⟨rest, waiting⟩ := atRest_finishOp hg rfl hc
    have room : s.eng.active.length < 8 ∧ s.eng.takeList.length < 32 := by
      have room := hc.2.2.1
      unfold Engine.hasRoom at room
      obtain hr | hr := waiting
      · rw [hr] at room
        exact room
      · rw [hr] at room
        exact room
    have completed := steady_readComplete rest.reads
    exact (rest.steady completed).consistent_examine (completed.active.trans_lt room.1)
      (completed.takeList.trans_lt room.2) _ a
  · next a hg => exact (steady_finishOp hg rfl).consistent hc
  · exact hc

end

/-! ### The arming reads (R63, R70) -/

/-- R63: the WAIT stands armed and its take ends with the link step. -/
theorem consistent_armSlot {s : State} (h : AtRest s) (room : s.eng.active.length < 8) {id : RecId} {a l : Word}
    (hr : s.eng.reader = .taking id a l .arming) {k : Fin 8} (hk : k ≠ 0) (w : WatchSpec) (st : ArmedState) :
    (armSlot id k w st s).engineConsistent := by
  have armed := h.steady (steady_setSlot k (some (w.slot st id)) s hk)
  have reader : (enterActive id .watchUnit (s.setSlot k (some (w.slot st id)))).eng.reader = .taking id a l .arming :=
    (enterActive_reader _ _ _).trans hr
  rw [armSlot, (endTakeAt_eq _ id .arming).1 a l reader]
  exact (atRest_enterActive armed room .watchUnit).consistent_linkStep id a l

theorem consistent_armWait {s : State} (h : AtRest s) (room : s.eng.active.length < 8) {id : RecId} {a l : Word}
    (hr : s.eng.reader = .taking id a l .arming) (w : WatchSpec) (v : Word) : (armWait id w v s).engineConsistent := by
  unfold armWait
  split
  · exact consistent_instant h hr _ _
  · next k hk =>
    split
    · exact consistent_armSlot h room hr (freeSlot_ne_zero hk) w _
    split
    · have released : Steady s (watchRelease w.release s) := .of_eq (by simp) (by simp)
      exact (steady_raise _ _).consistent (consistent_instant (h.steady released) (released.reader.trans hr) _ _)
    · exact consistent_armSlot h room hr (freeSlot_ne_zero hk) w _

section
variable {s : State} (hc : s.engineConsistent)
include hc

theorem consistent_waitArmingDone : (waitArmingDone s).engineConsistent := by
  unfold waitArmingDone
  split
  · next id w hg =>
    obtain ⟨rest, a, l, hr⟩ := atRest_finishOp hg rfl hc
    have room := hc.2.2.1
    unfold Engine.hasRoom at room
    rw [hr] at room
    exact consistent_armWait rest room hr w _
  · next hg => exact (steady_finishOp hg rfl).consistent hc
  · exact hc

theorem consistent_tailArmingDone : (tailArmingDone s).engineConsistent := by
  unfold tailArmingDone
  split
  · next id a hg => exact (atRest_finishOp hg rfl hc).1.consistent_armTail id a _
  · next hg => exact (steady_finishOp hg rfl).consistent hc
  · exact hc

end

end Sys2Proof.Proofs
end

