-- ==== Sys2Proof/Proofs/EngineConsistent.lean ====
section
/-! PROOF. Every command leaves the engine consistent (R70, R99 to R101, R106 to R109). -/

namespace Sys2Proof.Proofs

open Sys2Proof.Machine Sys2Proof.Laws

/-! ### The engine's writes (R97, R104) -/

theorem steady_finalize (id : RecId) (n : Bool) (s : State) : Steady s (finalize id n s) :=
  (steady_raiseIf _ _ _).after (.of_engine rfl rfl rfl rfl le_rfl (by simp))

section
variable {s : State} (hc : s.engineConsistent)
include hc

theorem consistent_engineWrite {o : EngineOp} (hg : s.grantedOp = some o) (ho : o.isWantedRead = false) :
    (engineWrite o s).engineConsistent := by
  unfold engineWrite
  split
  · exact hc
  · exact consistent_storeAndEvaluate _ _ ((steady_finishOp hg ho).consistent hc)

theorem consistent_headerWriteDone : (headerWriteDone s).engineConsistent := by
  unfold headerWriteDone
  split
  · next hg => exact (steady_raiseIf _ _ _).consistent (consistent_engineWrite hc hg rfl)
  · next hg => exact consistent_endTakeAt (consistent_engineWrite hc hg rfl) _ nofun
  · next hg => exact (steady_raise _ _).consistent (consistent_engineWrite hc hg rfl)
  · exact hc

theorem consistent_resultWriteDone : (resultWriteDone s).engineConsistent := by
  unfold resultWriteDone
  split
  · next id a c n hg =>
    have final := (steady_finalize id n _).consistent (consistent_engineWrite hc hg rfl)
    exact (steady_retire _).consistent (consistent_endTakeAt final id nofun)
  · exact hc

theorem consistent_otherWriteDone : (otherWriteDone s).engineConsistent := by
  unfold otherWriteDone
  split
  · next hg => exact consistent_engineWrite hc hg rfl
  · next hg => exact consistent_engineWrite hc hg rfl
  · next hg => exact consistent_engineWrite hc hg rfl
  · exact hc

/-! ### Port accesses and bursts (R84 to R86, R129) -/

theorem consistent_accessDone : (accessDone s).engineConsistent := by
  unfold accessDone portAccessDone
  split
  · next p _ =>
    have idle : (setHolder none s).engineConsistent := (Steady.of_eq rfl rfl).consistent hc
    split
    · exact idle
    · next a e _ =>
      have counted := (steady_countOut e _).consistent idle
      have stored : (accessStore a (countOut e (setHolder none s))).engineConsistent := by
        unfold accessStore
        split
        · exact counted
        · exact consistent_storeAndEvaluate _ _ counted
      exact ((steady_answer p _).after (steady_setPort p _ _)).consistent stored
  · exact hc

theorem consistent_fillBurst : (fillBurst s).engineConsistent := by
  have idle : (setHolder none s).engineConsistent := (Steady.of_eq rfl rfl).consistent hc
  unfold fillBurst fillBurstDone
  split
  · split
    · exact (steady_afterBurst _ _ _ _).consistent
        (consistent_storeAndEvaluate _ _ ((steady_countOut _ _).consistent idle))
    all_goals exact hc
  · exact consistent_storeAndEvaluate _ _ idle
  · exact hc

theorem consistent_copyReadBurst : (copyReadBurst s).engineConsistent := by
  have idle : (setHolder none s).engineConsistent := (Steady.of_eq rfl rfl).consistent hc
  unfold copyReadBurst copyReadDone
  split
  · split
    · exact (steady_afterBurst _ _ _ _).consistent ((steady_countOut _ _).consistent idle)
    · exact hc
  · exact idle
  · exact hc

theorem consistent_copyWriteBurst : (copyWriteBurst s).engineConsistent := by
  have idle : (setHolder none s).engineConsistent := (Steady.of_eq rfl rfl).consistent hc
  unfold copyWriteBurst copyWriteDone
  split
  · split
    · exact (steady_afterBurst _ _ _ _).consistent
        (consistent_storeAndEvaluate _ _ ((steady_countOut _ _).consistent idle))
    · exact hc
  · exact consistent_storeAndEvaluate _ _ idle
  · exact hc

theorem consistent_scanBurst : (scanBurst s).engineConsistent := by
  have idle : (setHolder none s).engineConsistent := (Steady.of_eq rfl rfl).consistent hc
  unfold scanBurst scanBurstDone
  split
  · split
    · exact (steady_afterBurst _ _ _ _).consistent ((steady_countOut _ _).consistent idle)
    all_goals exact hc
  · exact idle
  · exact hc

/-! ### Timers, the controller and speed control -/

/-- R36: slot 0 has no timer. -/
theorem consistent_tickTimers : (tickTimers s).engineConsistent := by
  have ticked : (tickTimers s).slot 0 = (s.slot 0).map WatchSlot.tick := by simp [State.slot, tickTimers]
  have same : (tickTimers s).slot 0 = s.slot 0 := by
    rw [ticked]
    cases hw : s.slot 0 with
    | none => rfl
    | some w =>
      obtain ⟨_, _, _, rfl⟩ := slotZero_armed hc hw
      rfl
  have steady : Steady s (tickTimers s) := { Steady.refl s with slotZero := same }
  exact steady.consistent hc

end

section
variable (s : State)

theorem Steady.ite {s t : State} (c : Prop) [Decidable c] (h : Steady s t) : Steady s (if c then t else s) := by
  split
  · exact h
  · exact .refl s

theorem steady_setCtl (c : Controller) : Steady s { s with ctl := c } := .of_eq rfl rfl

theorem steady_wakeCycleDone : Steady s (wakeCycleDone s) := .ite _ (steady_setCtl s _)

theorem steady_refreshInterval : Steady s (refreshInterval s) := by
  unfold refreshInterval
  split
  · exact .refl s
  · exact steady_setCtl s _

theorem steady_refreshDone : Steady s (refreshDone s) := .ite _ (.of_eq rfl rfl)

theorem steady_finalRefreshDone : Steady s (finalRefreshDone s) := .ite _ (steady_setCtl s _)

theorem steady_selfRefreshEntered : Steady s (selfRefreshEntered s) := by
  refine .ite _ ?_
  split
  · exact steady_setCtl s _
  · exact steady_setCtl s _

theorem steady_selfRefreshLeft : Steady s (selfRefreshLeft s) := .ite _ (steady_setCtl s _)

theorem steady_exitRefreshDone : Steady s (exitRefreshDone s) := .ite _ ((steady_setCtl s _).trans (steady_raise _ _))

theorem steady_endRaising : Steady s (endRaising s) := .ite _ (steady_setSpeed s _)

theorem steady_switchDownDone : Steady s (switchDownDone s) := .ite _ (.of_eq rfl rfl)

theorem steady_fullResetEnds (pins : Straps) : Steady s (fullResetEnds pins s) := .ite _ (.of_eq rfl rfl)

theorem steady_present (p : Fin 4) (a : AccessReq) : Steady s (present p a s) := .of_eq (by simp) (by simp)

theorem steady_expireLease (i : Fin 16) : Steady s (expireLease i s) := .of_eq (by simp) (by simp)

end

/-! ### Register writes and resets (R119, R121, R123, R180 to R185) -/

/-- R124: a full reset leaves the engine and the slots of the reset state. -/
theorem consistent_fullReset (pins : Straps) (s : State) : (fullReset pins s).engineConsistent :=
  (Steady.of_eq rfl rfl : Steady State.reset (fullReset pins s)).consistent reset_engineConsistent

/-- R123: the data of a read that was granted is discarded. -/
theorem consistent_softReset (s : State) : (softReset s).engineConsistent := by
  have discarded (o : EngineOp) : o.discard.isWantedRead = false := by cases o <;> rfl
  have blocks : AtRest (softResetBlocks s) := by
    refine ⟨?_, rfl, by simp [softResetBlocks, State.slot], Nat.zero_le _, Nat.zero_le _⟩
    show s.softResetOps.filter EngineOp.isWantedRead = []
    unfold State.softResetOps
    split
    · exact List.filter_eq_nil_iff.mpr (by simp [discarded])
    · rfl
  exact (steady_foldl _ (fun t p => steady_answer p t) portIndices _).consistent (blocks.consistent rfl trivial)

theorem consistent_ctrlWrite (w : Word) {s : State} (hc : s.engineConsistent) : (ctrlWrite w s).engineConsistent := by
  have sized : (ctrlWsize w s).engineConsistent := by
    unfold ctrlWsize
    split
    · exact (Steady.of_eq rfl rfl).consistent hc
    · exact hc
  unfold ctrlWrite ctrlAction
  split
  · exact consistent_softReset s
  split
  · exact hc
  split
  · exact consistent_goCommand sized
  split
  · exact consistent_stopCommand sized
  · exact sized

theorem consistent_regWrite (offset v : Word) {s : State} (hc : s.engineConsistent) :
    (regWrite offset v s).engineConsistent := by
  have stored (w : RegisterWindow) : State.engineConsistent { s with win := w } :=
    (Steady.of_eq rfl rfl).consistent hc
  unfold regWrite
  split
  · exact hc
  split
  · exact consistent_ctrlWrite v hc
  split
  · unfold anchStore
    split
    · exact stored _
    · exact stored _
    all_goals exact hc
  split
  · exact stored _
  split
  · exact stored _
  · exact hc

/-! ### Every command -/

/-- The arbiter's choice on a consistent state is the answer (R151). -/
theorem consistent_answered {u t : State} (hu : u.engineConsistent) (h : answerNext u = .next t) :
    t.engineConsistent := by
  cases h
  exact consistent_arbitrate hu

theorem consistent_next {u t : State} (hu : u.engineConsistent)
    (h : (.next u : Host.Outcome State Fault Refusal) = .next t) : t.engineConsistent := by
  cases h
  exact hu

theorem exec_consistent (c : Instr) {s t : State} (hc : s.engineConsistent) (h : exec c s = .next t) :
    t.engineConsistent := by
  cases c with
  | openWindow r | closeWindow r | lock r | look r | lease r | renew r | freeLease r | policy r | waitWord r | fill r
  | copy r | scan r | abort r | noop r | port r | portReset r | refreshInterval r | speed r | sleep r | unknown code r
  | recordReadComplete => exact consistent_answered (consistent_recordReadReturns hc _) h
  | waitArmingReadComplete => exact consistent_answered (consistent_waitArmingDone hc) h
  | chainWatchArmingReadComplete => exact consistent_answered (consistent_tailArmingDone hc) h
  | headerWriteComplete => exact consistent_answered (consistent_headerWriteDone hc) h
  | resultWriteComplete => exact consistent_answered (consistent_resultWriteDone hc) h
  | engineWriteComplete => exact consistent_answered (consistent_otherWriteDone hc) h
  | go w | stop w | softReset w | wset w => exact consistent_answered (consistent_regWrite _ _ hc) h
  | registerWriteOther offset v => exact consistent_answered (consistent_regWrite offset v hc) h
  | anchWrite v | emskWrite v | eclrWrite v => exact consistent_next (consistent_regWrite _ v hc) h
  | fullReset pins => exact consistent_next (consistent_fullReset pins s) h
  | fullResetEnd pins => exact consistent_next ((steady_fullResetEnds s pins).consistent hc) h
  | accessArrival p a => exact consistent_answered ((steady_present s p a).consistent hc) h
  | accessComplete => exact consistent_answered (consistent_accessDone hc) h
  | fillBurstComplete => exact consistent_answered (consistent_fillBurst hc) h
  | copyReadBurstComplete => exact consistent_answered (consistent_copyReadBurst hc) h
  | copyWriteBurstComplete => exact consistent_answered (consistent_copyWriteBurst hc) h
  | scanBurstComplete => exact consistent_answered (consistent_scanBurst hc) h
  | leaseTick => exact consistent_next (consistent_tickTimers hc) h
  | leaseExpiry i => exact consistent_next ((steady_expireLease s i).consistent hc) h
  | watchTimeout k => exact consistent_answered (consistent_timeoutSlot k hc) h
  | raisingEnd => exact consistent_next ((steady_endRaising s).consistent hc) h
  | lockingEnd present => exact consistent_answered ((steady_endLocking present s).consistent hc) h
  | loweringEnd => exact consistent_answered ((steady_endLowering s).consistent hc) h
  | switchUpComplete => exact consistent_answered ((steady_switchUpDone s).consistent hc) h
  | switchDownComplete => exact consistent_answered ((steady_switchDownDone s).consistent hc) h
  | refreshIntervalEnd => exact consistent_answered ((steady_refreshInterval s).consistent hc) h
  | refreshComplete => exact consistent_answered ((steady_refreshDone s).consistent hc) h
  | wakeCycleComplete => exact consistent_answered ((steady_wakeCycleDone s).consistent hc) h
  | standbyHandoff => exact consistent_answered (consistent_handoff hc) h
  | finalRefreshComplete => exact consistent_next ((steady_finalRefreshDone s).consistent hc) h
  | selfRefreshEntryComplete => exact consistent_next ((steady_selfRefreshEntered s).consistent hc) h
  | selfRefreshExitComplete => exact consistent_next ((steady_selfRefreshLeft s).consistent hc) h
  | exitRefreshComplete => exact consistent_answered ((steady_exitRefreshDone s).consistent hc) h
  | prstDrainComplete p => exact consistent_answered ((steady_drainPort p s).consistent hc) h
  | entryRetired i => exact consistent_answered ((steady_settleEntry i s).consistent hc) h
  | stallEnd => exact consistent_answered (consistent_endStall hc) h

/-- Settles O19: every command leaves the engine consistent, and so does a step that finds no command. -/
theorem engineStaysConsistent : Obligations.EngineStaysConsistent := by
  intro s t hc h
  unfold step at h
  split at h
  · exact consistent_next hc h
  · next c rest _ =>
    have queued : Steady s { s with pending := rest } := .of_eq rfl rfl
    exact exec_consistent c (queued.consistent hc) h

end Sys2Proof.Proofs
end

