-- ==== Sys2Proof/Proofs/LinkSteps.lean ====
section
/-! PROOF. The link step and the following of a link, in every state of the controller (R71, R102, R105 to R107, R117, R121,
R122, R174, R176), and the arming read of slot 0, which ends in one of them (R70, R106). -/

namespace Sys2Proof.Proofs

open Sys2Proof.Machine Sys2Proof.Laws

/-! ### The link step -/

section
variable {s : State}

/-- R176: an operation that joins the list wakes the controller. -/
theorem appendOps_one (o : EngineOp) (s : State) :
    appendOps [o] s = { s with ctl := s.ctl.wake, eng := { s.eng with ops := s.eng.ops ++ [o] } } := rfl

theorem linkStep_stops (h : s.eng.stopPending = true) (id : RecId) (a l : Word) :
    linkStep id a l s = { s with eng := { s.eng with reader := .stopped, stopPending := false } } := if_pos h

variable (h : s.eng.stopPending = false)
include h

theorem linkStep_tail (id : RecId) (a : Word) :
    linkStep id a 0#32 s =
      { s with
        ctl := s.ctl.wake
        eng := { s.eng with reader := .arming id, tail := some id, ops := s.eng.ops ++ [.armTail id a true] } } := by
  rw [linkStep, if_neg (by simp [h]), if_pos rfl]
  rfl

theorem linkStep_follows {l : Word} (hl : l ≠ 0#32) (id : RecId) (a : Word) : linkStep id a l s = followLink l s := by
  rw [linkStep, if_neg (by simp [h]), if_neg hl]

end

/-! ### A link is followed -/

section
variable {s : State} {l : Word}

/-- R117, R121: the engine's state after a chain fault. -/
theorem faultReader_eq (s : State) :
    (if s.eng.stopPending then stopReader s else setReader .faulted s) =
      { s with
        eng :=
          { s.eng with
            reader := if s.eng.stopPending then .stopped else .faulted
            stopPending := false } } := by
  cases h : s.eng.stopPending
  · rw [if_neg nofun, if_neg nofun, ← h]
    rfl
  · rfl

/-- R117: the fault words are appended, which wakes the controller, whether or not a record retires before. -/
theorem chainFault_eq (k : ChainFault) (a : Word) (s : State) :
    chainFault k a s =
      { s.tailEnded with
        ctl := s.ctl.wake
        eng :=
          { s.tailEnded.eng with
            reader := if s.eng.stopPending then .stopped else .faulted
            stopPending := false
            ops := s.tailEnded.eng.ops ++ [.headerFault k a] } } := by
  have wakes (t : State) : (if t.leaving = [] then t.ctl else t.ctl.wake).wake = t.ctl.wake := by
    split
    · rfl
    · exact wake_wake _
  rw [chainFault, faultReader_eq, endTail_eq, appendOps_one]
  dsimp only
  rw [wakes]
  rfl

theorem followLink_bad (h : s.linkValid l = false) : followLink l s = chainFault .badLink l s := if_neg (by simp [h])

variable (valid : s.linkValid l = true)
include valid

theorem followLink_tableFull (h : 8 ≤ s.eng.active.length) :
    followLink l s = s.withReader (.stalled .tableFull l) := by
  rw [followLink, if_pos valid, examineNext, if_pos h]
  rfl

variable (ha : s.eng.active.length < 8)
include ha

theorem followLink_retireFull (h : 32 ≤ s.eng.takeList.length) :
    followLink l s = s.withReader (.stalled .retireFull l) := by
  rw [followLink, if_pos valid, examineNext, if_neg (Nat.not_le.mpr ha), if_pos h]
  rfl

variable (hl : s.eng.takeList.length < 32)
include hl

theorem followLink_reads : followLink l s = readRecord l s := by
  rw [followLink, if_pos valid, examineNext, if_neg (Nat.not_le.mpr ha), if_neg (Nat.not_le.mpr hl)]

end

theorem readRecord_appends {s : State} (h : s.eng.handoff = none) (a : Word) :
    readRecord a s =
      { s with
        ctl := s.ctl.wake
        eng :=
          { s.eng with
            reader := if s.ctl.state = .run then .examining a else .stalled .waking a
            ops := s.eng.ops ++ [.recordRead a true] } } := by
  rw [readRecord, if_neg (by simp [h])]
  rfl

/-- R122: a pending hand-off holds the record read. -/
theorem readRecord_holds {s : State} (h : s.eng.handoff ≠ none) (a : Word) :
    readRecord a s = { s with eng := { s.eng with reader := .stalled .waking a, heldRead := true } } :=
  if_pos (Option.isSome_iff_ne_none.mpr h)

/-- Settles O24: the tests of the link step and of a link in their order. -/
theorem linkStepFollowsLink : Obligations.LinkStepFollowsLink := by
  intro s id a l valid
  have valid_iff : s.linkValid l = true ↔ valid := linkValid_iff s l
  refine ⟨wake_run s.ctl, fun h => linkStep_stops h id a l,
    fun h => ⟨fun hl => ?_, fun hl => linkStep_follows h hl id a⟩, fun hv => ?_, fun hv => ?_⟩
  · subst hl
    exact linkStep_tail h id a
  · rw [followLink_bad (Bool.eq_false_iff.mpr fun h => hv (valid_iff.mp h)), chainFault_eq]
  · have hv := valid_iff.mpr hv
    refine ⟨followLink_tableFull hv, followLink_retireFull hv, fun ha hl => ?_⟩
    rw [followLink_reads hv ha hl]
    exact ⟨fun h => readRecord_appends h l, fun h => readRecord_holds h l⟩

/-! ### The arming read of slot 0 (R70, R106) -/

section
variable {s : State} {id : RecId} {a : Word}

theorem tailArmingDone_discarded (h : s.operating (.armTail id a false)) : tailArmingDone s = s.opDone := by
  rw [tailArmingDone, grantedOp_operating s _ h]
  rfl

theorem tailArmingDone_read (h : s.operating (.armTail id a true)) :
    tailArmingDone s = armTail id a (s.wordAt a.toNat) s.opDone := by
  rw [tailArmingDone, grantedOp_operating s _ h]
  rfl

end

/-- Settles O42: a read that is discarded, a stop pending, and the two values of the link word. -/
theorem chainWatchArming : Obligations.ChainWatchArming := by
  intro s id a
  refine ⟨fun h => next_congr (tailArmingDone_discarded h), fun h => ⟨fun hp => ?_, fun hp hv => ?_, fun hp hv => ?_⟩⟩
  · refine next_congr ((tailArmingDone_read h).trans ?_)
    exact if_pos hp
  · refine next_congr ((tailArmingDone_read h).trans ?_)
    rw [armTail, if_neg (by simpa [State.opDone] using hp), if_pos hv]
    rfl
  · refine next_congr ((tailArmingDone_read h).trans ?_)
    rw [armTail, if_neg (by simpa [State.opDone] using hp), if_neg hv]
    exact (linkStep_follows (s := s.opDone) hp hv id a).symm

end Sys2Proof.Proofs
end

