-- ==== Sys2Proof/Proofs/WaitRequests.lean ====
section
/-! PROOF. WAIT at its take (R62, R63), and what the completion of its arming read does (R63, R64). -/

namespace Sys2Proof.Proofs

open Sys2Proof.Machine Sys2Proof.Laws

/-! ### WAIT at its take -/

section
variable {r : Request} {s : State}

theorem takeWait_parm (h : r.p0.toNat % 4 ≠ 0 ∨ 65535 < r.p3.toNat) (id : RecId) :
    takeWait id r s = instant id .parm noReplies s := if_pos h

variable (h : ¬(r.p0.toNat % 4 ≠ 0 ∨ 65535 < r.p3.toNat))
include h

theorem takeWait_area (ha : s.dramBytes ≤ r.p0.toNat) (id : RecId) :
    takeWait id r s = instant id .area noReplies s := by
  rw [takeWait, if_neg h, if_pos ha]

theorem takeWait_passed (ha : r.p0.toNat < s.dramBytes) (id : RecId) :
    takeWait id r s = appendOps [.armWait id (watchSpec r) true] (setTakeEnd id .arming s) := by
  rw [takeWait, if_neg h, if_neg (Nat.not_le.mpr ha)]

end

/-- R63: the release of a WAIT names an entry, or none with an index of 16 or above. -/
theorem watchSpec_eq {r : Request} {release : Option (Fin 16)}
    (h : (release = none ∧ 16 ≤ r.p4.toNat) ∨ ∃ i : Fin 16, release = some i ∧ r.p4.toNat = i.val) :
    watchSpec r =
      { addr := r.p0, mask := r.p1, compare := r.p2, timeout := r.p3.toNat, release := release, immediate := r.opt } := by
  obtain ⟨rfl, h⟩ | ⟨i, rfl, h⟩ := h
  · rw [watchSpec, entryIndex_none _ h]
  · rw [watchSpec, entryIndex_some _ i h]

/-- R102: the arming read is the last operation of the take, which ends with it. -/
theorem arming_afterTake {s : State} (hr : s.ctl.state = .run) (a : Word) (c : Code) (r : Request) (w : WatchSpec) :
    appendOps [.armWait s.eng.nextId w true] (setTakeEnd s.eng.nextId .arming (takenAs s a c r)) =
      s.afterTake a c.word r .taking .arming [.armWait s.eng.nextId w true] := by
  rw [appendOps_run _ _ (by simpa using hr)]
  simp [pushOps, setTakeEnd, State.afterTake, Reader.endsAt]

/-- Settles O10: the tests of WAIT in their order, each on the state in which the record is taken. -/
theorem waitStartsArmingRead : Obligations.WaitStartsArmingRead := by
  intro s₀ s a r hs hb answer
  let taken := takenAs s a .waitWord r
  have run : exec (.waitWord r) s₀ = .next (arbitrate (takeWait s.eng.nextId r taken)) :=
    request_handed .waitWord hs hb rfl
  have refused (c : ResultCode) (h : takeWait s.eng.nextId r taken = instant s.eng.nextId c noReplies taken) :
      exec (.waitWord r) s₀ = .next (arbitrate (answer c)) :=
    run.trans (next_congr (h.trans (instant_answered .waitWord hs c noReplies)))
  refine ⟨fun h => refused .parm (takeWait_parm h _), fun h0 h3 => ?_⟩
  have passed : ¬(r.p0.toNat % 4 ≠ 0 ∨ 65535 < r.p3.toNat) := by omega
  refine ⟨fun ha => refused .area (takeWait_area (s := taken) passed ha _), fun ha release hrel => run.trans (next_congr ?_)⟩
  rw [takeWait_passed (s := taken) passed ha, watchSpec_eq hrel]
  exact arming_afterTake (recordReturns_keeps s₀ s a hs).1 a .waitWord r _

/-! ### The arming read of a WAIT -/

section
variable {s : State}

/-- R63: the lowest FREE slot among 1 to 7. -/
theorem freeSlot_lowest {k : Fin 8} (hk : k ≠ 0) (hf : s.slot k = none) (hl : ∀ j : Fin 8, j ≠ 0 → j < k → s.slot j ≠ none) :
    s.freeSlot = some k := by
  refine find_first _ waitSlots k ((mem_waitSlots k).mpr hk) sorted_waitSlots (by simp [hf]) fun j hj hlt => ?_
  simpa [← Option.isSome_iff_ne_none] using hl j ((mem_waitSlots j).mp hj) hlt

theorem freeSlot_none (h : ∀ k : Fin 8, k ≠ 0 → s.slot k ≠ none) : s.freeSlot = none :=
  List.find?_eq_none.mpr fun k hk => by simpa using h k ((mem_waitSlots k).mp hk)

theorem raiseIf_withReader (c : Bool) (e : Event) (r : Reader) (s : State) :
    raiseIf c e (s.withReader r) = (raiseIf c e s).withReader r := by
  cases c <;> rfl

/-- R47: a release does not look at the reader. -/
theorem watchRelease_withReader (i : Option (Fin 16)) (r : Reader) (s : State) :
    watchRelease i (s.withReader r) = (watchRelease i s).withReader r := by
  cases i with
  | none => rfl
  | some i =>
    by_cases hl : ∃ g l, (s.entry i).status = .leased g l
    · obtain ⟨g, l, hl⟩ := hl
      have hl' : ((s.withReader r).entry i).status = .leased g l := hl
      rw [watchRelease_leased hl, watchRelease_leased hl']
      by_cases hn : (s.entry i).inflight = 0
      · rw [endEntry_idle hl hn, endEntry_idle hl' hn, ← raiseIf_withReader]
        rfl
      · rw [endEntry_counted hl hn, endEntry_counted hl' hn]
        rfl
    · have unleased : ∀ g l, (s.entry i).status ≠ .leased g l := fun g l h => hl ⟨g, l, h⟩
      have unleased' : ∀ g l, ((s.withReader r).entry i).status ≠ .leased g l := unleased
      rw [(watchRelease_none unleased).2, (watchRelease_none unleased').2]

variable {id : RecId} {w : WatchSpec}

theorem waitArmingDone_discarded (h : s.operating (.armWait id w false)) : waitArmingDone s = s.opDone := by
  rw [waitArmingDone, grantedOp_operating s _ h]
  rfl

theorem waitArmingDone_read (h : s.operating (.armWait id w true)) :
    waitArmingDone s = armWait id w (s.wordAt w.addr.toNat) s.opDone := by
  rw [waitArmingDone, grantedOp_operating s _ h]
  rfl

variable {v : Word}

theorem armWait_busy (h : s.freeSlot = none) : armWait id w v s = instant id .busy noReplies s := by
  rw [armWait, h]

variable {k : Fin 8} (hk : s.freeSlot = some k)
include hk

theorem armWait_same (same : v &&& w.mask = w.compare &&& w.mask) : armWait id w v s = armSlot id k w .matching s := by
  simp only [armWait, hk, (wordMatches_iff _ _ _).mpr same, if_true]

variable (other : ¬v &&& w.mask = w.compare &&& w.mask)
include other

theorem armWait_other :
    armWait id w v s = if w.immediate = true then fireAtArming id k w v s else armSlot id k w .waiting s := by
  rw [← wordMatches_iff] at other
  simp only [armWait, hk, if_neg other]

end

section
variable {s : State} {id : RecId} {a link : Word} (hr : s.eng.reader = .taking id a link .arming)
include hr

/-- R63: the WAIT stands armed and in the active table, and the reader takes its link step. -/
theorem armSlot_eq (k : Fin 8) (w : WatchSpec) (st : ArmedState) :
    armSlot id k w st s = linkStep id a link (enterActive id .watchUnit (s.setSlot k (some (w.slot st id)))) :=
  (endTakeAt_eq _ id .arming).1 a link ((enterActive_reader _ _ _).trans hr)

/-- R63, R64: the release, then the answer of an instant request. -/
theorem fireAtArming_eq (k : Fin 8) (w : WatchSpec) (v : Word) :
    fireAtArming id k w v s =
      raise .watch
        (complete id .okay (fireReplies k v (s.releaseOutcome w.release))
          (watchRelease w.release (s.withReader (.taking id a link .result)))) := by
  have reader : (watchRelease w.release s).eng.reader = .taking id a link .arming := by simpa using hr
  rw [fireAtArming, instant_taking _ _ _ _ _ _ _ reader, watchRelease_withReader]

end

/-- Settles O11: a read that is discarded, no FREE slot, and the lowest FREE slot by whether the word matches. -/
theorem waitArming : Obligations.WaitArming := by
  intro s id w
  refine ⟨fun h => next_congr (waitArmingDone_discarded h), fun a link h hr => ?_⟩
  intro v same armed
  refine ⟨fun full => ?_, ?_⟩
  · refine next_congr ((waitArmingDone_read h).trans ?_)
    have busy : s.opDone.freeSlot = none := freeSlot_none (s := s.opDone) full
    exact (armWait_busy busy).trans (instant_taking _ _ _ s.opDone _ _ _ hr)
  · intro k hk hf hl stand
    have free : s.opDone.freeSlot = some k := freeSlot_lowest (s := s.opDone) hk hf hl
    have stands (st : ArmedState) : armSlot id k w st s.opDone = stand st := armSlot_eq (s := s.opDone) hr k w st
    refine ⟨fun hv => ?_, fun hv hi => ?_, fun hv hi => ?_⟩
    · exact next_congr ((waitArmingDone_read h).trans ((armWait_same free hv).trans (stands _)))
    · refine next_congr ((waitArmingDone_read h).trans ((armWait_other free hv).trans ?_))
      rw [if_neg (by simp [hi]), stands]
    · refine next_congr ((waitArmingDone_read h).trans ((armWait_other free hv).trans ?_))
      rw [if_pos hi]
      exact fireAtArming_eq (s := s.opDone) hr k w v

end Sys2Proof.Proofs
end

