-- ==== Sys2Proof/Proofs/AccessCompletions.lean ====
section
/-! PROOF. The granted access of a port completes (R59, R127, R129). -/

namespace Sys2Proof.Proofs

open Sys2Proof.Machine Sys2Proof.Laws

/-! ### The access in progress -/

section
variable {s : State} {p : Fin 4} {before after : List Access} {x : Access} {c : BwClass} {e : Option (Fin 16)}
variable (hx : x.stage = .inProgress c e) (ho : ∀ y ∈ before ++ after, ∀ c e, y.stage ≠ .inProgress c e)
include hx ho

/-- R129: the access in progress goes to DONE; the others of the list stand. -/
theorem map_finish (ws : List Word) :
    (before ++ x :: after).map (Access.finish ws) = before ++ { x with stage := .done ws } :: after := by
  have finished : x.finish ws = { x with stage := .done ws } := by simp only [Access.finish, hx]
  rw [List.map_append, List.map_cons, finished, finish_map before ws fun y hy => ho y (List.mem_append_left _ hy),
    finish_map after ws fun y hy => ho y (List.mem_append_right _ hy)]

/-- R59, R129: the count, what the access stores, and then DONE with what it read. -/
theorem accessDone_eq (hp : s.arb.holder = some (.port p)) (hl : (s.port p).outstanding = before ++ x :: after) :
    accessDone s =
      answer p
        ((accessStore x.req (countOut e s.released)).putOutstanding p
          (before ++ { x with stage := .done (s.accessData x.req) } :: after)) := by
  have found : inProgress? (s.released.port p).outstanding = some (x.req, e) := by
    rw [show (s.released.port p).outstanding = before ++ x :: after from hl]
    exact inProgress_split before after x c e hx fun y hy => ho y (List.mem_append_left _ hy)
  have port : (accessStore x.req (countOut e s.released)).port p = s.port p := port_congr (by simp [State.released]) p
  have data : s.released.accessData x.req = s.accessData x.req := by
    unfold State.accessData
    split
    · exact wordsAt_released s _ _
    · rfl
  have complete : accessDone s = portAccessDone p s.released := by
    rw [accessDone, hp]
    rfl
  rw [complete, portAccessDone, found]
  dsimp only
  rw [data, port, hl, map_finish hx ho]
  unfold State.putOutstanding
  rw [port]
  rfl

end

/-- R126: with no access on the bus, no more than the responses is left to do. -/
theorem answer_empty_bus (p : Fin 4) (s : State) (h : (s.port p).bus = []) : answer p s = flush p s := by
  rw [answer, h, acceptHeld]
  exact setPort_bus p _ ((flush_bus p s).trans h)

/-- Settles O33: a read, a write, and the answer of a port whose bus is empty. -/
theorem accessCompletes : Obligations.AccessCompletes := by
  intro s p before after x c e hp hl hx ho u finishes
  have done := accessDone_eq hx ho hp hl
  refine ⟨fun n hop => next_congr (done.trans ?_), fun ws hop => next_congr (done.trans ?_), answer_empty_bus p⟩
  · simp only [accessStore, State.accessData, hop]
    rfl
  · simp only [accessStore, State.accessData, hop]
    rfl

end Sys2Proof.Proofs
end

