-- ==== Sys2Proof/Proofs/TransferRequests.lean ====
section
/-! PROOF. The bursts that a transfer is cut into (R82); FILL, COPY and SCAN at their take: what their commands answer (R77
to R83, R88). -/

namespace Sys2Proof.Proofs

open Sys2Proof.Machine Sys2Proof.Laws

/-! ### Cutting into bursts (R82) -/

section
variable {t : Transfer}

theorem nextBurst_fill {dst v : Word} (h : t.job = .fill dst v) :
    t.nextBurst =
      { addr := wordAddr dst t.done, len := pieceLength (wordAddr dst t.done) (t.count - t.done), half := .write
        entry := none, granted := false } := by
  rw [Transfer.nextBurst, h]
  rfl

theorem nextBurst_scan {a v m : Word} (h : t.job = .scan a v m) :
    t.nextBurst =
      { addr := wordAddr a t.done, len := pieceLength (wordAddr a t.done) (t.count - t.done), half := .read
        entry := none, granted := false } := by
  rw [Transfer.nextBurst, h]
  rfl

variable {src dst : Word} (h : t.job = .copy src dst)
include h

/-- R82: the read burst of a piece ends at the first boundary of the source or of the destination. -/
theorem nextBurst_copyRead (hb : t.buffer = []) :
    t.nextBurst =
      { addr := wordAddr src t.done
        len := min (pieceLength (wordAddr src t.done) (t.count - t.done))
          (pieceLength (wordAddr dst t.done) (t.count - t.done))
        half := .read, entry := none, granted := false } := by
  rw [Transfer.nextBurst, h]
  dsimp only
  rw [if_pos hb, inf_inf_distrib_left]
  rfl

theorem nextBurst_copyWrite (hb : t.buffer ≠ []) :
    t.nextBurst =
      { addr := wordAddr dst t.done, len := t.buffer.length, half := .write, entry := none, granted := false } := by
  rw [Transfer.nextBurst, h]
  exact if_neg hb

end

/-! ### The first burst of a new transfer -/

theorem wordAddr_zero (a : Word) : wordAddr a 0 = a := BitVec.add_zero a

section
variable (id : RecId) (p : Fin 4) (n : Nat)

theorem fill_firstBurst (dst v : Word) :
    (newTransfer id (.fill dst v) p n).nextBurst =
      { addr := dst, len := pieceLength dst n, half := .write, entry := none, granted := false } := by
  rw [nextBurst_fill rfl]
  simp [newTransfer, wordAddr_zero]

theorem scan_firstBurst (a v m : Word) :
    (newTransfer id (.scan a v m) p n).nextBurst =
      { addr := a, len := pieceLength a n, half := .read, entry := none, granted := false } := by
  rw [nextBurst_scan rfl]
  simp [newTransfer, wordAddr_zero]

theorem copy_firstBurst (src dst : Word) :
    (newTransfer id (.copy src dst) p n).nextBurst =
      { addr := src, len := pieceLength src (pieceLength dst n), half := .read, entry := none, granted := false } := by
  have piece : min (pieceLength src n) (pieceLength dst n) = pieceLength src (pieceLength dst n) := by
    simp only [pieceLength]
    omega
  rw [nextBurst_copyRead rfl rfl]
  simp [newTransfer, wordAddr_zero, piece]

end

/-! ### The last check and the acceptance -/

section
variable {s₀ s : State} {a : Word} {r : Request}

/-- A request that needs room in the transfer queue, and finds it, is handed to the transfer unit (R101 to R103). -/
theorem transfer_handed (c : Code) (hs : s₀.recordReturns a s) (hb : s.noBarrier r) (hq : s.queue.length < 4) :
    answerNext (requestReturns c r s₀) = .next (arbitrate (handOff (some c) s.eng.nextId r (takenAs s a c r))) :=
  next_congr (requestReturns_eq s₀ s a c r hs hb fun _ => hq)

variable (hs : s₀.recordReturns a s) (c : Code) (j : Job) {p : Fin 4} (n : Nat)
include hs

theorem startTransfer_shutOut (h : (s.port p).state.shutOut = true) :
    startTransfer s.eng.nextId j p n (takenAs s a c r) = s.answered a c.word r .refu noReplies := by
  rw [startTransfer, afterTake_port, if_pos h]
  exact instant_answered c hs .refu noReplies

theorem startTransfer_accepted (h : (s.port p).state.shutOut = false) {first : Burst}
    (hf : (newTransfer s.eng.nextId j p n).nextBurst = first) :
    startTransfer s.eng.nextId j p n (takenAs s a c r) = s.acceptedTransfer a c.word r j p n first := by
  have ⟨run, numbered, _, _⟩ := recordReturns_keeps s₀ s a hs
  rw [startTransfer, afterTake_port, if_neg (by simp [h])]
  exact acceptTransfer_eq s a c r run numbered j p n first hf

end

/-! ### FILL and SCAN: a transfer of one range -/

/-- R80: the checks of a transfer of one range, given its parameters for the range and for the acting port. -/
def takeOneRange (id : RecId) (addr count port : Word) (j : Job) (s : State) : State :=
  match portIndex? port with
  | none => instant id .parm noReplies s
  | some p =>
    if addr.toNat % 4 ≠ 0 ∨ badCount count.toNat = true then instant id .parm noReplies s
    else if s.badArea addr count.toNat then instant id .area (replies 1 0 0 0) s
    else startTransfer id j p count.toNat s

theorem takeFill_eq (id : RecId) (r : Request) (s : State) :
    takeFill id r s = takeOneRange id r.p0 r.p1 r.p3 (.fill r.p0 r.p2) s := rfl

theorem takeScan_eq (id : RecId) (r : Request) (s : State) :
    takeScan id r s = takeOneRange id r.p0 r.p1 r.p4 (.scan r.p0 r.p2 r.p3) s := rfl

/-- R80: an unaligned address, or a count out of range. -/
def badRangeParameters (addr count : Word) : Prop :=
  addr.toNat % 4 ≠ 0 ∨ count.toNat = 0 ∨ 4194304 < count.toNat

section
variable {addr count port : Word}

theorem takeOneRange_parm (h : badRangeParameters addr count ∨ 3 < port.toNat) (id : RecId) (j : Job) (s : State) :
    takeOneRange id addr count port j s = instant id .parm noReplies s := by
  unfold takeOneRange
  split
  · rfl
  · next p hp =>
    obtain h | h := h
    · exact if_pos (by rwa [badCount_iff])
    · rw [portIndex_none _ h] at hp
      cases hp

variable {p : Fin 4} (hp : port.toNat = p.val) (good : ¬badRangeParameters addr count)
include hp good

theorem takeOneRange_passed (id : RecId) (j : Job) (s : State) :
    takeOneRange id addr count port j s =
      if s.badArea addr count.toNat then instant id .area (replies 1 0 0 0) s
      else startTransfer id j p count.toNat s := by
  rw [takeOneRange, portIndex_some _ p hp]
  exact if_neg (by rwa [badCount_iff])

theorem takeOneRange_starts {s : State} (hd : addr.toNat + 4 * count.toNat ≤ s.dramBytes)
    (hw : addr.toNat + 4 * count.toNat ≤ s.workBase) (id : RecId) (j : Job) :
    takeOneRange id addr count port j s = startTransfer id j p count.toNat s := by
  rw [takeOneRange_passed hp good, if_neg (by rw [badArea_iff]; omega)]

variable {s₀ s : State} {a : Word} {r : Request} (hs : s₀.recordReturns a s) (c : Code) (j : Job)
include hs

theorem takeOneRange_area
    (h : s.dramBytes < addr.toNat + 4 * count.toNat ∨ s.workBase < addr.toNat + 4 * count.toNat) :
    takeOneRange s.eng.nextId addr count port j (takenAs s a c r) =
      s.answered a c.word r .area (replies 1 0 0 0) := by
  have area : (takenAs s a c r).badArea addr count.toNat = true := (badArea_iff _ _ _).mpr h
  rw [takeOneRange_passed hp good, if_pos area]
  exact instant_answered c hs _ _

variable (hd : addr.toNat + 4 * count.toNat ≤ s.dramBytes) (hw : addr.toNat + 4 * count.toNat ≤ s.workBase)
include hd hw

theorem takeOneRange_shutOut (h : (s.port p).state.shutOut = true) :
    takeOneRange s.eng.nextId addr count port j (takenAs s a c r) = s.answered a c.word r .refu noReplies :=
  (takeOneRange_starts (s := takenAs s a c r) hp good hd hw _ j).trans (startTransfer_shutOut hs c j _ h)

theorem takeOneRange_accepted (h : (s.port p).state.shutOut = false) {first : Burst}
    (hf : (newTransfer s.eng.nextId j p count.toNat).nextBurst = first) :
    takeOneRange s.eng.nextId addr count port j (takenAs s a c r) =
      s.acceptedTransfer a c.word r j p count.toNat first :=
  (takeOneRange_starts (s := takenAs s a c r) hp good hd hw _ j).trans (startTransfer_accepted hs c j _ h hf)

end

/-- Settles O12: the tests of FILL in their order, each on the state in which the record is taken. -/
theorem fillIsQueued : Obligations.FillIsQueued := by
  intro s₀ s a r hs hb hq answer bad stop
  let j := Job.fill r.p0 r.p2
  have run : exec (.fill r) s₀ =
      .next (arbitrate (takeOneRange s.eng.nextId r.p0 r.p1 r.p3 j (takenAs s a .fill r))) := by
    rw [← takeFill_eq]
    exact transfer_handed .fill hs hb hq
  rw [run]
  refine ⟨fun h => next_congr ?_, fun p hp good => ⟨fun h => next_congr ?_, fun hd hw =>
    ⟨fun h => next_congr ?_, fun h => next_congr ?_⟩⟩⟩
  · exact (takeOneRange_parm h _ j _).trans (instant_answered .fill hs _ _)
  · exact takeOneRange_area hp good hs .fill j h
  · exact takeOneRange_shutOut hp good hs .fill j hd hw h
  · exact takeOneRange_accepted hp good hs .fill j hd hw h (fill_firstBurst _ p _ _ _)

/-- Settles O14: the tests of SCAN in their order, each on the state in which the record is taken. -/
theorem scanIsQueued : Obligations.ScanIsQueued := by
  intro s₀ s a r hs hb hq answer bad stop
  let j := Job.scan r.p0 r.p2 r.p3
  have run : exec (.scan r) s₀ =
      .next (arbitrate (takeOneRange s.eng.nextId r.p0 r.p1 r.p4 j (takenAs s a .scan r))) := by
    rw [← takeScan_eq]
    exact transfer_handed .scan hs hb hq
  rw [run]
  refine ⟨fun h => next_congr ?_, fun p hp good => ⟨fun h => next_congr ?_, fun hd hw =>
    ⟨fun h => next_congr ?_, fun h => next_congr ?_⟩⟩⟩
  · exact (takeOneRange_parm h _ j _).trans (instant_answered .scan hs _ _)
  · exact takeOneRange_area hp good hs .scan j h
  · exact takeOneRange_shutOut hp good hs .scan j hd hw h
  · exact takeOneRange_accepted hp good hs .scan j hd hw h (scan_firstBurst _ p _ _ _ _)

/-! ### COPY -/

/-- R78, R80: an unaligned address, a count out of range, or a destination inside the source range above its start. -/
def badCopyParameters (r : Request) : Prop :=
  r.p0.toNat % 4 ≠ 0 ∨ r.p1.toNat % 4 ≠ 0 ∨ r.p2.toNat = 0 ∨ 4194304 < r.p2.toNat
    ∨ (r.p0.toNat < r.p1.toNat ∧ r.p1.toNat < r.p0.toNat + 4 * r.p2.toNat)

theorem badCopyParameters_iff (r : Request) :
    r.p0.toNat % 4 ≠ 0 ∨ r.p1.toNat % 4 ≠ 0 ∨ badCount r.p2.toNat = true ∨ copyOverlap r.p0 r.p1 r.p2.toNat = true ↔
      badCopyParameters r := by
  rw [badCount_iff, badCopyParameters, or_assoc (a := r.p2.toNat = 0)]
  simp only [copyOverlap, Bool.and_eq_true, decide_eq_true_eq]

section
variable {r : Request} {s : State} (id : RecId)

theorem takeCopy_parm (h : badCopyParameters r ∨ 3 < r.p3.toNat) : takeCopy id r s = instant id .parm noReplies s := by
  unfold takeCopy
  split
  · rfl
  · next p hp =>
    obtain h | h := h
    · exact if_pos ((badCopyParameters_iff r).mpr h)
    · rw [portIndex_none _ h] at hp
      cases hp

variable {p : Fin 4} (hp : r.p3.toNat = p.val) (good : ¬badCopyParameters r)
include hp good

theorem takeCopy_passed :
    takeCopy id r s =
      if s.badArea r.p0 r.p2.toNat then instant id .area (replies 1 0 0 0) s
      else if s.badArea r.p1 r.p2.toNat then instant id .area (replies 2 0 0 0) s
      else startTransfer id (.copy r.p0 r.p1) p r.p2.toNat s := by
  rw [takeCopy, portIndex_some _ p hp]
  exact if_neg (by rwa [badCopyParameters_iff])

theorem takeCopy_sourceArea
    (h : s.dramBytes < r.p0.toNat + 4 * r.p2.toNat ∨ s.workBase < r.p0.toNat + 4 * r.p2.toNat) :
    takeCopy id r s = instant id .area (replies 1 0 0 0) s := by
  rw [takeCopy_passed id hp good, if_pos ((badArea_iff _ _ _).mpr h)]

variable (hd : r.p0.toNat + 4 * r.p2.toNat ≤ s.dramBytes) (hw : r.p0.toNat + 4 * r.p2.toNat ≤ s.workBase)
include hd hw

theorem takeCopy_destinationArea
    (h : s.dramBytes < r.p1.toNat + 4 * r.p2.toNat ∨ s.workBase < r.p1.toNat + 4 * r.p2.toNat) :
    takeCopy id r s = instant id .area (replies 2 0 0 0) s := by
  rw [takeCopy_passed id hp good, if_neg (by rw [badArea_iff]; omega), if_pos ((badArea_iff _ _ _).mpr h)]

theorem takeCopy_starts (hd' : r.p1.toNat + 4 * r.p2.toNat ≤ s.dramBytes)
    (hw' : r.p1.toNat + 4 * r.p2.toNat ≤ s.workBase) :
    takeCopy id r s = startTransfer id (.copy r.p0 r.p1) p r.p2.toNat s := by
  rw [takeCopy_passed id hp good, if_neg (by rw [badArea_iff]; omega), if_neg (by rw [badArea_iff]; omega)]

end

/-- Settles O13: the tests of COPY in their order, each on the state in which the record is taken. -/
theorem copyIsQueued : Obligations.CopyIsQueued := by
  intro s₀ s a r hs hb hq answer stop dstStop bad
  let taken := takenAs s a .copy r
  let id := s.eng.nextId
  have run : exec (.copy r) s₀ = .next (arbitrate (takeCopy id r taken)) := transfer_handed .copy hs hb hq
  rw [run]
  refine ⟨fun h => next_congr ?_, fun p hp good => ⟨fun h => next_congr ?_, fun hd hw => ?_⟩⟩
  · rw [takeCopy_parm (s := taken) id h]
    exact instant_answered .copy hs _ _
  · rw [takeCopy_sourceArea (s := taken) id hp good h]
    exact instant_answered .copy hs _ _
  refine ⟨fun h => next_congr ?_, fun hd' hw' => ?_⟩
  · rw [takeCopy_destinationArea (s := taken) id hp good hd hw h]
    exact instant_answered .copy hs _ _
  rw [takeCopy_starts (s := taken) id hp good hd hw hd' hw']
  refine ⟨fun h => next_congr ?_, fun h => next_congr ?_⟩
  · exact startTransfer_shutOut hs .copy _ _ h
  · exact startTransfer_accepted hs .copy _ _ h (copy_firstBurst _ p _ _ _)

end Sys2Proof.Proofs
end

