-- ==== Sys2Proof/Proofs/TransferBursts.lean ====
section
/-! PROOF. How a burst is looked up (R81, R83, R88), how a transfer's end is handed over (R87, R93), and what
the completion of each burst does (R84 to R87, R91, R94). -/

namespace Sys2Proof.Proofs

open Sys2Proof.Machine Sys2Proof.Laws

/-! ### The head of the queue (R81, R83, R88) -/

section
variable {t : Transfer} {rest : List Transfer} {s : State}

theorem runQueue_allowed {c : BwClass} {e : Option (Fin 16)}
    (h : s.lookup t.port true t.nextBurst.half t.nextBurst.addr.toNat = .allowed c e) :
    runQueue (t :: rest) s =
      { countIn e s with
        queue := { t with state := .running, burst := some { t.nextBurst with entry := e } } :: rest } := by
  simp only [runQueue, h]
  rfl

theorem runQueue_denied {d : DenyRecord}
    (h : s.lookup t.port true t.nextBurst.half t.nextBurst.addr.toNat = .denied d) :
    runQueue (t :: rest) s =
      runQueue rest
        (finishTransfer t.owner .fenc (fencReplies t t.nextBurst d)
          (raise .fence (recordDenial d t.port true t.nextBurst.half t.nextBurst.addr s))) := by
  simp only [runQueue, h]
  rfl

end

theorem denyRecord_code {d : DenyRecord} {n : Nat}
    (h : (∃ i : Fin 16, d = .entry i ∧ n = i.val) ∨ ((∃ c, d = .unclaimed c) ∧ n = 16)) : d.code = n := by
  obtain ⟨i, rfl, rfl⟩ | ⟨⟨c, rfl⟩, rfl⟩ := h <;> rfl

theorem dir_codeWord (h : Dir) : BitVec.ofNat 32 h.code = (match h with | .read => 0#32 | .write => 1#32) := by
  cases h <;> rfl

/-! ### A transfer's end (R87, R93) -/

theorem finishTransfer_port (id : RecId) (c : ResultCode) (rw : Replies) (s : State) (p : Fin 4) :
    (finishTransfer id c rw s).port p = (s.port p).dropTransfer id :=
  (port_mapVec _ (complete id c rw s) p).trans (by simp [State.port])

section
variable {q : Port} (id : RecId)

/-- R93: a drain set loses the transfer that has ended. -/
theorem dropTransfer_resetting {r : Resetting} (h : q.state = .resetting r) :
    q.dropTransfer id =
      { q with state := .resetting { r with drainTransfers := r.drainTransfers.filter (fun i => i != id) } } := by
  rw [Port.dropTransfer, h]

theorem dropTransfer_undrained (h : ∀ r, q.state ≠ .resetting r) : q.dropTransfer id = q := by
  unfold Port.dropTransfer
  cases hq : q.state with
  | resetting r => exact absurd hq (h r)
  | _ => rfl

end

/-- Settles O36: the head by what its lookup answers, its next burst by its job, its end by what each port drains. -/
theorem burstIsFormedAndLookedUp : Obligations.BurstIsFormedAndLookedUp := by
  refine ⟨fun s => rfl, ?looked, ?formed, ?ended⟩
  case looked =>
    intro t rest s b
    refine ⟨fun c e h => runQueue_allowed h, fun d h n hn => ?_⟩
    have denied := runQueue_denied (rest := rest) h
    rw [fencReplies, denyRecord_code hn, dir_codeWord] at denied
    exact denied
  case formed =>
    intro t here piece
    exact ⟨fun dst v => nextBurst_fill, fun a v m => nextBurst_scan,
      fun src dst h => ⟨nextBurst_copyRead h, nextBurst_copyWrite h⟩⟩
  case ended =>
    intro id c rw s p u
    refine ⟨rfl, fun q hq => ?_, fun hq => ?_⟩
    · exact (finishTransfer_port id c rw s p).trans (dropTransfer_resetting id hq)
    · exact (finishTransfer_port id c rw s p).trans (dropTransfer_undrained id hq)

/-! ### After a burst (R84 to R87, R91) -/

section
variable {t : Transfer} {rw : Replies} (rest : List Transfer) (s : State)

theorem afterBurst_stopping {finished : Bool} (h : t.state = .stopping) (hr : t.cancReplies = rw) :
    afterBurst t finished rest s = runQueue rest (finishTransfer t.owner .canc rw s) :=
  (if_pos h).trans (by rw [hr])

variable (h : t.state ≠ .stopping)
include h

theorem afterBurst_finished (hr : t.okayReplies = rw) :
    afterBurst t true rest s = runQueue rest (finishTransfer t.owner .okay rw s) := by
  rw [afterBurst, if_neg h, if_pos rfl, hr]

theorem afterBurst_unfinished : afterBurst t false rest s = runQueue (t :: rest) s := if_neg h

end

section
variable {t : Transfer}

theorem replies_fill {dst v : Word} (h : t.job = .fill dst v) :
    t.okayReplies = replies t.count 0 0 0 ∧ t.cancReplies = replies t.done 0 0 0 := by
  simp only [Transfer.okayReplies, Transfer.cancReplies, h, and_self]

theorem replies_copy {src dst : Word} (h : t.job = .copy src dst) :
    t.okayReplies = replies t.count 0 0 0 ∧ t.cancReplies = replies t.done 0 0 0 := by
  simp only [Transfer.okayReplies, Transfer.cancReplies, h, and_self]

/-- R84, R85, R91: what follows a burst whose words have been stored. -/
theorem afterBurst_stored (h : t.okayReplies = replies t.count 0 0 0 ∧ t.cancReplies = replies t.done 0 0 0)
    (rest : List Transfer) (s : State) :
    (t.state = .stopping →
      afterBurst t (decide (t.done = t.count)) rest s =
        runQueue rest (finishTransfer t.owner .canc (replies t.done 0 0 0) s)) ∧
    (t.state ≠ .stopping → t.done = t.count →
      afterBurst t (decide (t.done = t.count)) rest s =
        runQueue rest (finishTransfer t.owner .okay (replies t.count 0 0 0) s)) ∧
    (t.state ≠ .stopping → t.done ≠ t.count →
      afterBurst t (decide (t.done = t.count)) rest s = runQueue (t :: rest) s) := by
  obtain ⟨okay, canc⟩ := h
  refine ⟨fun h => afterBurst_stopping rest s h canc, fun h hf => ?_, fun h hf => ?_⟩
  · rw [decide_eq_true hf, afterBurst_finished rest s h okay]
  · rw [decide_eq_false hf, afterBurst_unfinished rest s h]

variable {a v m : Word} (h : t.job = .scan a v m)
include h

theorem okayReplies_scan :
    t.okayReplies =
      { rw0 := (mismatchWords t.mismatch).1, rw1 := (mismatchWords t.mismatch).2, rw2 := BitVec.ofNat 32 t.done
        rw3 := 0#32 } := by
  rw [Transfer.okayReplies, h]

theorem cancReplies_scan :
    t.cancReplies =
      { rw0 := BitVec.ofNat 32 t.done, rw1 := (mismatchWords t.mismatch).1, rw2 := (mismatchWords t.mismatch).2
        rw3 := 0#32 } := by
  rw [Transfer.cancReplies, h]

end

/-! ### The burst that holds the DRAM -/

section
variable {s : State} {t : Transfer} {b : Burst} {rest : List Transfer} (hb : s.bursting t b rest)
include hb

theorem fillBurst_granted {dst v : Word} (h : t.job = .fill dst v) :
    fillBurst s = fillBurstDone t b v rest s.released := by
  simp only [fillBurst, grantedBurst_bursting s t b rest hb, h]
  rfl

theorem copyReadBurst_granted {src dst : Word} (h : t.job = .copy src dst) (hr : b.half = .read) :
    copyReadBurst s = copyReadDone t b rest s.released := by
  simp only [copyReadBurst, grantedBurst_bursting s t b rest hb, h, hr]
  rfl

theorem copyWriteBurst_granted {src dst : Word} (h : t.job = .copy src dst) (hw : b.half = .write) :
    copyWriteBurst s = copyWriteDone t b rest s.released := by
  simp only [copyWriteBurst, grantedBurst_bursting s t b rest hb, h, hw]
  rfl

theorem scanBurst_granted {a v m : Word} (h : t.job = .scan a v m) :
    scanBurst s = scanBurstDone t b v m rest s.released := by
  simp only [scanBurst, grantedBurst_bursting s t b rest hb, h]
  rfl

end

/-! ### Bursts that have outlived a soft reset (R94) -/

section
variable {s : State}

theorem fillBurst_orphan {a : Word} {ws : List Word} (h : s.arb.holder = some (.orphan (.fill a ws))) :
    fillBurst s = storeAndEvaluate a.toNat ws s.released := by
  obtain ⟨granted, orphan⟩ := grantedBurst_orphan s _ h
  simp only [fillBurst, granted, orphan]
  rfl

theorem copyReadBurst_orphan (h : s.arb.holder = some (.orphan .copyRead)) : copyReadBurst s = s.released := by
  obtain ⟨granted, orphan⟩ := grantedBurst_orphan s _ h
  simp only [copyReadBurst, granted, orphan]
  rfl

theorem copyWriteBurst_orphan {a : Word} {ws : List Word} (h : s.arb.holder = some (.orphan (.copyWrite a ws))) :
    copyWriteBurst s = storeAndEvaluate a.toNat ws s.released := by
  obtain ⟨granted, orphan⟩ := grantedBurst_orphan s _ h
  simp only [copyWriteBurst, granted, orphan]
  rfl

theorem scanBurst_orphan (h : s.arb.holder = some (.orphan .scan)) : scanBurst s = s.released := by
  obtain ⟨granted, orphan⟩ := grantedBurst_orphan s _ h
  simp only [scanBurst, granted, orphan]
  rfl

end

/-! ### FILL -/

/-- Settles O37: the head after its burst STOPPING, finished and unfinished, and the orphan. -/
theorem fillBurstStoresPattern : Obligations.FillBurstStoresPattern := by
  refine fun s => ⟨fun t b rest dst v hb hj => ?_, fun a ws h => next_congr (fillBurst_orphan h)⟩
  intro u t'
  have done : fillBurst s = afterBurst t' (decide (t'.done = t.count)) rest u := fillBurst_granted hb hj
  obtain ⟨stopping, finished, unfinished⟩ := afterBurst_stored (t := t') (replies_fill hj) rest u
  exact ⟨fun h => next_congr (done.trans (stopping h)), fun h hf => next_congr (done.trans (finished h hf)),
    fun h hf => next_congr (done.trans (unfinished h hf))⟩

/-! ### COPY -/

section
variable {s : State} {t : Transfer} {b : Burst} {rest : List Transfer} {src dst : Word} (hb : s.bursting t b rest)
variable (hj : t.job = .copy src dst) (hr : b.half = .read)
include hb hj hr

/-- R91: a COPY that is STOPPING ends with the words of its earlier pieces. -/
theorem copyReadBurst_stopping (h : t.state = .stopping) :
    copyReadBurst s =
      runQueue rest (finishTransfer t.owner .canc (replies t.done 0 0 0) (countOut b.entry s.released)) := by
  rw [copyReadBurst_granted hb hj hr]
  exact afterBurst_stopping rest _ h (replies_copy hj).2

/-- R85: the words read are the buffer from which the write burst is formed. -/
theorem copyReadBurst_running (h : t.state ≠ .stopping) :
    copyReadBurst s =
      runQueue ({ t with buffer := s.wordsAt b.addr.toNat b.len, burst := none } :: rest)
        (countOut b.entry s.released) := by
  rw [copyReadBurst_granted hb hj hr, copyReadDone, wordsAt_released, if_neg h]
  exact afterBurst_unfinished rest _ h

end

/-- Settles O38: the read burst by whether the COPY is STOPPING, the head after its write burst, and the orphans. -/
theorem copyBurstsMovePiece : Obligations.CopyBurstsMovePiece := by
  refine fun s => ⟨fun t b rest src dst hb hj => ⟨fun hr => ⟨fun h => ?_, fun h => ?_⟩, fun hw => ?_⟩,
    fun h => next_congr (copyReadBurst_orphan h), fun a ws h => next_congr (copyWriteBurst_orphan h)⟩
  · exact next_congr (copyReadBurst_stopping hb hj hr h)
  · exact next_congr (copyReadBurst_running hb hj hr h)
  intro u t'
  have done : copyWriteBurst s = afterBurst t' (decide (t'.done = t.count)) rest u := copyWriteBurst_granted hb hj hw
  obtain ⟨stopping, finished, unfinished⟩ := afterBurst_stored (t := t') (replies_copy hj) rest u
  exact ⟨fun h => next_congr (done.trans (stopping h)), fun h hf => next_congr (done.trans (finished h hf)),
    fun h hf => next_congr (done.trans (unfinished h hf))⟩

/-! ### SCAN -/

/-- R86: a SCAN once a burst has examined `n` words and found the mismatch `q`, if any. -/
def scanned (t : Transfer) (n : Nat) (q : Option (Word × Word)) : Transfer :=
  { t with done := t.done + n, burst := none, mismatch := q }

/-- R79, R86: the completion of a SCAN's burst, by what the search of its words finds. -/
theorem scanBurst_searched {s : State} {t : Transfer} {b : Burst} {rest : List Transfer} {a v m : Word} {n : Nat}
    {q : Option (Word × Word)} (hb : s.bursting t b rest) (hj : t.job = .scan a v m)
    (hq : scanWords v m b.addr (s.wordsAt b.addr.toNat b.len) = (n, q)) :
    scanBurst s =
      afterBurst (scanned t n q) (q.isSome || decide (t.done + n = t.count)) rest (countOut b.entry s.released) := by
  rw [scanBurst_granted hb hj, scanBurstDone, wordsAt_released, hq]
  rfl

/-- Settles O39: the head by whether a word of the burst differs and by whether it is STOPPING, and the orphan. -/
theorem scanBurstExamines : Obligations.ScanBurstExamines := by
  refine fun s => ⟨fun t b rest a v m hb hj => ?_, fun h => next_congr (scanBurst_orphan h)⟩
  intro u differs _ ends
  refine ⟨fun same after x hw hsame hx => ?_, fun hsame => ?_⟩
  · have search : scanWords v m b.addr (s.wordsAt b.addr.toNat b.len) =
        (same.length + 1, some (b.addr + BitVec.ofNat 32 (4 * same.length), x)) := by
      rw [hw]
      exact scanWords_some v m same after x b.addr (fun y hy => not_not.mp (hsame y hy)) hx
    have done := scanBurst_searched hb hj search
    refine ⟨fun h => next_congr (done.trans ?_), fun h => next_congr (done.trans ?_)⟩
    · exact afterBurst_stopping rest u h (cancReplies_scan hj)
    · exact afterBurst_finished rest u h (okayReplies_scan hj)
  · have search : scanWords v m b.addr (s.wordsAt b.addr.toNat b.len) = (b.len, none) := by
      rw [scanWords_none v m _ b.addr fun y hy => not_not.mp (hsame y hy), wordsAt_length]
    have done := scanBurst_searched hb hj search
    refine ⟨fun h => next_congr (done.trans ?_), fun h hf => next_congr (done.trans ?_),
      fun h hf => next_congr (done.trans ?_)⟩
    · exact afterBurst_stopping rest u h (cancReplies_scan hj)
    · rw [decide_eq_true hf]
      exact afterBurst_finished rest u h (okayReplies_scan hj)
    · rw [decide_eq_false hf]
      exact afterBurst_unfinished rest u h

end Sys2Proof.Proofs
end

