-- ==== Sys2Proof/Proofs/RecordExamination.lean ====
section
/-! PROOF. The layouts of a record's words (R98, R103, R186), and the record read: what its completion examines, when
the record is held back, and the requests that are answered at the take alone (R98, R101 to R103, R115, R117, R121,
R149). -/

namespace Sys2Proof.Proofs

open Sys2Proof.Machine Sys2Proof.Laws

/-! ### The words of a record -/

/-- R103: a code word names the one code whose word it is. -/
theorem ofWord_some_iff (w : Word) (c : Code) : Code.ofWord w = some c ↔ w = c.word := by
  constructor
  · intro h
    have found : (c.word == w) = true := List.find?_some (p := fun c : Code => c.word == w) h
    exact (beq_iff_eq.mp found).symm
  · rintro rfl
    exact ofWord_word c

theorem ofWord_none {w : Word} (h : ∀ c : Code, w ≠ c.word) : Code.ofWord w = none :=
  List.find?_eq_none.mpr fun c _ hc => h c (beq_iff_eq.mp hc).symm

/-- R186: CONTROL's fields, each read where it is laid out. -/
theorem control_fields {r : Request} {tag : BitVec 16} {notify barrier option : BitVec 1} {unused : BitVec 13}
    (h : r.control = unused ++ option ++ barrier ++ notify ++ tag) :
    r.tag = tag ∧ r.notify = notify.getLsbD 0 ∧ r.barrier = barrier.getLsbD 0 ∧ r.opt = option.getLsbD 0 := by
  have bit (i : Nat) : r.control.getLsbD i =
      BitVec.getLsbD (w := 13 + 1 + 1 + 1 + 16) (unused ++ option ++ barrier ++ notify ++ tag) i := by rw [h]
  refine ⟨BitVec.eq_of_getLsbD_eq fun i hi => ?_, ?_, ?_, ?_⟩
  · rw [Request.tag, BitVec.getLsbD_extractLsb', Nat.zero_add, bit, BitVec.getLsbD_append]
    simp [hi]
  · simp only [Request.notify, bit, BitVec.getLsbD_append, Nat.reduceLT, if_true, if_false, Nat.reduceSub]
  · simp only [Request.barrier, bit, BitVec.getLsbD_append, Nat.reduceLT, if_true, if_false, Nat.reduceSub]
  · simp only [Request.opt, bit, BitVec.getLsbD_append, Nat.reduceLT, if_true, if_false, Nat.reduceSub]

theorem bit_iff (b : BitVec 1) : b.getLsbD 0 = true ↔ b = 1#1 := by
  revert b
  decide

theorem replies_word_iff (n : Nat) (w : Word) (rw : Replies) :
    rw.words[n]? = some w ↔
      (n = 0 ∧ w = rw.rw0) ∨ (n = 1 ∧ w = rw.rw1) ∨ (n = 2 ∧ w = rw.rw2) ∨ (n = 3 ∧ w = rw.rw3) := by
  match n with
  | 0 | 1 | 2 | 3 => simp [Replies.words, eq_comm]
  | n + 4 => simp [Replies.words]

/-- R186: 'TAKN', its first character in the lowest byte. -/
theorem taknWord_eq : taknWord = 0x4E4B4154#32 := by decide

/-- Settles O3: CONTROL's fields, the codes, the order of the reply words, and the 4CCs written out. -/
theorem recordWordLayouts : Obligations.RecordWordLayouts := by
  refine ⟨fun r tag notify barrier option unused h => ?_, ofWord_some_iff, replies_word_iff, taknWord_eq, by decide,
    by decide⟩
  obtain ⟨htag, hnotify, hbarrier, hopt⟩ := control_fields h
  rw [hnotify, hbarrier, hopt]
  exact ⟨htag, bit_iff _, bit_iff _, bit_iff _⟩

/-! ### The record read that returns a record (R101; log 4) -/

/-- A request command is the completion of the record read with the command's record. -/
theorem exec_request {c : Instr} {code : Word} {r : Request} (h : requestOf c = some (code, r)) (s : State) :
    exec c s = .next (arbitrate (recordReadReturns (some (requestRecord code r)) s)) := by
  cases c <;> cases h <;> rfl

section
variable {s : State} {a : Word}

theorem recordRead_discarded (h : s.operating (.recordRead a false)) (rec : Option Record) :
    recordReadReturns rec s = s.opDone := by
  rw [recordReadReturns, grantedOp_operating s _ h]
  rfl

theorem recordRead_examined (h : s.operating (.recordRead a true)) (rec : Option Record) :
    recordReadReturns rec s = examine (rec.getD (s.recordAt a.toNat)) a s.readDone := by
  rw [recordReadReturns, grantedOp_operating s _ h, ← readComplete_eq s h.1]

end

theorem operating_of_recordReturns {s₀ s : State} {a : Word} (h : s₀.recordReturns a s) :
    s₀.operating (.recordRead a true) :=
  ⟨h.1, h.2.1, h.2.2.1⟩

/-- The record of a request command is examined in the state in which its read has completed. -/
theorem request_examined {s₀ s : State} {a : Word} (hs : s₀.recordReturns a s) {c : Instr} {code : Word} {r : Request}
    (h : requestOf c = some (code, r)) :
    exec c s₀ = .next (arbitrate (examine (requestRecord code r) a s)) := by
  rw [exec_request h, recordRead_examined (operating_of_recordReturns hs)]
  obtain ⟨_, _, _, _, rfl⟩ := hs
  rfl

/-! ### The examination, test by test (R101) -/

section
variable {rec : Record} {a : Word} {s : State}

theorem examine_notFresh (h : rec.result ≠ 0#32) : examine rec a s = chainFault .notFresh a s := if_pos h

variable (fresh : rec.result = 0#32)
include fresh

theorem examine_barrier (hb : rec.req.barrier = true) (ha : s.eng.active ≠ []) :
    examine rec a s = stallReader .barrier a s := by
  rw [examine, if_neg (not_not.mpr fresh), if_pos ⟨hb, ha⟩]

variable (hb : s.noBarrier rec.req)
include hb

/-- Past BARRIER, the queue is tested. -/
theorem examine_noBarrier :
    examine rec a s =
      if Code.needsRoom (Code.ofWord rec.code) = true ∧ 4 ≤ s.queue.length then stallReader .queueFull a s
      else handOff (Code.ofWord rec.code) s.eng.nextId rec.req (takeRecord a rec.code rec.req s) := by
  have passed : ¬(rec.req.barrier = true ∧ s.eng.active ≠ []) := by
    rintro ⟨h, ha⟩
    obtain hb | hb := hb
    · exact absurd h (by simp [hb])
    · exact ha hb
  rw [examine, if_neg (not_not.mpr fresh), if_neg passed]

theorem examine_queueFull (hc : Code.needsRoom (Code.ofWord rec.code) = true) (hq : 4 ≤ s.queue.length) :
    examine rec a s = stallReader .queueFull a s := by
  rw [examine_noBarrier fresh hb, if_pos ⟨hc, hq⟩]

/-- A record that needs no room in the queue is taken and handed to its block. -/
theorem examine_taken (hc : Code.needsRoom (Code.ofWord rec.code) = false) (hr : s.ctl.state = .run) :
    examine rec a s =
      handOff (Code.ofWord rec.code) s.eng.nextId rec.req (s.afterTake a rec.code rec.req .taking .header []) := by
  rw [examine_noBarrier fresh hb, if_neg (by simp [hc]), takeRecord_eq s a _ _ hr]

end

theorem stallReader_reading {s : State} (h : s.eng.stopPending = false) (q : StallReason) (a : Word) :
    stallReader q a s = s.withReader (.stalled q a) := if_neg (by simp [h])

/-- R121: with a stop pending the reader stops where it would stall. -/
theorem stallReader_stopping {s : State} (h : s.eng.stopPending = true) (q : StallReason) (a : Word) :
    stallReader q a s = { s with eng := { s.eng with reader := .stopped, stopPending := false } } := if_pos h

theorem needsRoom_of_transferCode {code : Word} (h : transferCode code) : Code.needsRoom (Code.ofWord code) = true := by
  obtain rfl | rfl | rfl := h
  · exact congrArg Code.needsRoom (ofWord_word .fill)
  · exact congrArg Code.needsRoom (ofWord_word .copy)
  · exact congrArg Code.needsRoom (ofWord_word .scan)

/-- Settles O22: the two tests that hold a record back, each with and without a stop pending. -/
theorem recordIsHeldBack : Obligations.RecordIsHeldBack := by
  intro s₀ s a c code r hc hs stalls
  have stalls_of {q : StallReason} (h : examine (requestRecord code r) a s = stallReader q a s) : stalls q := by
    have run := request_examined hs hc
    rw [h] at run
    exact ⟨fun hp => run.trans (next_congr (stallReader_reading hp q a)),
      fun hp => run.trans (next_congr (stallReader_stopping hp q a))⟩
  exact ⟨fun hb ha => stalls_of (examine_barrier rfl hb ha),
    fun hb ht hq => stalls_of (examine_queueFull rfl hb (needsRoom_of_transferCode ht) hq)⟩

/-! ### What the DRAM holds (R98, R117) -/

theorem readDone_stopPending (s : State) : s.readDone.eng.stopPending = s.eng.stopPending := by
  unfold State.readDone
  dsimp only
  split
  · rw [(arbitrate_keeps _).1]
    rfl
  · rfl

theorem readDone_run {s : State} (h : s.ctl.state = .run) : s.readDone.ctl.state = .run := by
  unfold State.readDone
  dsimp only
  split
  · exact (arbitrate_keeps _).2.1 h
  · exact h

/-- R117: in RUN the fault words wake nothing. -/
theorem chainFault_run {s : State} (h : s.ctl.state = .run) (k : ChainFault) (a : Word) :
    chainFault k a s =
      { s.tailEnded with
        eng :=
          { s.tailEnded.eng with
            reader := if s.eng.stopPending then .stopped else .faulted
            stopPending := false
            ops := s.tailEnded.eng.ops ++ [.headerFault k a] } } := by
  rw [chainFault_eq, wake_run _ h]
  rfl

/-- Settles O23: a discarded read, a record that is not fresh, and a fresh one against the command that it spells. -/
theorem recordReadExamines : Obligations.RecordReadExamines := by
  intro s a
  refine ⟨fun h => next_congr (recordRead_discarded h none), fun h => ⟨fun stale => ?_, ?_⟩⟩
  · intro t
    refine next_congr ?_
    have notFresh : ((none : Option Record).getD (s.recordAt a.toNat)).result ≠ 0#32 := stale
    rw [recordRead_examined h none, examine_notFresh notFresh, chainFault_run (readDone_run h.1), readDone_stopPending]
  · intro fresh c code r hc hcode hr
    refine ⟨?_, _, exec_request hc s⟩
    have same : requestRecord code r = s.recordAt a.toNat := by
      rw [hcode, hr, requestRecord, State.recordAt, fresh]
    refine Eq.trans (next_congr ?_) (exec_request hc s).symm
    rw [recordRead_examined h, recordRead_examined h, same]
    rfl

/-! ### NOOP, an unrecognised code and RFSH (R115, R149) -/

section
variable {s₀ s : State} {a : Word} {r : Request}

theorem unknown_answered {code : Word} (hs : s₀.recordReturns a s) (hb : s.noBarrier r)
    (h : ∀ c : Code, code ≠ c.word) :
    exec (.unknown code r) s₀ = .next (arbitrate (s.answered a code r .unkn noReplies)) := by
  obtain ⟨run, numbered, _, _⟩ := recordReturns_keeps s₀ s a hs
  have unrecognised : Code.ofWord code = none := ofWord_none h
  have taken : examine (requestRecord code r) a s =
      takeUnknown s.eng.nextId r (s.afterTake a code r .taking .header []) := by
    have noRoom : Code.needsRoom (Code.ofWord (requestRecord code r).code) = false :=
      congrArg Code.needsRoom unrecognised
    rw [examine_taken (rec := requestRecord code r) rfl hb noRoom run, requestRecord, unrecognised]
    rfl
  rw [request_examined hs rfl, taken]
  exact next_congr (instant_taken s _ a code r .unkn noReplies numbered run rfl)

theorem takeRefreshInterval_parm (h : 3 < r.p0.toNat) (id : RecId) (s : State) :
    takeRefreshInterval id r s = instant id .parm noReplies s := if_pos h

theorem takeRefreshInterval_stores (h : r.p0.toNat ≤ 3) (id : RecId) (s : State) :
    takeRefreshInterval id r s =
      instant id .okay (replies s.ctl.code.toNat 0 0 0)
        { s with ctl := { s.ctl with code := r.p0.extractLsb' 0 2 } } := if_neg (Nat.not_lt.mpr h)

end

theorem low_bits (w : Word) : w.extractLsb' 0 2 = BitVec.ofNat 2 w.toNat := by
  apply BitVec.eq_of_toNat_eq
  simp

/-- Settles O16: the two answers that need no test, and RFSH by its parameter. -/
theorem noopUnknownAndRefreshAnswer : Obligations.NoopUnknownAndRefreshAnswer := by
  intro s₀ s a r hs hb answer
  have refresh : exec (.refreshInterval r) s₀ =
      .next (arbitrate (takeRefreshInterval s.eng.nextId r (takenAs s a .refreshInterval r))) :=
    request_handed .refreshInterval hs hb rfl
  refine ⟨?_, fun code => unknown_answered hs hb, fun h => ?_, fun h => ?_⟩
  · exact (request_handed .noop hs hb rfl).trans (next_congr (instant_answered .noop hs .okay noReplies))
  · rw [refresh, takeRefreshInterval_parm h]
    exact next_congr (instant_answered .refreshInterval hs .parm noReplies)
  · obtain ⟨run, numbered, _, _⟩ := recordReturns_keeps s₀ s a hs
    rw [refresh, takeRefreshInterval_stores h, low_bits]
    exact next_congr (instant_taken s _ a _ r .okay _ numbered run rfl)

end Sys2Proof.Proofs
end

