-- ==== Sys2Proof/Proofs/ReaderCommands.lean ====
section
/-! PROOF. Completions and retirement (R104, R110, R111, R176), GO (R119, R120, R146, R176, R181), STOP (R72, R111,
R121, R155, R181) and the end of a stall (R101, R107, R122). -/

namespace Sys2Proof.Proofs

open Sys2Proof.Machine Sys2Proof.Laws

/-! ### Completions and retirement -/

theorem isFinal_iff (x : TakeRecord) : x.isFinal = true ↔ ∃ c rw, x.stage = .final c rw := by
  unfold TakeRecord.isFinal
  cases x.stage <;> simp

theorem splitRetired_leaves {tail : Option RecId} {x : TakeRecord} (hx : x.isFinal = true) (ht : tail ≠ some x.id)
    (l : List TakeRecord) :
    splitRetired tail (x :: l) = (x :: (splitRetired tail l).1, (splitRetired tail l).2) := by
  obtain ⟨c, rw, hs⟩ := (isFinal_iff x).mp hx
  simp only [splitRetired, hs, if_neg ht]

theorem splitRetired_stays {tail : Option RecId} {x : TakeRecord} (h : x.isFinal = false ∨ tail = some x.id)
    (l : List TakeRecord) : splitRetired tail (x :: l) = ([], x :: l) := by
  unfold splitRetired
  split
  · next c rw hs =>
    have final : x.isFinal = true := (isFinal_iff x).mpr ⟨c, rw, hs⟩
    exact if_pos (h.resolve_left (by simp [final]))
  all_goals rfl

/-- R110: the records retire up to the first that is not FINAL or is the tail record. -/
theorem splitRetired_append {tail : Option RecId} {out rest : List TakeRecord}
    (hout : ∀ x ∈ out, x.isFinal = true ∧ tail ≠ some x.id)
    (hrest : ∀ x, rest.head? = some x → x.isFinal = false ∨ tail = some x.id) :
    splitRetired tail (out ++ rest) = (out, rest) := by
  induction out with
  | nil =>
    cases rest with
    | nil => rfl
    | cons x l => exact splitRetired_stays (hrest x rfl) l
  | cons x l ih =>
    obtain ⟨⟨hx, ht⟩, hl⟩ := List.forall_mem_cons.mp hout
    rw [List.cons_append, splitRetired_leaves hx ht, ih hl]

theorem retire_eq {s : State} {out rest : List TakeRecord} (h : splitRetired s.eng.tail s.eng.takeList = (out, rest)) :
    retire s =
      { s with
        ctl := if out = [] then s.ctl else s.ctl.wake
        eng :=
          { s.eng with
            takeList := rest
            ops := s.eng.ops ++ out.map (fun x => .headerRetired x.addr) } } := by
  rw [retire, h]
  cases out with
  | nil => simp [retiredWrites, appendOps]
  | cons x l => rfl

/-- Settles O25: a completion of a record of the take list, the records that retire, and the wake cause. -/
theorem completionAndRetirement : Obligations.CompletionAndRetirement := by
  intro s
  refine ⟨fun id c rw x hx => complete_some id c rw s x hx, fun out rest hl hout hrest => retire_eq ?_, isFinal_iff, ?_⟩
  · rw [hl]
    exact splitRetired_append hout hrest
  · cases h : s.ctl.state <;> simp [Controller.wake, h]

/-! ### The tests before a record read (R107) -/

section
variable {s : State} {a : Word}

theorem examineNext_tableFull (h : 8 ≤ s.eng.active.length) :
    examineNext a s = s.withReader (.stalled .tableFull a) := if_pos h

variable (ha : s.eng.active.length < 8)
include ha

theorem examineNext_retireFull (h : 32 ≤ s.eng.takeList.length) :
    examineNext a s = s.withReader (.stalled .retireFull a) := by
  rw [examineNext, if_neg (Nat.not_le.mpr ha), if_pos h]
  rfl

theorem examineNext_reads (h : s.eng.takeList.length < 32) : examineNext a s = readRecord a s := by
  rw [examineNext, if_neg (Nat.not_le.mpr ha), if_neg (Nat.not_le.mpr h)]

end

/-! ### A write to CTRL (R181) -/

section
variable {s : State} {v : Word}

theorem exec_go (h : s.inReset = false) (w : Word) :
    exec (.go w) s = .next (arbitrate (ctrlWrite (w ||| 0x01#32) s)) :=
  next_congr (regWrite_running s _ _ h)

theorem exec_stop (h : s.inReset = false) (w : Word) :
    exec (.stop w) s = .next (arbitrate (ctrlWrite (w ||| 0x02#32) s)) :=
  next_congr (regWrite_running s _ _ h)

theorem ctrlWrite_softReset (h : v.getLsbD 2 = true) : ctrlWrite v s = softReset s := if_pos h

theorem exec_softReset_ctrl (h : s.inReset = false) (w : Word) :
    exec (.softReset w) s = .next (arbitrate (softReset s)) :=
  next_congr ((regWrite_running s _ _ h).trans (ctrlWrite_softReset (ctrl_or_softReset w)))

variable (h2 : v.getLsbD 2 = false)
include h2

/-- GO and STOP in one word: the write is ignored. -/
theorem ctrlWrite_both (h0 : v.getLsbD 0 = true) (h1 : v.getLsbD 1 = true) : ctrlWrite v s = s := by
  rw [ctrlWrite, if_neg (ne_true_of_eq_false h2), if_pos ⟨h0, h1⟩]

theorem ctrlWrite_go (h0 : v.getLsbD 0 = true) (h1 : v.getLsbD 1 = false) :
    ctrlWrite v s = goCommand (ctrlWsize v s) := by
  rw [ctrlWrite, if_neg (ne_true_of_eq_false h2), if_neg fun h => ne_true_of_eq_false h1 h.2, ctrlAction, if_pos h0]

theorem ctrlWrite_stop (h0 : v.getLsbD 0 = false) (h1 : v.getLsbD 1 = true) :
    ctrlWrite v s = stopCommand (ctrlWsize v s) := by
  rw [ctrlWrite, if_neg (ne_true_of_eq_false h2), if_neg fun h => ne_true_of_eq_false h0 h.1, ctrlAction,
    if_neg (ne_true_of_eq_false h0), if_pos h1]

end

/-! ### GO (R119, R120) -/

section
variable {s : State}

theorem goCommand_ignored (hs : s.eng.reader ≠ .stopped) (hf : s.eng.reader ≠ .faulted) : goCommand s = s := by
  unfold goCommand
  split
  · next h => exact absurd h hs
  · next h => exact absurd h hf
  all_goals rfl

theorem goCommand_acts (h : s.eng.reader = .stopped ∨ s.eng.reader = .faulted) : goCommand s = goAct s := by
  obtain h | h := h <;> rw [goCommand, h]

/-- R119, R146: the state after a GO that has left the reader in `rd` and appended `ops`. -/
def started (s : State) (rd : Reader) (ops : List EngineOp) : State :=
  { s with
    win := { s.win with wsizeFixed := true }
    ctl := s.ctl.release.wake
    eng := { s.eng with taken := 0#32, handoff := none, heldRead := false, reader := rd, ops := s.eng.ops ++ ops } }

theorem goAct_faulted (h : ¬(goPrepare s).linkValid s.win.anch = true) :
    goAct s = started s .faulted [.headerGo (some s.win.anch)] := if_neg h

section
variable (h : (goPrepare s).linkValid s.win.anch = true)
include h

theorem goAct_examines : goAct s = examineNext s.win.anch (started s s.eng.reader [.headerGo none]) := if_pos h

theorem goAct_tableFull (ha : 8 ≤ s.eng.active.length) :
    goAct s = started s (.stalled .tableFull s.win.anch) [.headerGo none] :=
  (goAct_examines h).trans (examineNext_tableFull (s := started s _ _) ha)

theorem goAct_retireFull (ha : s.eng.active.length < 8) (hl : 32 ≤ s.eng.takeList.length) :
    goAct s = started s (.stalled .retireFull s.win.anch) [.headerGo none] :=
  (goAct_examines h).trans (examineNext_retireFull (s := started s _ _) ha hl)

/-- R119, R146: neither the release nor the wake cause brings the controller to RUN. -/
theorem goAct_reads (ha : s.eng.active.length < 8) (hl : s.eng.takeList.length < 32) :
    goAct s =
      started s (if s.ctl.state = .run then .examining s.win.anch else .stalled .waking s.win.anch)
        [.headerGo none, .recordRead s.win.anch true] := by
  rw [goAct_examines h, examineNext_reads (s := started s _ _) ha hl, readRecord_appends (s := started s _ _) rfl]
  simp only [started, wake_wake, wake_state_run, release_state, List.append_assoc]
  rfl

end

end

theorem release_eq (c : Controller) :
    ((∃ b, c.state = .init b) → c.release = { c with released := true }) ∧
      ((¬∃ b, c.state = .init b) → c.release = c) := by
  unfold Controller.release
  cases h : c.state <;> simp

/-- Settles O26: the word's bits, then the engine's state, then the anchor and the room in the table and the list. -/
theorem goStartsReader : Obligations.GoStartsReader := by
  intro s w hr
  obtain ⟨go, stop, reset, seven, size⟩ := ctrl_or_go w
  refine ⟨fun h2 => ?_, fun h2 h1 => ?_, fun h2 h1 => ?_, release_eq s.ctl⟩
  · rw [exec_go hr, ctrlWrite_softReset (reset.trans h2), exec_softReset_ctrl hr]
  · rw [exec_go hr, ctrlWrite_both (reset.trans h2) go (stop.trans h1)]
  have run : exec (.go w) s = .next (arbitrate (goCommand (s.sizeAfter w))) := by
    rw [exec_go hr, ctrlWrite_go (reset.trans h2) go (stop.trans h1), ctrlWsize_eq w _ s seven size]
  refine ⟨fun hs hf => ?_, fun hrd => ?_⟩
  · rw [run, goCommand_ignored (s := s.sizeAfter w) hs hf]
  intro anch base valid st
  have valid_iff : (goPrepare (s.sizeAfter w)).linkValid anch = true ↔ valid := linkValid_iff _ anch
  rw [run, goCommand_acts (s := s.sizeAfter w) hrd]
  exact ⟨fun h => next_congr (goAct_faulted fun hv => h (valid_iff.mp hv)),
    fun h ha => next_congr (goAct_tableFull (valid_iff.mpr h) ha),
    fun h ha hl => next_congr (goAct_retireFull (valid_iff.mpr h) ha hl),
    fun h ha hl => next_congr (goAct_reads (valid_iff.mpr h) ha hl)⟩

/-! ### STOP (R121) -/

section
variable {s : State}

theorem stopCommand_stopped (h : s.eng.reader = .stopped) : stopCommand s = s := by
  rw [stopCommand, h]

/-- R121: in READING the stop is pending. -/
theorem stopCommand_reading
    (h : (∃ a, s.eng.reader = .examining a) ∨ (∃ i a l e, s.eng.reader = .taking i a l e)
      ∨ ∃ i, s.eng.reader = .arming i) :
    stopCommand s = endTailAtStop { s with eng := { s.eng with stopPending := true } } := by
  obtain ⟨a, h⟩ | ⟨i, a, l, e, h⟩ | ⟨i, h⟩ := h <;> rw [stopCommand, h]

theorem stopCommand_atTail {i : RecId} (h : s.eng.reader = .atTail i) :
    stopCommand s = endTailAtStop (stopReader (s.setSlot 0 none)) := by
  rw [stopCommand, h]

theorem stopCommand_settled
    (h : s.eng.reader = .faulted ∨ ∃ q a, q ≠ .waking ∧ s.eng.reader = .stalled q a) :
    stopCommand s = endTailAtStop (stopReader s) := by
  obtain h | ⟨q, a, hq, h⟩ := h
  · rw [stopCommand, h]
  · cases q with
    | waking => exact absurd rfl hq
    | _ => rw [stopCommand, h]

theorem stopCommand_waking {a : Word} (h : s.eng.reader = .stalled .waking a) :
    stopCommand s =
      { endTailAtStop (stopReader (withdrawRead s)) with
        eng := { (endTailAtStop (stopReader (withdrawRead s))).eng with heldRead := false } } := by
  rw [stopCommand, h]

/-! #### The record read of a stall with reason WAKING (R121, R155) -/

theorem withdrawRead_empty (h : s.eng.ops = []) : withdrawRead s = s := by
  rw [withdrawRead, h]

variable {op : EngineOp} {rest : List EngineOp} (h : s.eng.ops = op :: rest)
include h

theorem withdrawRead_granted (hh : s.arb.holder = some .chain) :
    withdrawRead s =
      { s with eng :=
        { s.eng with
          ops := (if op.isRecordRead then op.discard else op) :: rest.filter (fun o => !o.isRecordRead) } } := by
  rw [withdrawRead, h]
  exact if_pos hh

theorem withdrawRead_waiting (hh : s.arb.holder ≠ some .chain) :
    withdrawRead s =
      { s with
        eng := { s.eng with ops := (op :: rest).filter (fun o => !o.isRecordRead) }
        arb := { s.arb with pass := if op.isRecordRead then s.arb.pass.set 4 0 else s.arb.pass } } := by
  rw [withdrawRead, h]
  dsimp only
  rw [if_neg hh]
  cases op.isRecordRead <;> rfl

end

/-- R111, R121: `v` is `u` with the tail restriction of `s` ended; a free value says whether a RETIRED write woke the
controller (log 13). -/
def tailEndedAtStop (s u v : State) : Prop :=
  ∃ c, (c = s.ctl ∨ (s.leaving ≠ [] ∧ c = s.ctl.wake)) ∧ v = { u.tailEnded with ctl := c }

/-- A STOP that ends the tail restriction of a state with the lists of `s`. -/
theorem stop_answers {s t u : State} (hu : stopCommand t = endTailAtStop u) (ht : u.eng.tail = s.eng.tail)
    (hl : u.eng.takeList = s.eng.takeList) (hc : u.ctl = s.ctl) :
    tailEndedAtStop s u (stopCommand t) := by
  rw [hu]
  exact endTailAtStop_eq s u ht hl hc

/-- The same in a stall with reason WAKING, where a held read is given up. -/
theorem stop_answers_waking {s t v : State} {a : Word} (hr : t.eng.reader = .stalled .waking a)
    (hv : withdrawRead t = v) (ht : v.eng.tail = s.eng.tail) (hl : v.eng.takeList = s.eng.takeList)
    (hc : v.ctl = s.ctl) :
    tailEndedAtStop s (stopReader { v with eng := { v.eng with heldRead := false } }) (stopCommand t) := by
  obtain ⟨c, free, ended⟩ := endTailAtStop_eq s (stopReader v) ht hl hc
  refine ⟨c, free, ?_⟩
  rw [stopCommand_waking hr, hv, ended]
  rfl

/-- Settles O27: the word's bits, then the engine's state; in a stall with reason WAKING, the operation list's head. -/
theorem stopStopsReader : Obligations.StopStopsReader := by
  intro s w hr
  obtain ⟨go, stop, reset, seven, size⟩ := ctrl_or_stop w
  refine ⟨fun h2 => ?_, fun h2 h0 => ?_, fun h2 h0 => ?_, fun a b => ⟨rfl, rfl⟩⟩
  · rw [exec_stop hr, ctrlWrite_softReset (reset.trans h2), exec_softReset_ctrl hr]
  · rw [exec_stop hr, ctrlWrite_both (reset.trans h2) (go.trans h0) stop]
  intro t stopped answers reads
  have run : exec (.stop w) s = .next (arbitrate (stopCommand t)) := by
    rw [exec_stop hr, ctrlWrite_stop (reset.trans h2) (go.trans h0) stop, ctrlWsize_eq w _ s seven size]
  have answered {u : State} (h : tailEndedAtStop s u (stopCommand t)) : answers u := by
    obtain ⟨c, free, ended⟩ := h
    exact ⟨c, free, run.trans (next_congr ended)⟩
  refine ⟨fun h => ?_, fun h => ?_, fun ⟨i, h⟩ => ?_, fun h => ?_, fun ⟨a, h⟩ => ⟨fun ho => ?_,
    fun op rest ho => ⟨fun hh => ?_, fun hh => ?_⟩⟩⟩
  · exact run.trans (next_congr (stopCommand_stopped (s := t) h))
  · exact answered (stop_answers (stopCommand_reading (s := t) h) rfl rfl rfl)
  · exact answered (stop_answers (stopCommand_atTail (s := t) h) rfl rfl rfl)
  · exact answered (stop_answers (stopCommand_settled (s := t) h) rfl rfl rfl)
  · exact answered (stop_answers_waking (t := t) h (withdrawRead_empty (s := t) ho) rfl rfl rfl)
  · exact answered (stop_answers_waking (t := t) h (withdrawRead_granted (s := t) ho hh) rfl rfl rfl)
  · exact answered (stop_answers_waking (t := t) h (withdrawRead_waiting (s := t) ho hh) rfl rfl rfl)

/-! ### The end of a stall (R101, R107) -/

section
variable {s : State} {a : Word}

theorem endStall_tableFull (h : s.eng.reader = .stalled .tableFull a) :
    endStall s = if s.eng.active.length < 8 then examineNext a s else s := by
  rw [endStall, h]

theorem endStall_retireFull (h : s.eng.reader = .stalled .retireFull a) :
    endStall s = if s.eng.takeList.length < 32 then examineNext a s else s := by
  rw [endStall, h]

theorem endStall_barrier (h : s.eng.reader = .stalled .barrier a) :
    endStall s = if s.eng.active = [] then readRecord a s else s := by
  rw [endStall, h]

theorem endStall_queueFull (h : s.eng.reader = .stalled .queueFull a) :
    endStall s = if s.queue.length < 4 then readRecord a s else s := by
  rw [endStall, h]

theorem endStall_waking (h : s.eng.reader = .stalled .waking a) : endStall s = s := by
  rw [endStall, h]

end

/-- Settles O53: the stalls by their reason, each by whether the reason has ended. -/
theorem stallEnds : Obligations.StallEnds := by
  intro s q a hr reads stays
  have stay (h : endStall s = s) : stays := next_congr h
  have read (h : endStall s = readRecord a s) : reads := by
    refine ⟨fun ho hrun => ?_, fun ho hrun => ?_, fun ho => ?_⟩
    · refine next_congr (h.trans ?_)
      rw [readRecord_appends ho, wake_run _ hrun, if_pos hrun]
    · refine next_congr (h.trans ?_)
      rw [readRecord_appends ho, if_neg hrun]
    · exact next_congr (h.trans (readRecord_holds ho a))
  refine ⟨?tableFull, ?retireFull, ?barrier, ?queueFull, ?waking⟩ <;> rintro rfl
  case tableFull =>
    have ends := endStall_tableFull hr
    refine ⟨fun full => stay (ends.trans (if_neg (Nat.not_lt.mpr full))), fun room full => ?_, fun room hl => ?_⟩
    · exact next_congr ((ends.trans (if_pos room)).trans (examineNext_retireFull room full))
    · exact read ((ends.trans (if_pos room)).trans (examineNext_reads room hl))
  case retireFull =>
    have ends := endStall_retireFull hr
    refine ⟨fun full => stay (ends.trans (if_neg (Nat.not_lt.mpr full))), fun room full => ?_, fun room ha => ?_⟩
    · exact next_congr ((ends.trans (if_pos room)).trans (examineNext_tableFull full))
    · exact read ((ends.trans (if_pos room)).trans (examineNext_reads ha room))
  case barrier =>
    have ends := endStall_barrier hr
    exact ⟨fun busy => stay (ends.trans (if_neg busy)), fun idle => read (ends.trans (if_pos idle))⟩
  case queueFull =>
    have ends := endStall_queueFull hr
    exact ⟨fun full => stay (ends.trans (if_neg (Nat.not_lt.mpr full))), fun room => read (ends.trans (if_pos room))⟩
  case waking => exact stay (endStall_waking hr)

end Sys2Proof.Proofs
end

