-- ==== Sys2Proof/Proofs/EngineWrites.lean ====
section
/-! PROOF. The engine's writes complete: what they store, and what follows (R97, R98, R100, R102, R104, R110, R117,
R119). -/

namespace Sys2Proof.Proofs

open Sys2Proof.Machine Sys2Proof.Laws

/-! ### The header (R97, R102, R117, R119) -/

section
variable {s : State}

theorem headerWriteDone_go {b : Option Word} (h : s.operating (.headerGo b)) :
    headerWriteDone s =
      raiseIf b.isSome .chain (storeAndEvaluate s.workBase (headerWords b) s.opDone) := by
  rw [headerWriteDone, grantedOp_operating s _ h]
  exact congrArg (raiseIf b.isSome .chain) (engineWrite_eq _ s _ _ rfl)

theorem headerWriteDone_fault {k : ChainFault} {a : Word} (h : s.operating (.headerFault k a)) :
    headerWriteDone s = raise .chain (storeAndEvaluate (s.workBase + 12) [a, k.word] s.opDone) := by
  rw [headerWriteDone, grantedOp_operating s _ h]
  exact congrArg (raise .chain) (engineWrite_eq _ s _ _ rfl)

theorem headerWriteDone_take {id : RecId} {n l : Word} (h : s.operating (.headerTake id n l)) :
    headerWriteDone s = endTakeAt id .header (storeAndEvaluate (s.workBase + 4) [n, l] s.opDone) := by
  rw [headerWriteDone, grantedOp_operating s _ h]
  exact congrArg (endTakeAt id .header) (engineWrite_eq _ s _ _ rfl)

end

/-- Settles O40: the header by the operation that writes it; the write of a take, by whether the take ends with it. -/
theorem headerWritesComplete : Obligations.HeaderWritesComplete := by
  intro s written
  have go {b : Option Word} (h : s.operating (.headerGo b)) :
      exec .headerWriteComplete s = .next (arbitrate (raiseIf b.isSome .chain (written 0 (headerWords b)))) := by
    refine next_congr ((headerWriteDone_go h).trans ?_)
    simp only [written, Nat.add_zero]
  refine ⟨fun h => go (b := none) h, fun a h => go (b := some a) h,
    fun a h => next_congr (headerWriteDone_fault (k := .badLink) h),
    fun a h => next_congr (headerWriteDone_fault (k := .notFresh) h), fun id n l h => ?_⟩
  obtain ⟨ends, goesOn⟩ := endTakeAt_eq (written 4 [n, l]) id .header
  exact ⟨fun a link hr => next_congr ((headerWriteDone_take h).trans (ends a link hr)),
    fun hr => next_congr ((headerWriteDone_take h).trans (goesOn hr))⟩

/-! ### A record and RETIRED (R98, R100, R104) -/

section
variable {s : State}

theorem otherWriteDone_takn {id : RecId} {a : Word} (h : s.operating (.taknWrite id a)) :
    otherWriteDone s = storeAndEvaluate (a.toNat + 8) [0x4E4B4154#32] s.opDone := by
  rw [otherWriteDone, grantedOp_operating s _ h, ← taknWord_eq]
  exact engineWrite_eq _ s _ _ rfl

theorem otherWriteDone_reply {id : RecId} {a : Word} {rw : Replies} (h : s.operating (.replyWrite id a rw)) :
    otherWriteDone s = storeAndEvaluate (a.toNat + 48) rw.words s.opDone := by
  rw [otherWriteDone, grantedOp_operating s _ h]
  exact engineWrite_eq _ s _ _ rfl

theorem otherWriteDone_retired {a : Word} (h : s.operating (.headerRetired a)) :
    otherWriteDone s = storeAndEvaluate s.workBase [a] s.opDone := by
  rw [otherWriteDone, grantedOp_operating s _ h]
  exact engineWrite_eq _ s _ _ rfl

theorem resultWriteDone_eq {id : RecId} {a : Word} {c : ResultCode} {n : Bool}
    (h : s.operating (.resultWrite id a c n)) :
    resultWriteDone s =
      retire (endTakeAt id .result (finalize id n (storeAndEvaluate (a.toNat + 8) [c.word] s.opDone))) := by
  rw [resultWriteDone, grantedOp_operating s _ h]
  exact congrArg (fun u => retire (endTakeAt id .result (finalize id n u))) (engineWrite_eq _ s _ _ rfl)

end

/-- R104: the record is FINAL and DONE is raised if NOTIFY is set. -/
theorem finalize_eq (id : RecId) (n : Bool) (s : State) :
    finalize id n s =
      { s with
        eng := { s.eng with takeList := s.eng.takeList.map (TakeRecord.toFinal id) }
        win := if n then s.win.raise .done else s.win } := by
  cases n <;> rfl

theorem finalize_reader (id : RecId) (n : Bool) (s : State) : (finalize id n s).eng.reader = s.eng.reader := by
  rw [finalize_eq]

/-- R102: the RESULT write ends the take of an instant request, which makes its link step before records retire. -/
theorem resultWriteDone_ends {s u : State} {id : RecId} {a : Word} {c : ResultCode} {n : Bool}
    (h : s.operating (.resultWrite id a c n)) (hu : storeAndEvaluate (a.toNat + 8) [c.word] s.opDone = u) :
    (∀ b link, u.eng.reader = .taking id b link .result →
        resultWriteDone s = retire (linkStep id b link (finalize id n u))) ∧
      ((∀ b link, u.eng.reader ≠ .taking id b link .result) → resultWriteDone s = retire (finalize id n u)) := by
  obtain ⟨ends, goesOn⟩ := endTakeAt_eq (finalize id n u) id .result
  rw [finalize_reader] at ends goesOn
  rw [resultWriteDone_eq h, hu]
  exact ⟨fun b link hr => congrArg retire (ends b link hr), fun hr => congrArg retire (goesOn hr)⟩

/-- Settles O41: the writes that do no more than store, and the RESULT, by whether the take ends with it. -/
theorem recordWritesComplete : Obligations.RecordWritesComplete := by
  intro s
  refine ⟨fun id a h => next_congr (otherWriteDone_takn h), fun id a rw h => next_congr (otherWriteDone_reply h),
    fun a h => next_congr (otherWriteDone_retired h), fun id a c notify h => ?_⟩
  intro u final v
  have same : TakeRecord.toFinal id = final := by
    funext ⟨i, b, w, tag, n, st⟩
    cases st <;> rfl
  have finalized : finalize id notify u = v := by rw [finalize_eq, same]
  obtain ⟨ends, goesOn⟩ := resultWriteDone_ends (u := u) h rfl
  rw [finalized] at ends goesOn
  exact ⟨fun b link hr => next_congr (ends b link hr), fun hr => next_congr (goesOn hr)⟩

end Sys2Proof.Proofs
end

