-- ==== Sys2Proof/Proofs/StandbySteps.lean ====
section
/-! PROOF. The standby hand-off, and the steps into standby and out of it (R122, R173, R174, R176, R177). -/

namespace Sys2Proof.Proofs

open Sys2Proof.Machine Sys2Proof.Laws

/-! ### The hand-off (R122, R174) -/

section
variable {s : State}

/-- R122: whether the reader has ended its take and examines nothing, state by state. -/
theorem settled_of_reader
    (h : s.eng.reader = .stopped ∨ s.eng.reader = .faulted ∨ (∃ i, s.eng.reader = .atTail i)
      ∨ ∃ q a, s.eng.reader = .stalled q a) : s.eng.reader.settled = true := by
  obtain h | h | ⟨i, h⟩ | ⟨q, a, h⟩ := h <;> rw [h] <;> rfl

theorem handoff_ready (h : s.handoffReady = true) :
    handoff s =
      releaseHeldRead
        { s with
          ctl := { s.ctl with state := .entering .draining, timer := none, wakeRecorded := (s.portClaim 0).isSome }
          eng := { s.eng with handoff := none } } := if_pos h

theorem releaseHeldRead_none (h : s.eng.heldRead = false) : releaseHeldRead s = s := by
  unfold releaseHeldRead
  split
  · next held _ => exact absurd held (by simp [h])
  · rfl

/-- R122, R176: the held read joins the operation list, a wake cause. -/
theorem releaseHeldRead_held {a : Word} (h : s.eng.heldRead = true) (hr : s.eng.reader = .stalled .waking a) :
    releaseHeldRead s =
      { s with
        ctl := s.ctl.wake
        eng := { s.eng with heldRead := false, ops := s.eng.ops ++ [.recordRead a true] } } := by
  rw [releaseHeldRead, h, hr]
  rfl

end

/-! ### The steps of the sequence (R174, R177) -/

section
variable {s : State}

theorem finalRefreshDone_entering (h : s.ctl.state = .entering .finalRefresh) :
    finalRefreshDone s = { s with ctl := { s.ctl with state := .entering .selfRefreshEntry } } := if_pos h

theorem selfRefreshEntered_entering (h : s.ctl.state = .entering .selfRefreshEntry) :
    selfRefreshEntered s =
      if s.ctl.wakeRecorded = true then
        { s with ctl := { s.ctl with state := .leaving .selfRefreshExit, wakeRecorded := false } }
      else { s with ctl := { s.ctl with state := .standby } } := if_pos h

theorem selfRefreshLeft_leaving (h : s.ctl.state = .leaving .selfRefreshExit) :
    selfRefreshLeft s = { s with ctl := { s.ctl with state := .leaving .exitRefresh } } := if_pos h

theorem exitRefreshDone_leaving (h : s.ctl.state = .leaving .exitRefresh) :
    exitRefreshDone s =
      raise .wake { s with ctl := { s.ctl with state := .run, timer := some s.ctl.code, refreshDue := false } } :=
  if_pos h

end

/-- Settles O50: the hand-off with and without a held read, then the steps in their order. -/
theorem standbySteps : Obligations.StandbySteps := by
  intro s
  refine ⟨fun hrun hpending hops hreader => ?_, fun h => congrArg Host.Outcome.next (finalRefreshDone_entering h),
    fun h => ⟨fun hw => congrArg Host.Outcome.next ?_, fun hw => congrArg Host.Outcome.next ?_⟩,
    fun h => congrArg Host.Outcome.next (selfRefreshLeft_leaving h), fun h => next_congr (exitRefreshDone_leaving h)⟩
  · have ready : s.handoffReady = true := by
      simp [State.handoffReady, hrun, hops, settled_of_reader hreader, Option.isSome_iff_ne_none, hpending]
    intro entered
    refine ⟨fun hheld => next_congr ?_, fun a hheld hr => next_congr ?_⟩
    · rw [handoff_ready ready]
      exact releaseHeldRead_none (s := entered _) hheld
    · rw [handoff_ready ready]
      refine (releaseHeldRead_held (s := entered _) hheld hr).trans ?_
      simp only [entered, hops]
      rfl
  · rw [selfRefreshEntered_entering h, if_neg (ne_true_of_eq_false hw)]
  · rw [selfRefreshEntered_entering h, if_pos hw]

end Sys2Proof.Proofs
end

