-- ==== Sys2Proof/Proofs/ArbiterChoice.lean ====
section
/-! PROOF. The arbiter: the claims that wait, the choice and the grant (R100, R107, R129, R148, R150 to R153, R157,
R174). -/

namespace Sys2Proof.Proofs

open Sys2Proof.Machine Sys2Proof.Laws

/-! ### The claims that wait (R100, R129, R150) -/

theorem waitingClass_passed {l : List Access} (h : ∀ x ∈ l, ∀ c e, x.stage ≠ .waiting c e) (m : List Access) :
    waitingClass? (l ++ m) = waitingClass? m := by
  induction l with
  | nil => rfl
  | cons x l ih =>
    obtain ⟨hx, hl⟩ := List.forall_mem_cons.mp h
    rw [List.cons_append, waitingClass?]
    split
    · next c e hs => exact absurd hs (hx c e)
    all_goals exact ih hl

theorem waitingClass_none {l : List Access} (h : ∀ x ∈ l, ∀ c e, x.stage ≠ .waiting c e) : waitingClass? l = none := by
  simpa [waitingClass?] using waitingClass_passed h []

theorem waitingClass_oldest {before : List Access} {x : Access} {c : BwClass} {e : Option (Fin 16)}
    (hb : ∀ y ∈ before, ∀ c e, y.stage ≠ .waiting c e) (hx : x.stage = .waiting c e) (after : List Access) :
    waitingClass? (before ++ x :: after) = some c := by
  rw [waitingClass_passed hb, waitingClass?, hx]

/-- R129: the grant goes to the oldest WAITING access. -/
theorem grantOldest_eq {before : List Access} {x : Access} {c : BwClass} {e : Option (Fin 16)}
    (hb : ∀ y ∈ before, ∀ c e, y.stage ≠ .waiting c e) (hx : x.stage = .waiting c e) (after : List Access) :
    grantOldest (before ++ x :: after) = before ++ { x with stage := .inProgress c e } :: after := by
  induction before with
  | nil => rw [List.nil_append, grantOldest, hx, List.nil_append]
  | cons y l ih =>
    obtain ⟨hy, hl⟩ := List.forall_mem_cons.mp hb
    rw [List.cons_append, grantOldest]
    split
    · next c e hs => exact absurd hs (hy c e)
    all_goals rw [ih hl, List.cons_append]

theorem chainClaim_iff (s : State) :
    s.chainClaim = true ↔
      (s.arb.holder = some .chain ∧ ∃ op next rest, s.eng.ops = op :: next :: rest)
        ∨ (s.arb.holder ≠ some .chain ∧ s.eng.ops ≠ []) := by
  unfold State.chainClaim
  split
  · next h =>
    rcases s.eng.ops with _ | ⟨op, _ | ⟨next, rest⟩⟩ <;> simp [h]
  · next h =>
    have other : s.arb.holder ≠ some .chain := h
    simp [other]

theorem transferClaim_iff (s : State) :
    s.transferClaim = true ↔ ∃ t rest b, s.queue = t :: rest ∧ t.burst = some b ∧ b.granted = false := by
  unfold State.transferClaim
  split
  · next h => simp [h]
  · next t rest h => simp [h, Option.any_eq_true]

/-! ### The choice (R151, R152) -/

section
variable {s : State}

theorem choice_refresh (h : s.ctl.refreshDue = true) : s.choice = some .refresh := if_pos h

variable (hd : s.ctl.refreshDue = false)
include hd

theorem choice_switch (h : s.speed.switchWaiting = true) : s.choice = some .switch := by
  rw [State.choice, if_neg (ne_true_of_eq_false hd), if_pos h]

variable (hw : s.speed.switchWaiting = false)
include hw

theorem choice_passed {c : Claimant} (h : s.passedOver = some c) : s.choice = some (.default c) := by
  rw [State.choice, if_neg (ne_true_of_eq_false hd), if_neg (ne_true_of_eq_false hw), h]

variable (hp : s.passedOver = none)
include hp

theorem choice_priority {p : Fin 4} (h : s.firstPriority = some p) : s.choice = some (.priority p) := by
  rw [State.choice, if_neg (ne_true_of_eq_false hd), if_neg (ne_true_of_eq_false hw), hp]
  dsimp only
  rw [h]

theorem choice_default (h : s.firstPriority = none) : s.choice = s.firstDefault.map .default := by
  rw [State.choice, if_neg (ne_true_of_eq_false hd), if_neg (ne_true_of_eq_false hw), hp]
  dsimp only
  rw [h]

end

theorem defaultWaits_iff (s : State) (c : Claimant) : s.defaultWaits c = true ↔ s.waitingClaim c = some .default :=
  beq_iff_eq

/-- R152: the first claimant with a property, in default order after the pointer. -/
theorem find_claimant {P : Claimant → Prop} {f : Claimant → Bool} (hf : ∀ c, f c = true ↔ P c) {d c : Claimant}
    (h : P c ∧ ∀ e, P e → c.after d ≤ e.after d) : (claimantsAfter d).find? f = some c :=
  find_least f (fun e => e.after d) _ (claimantsAfter_sorted d) c (mem_claimantsAfter c d) ((hf c).mpr h.1)
    fun e he => h.2 e ((hf e).mp he)

theorem find_claimant_none {P : Claimant → Prop} {f : Claimant → Bool} (hf : ∀ c, f c = true ↔ P c) (h : ∀ c, ¬P c)
    (l : List Claimant) : l.find? f = none :=
  List.find?_eq_none.mpr fun c _ hc => h c ((hf c).mp hc)

/-- Settles O45: the choice, each case where those before it are empty; then the claims. -/
theorem arbiterChoiceOrder : Obligations.ArbiterChoiceOrder := by
  intro s waits passed prio first
  have passed_iff (c : Claimant) : (s.defaultWaits c && s.passOf c == 8) = true ↔ passed c := by
    rw [Bool.and_eq_true, defaultWaits_iff, beq_iff_eq]
  refine ⟨choice_refresh, fun hd => ⟨choice_switch hd, fun hw => ⟨fun c hc => ?_, fun hp => ?_⟩⟩, fun p => ⟨rfl,
    fun h => waitingClass_none h, fun before after x c e hl hb hx => ?_⟩, rfl, chainClaim_iff s, rfl,
    transferClaim_iff s⟩
  · exact choice_passed hd hw (find_claimant passed_iff hc)
  · have none : s.passedOver = none := find_claimant_none passed_iff hp _
    refine ⟨fun p hprio hfirst => choice_priority hd hw none ?_, fun hprio => ?_⟩
    · exact find_least _ (fun q => portAfter q s.arb.prioPtr) _ (portsAfter_sorted _) p (mem_portsAfter _ _)
        (beq_iff_eq.mpr hprio) fun q hq => hfirst q (beq_iff_eq.mp hq)
    · have unasked : s.firstPriority = Option.none :=
        List.find?_eq_none.mpr fun p _ hp => hprio p (beq_iff_eq.mp hp)
      rw [choice_default hd hw none unasked]
      refine ⟨fun c hc => ?_, fun hn => ?_⟩
      · rw [State.firstDefault, find_claimant (defaultWaits_iff s) hc]
        rfl
      · rw [State.firstDefault, find_claimant_none (defaultWaits_iff s) hn]
        rfl
  · rw [State.portClaim, hl]
    exact waitingClass_oldest hb hx after

/-! ### The grant (R129, R148, R153) -/

section
variable {s : State}

theorem arbitrate_held (h : s.arb.holder ≠ none) : arbitrate s = s := by
  unfold arbitrate
  split
  · next hn => exact absurd hn h
  · next hn => exact absurd hn h
  · rfl

/-- R157: no claim is granted outside RUN, and the final refresh starts in ENTERING_STANDBY alone. -/
theorem arbitrate_elsewhere (hr : s.ctl.state ≠ .run) (he : s.ctl.state ≠ .entering .draining) : arbitrate s = s := by
  unfold arbitrate
  split
  · next h _ => exact absurd h hr
  · next h _ => exact absurd h he
  · rfl

variable (hi : s.arb.holder = none)
include hi

theorem arbitrate_draining (h : s.ctl.state = .entering .draining) : arbitrate s = startFinalRefresh s := by
  rw [arbitrate, h, hi]

variable (hr : s.ctl.state = .run)
include hr

theorem arbitrate_none (h : s.choice = none) : arbitrate s = s := by
  rw [arbitrate, hr, hi]
  dsimp only
  rw [h]

theorem arbitrate_grants {c : Choice} (h : s.choice = some c) : arbitrate s = grant c s := by
  rw [arbitrate, hr, hi]
  dsimp only
  rw [h]

end

/-- R153: the counts after a priority grant: the port's own claim starts with 0, every waiting default claim has been
passed over once more. -/
theorem grant_priority (p : Fin 4) (s : State) :
    ∃ counts : Vector Nat 6,
      grant (.priority p) s =
        { s with
          arb := { s.arb with holder := some (.port p), prioPtr := p, pass := counts }
          ports := s.ports.set p { s.port p with outstanding := grantOldest (s.port p).outstanding } } ∧
      ∀ c : Claimant,
        (c = .port p → counts[c.index] = 0) ∧
        (c ≠ .port p → s.waitingClaim c = some .default → counts[c.index] = min 8 (s.passOf c + 1)) ∧
        (c ≠ .port p → s.waitingClaim c ≠ some .default → counts[c.index] = s.passOf c) := by
  obtain ⟨v, bumped, counts⟩ := bumpPasses_eq p s
  refine ⟨v.set (Claimant.port p).index 0, ?_, fun c => ⟨?_, fun hc hw => ?_, fun hc hw => ?_⟩⟩
  · rw [grant, bumped]
    rfl
  · rintro rfl
    simp
  all_goals
    have other : (Claimant.port p).index.val ≠ c.index.val := fun e => hc (index_inj c _ e)
    refine (Vector.getElem_set_ne _ _ other).trans ((counts c).trans ?_)
  · exact if_pos ⟨hc, (defaultWaits_iff s c).mpr hw⟩
  · exact if_neg fun h => hw ((defaultWaits_iff s c).mp h.2)

/-- R107: the grant of its record read ends a stall with reason WAKING. -/
theorem wakeReader_wakes {e : Engine} {a b : Word} {rest : List EngineOp} (hr : e.reader = .stalled .waking a)
    (ho : e.ops = .recordRead b true :: rest) : wakeReader e = { e with reader := .examining a } := by
  rw [wakeReader, ho, hr]

theorem wakeReader_other {e : Engine}
    (h : (∀ a, e.reader ≠ .stalled .waking a) ∨ ∀ b rest, e.ops ≠ .recordRead b true :: rest) : wakeReader e = e := by
  unfold wakeReader
  split
  · next b rest a ho hr => exact (h.elim (fun h => h a hr) fun h => h b rest ho).elim
  · rfl

theorem wakeReader_reader (e : Engine) : wakeReader e = { e with reader := (wakeReader e).reader } := by
  unfold wakeReader
  split <;> rfl

/-- R100: the grant of the operation list's head changes no more of the engine than its reader. -/
theorem grant_chain (s : State) :
    grant (.default .chain) s =
      { s with
        arb := { s.arb with holder := some .chain, defPtr := .chain, pass := s.arb.pass.set 4 0 }
        eng := { s.eng with reader := (wakeReader s.eng).reader } } := by
  rw [← wakeReader_reader]
  rfl

theorem grant_transfer {s : State} {t : Transfer} {rest : List Transfer} (h : s.queue = t :: rest) :
    grant (.default .transfer) s =
      { s with
        arb := { s.arb with holder := some .transfer, defPtr := .transfer, pass := s.arb.pass.set 5 0 }
        queue := { t with burst := t.burst.map (fun b => { b with granted := true }) } :: rest } := by
  rw [grant, grantTransfer, h]
  rfl

/-- Settles O46: when no claim is granted, then the grant of each choice. -/
theorem arbiterGrants : Obligations.ArbiterGrants := by
  intro s
  refine ⟨arbitrate_elsewhere, arbitrate_held, arbitrate_draining, fun hi hr => ⟨arbitrate_none hi hr,
    arbitrate_grants hi hr, arbitrate_grants hi hr, fun p h => ?_, fun p => arbitrate_grants hi hr, fun h => ?_,
    fun h t rest hq => ?_⟩, fun before after x c e hx hb => grantOldest_eq hb hx after⟩
  · rw [arbitrate_grants hi hr h]
    exact grant_priority p s
  · refine ⟨(wakeReader s.eng).reader, (arbitrate_grants hi hr h).trans (grant_chain s), fun a b rest hrd ho => ?_,
      fun other => ?_⟩
    · rw [wakeReader_wakes hrd ho]
    · rw [wakeReader_other other]
  · exact (arbitrate_grants hi hr h).trans (grant_transfer hq)

end Sys2Proof.Proofs
end

