-- ==== Sys2Proof/Proofs/AbortRequest.lean ====
section
/-! PROOF. ABRT: its refusals, and the cancellation of its target by the block that carries it out (R113, with R19, R68
and R91). -/

namespace Sys2Proof.Proofs

open Sys2Proof.Machine Sys2Proof.Laws

/-! ### The tests of ABRT and its target (R113) -/

section
variable {r : Request} {s : State}

theorem takeAbort_parm (h : 65535 < r.p0.toNat) (id : RecId) : takeAbort id r s = instant id .parm noReplies s :=
  if_pos h

theorem activeWithTag_none {tag : Word} (h : ∀ x ∈ s.eng.active, x.tag.toNat ≠ tag.toNat) :
    s.activeWithTag tag = none :=
  List.find?_eq_none.mpr fun x hx ht => h x hx (beq_iff_eq.mp ht)

/-- The oldest active request with the tag stands first in the active table. -/
theorem activeWithTag_oldest {tag : Word} {older newer : List ActiveRequest} {x : ActiveRequest}
    (ha : s.eng.active = older ++ x :: newer) (hx : x.tag.toNat = tag.toNat)
    (ho : ∀ y ∈ older, y.tag.toNat ≠ tag.toNat) : s.activeWithTag tag = some x := by
  rw [State.activeWithTag, ha]
  exact List.find?_eq_some_iff_append.mpr ⟨beq_iff_eq.mpr hx, older, newer, rfl, fun y hy => by simpa using ho y hy⟩

variable (h : r.p0.toNat ≤ 65535)
include h

theorem takeAbort_none (hn : s.activeWithTag r.p0 = none) (id : RecId) :
    takeAbort id r s = instant id .none noReplies s := by
  rw [takeAbort, if_neg (Nat.not_lt.mpr h), hn]

theorem takeAbort_found {x : ActiveRequest} (hx : s.activeWithTag r.p0 = some x) (id : RecId) :
    takeAbort id r s =
      if x.block.cannotCancel = true then instant id .refu (s.abortReplies x) s
      else instant id .okay (s.abortReplies x) (cancelRequest x s) := by
  rw [takeAbort, if_neg (Nat.not_lt.mpr h), hx]

end

/-- R113: 'OKAY' and 'REFU' carry the target's record address and code. -/
theorem abortReplies_taken {s : State} {x : ActiveRequest} {rec : TakeRecord}
    (h : s.staying.find? (fun y => y.id == x.id) = some rec) (a : Word) (c : Code) (r : Request) :
    (takenAs s a c r).abortReplies x = { rw0 := rec.addr, rw1 := x.code, rw2 := 0#32, rw3 := 0#32 } := by
  have found : (takenAs s a c r).eng.record? x.id = some rec := by
    rw [Engine.record?, takenAs, State.afterTake, List.find?_append, h]
    rfl
  rw [State.abortReplies, found]

/-! ### A WAIT and a waiting request (R19, R68) -/

section
variable {s : State} {x : ActiveRequest}

/-- R68: the slot that the WAIT owns, the lowest one. -/
theorem cancelRequest_wait (hb : x.block = .watchUnit) {k : Fin 8} {w : WatchSlot} (hk : k ≠ 0) (hs : s.slot k = some w)
    (hw : w.owner = x.id) (hl : ∀ (j : Fin 8) (y : WatchSlot), j ≠ 0 → j < k → s.slot j = some y → y.owner ≠ x.id) :
    cancelRequest x s =
      complete x.id .canc (replies w.armed.code 0 k.val 0) { s with slots := s.slots.set k none } := by
  have found : waitSlots.find? (fun k => (s.slot k).any (fun w => w.owner == x.id)) = some k := by
    refine find_first _ waitSlots k ((mem_waitSlots k).mpr hk) sorted_waitSlots (by simp [hs, hw]) fun j hj hlt => ?_
    cases hy : s.slot j with
    | none => rfl
    | some y => exact beq_eq_false_iff_ne.mpr (hl j y ((mem_waitSlots j).mp hj) hlt hy)
  simp only [cancelRequest, hb, cancelWait, found, hs, dropSlot, hw]
  rfl

theorem waitsFor_iff (e : Entry) (id : RecId) :
    e.waitsFor id = true ↔ ∃ g k c w, e.status = .retiring g k c (some w) ∧ w.request = id := by
  unfold Entry.waitsFor
  rcases e.status with c | ⟨g, w⟩ | ⟨g, l⟩ | ⟨g, k, c, _ | w⟩ <;> simp

/-- R19: the entry that the request waits for, the lowest one, goes on RETIRING. -/
theorem cancelRequest_waiter (hb : x.block = .regionTable) {i : Fin 16} {g : Range} {k : Kind} {c : EndCause}
    {w : Waiter} (hs : (s.entry i).status = .retiring g k c (some w)) (hw : w.request = x.id)
    (hl : ∀ (j : Fin 16) (g : Range) (k : Kind) (c : EndCause) (y : Waiter),
      j < i → (s.entry j).status = .retiring g k c (some y) → y.request ≠ x.id) :
    cancelRequest x s =
      complete x.id .canc (replies w.count 0 0 0) (s.putEntry i { s.entry i with status := .retiring g k c none }) := by
  have found : entryIndices.find? (fun i => (s.entry i).waitsFor x.id) = some i := by
    refine find_first _ entryIndices i (mem_entryIndices i) sorted_entryIndices
      ((waitsFor_iff _ _).mpr ⟨g, k, c, w, hs, hw⟩) fun j _ hlt => ?_
    rw [Bool.eq_false_iff, Ne, waitsFor_iff]
    rintro ⟨g, k, c, y, hy, hid⟩
    exact hl j g k c y hlt hy hid
  simp only [cancelRequest, hb, found, cancelWaiter, hs, hw]
  rfl

end

/-! ### A transfer (R91) -/

section
variable {hit : Transfer → Bool}

/-- Transfers that are not hit stay as they are. -/
theorem cancel_spares {l : List Transfer} (h : ∀ z ∈ l, hit z = false) :
    l.filter (fun t => hit t && t.isWaiting) = [] ∧ l.filter (fun t => !(hit t && t.isWaiting)) = l ∧
      l.map (fun t => if hit t then t.stop else t) = l := by
  refine ⟨List.filter_eq_nil_iff.mpr fun z hz => by simp [h z hz],
    List.filter_eq_self.mpr fun z hz => by simp [h z hz], ?_⟩
  exact (List.map_congr_left fun z hz => if_neg (ne_true_of_eq_false (h z hz))).trans (List.map_id l)

variable {s : State} {before behind : List Transfer} {y : Transfer} (hq : s.queue = before ++ y :: behind)
variable (hy : hit y = true) (ho : ∀ z ∈ before ++ behind, hit z = false)
include hq hy ho

theorem cancelTransfers_waiting (hw : y.isWaiting = true) :
    cancelTransfers hit s = finishTransfer y.owner .canc y.cancReplies { s with queue := before ++ behind } := by
  obtain ⟨gone₁, stay₁, -⟩ := cancel_spares fun z hz => ho z (List.mem_append_left _ hz)
  obtain ⟨gone₂, stay₂, -⟩ := cancel_spares fun z hz => ho z (List.mem_append_right _ hz)
  have gone : s.queue.filter (fun t => hit t && t.isWaiting) = [y] := by
    rw [hq, List.filter_append, List.filter_cons_of_pos (by simp [hy, hw]), gone₁, gone₂, List.nil_append]
  have stay : s.queue.filter (fun t => !(hit t && t.isWaiting)) = before ++ behind := by
    rw [hq, List.filter_append, List.filter_cons_of_neg (by simp [hy, hw]), stay₁, stay₂]
  rw [cancelTransfers, gone, stay, (cancel_spares ho).2.2]
  rfl

theorem cancelTransfers_running (hw : y.isWaiting = false) :
    cancelTransfers hit s = { s with queue := before ++ { y with state := .stopping } :: behind } := by
  obtain ⟨gone₁, stay₁, same₁⟩ := cancel_spares fun z hz => ho z (List.mem_append_left _ hz)
  obtain ⟨gone₂, stay₂, same₂⟩ := cancel_spares fun z hz => ho z (List.mem_append_right _ hz)
  have gone : s.queue.filter (fun t => hit t && t.isWaiting) = [] := by
    rw [hq, List.filter_append, List.filter_cons_of_neg (by simp [hw]), gone₁, gone₂, List.nil_append]
  have stay : s.queue.filter (fun t => !(hit t && t.isWaiting)) = before ++ y :: behind := by
    rw [hq, List.filter_append, List.filter_cons_of_pos (by simp [hw]), stay₁, stay₂]
  rw [cancelTransfers, gone, stay, List.map_append, List.map_cons, same₁, same₂, if_pos hy]
  rfl

end

theorem finishTransfer_reader (id : RecId) (c : ResultCode) (rw : Replies) (s : State) :
    (finishTransfer id c rw s).eng.reader = s.eng.reader := complete_reader id c rw s

section
variable {s : State} {x : ActiveRequest} {before behind : List Transfer} {y : Transfer}
variable (hb : x.block = .transferUnit) (hq : s.queue = before ++ y :: behind) (hy : y.owner = x.id)
variable (ho : ∀ z ∈ before ++ behind, z.owner ≠ x.id)
include hb hq hy ho

theorem cancelRequest_waitingTransfer (hw : y.state = .waiting) :
    cancelRequest x s = finishTransfer x.id .canc y.cancReplies { s with queue := before ++ behind } := by
  simp only [cancelRequest, hb]
  rw [cancelTransfers_waiting (hit := fun t => t.owner == x.id) hq (beq_iff_eq.mpr hy)
    (fun z hz => beq_eq_false_iff_ne.mpr (ho z hz)) (beq_iff_eq.mpr hw), hy]

theorem cancelRequest_headTransfer (hw : y.state ≠ .waiting) :
    cancelRequest x s = { s with queue := before ++ { y with state := .stopping } :: behind } := by
  simp only [cancelRequest, hb]
  exact cancelTransfers_running hq (beq_iff_eq.mpr hy) (fun z hz => beq_eq_false_iff_ne.mpr (ho z hz))
    (beq_eq_false_iff_ne.mpr hw)

end

/-- Settles O15: the two refusals, and the oldest active request with the tag, by its block. -/
theorem abortCancelsOldest : Obligations.AbortCancelsOldest := by
  intro s₀ s a r hs hb answer
  let taken := takenAs s a .abort r
  have run : exec (.abort r) s₀ = .next (arbitrate (takeAbort s.eng.nextId r taken)) := request_handed .abort hs hb rfl
  have small_of {x : ActiveRequest} (h : x.tag.toNat = r.p0.toNat) : r.p0.toNat ≤ 65535 :=
    h ▸ Nat.le_of_lt_succ x.tag.isLt
  rw [run]
  refine ⟨fun h => next_congr ?_, fun h hn => next_congr ?_, ?_⟩
  · exact (takeAbort_parm h _).trans (instant_answered .abort hs _ _)
  · exact (takeAbort_none h (activeWithTag_none (s := taken) hn) _).trans (instant_answered .abort hs _ _)
  intro older newer x rec ha hx ho hrec reply t finish
  have found : takeAbort s.eng.nextId r taken = if x.block.cannotCancel = true then answer .refu reply else
      instant s.eng.nextId .okay reply (cancelRequest x taken) := by
    rw [takeAbort_found (small_of hx) (activeWithTag_oldest (s := taken) ha hx ho), abortReplies_taken hrec]
    exact congrArg (fun u => if x.block.cannotCancel = true then u else _) (instant_answered .abort hs _ _)
  have cancelled {u : State} (hc : x.block.cannotCancel = false) (hu : cancelRequest x taken = u)
      (hr : u.eng.reader = .taking s.eng.nextId a r.link .header) : takeAbort s.eng.nextId r taken = finish u := by
    rw [found, if_neg (ne_true_of_eq_false hc), hu]
    exact instant_taking _ _ _ u _ _ _ hr
  refine ⟨fun hblock => next_congr ?_, fun hblock k w hk hsl hw hl => next_congr ?_,
    fun hblock i g k c w hsl hw hl => next_congr ?_,
    fun hblock before behind y hq hy ho => ⟨fun hw => next_congr ?_, fun hw => next_congr ?_⟩⟩
  · rw [found, if_pos (by obtain h | h := hblock <;> rw [h] <;> rfl)]
  · exact cancelled (by rw [hblock]; rfl) (cancelRequest_wait (s := taken) hblock hk hsl hw hl)
      (complete_reader _ _ _ _)
  · exact cancelled (by rw [hblock]; rfl) (cancelRequest_waiter (s := taken) hblock hsl hw hl)
      (complete_reader _ _ _ _)
  · exact cancelled (by rw [hblock]; rfl) (cancelRequest_waitingTransfer (s := taken) hblock hq hy ho hw)
      (finishTransfer_reader _ _ _ _)
  · exact cancelled (by rw [hblock]; rfl) (cancelRequest_headTransfer (s := taken) hblock hq hy ho hw) rfl

end Sys2Proof.Proofs
end

