-- ==== Sys2Proof/Proofs/PortRequests.lean ====
section
/-! PROOF. The drain of a port's reset (R137, R138), and what PORT and PRST answer (R133 to R135, R137). -/

namespace Sys2Proof.Proofs

open Sys2Proof.Machine Sys2Proof.Laws

/-! ### The drain of a reset (R137, R138) -/

section
variable {s : State} {p : Fin 4} {q : Resetting} (hr : (s.port p).state = .resetting q)
include hr

/-- R138: the reset ends with its drain set. -/
theorem drainPort_empty (ha : q.drainAccesses = 0) (ht : q.drainTransfers = []) :
    drainPort p s =
      raise .port
        (complete q.request .okay (replies q.former.code q.withdrawn q.released q.cancelled)
          (setPortState p q.former.back s)) := by
  simp only [drainPort, hr]
  exact if_pos ⟨ha, ht⟩

theorem drainPort_holding (h : q.drainAccesses ≠ 0 ∨ q.drainTransfers ≠ []) : drainPort p s = s := by
  simp only [drainPort, hr]
  exact if_neg (not_and_or.mpr h)

theorem formDrainAccesses_resetting :
    formDrainAccesses p s =
      setPortState p (.resetting { q with drainAccesses := (s.port p).outstanding.length }) s := by
  simp only [formDrainAccesses, hr]

theorem formDrainTransfers_resetting :
    formDrainTransfers p s =
      setPortState p
        (.resetting
          { q with
            drainTransfers :=
              (s.queue.filter (fun t => t.port == p && t.state == .stopping)).map Transfer.owner }) s := by
  simp only [formDrainTransfers, hr]

end

/-- Settles O52: the drain set, empty or not, and how its two parts are formed. -/
theorem drainEnds : Obligations.DrainEnds := by
  intro s p q hr
  refine ⟨fun ha ht => next_congr ?_, fun h => next_congr (drainPort_holding hr h), formDrainAccesses_resetting hr,
    formDrainTransfers_resetting hr, rfl⟩
  rw [drainPort_empty hr ha ht]
  cases q.former <;> rfl

/-! ### The three counts (R133, R138) -/

theorem waitingCount_eq (q : Port) :
    q.waitingCount =
      (q.outstanding.filter (fun x => match x.stage with | .waiting _ _ => true | _ => false)).length := by
  have waits : Access.isWaiting = fun x => match x.stage with | .waiting _ _ => true | _ => false := by
    funext x
    unfold Access.isWaiting
    cases x.stage <;> rfl
  exact congrArg (fun f => (q.outstanding.filter f).length) waits

theorem leasesOf_eq (s : State) (p : Fin 4) :
    s.leasesOf p =
      ((List.finRange 16).filter
        (fun i => match (s.entry i).status with | .leased _ l => l.holders.getLsbD p.val | _ => false)).length := by
  have held : (fun i : Fin 16 => (s.entry i).heldBy p) =
      fun i => match (s.entry i).status with | .leased _ l => l.holders.getLsbD p.val | _ => false := by
    funext i
    unfold Entry.heldBy
    cases (s.entry i).status <;> rfl
  exact congrArg (fun f => (entryIndices.filter f).length) held

/-! ### PORT (R133 to R135) -/

section
variable {r : Request} {s : State}

theorem takePort_parm (h : r.p0.toNat = 0 ∨ 3 < r.p0.toNat ∨ 2 < r.p1.toNat) (id : RecId) :
    takePort id r s = instant id .parm noReplies s := by
  unfold takePort
  split
  · next p target hp ht =>
    obtain h | h | h := h
    · rw [portIndex_some _ 0 h] at hp
      cases hp
      exact if_pos rfl
    · rw [portIndex_none _ h] at hp
      cases hp
    · rw [targetState_none _ h] at ht
      cases ht
  all_goals rfl

variable {p : Fin 4} (hp : p ≠ 0) (hi : r.p0.toNat = p.val)
variable {target : PortState} (ht : targetState? r.p1 = some target)
include hp hi ht

theorem takePort_resetting {q : Resetting} (hs : (s.port p).state = .resetting q) (id : RecId) :
    takePort id r s = instant id .busy (replies 3 0 0 0) s := by
  simp only [takePort, portIndex_some _ p hi, ht, if_neg hp, hs]

variable {old : PortState} {n : Nat} (hs : (s.port p).state = old)
variable (hn : (old = .active ∧ n = 0) ∨ (old = .quiesced ∧ n = 1) ∨ (old = .disabled ∧ n = 2))
include hs hn

/-- A target other than DISABLED, or the DISABLED of a port that is DISABLED. -/
theorem takePort_set (hd : target = .disabled → old = .disabled) (id : RecId) :
    takePort id r s = instant id .okay (replies n 0 0 0) (setPortState p target s) := by
  simp only [takePort, portIndex_some _ p hi, ht, if_neg hp, hs]
  obtain ⟨rfl, rfl⟩ | ⟨rfl, rfl⟩ | ⟨rfl, rfl⟩ := hn
  · exact if_neg fun h => nomatch hd h
  · exact if_neg fun h => nomatch hd h
  · rfl

theorem takePort_disable (hd : target = .disabled) (ho : old ≠ .disabled) (id : RecId) :
    takePort id r s =
      instant id .okay (replies n (s.port p).waitingCount (s.leasesOf p) (s.cancelCount p)) (disablePort p s) := by
  simp only [takePort, portIndex_some _ p hi, ht, if_neg hp, hs]
  obtain ⟨rfl, rfl⟩ | ⟨rfl, rfl⟩ | ⟨rfl, rfl⟩ := hn
  · exact if_pos hd
  · exact if_pos hd
  · exact absurd rfl ho

end

theorem targetState_of_le (w : Word) (h : w.toNat ≤ 2) : ∃ target, targetState? w = some target := by
  obtain ⟨active, quiesced, disabled⟩ := targetState_some w
  obtain h | h | h : w.toNat = 0 ∨ w.toNat = 1 ∨ w.toNat = 2 := by omega
  · exact ⟨_, active h⟩
  · exact ⟨_, quiesced h⟩
  · exact ⟨_, disabled h⟩

/-- Settles O17: the refusals, then each target by the state of the port, then the counts. -/
theorem portSetsState : Obligations.PortSetsState := by
  intro s₀ s a r hs hb answer
  let taken := takenAs s a .port r
  have ⟨running, numbered, _, _⟩ := recordReturns_keeps s₀ s a hs
  have ⟨active, quiesced, disabled⟩ := targetState_some r.p1
  have run : exec (.port r) s₀ = .next (arbitrate (takePort s.eng.nextId r taken)) := request_handed .port hs hb rfl
  rw [run]
  refine ⟨fun bad => next_congr ?_, fun p hp hi small => ⟨fun ⟨q, hq⟩ => next_congr ?_, fun old n ho hn =>
    ⟨fun new hnew => next_congr ?_, fun h2 hold => next_congr ?_⟩, waitingCount_eq _, leasesOf_eq s p, rfl⟩⟩
  · exact (takePort_parm bad _).trans (instant_answered .port hs _ _)
  · obtain ⟨target, ht⟩ := targetState_of_le _ small
    exact (takePort_resetting hp hi ht (s := taken) hq _).trans (instant_answered .port hs _ _)
  · have ⟨ht, hd⟩ : targetState? r.p1 = some new ∧ (new = .disabled → old = .disabled) := by
      obtain ⟨h, rfl⟩ | ⟨h, rfl⟩ | ⟨h, rfl, rfl⟩ := hnew
      · exact ⟨active h, nofun⟩
      · exact ⟨quiesced h, nofun⟩
      · exact ⟨disabled h, id⟩
    rw [takePort_set hp hi ht (s := taken) ho hn hd]
    exact instant_taken s (setPortState p new taken) a _ r .okay _ numbered running rfl
  · rw [takePort_disable hp hi (disabled h2) (s := taken) ho hn rfl hold]
    exact instant_taking _ _ _ (disablePort p taken) a r.link .header (disablePort_reader p taken)

/-! ### PRST (R137) -/

section
variable {r : Request} {s : State}

theorem takePortReset_parm (h : 3 < r.p0.toNat) (id : RecId) : takePortReset id r s = instant id .parm noReplies s := by
  simp only [takePortReset, portIndex_none _ h]

theorem takePortReset_host (h : r.p0.toNat = 0) (id : RecId) :
    takePortReset id r s = instant id .refu (replies 1 0 0 0) s := by
  simp only [takePortReset, portIndex_some _ 0 h, if_true]

variable {p : Fin 4} (hp : p ≠ 0) (hi : r.p0.toNat = p.val)
include hp hi

theorem takePortReset_disabled (hs : (s.port p).state = .disabled) (id : RecId) :
    takePortReset id r s = instant id .refu (replies 2 0 0 0) s := by
  simp only [takePortReset, portIndex_some _ p hi, if_neg hp, hs]

theorem takePortReset_resetting {q : Resetting} (hs : (s.port p).state = .resetting q) (id : RecId) :
    takePortReset id r s = instant id .busy (replies 3 0 0 0) s := by
  simp only [takePortReset, portIndex_some _ p hi, if_neg hp, hs]

theorem takePortReset_starts {f : FormerState} (hs : (s.port p).state = f.back) (id : RecId) :
    takePortReset id r s = resetPort id p f s := by
  simp only [takePortReset, portIndex_some _ p hi, if_neg hp, hs]
  cases f <;> rfl

end

/-- Settles O18: the refusals, then the reset of a port that is ACTIVE or QUIESCED. -/
theorem portResetDrains : Obligations.PortResetDrains := by
  intro s₀ s a r hs hb answer
  let taken := takenAs s a .portReset r
  have numbered := (recordReturns_keeps s₀ s a hs).2.1
  have run : exec (.portReset r) s₀ = .next (arbitrate (takePortReset s.eng.nextId r taken)) :=
    request_handed .portReset hs hb rfl
  rw [run]
  refine ⟨fun bad => next_congr ?_, fun host => next_congr ?_, fun p hp hi => ⟨fun hd => next_congr ?_,
    fun ⟨q, hq⟩ => next_congr ?_, fun f hf => next_congr ?_⟩⟩
  · exact (takePortReset_parm bad _).trans (instant_answered .portReset hs _ _)
  · exact (takePortReset_host host _).trans (instant_answered .portReset hs _ _)
  · exact (takePortReset_disabled hp hi (s := taken) hd _).trans (instant_answered .portReset hs _ _)
  · exact (takePortReset_resetting hp hi (s := taken) hq _).trans (instant_answered .portReset hs _ _)
  · have entered : enterActive s.eng.nextId .agentPorts taken =
        s.enteredLong a (fourCC 'P' 'R' 'S' 'T') r .agentPorts :=
      enterActive_taken s taken a _ r .agentPorts numbered rfl
    rw [takePortReset_starts hp hi (s := taken) hf, resetPort, entered]
    rfl

end Sys2Proof.Proofs
end

