-- ==== Sys2Proof/Proofs/InitAndRefresh.lean ====
section
/-! PROOF. Wake cycles and the entry to RUN, and refresh (R145 to R149). -/

namespace Sys2Proof.Proofs

open Sys2Proof.Machine Sys2Proof.Laws

/-! ### Wake cycles (R145 to R147) -/

/-- R146, R147: the eighth cycle with a release recorded enters RUN, and the refresh timer starts. -/
theorem wakeCycle_enters {c : Controller} (hn : min 8 (c.wakeCount + 1) = 8) (hr : c.released = true) :
    c.wakeCycle =
      { c with state := .run, timer := some c.code, wakeCount := min 8 (c.wakeCount + 1), released := false } :=
  if_pos ⟨hn, hr⟩

/-- R145: any other cycle is counted and nothing else. -/
theorem wakeCycle_counts {c : Controller} (h : min 8 (c.wakeCount + 1) < 8 ∨ c.released = false) :
    c.wakeCycle = { c with wakeCount := min 8 (c.wakeCount + 1) } :=
  if_neg fun ⟨hn, hr⟩ => h.elim (fun hlt => hlt.ne hn) (fun hf => ne_true_of_eq_false hf hr)

section
variable {s : State}

theorem wakeCycleDone_init (h : s.ctl.state = .init true) : wakeCycleDone s = { s with ctl := s.ctl.wakeCycle } :=
  if_pos h

/-! ### Refresh (R148, R149) -/

theorem refreshInterval_running (h : s.ctl.timer ≠ none) :
    refreshInterval s = { s with ctl := { s.ctl with refreshDue := true, timer := some s.ctl.code } } := by
  obtain ⟨code, hcode⟩ := Option.ne_none_iff_exists'.mp h
  simp only [refreshInterval, hcode]

theorem refreshDone_held (h : s.arb.holder = some .refresh) : refreshDone s = s.released := if_pos h

end

/-- Settles O49: a wake cycle with and without the entry to RUN, then the end of an interval and of a refresh. -/
theorem initAndRefresh : Obligations.InitAndRefresh := by
  intro s
  refine ⟨fun hinit => ?_, fun htimer => next_congr (refreshInterval_running htimer),
    fun hheld => next_congr (refreshDone_held hheld)⟩
  intro n
  refine ⟨fun hn hr => next_congr ?_, fun h => next_congr ?_⟩
  · rw [wakeCycleDone_init hinit, wakeCycle_enters hn hr]
  · rw [wakeCycleDone_init hinit, wakeCycle_counts h]

end Sys2Proof.Proofs
end

