-- ==== Sys2Proof/Proofs/InterfaceSpeed.lean ====
section
/-! PROOF. SPED, and the steps of the up and down sequences (R53, R164 to R170). -/

namespace Sys2Proof.Proofs

open Sys2Proof.Machine Sys2Proof.Laws

/-! ### The end of a step's timer, and of a sequence (R165 to R170) -/

theorem timerDue_of_due {o : Option Timer} (h : ∃ t, o = some t ∧ t.due = true) : timerDue o = true := by
  obtain ⟨t, rfl, hd⟩ := h
  exact hd

section
variable {s : State}

/-- R169: the request of the sequence completes, and SPEED is raised. -/
theorem finishSpeed_owned {id : RecId} (h : s.speed.owner = some id) (c : ResultCode) (rw : Replies) :
    finishSpeed c rw s = raise .speed (complete id c rw { s with speed := { s.speed with owner := none } }) := by
  simp only [finishSpeed, h]

/-- R170: a sequence that a soft reset has left without an owner completes nothing and raises nothing. -/
theorem finishSpeed_abandoned (h : s.speed.owner = none) (c : ResultCode) (rw : Replies) : finishSpeed c rw s = s := by
  simp only [finishSpeed, h]

/-! ### The steps of a sequence (R165 to R168) -/

section
variable (due : timerDue s.speed.timer = true)
include due

theorem endRaising_due (h : s.speed.state = .raising) :
    endRaising s =
      { s with speed := { s.speed with state := .locking, pll := .running, timer := some (Timer.start 4) } } :=
  if_pos ⟨h, due⟩

theorem endLocking_present (h : s.speed.state = .locking) :
    endLocking true s =
      { s with speed := { s.speed with state := .switchingUp, timer := none, switchWaiting := true } } :=
  if_pos ⟨h, due⟩

theorem endLocking_absent (h : s.speed.state = .locking) :
    endLocking false s = finishSpeed .fail noReplies { s with speed := s.speed.settleBase } :=
  if_pos ⟨h, due⟩

theorem endLowering_due (h : s.speed.state = .lowering) :
    endLowering s =
      finishSpeed .okay (replies 0 s.speed.demoted 0 0)
        { s with speed := { s.speed with state := .base, timer := none, demoted := 0 } } :=
  if_pos ⟨h, due⟩

end

section
variable (held : s.arb.holder = some .switch)
include held

theorem switchUpDone_held (h : s.speed.state = .switchingUp) :
    switchUpDone s =
      finishSpeed .okay (replies 1 0 0 0)
        { s.released with speed := { s.speed with state := .full, iface := .full } } :=
  if_pos ⟨held, h⟩

theorem switchDownDone_held (h : s.speed.state = .switchingDown) :
    switchDownDone s =
      { s.released with
        speed :=
          { s.speed with
            state := .lowering
            iface := .base
            pll := .off
            supply := .low
            timer := some (Timer.start 1) } } :=
  if_pos ⟨held, h⟩

end

end

/-- Settles O48: each step of a sequence; those that end one, by whether it has an owner. -/
theorem speedSequenceSteps : Obligations.SpeedSequenceSteps := by
  intro s due hands
  have handed (c : ResultCode) (rw : Replies) {u : State} (hu : u.speed.owner = s.speed.owner) :
      finishSpeed c rw u = hands c rw u := by
    cases ho : s.speed.owner with
    | some id =>
      simp only [hands, ho]
      exact finishSpeed_owned (hu.trans ho) c rw
    | none =>
      simp only [hands, ho]
      exact finishSpeed_abandoned (hu.trans ho) c rw
  refine ⟨fun h hd => congrArg Host.Outcome.next (endRaising_due (timerDue_of_due hd) h),
    fun h hd => ⟨next_congr (endLocking_present (timerDue_of_due hd) h), next_congr ?_⟩, fun h held => next_congr ?_,
    fun h held => next_congr (switchDownDone_held held h), fun h hd => next_congr ?_⟩
  · exact (endLocking_absent (timerDue_of_due hd) h).trans (handed _ _ rfl)
  · exact (switchUpDone_held held h).trans (handed _ _ rfl)
  · exact (endLowering_due (timerDue_of_due hd) h).trans (handed _ _ rfl)

/-! ### SPED (R164, R165, R168) -/

section
variable {r : Request} {s : State}

theorem takeSpeed_parm (h : 1 < r.p0.toNat) (id : RecId) : takeSpeed id r s = instant id .parm noReplies s := if_pos h

theorem takeSpeed_busy (hp : r.p0.toNat ≤ 1) (hb : s.speed.state ≠ .base) (hf : s.speed.state ≠ .full) (id : RecId) :
    takeSpeed id r s = instant id .busy (replies s.speed.state.code 0 0 0) s := by
  rw [takeSpeed, if_neg (Nat.not_lt.mpr hp)]
  cases hs : s.speed.state with
  | base => exact absurd hs hb
  | full => exact absurd hs hf
  | raising | locking | switchingUp | switchingDown | lowering => rfl

/-- R164: the speed asked for is the one in force. -/
theorem takeSpeed_settled
    (h : (r.p0.toNat = 0 ∧ s.speed.state = .base) ∨ (r.p0.toNat = 1 ∧ s.speed.state = .full)) (id : RecId) :
    takeSpeed id r s = raise .speed (instant id .okay (replies r.p0.toNat 0 0 0) s) := by
  obtain ⟨hp, hs⟩ | ⟨hp, hs⟩ := h <;> simp only [takeSpeed, word_of_toNat hp, hs] <;> rfl

theorem takeSpeed_up (hp : r.p0.toNat = 1) (hs : s.speed.state = .base) (id : RecId) :
    takeSpeed id r s = enterActive id .speedControl { s with speed := s.speed.raise id } := by
  simp only [takeSpeed, word_of_toNat hp, hs]
  rfl

theorem takeSpeed_down (hp : r.p0.toNat = 0) (hs : s.speed.state = .full) (id : RecId) :
    takeSpeed id r s = enterActive id .speedControl (startDown id s) := by
  simp only [takeSpeed, word_of_toNat hp, hs]
  rfl

end

/-! ### The demotions of a down sequence (R53, R168) -/

/-- R53: CLASS is raised if an entry has been demoted. -/
theorem raiseIf_demoted (s t : State) :
    raiseIf (decide (1 ≤ s.priorityHolders.length)) .cls t =
      { t with win := if s.priorityHolders = [] then t.win else t.win.raise .cls } := by
  cases s.priorityHolders <;> rfl

theorem startDown_eq (id : RecId) (s : State) :
    startDown id s =
      { s with
        table := { s.table with entries := mapVec Entry.demote s.table.entries }
        win := if s.priorityHolders = [] then s.win else s.win.raise .cls
        speed :=
          { s.speed with
            state := .switchingDown
            owner := some id
            demoted := s.priorityHolders.length
            switchWaiting := true } } := by
  rw [startDown, raiseIf_demoted]
  rfl

section
variable {e : Entry} {g : Range} {l : LeaseDef}

theorem demote_leased (h : e.status = .leased g l) (hl : l.cls = .priority) :
    e.demote = { e with status := .leased g l.demote } := by
  simp only [Entry.demote, h, hl, if_true]

theorem demote_retiring {c : EndCause} {w : Option Waiter} (h : e.status = .retiring g (.lease l) c w)
    (hl : l.cls = .priority) : e.demote = { e with status := .retiring g (.lease l.demote) c w } := by
  simp only [Entry.demote, h, hl, if_true]

end

/-- Settles O20: the tests of SPED, then the first step of either sequence, then a demotion at an entry. -/
theorem speedStartsSequence : Obligations.SpeedStartsSequence := by
  intro s₀ s a r hs hb answer long
  let taken := takenAs s a .speed r
  have numbered := (recordReturns_keeps s₀ s a hs).2.1
  have run : exec (.speed r) s₀ = .next (arbitrate (takeSpeed s.eng.nextId r taken)) := request_handed .speed hs hb rfl
  rw [run]
  refine ⟨fun bad => next_congr ?_, fun small n hn => next_congr ?_, fun settled => next_congr ?_,
    fun hp hbase => next_congr ?_, fun hp hfull => next_congr ?_,
    fun e => ⟨demote_of_not_holds, fun g l => demote_leased, fun g l c w => demote_retiring⟩⟩
  · exact (takeSpeed_parm bad _).trans (instant_answered .speed hs _ _)
  · have ⟨hbase, hfull, hcode⟩ : s.speed.state ≠ .base ∧ s.speed.state ≠ .full ∧ s.speed.state.code = n := by
      obtain ⟨h, rfl⟩ | ⟨h, rfl⟩ | ⟨h, rfl⟩ | ⟨h, rfl⟩ | ⟨h, rfl⟩ := hn
      all_goals exact h ▸ ⟨nofun, nofun, rfl⟩
    rw [takeSpeed_busy small (s := taken) hbase hfull, ← hcode]
    exact instant_answered .speed hs _ _
  · rw [takeSpeed_settled (s := taken) settled]
    exact congrArg (raise .speed) (instant_answered .speed hs _ _)
  · rw [takeSpeed_up hp (s := taken) hbase]
    exact enterActive_taken s { taken with speed := s.speed.raise s.eng.nextId } a _ r .speedControl numbered rfl
  · rw [takeSpeed_down hp (s := taken) hfull, startDown_eq]
    exact enterActive_taken s _ a _ r .speedControl numbered rfl

end Sys2Proof.Proofs
end

