-- ==== Sys2Proof/Proofs/SleepRequest.lean ====
section
/-! PROOF. SLEP: its three tests in order, and the standby hand-off that it leaves pending (R172, R173). -/

namespace Sys2Proof.Proofs

open Sys2Proof.Machine Sys2Proof.Laws

/-! ### The three tests (R172) -/

theorem mem_agentPorts (p : Fin 4) : p ∈ ([1, 2, 3] : List (Fin 4)) ↔ p ≠ 0 := by revert p; decide

section
variable {s : State}

/-- R172: the first test names the lowest agent port that is not idle. -/
theorem busyAgent_some {p : Fin 4} (hp : p ≠ 0) (busy : ¬(s.port p).idle)
    (low : ∀ q : Fin 4, q ≠ 0 → q < p → (s.port q).idle) : s.busyAgent = some p := by
  refine find_first _ [1, 2, 3] p ((mem_agentPorts p).mpr hp) (by decide) ((notIdle_iff _).mpr busy) fun q hq hlt => ?_
  rw [← Bool.not_eq_true, notIdle_iff]
  exact not_not_intro (low q ((mem_agentPorts q).mp hq) hlt)

theorem busyAgent_none (idle : ∀ p : Fin 4, p ≠ 0 → (s.port p).idle) : s.busyAgent = none :=
  List.find?_eq_none.mpr fun p hp busy => (notIdle_iff _).mp busy (idle p ((mem_agentPorts p).mp hp))

theorem takeSleep_port {p : Fin 4} (h : s.busyAgent = some p) (id : RecId) (r : Request) :
    takeSleep id r s = instant id .busy (replies 1 p.val 0 0) s := by
  rw [takeSleep, h]

section
variable (idle : s.busyAgent = none)
include idle

theorem takeSleep_queue (hq : s.queue ≠ []) (id : RecId) (r : Request) :
    takeSleep id r s = instant id .busy (replies 2 0 0 0) s := by
  rw [takeSleep, idle]
  exact if_pos hq

variable (hq : s.queue = [])
include hq

theorem takeSleep_speed (hv : s.speed.state ≠ .base) (id : RecId) (r : Request) :
    takeSleep id r s = instant id .busy (replies 3 0 0 0) s := by
  rw [takeSleep, idle]
  exact (if_neg (not_not_intro hq)).trans (if_pos hv)

theorem takeSleep_accepted (hv : s.speed.state = .base) (id : RecId) (r : Request) :
    takeSleep id r s = instant id .okay noReplies { s with eng := { s.eng with handoff := some id } } := by
  rw [takeSleep, idle]
  exact (if_neg (not_not_intro hq)).trans (if_neg (not_not_intro hv))

end

end

/-! ### The pending hand-off (R173) -/

/-- A final result neither reads the pending hand-off nor changes it. -/
theorem complete_handoff (id : RecId) (c : ResultCode) (rw : Replies) (h : Option RecId) (s : State) :
    complete id c rw { s with eng := { s.eng with handoff := h } } =
      { complete id c rw s with eng := { (complete id c rw s).eng with handoff := h } } := by
  cases found : s.eng.takeList.find? (fun y => y.id == id) with
  | some x =>
    rw [complete_some _ _ _ s x found]
    exact complete_some _ _ _ _ x found
  | none =>
    rw [complete_none _ _ _ s found]
    exact complete_none _ _ _ _ found

theorem instant_handoff (id : RecId) (c : ResultCode) (rw : Replies) (h : Option RecId) (s : State) :
    instant id c rw { s with eng := { s.eng with handoff := h } } =
      { instant id c rw s with eng := { (instant id c rw s).eng with handoff := h } } :=
  complete_handoff id c rw h (setTakeEnd id .result s)

/-- Settles O21: the three tests in their order, each on the state in which the record is taken, and the hand-off. -/
theorem sleepTestsAndHandsOff : Obligations.SleepTestsAndHandsOff := by
  intro s₀ s a r hs hb answer
  let taken := takenAs s a .sleep r
  have run : exec (.sleep r) s₀ = .next (arbitrate (takeSleep s.eng.nextId r taken)) := request_handed .sleep hs hb rfl
  rw [run]
  refine ⟨fun p hp busy low => next_congr ?_, fun idle => ?_⟩
  · rw [takeSleep_port (busyAgent_some (s := taken) hp busy low)]
    exact instant_answered .sleep hs _ _
  · have quiet : taken.busyAgent = none := busyAgent_none idle
    refine ⟨fun hq => next_congr ?_, fun hq hv => next_congr ?_, fun hq hv => next_congr ?_⟩
    · exact (takeSleep_queue quiet hq _ _).trans (instant_answered .sleep hs _ _)
    · exact (takeSleep_speed quiet hq hv _ _).trans (instant_answered .sleep hs _ _)
    · rw [takeSleep_accepted quiet hq hv, instant_handoff, instant_answered .sleep hs]
      rfl

end Sys2Proof.Proofs
end

