-- ==== Sys2Proof/Proofs/RegisterWrites.lean ====
section
/-! PROOF. The register writes: WSIZE (R181), ANCH (R182), EMSK (R183), ECLR (R184), the writes that are ignored (R180),
and the writes during a full reset (R141; log 20). -/

namespace Sys2Proof.Proofs

open Sys2Proof.Machine Sys2Proof.Laws

/-! ### WSIZE (R181) -/

section
variable {s : State} {v : Word}

/-- A write to CTRL with no GO, STOP or soft reset. -/
theorem ctrlWrite_wsize (h0 : v.getLsbD 0 = false) (h1 : v.getLsbD 1 = false) (h2 : v.getLsbD 2 = false) :
    ctrlWrite v s = ctrlWsize v s := by
  rw [ctrlWrite, if_neg (ne_true_of_eq_false h2), if_neg fun h => ne_true_of_eq_false h0 h.1, ctrlAction,
    if_neg (ne_true_of_eq_false h0), if_neg (ne_true_of_eq_false h1)]

theorem ctrlWsize_taken (h7 : v.getLsbD 7 = true) (free : s.win.wsizeFixed = false) :
    ctrlWsize v s = { s with win := { s.win with wsize := v.extractLsb' 4 2 } } := if_pos ⟨h7, free⟩

theorem ctrlWsize_fixed (fixed : s.win.wsizeFixed = true) : ctrlWsize v s = s :=
  if_neg fun h => ne_true_of_eq_false h.2 fixed

end

/-- Writing a bit that is set already. -/
theorem or_twoPow_of_set {v : Word} {i : Nat} (h : v.getLsbD i = true) : v ||| BitVec.twoPow 32 i = v := by
  refine BitVec.eq_of_getLsbD_eq fun j _ => ?_
  rw [BitVec.getLsbD_or, BitVec.getLsbD_twoPow]
  by_cases hij : i = j
  · rw [← hij, h, Bool.true_or]
  · simp [hij]

section
variable {s : State} (running : s.inReset = false) (w : Word)
include running

theorem exec_wset : exec (.wset w) s = .next (arbitrate (ctrlWrite (w ||| 0x80#32) s)) :=
  next_congr (regWrite_running s _ _ running)

variable {w}

theorem exec_wset_taken (h0 : w.getLsbD 0 = false) (h1 : w.getLsbD 1 = false) (h2 : w.getLsbD 2 = false)
    (free : s.win.wsizeFixed = false) :
    exec (.wset w) s = .next (arbitrate { s with win := { s.win with wsize := w.extractLsb' 4 2 } }) := by
  obtain ⟨go, stop, reset, seven, size⟩ := ctrl_or_wset w
  rw [exec_wset running, ctrlWrite_wsize (go.trans h0) (stop.trans h1) (reset.trans h2), ctrlWsize_taken seven free, size]

theorem exec_wset_fixed (h0 : w.getLsbD 0 = false) (h1 : w.getLsbD 1 = false) (h2 : w.getLsbD 2 = false)
    (fixed : s.win.wsizeFixed = true) : exec (.wset w) s = .next (arbitrate s) := by
  obtain ⟨go, stop, reset, -, -⟩ := ctrl_or_wset w
  rw [exec_wset running, ctrlWrite_wsize (go.trans h0) (stop.trans h1) (reset.trans h2), ctrlWsize_fixed fixed]

/-- The two rows write one word. -/
theorem exec_wset_go (h0 : w.getLsbD 0 = true) : exec (.wset w) s = exec (.go (w ||| 0x80#32)) s := by
  obtain ⟨go, -⟩ := ctrl_or_wset w
  have word : w ||| 0x80#32 ||| 0x01#32 = w ||| 0x80#32 := or_twoPow_of_set (i := 0) (go.trans h0)
  rw [exec_wset running, exec_go running, word]

theorem exec_wset_stop (h1 : w.getLsbD 1 = true) : exec (.wset w) s = exec (.stop (w ||| 0x80#32)) s := by
  obtain ⟨-, stop, -⟩ := ctrl_or_wset w
  have word : w ||| 0x80#32 ||| 0x02#32 = w ||| 0x80#32 := or_twoPow_of_set (i := 1) (stop.trans h1)
  rw [exec_wset running, exec_stop running, word]

theorem exec_wset_softReset (h2 : w.getLsbD 2 = true) : exec (.wset w) s = exec (.softReset w) s := by
  obtain ⟨-, -, reset, -⟩ := ctrl_or_wset w
  rw [exec_wset running, exec_softReset_ctrl running, ctrlWrite_softReset (reset.trans h2)]

end

/-! ### ANCH (R182) -/

section
variable {s : State} (v : Word)

theorem anchStore_taken (h : s.eng.reader = .stopped ∨ s.eng.reader = .faulted) :
    anchStore v s = { s with win := { s.win with anch := v } } := by
  obtain h | h := h <;> rw [anchStore, h]

theorem anchStore_ignored (stopped : s.eng.reader ≠ .stopped) (faulted : s.eng.reader ≠ .faulted) :
    anchStore v s = s := by
  unfold anchStore
  split
  · next h => exact absurd h stopped
  · next h => exact absurd h faulted
  all_goals rfl

end

/-! ### ECLR (R184) -/

theorem clear_getLsbD (flags : BitVec 9) (w : Word) {j : Nat} (hj : j < 9) :
    (flags &&& ~~~(w.extractLsb' 0 9)).getLsbD j = (flags.getLsbD j && !w.getLsbD j) := by
  rw [BitVec.getLsbD_and, BitVec.getLsbD_not, BitVec.getLsbD_extractLsb']
  simp [hj]

/-! ### Each register's offset (R180) -/

section
variable {s : State} (running : s.inReset = false) (v : Word)
include running

theorem regWrite_anch : regWrite 0x08#32 v s = anchStore v s := regWrite_running s _ v running

theorem regWrite_emsk : regWrite 0x10#32 v s = emskStore v s := regWrite_running s _ v running

theorem regWrite_eclr : regWrite 0x14#32 v s = eclrStore v s := regWrite_running s _ v running

theorem regWrite_ignored {offset : Word} (ctrl : offset ≠ 0x00#32) (anch : offset ≠ 0x08#32) (emsk : offset ≠ 0x10#32)
    (eclr : offset ≠ 0x14#32) : regWrite offset v s = s := by
  rw [regWrite_running s _ _ running, if_neg ctrl, if_neg anch, if_neg emsk, if_neg eclr]

end

/-- Log 20: during a full reset no register is written. -/
theorem regWrite_inReset {s : State} (h : s.inReset = true) (offset v : Word) : regWrite offset v s = s := if_pos h

/-- Settles O29: WSET by the bits of its word, each other register by its offset, and every write during a full reset. -/
theorem registerWrites : Obligations.RegisterWrites := by
  intro s w
  refine ⟨fun running => ⟨fun h0 h1 h2 => ⟨exec_wset_taken running h0 h1 h2, exec_wset_fixed running h0 h1 h2⟩,
    exec_wset_go running, exec_wset_stop running, exec_wset_softReset running, fun h => ?_, fun stopped faulted => ?_,
    congrArg _ (regWrite_emsk running w), ⟨_, congrArg _ (regWrite_eclr running w), fun j => clear_getLsbD _ w⟩,
    fun offset ctrl anch emsk eclr => next_congr (regWrite_ignored running w ctrl anch emsk eclr)⟩, fun reset => ?_⟩
  · exact congrArg _ ((regWrite_anch running w).trans (anchStore_taken w h))
  · exact congrArg _ ((regWrite_anch running w).trans (anchStore_ignored w stopped faulted))
  · have kept := regWrite_inReset reset
    exact ⟨next_congr (kept _ _), next_congr (kept _ _), next_congr (kept _ _), next_congr (kept _ _),
      congrArg _ (kept _ w), congrArg _ (kept _ w), congrArg _ (kept _ w), fun offset => next_congr (kept offset w)⟩

end Sys2Proof.Proofs
end

