-- ==== Sys2Proof/Proofs/RegisterReads.lean ====
section
/-! PROOF. The nine events and their raising (R183), the IRQ pin (R184), and what a register read returns (R180 to R182). -/

namespace Sys2Proof.Proofs

open Sys2Proof.Machine Sys2Proof.Laws

/-! ### Raising an event (R183) -/

theorem event_bit_lt (e : Event) : e.bit < 9 := by cases e <;> decide

theorem flag_getLsbD (e : Event) (j : Nat) : e.flag.getLsbD j = (j == e.bit) := by
  have flag : e.flag = BitVec.twoPow 9 e.bit := rfl
  rw [flag, BitVec.getLsbD_twoPow, decide_eq_true (event_bit_lt e), Bool.true_and]
  exact decide_eq_decide.mpr eq_comm

/-- The flags after event `e` is raised. -/
def flagsAfter (e : Event) (w : RegisterWindow) : BitVec 9 :=
  if w.emsk.getLsbD e.bit then w.evnt ||| e.flag else w.evnt

theorem raise_eq (e : Event) (s : State) :
    raise e s = { s with win := { s.win with evnt := flagsAfter e s.win } } := by
  unfold raise RegisterWindow.raise flagsAfter
  split <;> rfl

theorem flagsAfter_getLsbD (e : Event) (w : RegisterWindow) (j : Nat) :
    (flagsAfter e w).getLsbD j = (w.evnt.getLsbD j || (j == e.bit && w.emsk.getLsbD j)) := by
  unfold flagsAfter
  split
  · next enabled =>
    rw [BitVec.getLsbD_or, flag_getLsbD]
    obtain rfl | h := eq_or_ne j e.bit
    · rw [enabled, Bool.and_true]
    · rw [beq_false_of_ne h, Bool.false_and]
  · next disabled =>
    obtain rfl | h := eq_or_ne j e.bit
    · rw [Bool.eq_false_iff.mpr disabled, Bool.and_false, Bool.or_false]
    · rw [beq_false_of_ne h, Bool.false_and, Bool.or_false]

/-! ### Registers of nine flags, and WSIZE (R181, R183) -/

theorem nineFlags_fields (x : BitVec 9) :
    (x.zeroExtend 32).extractLsb' 0 9 = x ∧ (x.zeroExtend 32).extractLsb' 9 23 = 0#23 := by
  have bound := x.isLt
  have word : x.zeroExtend 32 = BitVec.ofNat 32 x.toNat := (BitVec.ofNat_toNat 32 x).symm
  rw [word]
  exact ⟨(field_ofNat _ _ _ x.toNat (by omega) (by omega)).trans (by simp),
    field_ofNat _ _ _ 0 (by omega) (by omega)⟩

theorem wsize_fields (x : BitVec 2) :
    (BitVec.ofNat 32 (x.toNat * 16)).extractLsb' 4 2 = x ∧ (BitVec.ofNat 32 (x.toNat * 16)).extractLsb' 0 4 = 0#4 ∧
      (BitVec.ofNat 32 (x.toNat * 16)).extractLsb' 6 26 = 0#26 := by
  have bound := x.isLt
  exact ⟨(field_ofNat _ _ _ x.toNat (by omega) (by omega)).trans (by simp),
    field_ofNat _ _ _ 0 (by omega) (by omega), field_ofNat _ _ _ 0 (by omega) (by omega)⟩

/-! ### STAT (R182) -/

theorem reader_code_lt (r : Reader) : r.code < 5 := by cases r <;> simp [Reader.code]

theorem stallReason_code_lt (q : StallReason) : q.code < 6 := by cases q <;> decide

theorem stallCode_lt (r : Reader) : r.stallCode < 6 := by
  cases r with
  | stalled q _ => exact stallReason_code_lt q
  | _ => simp [Reader.stallCode]

theorem stallCode_unstalled {r : Reader} (h : ∀ q a, r ≠ .stalled q a) : r.stallCode = 0 := by
  cases r with
  | stalled q a => exact absurd rfl (h q a)
  | _ => rfl

theorem controller_code_lt (c : ControllerState) : c.code < 5 := by cases c <;> simp [ControllerState.code]

theorem speed_code_lt (v : SpeedState) : v.code < 7 := by cases v <;> decide

/-- The fields of STAT, from the lowest bit up. -/
structure StatFields (v : Word) (s : State) : Prop where
  reader : v.extractLsb' 0 3 = BitVec.ofNat 3 s.eng.reader.code
  stall : v.extractLsb' 3 3 = BitVec.ofNat 3 s.eng.reader.stallCode
  controller : v.extractLsb' 6 3 = BitVec.ofNat 3 s.ctl.state.code
  speed : v.extractLsb' 9 3 = BitVec.ofNat 3 s.speed.state.code
  active : v.extractLsb' 12 4 = BitVec.ofNat 4 s.eng.active.length
  queue : v.extractLsb' 16 3 = BitVec.ofNat 3 s.queue.length
  takeList : v.extractLsb' 19 6 = BitVec.ofNat 6 s.eng.takeList.length
  wsizeFixed : v.getLsbD 25 = s.win.wsizeFixed
  size : v.extractLsb' 26 2 = s.straps.size
  wide : v.getLsbD 28 = s.straps.wide
  zeroAt29 : v.extractLsb' 29 3 = 0#3

/-- Within their bounds the three counts stay in their own fields. -/
theorem stat_fields {s : State} (ha : s.eng.active.length ≤ 8) (hq : s.queue.length ≤ 4)
    (hl : s.eng.takeList.length ≤ 32) : StatFields s.stat s := by
  have reader := reader_code_lt s.eng.reader
  have stall := stallCode_lt s.eng.reader
  have controller := controller_code_lt s.ctl.state
  have speed := speed_code_lt s.speed.state
  have fixed := Bool.toNat_le s.win.wsizeFixed
  have size := s.straps.size.isLt
  have wide := Bool.toNat_le s.straps.wide
  refine ⟨field_ofNat _ _ _ _ ?_ ?_, field_ofNat _ _ _ _ ?_ ?_, field_ofNat _ _ _ _ ?_ ?_, field_ofNat _ _ _ _ ?_ ?_,
    field_ofNat _ _ _ _ ?_ ?_, field_ofNat _ _ _ _ ?_ ?_, field_ofNat _ _ _ _ ?_ ?_, flag_ofNat _ _ _ ?_ (by decide),
    (field_ofNat _ _ _ s.straps.size.toNat ?_ ?_).trans (by simp), flag_ofNat _ _ _ ?_ (by decide),
    field_ofNat _ _ _ 0 ?_ ?_⟩
  all_goals omega

/-! ### Offsets (R180) -/

theorem regRead_unused {s : State} {offset : Word} (ctrl : offset ≠ 0x00#32) (stat : offset ≠ 0x04#32)
    (anch : offset ≠ 0x08#32) (evnt : offset ≠ 0x0C#32) (emsk : offset ≠ 0x10#32) : s.regRead offset = 0#32 := by
  rw [State.regRead, if_neg ctrl, if_neg stat, if_neg anch, if_neg evnt, if_neg emsk]

theorem irq_iff (s : State) : s.irq = true ↔ s.win.evnt ≠ 0#9 := bne_iff_ne

/-- Settles O31: the events' bits, the raising flag by flag, and the registers by their offsets. -/
theorem registerReadsAndEvents : Obligations.RegisterReadsAndEvents := by
  refine ⟨⟨rfl, rfl, rfl, rfl, rfl, rfl, rfl, rfl, rfl⟩,
    fun e s => ⟨flagsAfter e s.win, raise_eq e s, fun j _ => flagsAfter_getLsbD e s.win j⟩,
    fun s => ⟨wsize_fields _, rfl, nineFlags_fields _, nineFlags_fields _, fun _ => regRead_unused, irq_iff s, ?_⟩⟩
  intro ha hq hl v
  have stat : StatFields v s := stat_fields ha hq hl
  refine ⟨stat.reader.trans ?_, fun q a h => stat.stall.trans ?_, fun h => stat.stall.trans ?_,
    stat.controller.trans ?_, stat.speed.trans ?_, stat.active, stat.queue, stat.takeList, stat.wsizeFixed, stat.size,
    stat.wide, stat.zeroAt29⟩
  · cases s.eng.reader <;> rfl
  · rw [h]
    cases q <;> rfl
  · rw [stallCode_unstalled h]
  · cases s.ctl.state <;> rfl
  · cases s.speed.state <;> rfl

end Sys2Proof.Proofs
end

