-- ==== Sys2Proof/Proofs/MemoryForm.lean ====
section
/-! PROOF. The model's list of the DRAM's written bytes and its queue of commands (logs 1, 2 and 25): every operation
leaves the queue alone, and only a completed write (R59, R151) and a full reset touch the list. -/

namespace Sys2Proof.Proofs

open Sys2Proof.Machine Sys2Proof.Laws

/-- What every operation keeps: the canonical form of the DRAM's list, and the queue of commands. -/
structure KeepsForm (s t : State) : Prop where
  canonical : Memory.wf s.mem = true → Memory.wf t.mem = true
  pending : t.pending = s.pending

theorem KeepsForm.refl (s : State) : KeepsForm s s := ⟨id, rfl⟩

theorem KeepsForm.trans {s t u : State} (h : KeepsForm s t) (k : KeepsForm t u) : KeepsForm s u :=
  ⟨k.canonical ∘ h.canonical, k.pending.trans h.pending⟩

theorem KeepsForm.after {s t u : State} (k : KeepsForm t u) (h : KeepsForm s t) : KeepsForm s u := h.trans k

/-- An operation that stores nothing. -/
theorem KeepsForm.of_frame {s t : State} (hm : t.mem = s.mem) (hp : t.pending = s.pending) : KeepsForm s t :=
  ⟨fun h => by rwa [hm], hp⟩

/-- What follows an operation and stores nothing. -/
theorem KeepsForm.andFrame {s t u : State} (h : KeepsForm s t) (hm : u.mem = t.mem) (hp : u.pending = t.pending) :
    KeepsForm s u := h.trans (.of_frame hm hp)

/-! ### Completed writes (R59, R151) -/

/-- The one operation that stores: the evaluation that follows it stores nothing. -/
theorem keepsForm_storeAndEvaluate (a : Nat) (ws : List Word) (s : State) : KeepsForm s (storeAndEvaluate a ws s) where
  canonical h := by
    have stored : (storeAndEvaluate a ws s).mem = (s.store a ws).mem := by simp [storeAndEvaluate]
    rw [stored]
    exact wf_store s a ws h
  pending := by simp

theorem keepsForm_finishOp (s : State) : KeepsForm s (finishOp s) := .of_frame rfl rfl

theorem keepsForm_engineWrite (op : EngineOp) (s : State) : KeepsForm s (engineWrite op s) := by
  unfold engineWrite
  split
  · exact .refl s
  · exact (keepsForm_finishOp s).trans (keepsForm_storeAndEvaluate _ _ _)

theorem keepsForm_raise (e : Event) (s : State) : KeepsForm s (raise e s) := .of_frame rfl rfl

theorem keepsForm_raiseIf (c : Bool) (e : Event) (s : State) : KeepsForm s (raiseIf c e s) :=
  .of_frame (by simp) (by simp)

theorem keepsForm_endTakeAt (id : RecId) (e : TakeEnd) (s : State) : KeepsForm s (endTakeAt id e s) :=
  .of_frame (by simp) (by simp)

theorem keepsForm_headerWriteDone (s : State) : KeepsForm s (headerWriteDone s) := by
  unfold headerWriteDone
  split
  · exact (keepsForm_engineWrite _ s).trans (keepsForm_raiseIf _ _ _)
  · exact (keepsForm_engineWrite _ s).trans (keepsForm_endTakeAt _ _ _)
  · exact (keepsForm_engineWrite _ s).trans (keepsForm_raise _ _)
  · exact .refl s

theorem keepsForm_resultWriteDone (s : State) : KeepsForm s (resultWriteDone s) := by
  have ends (id : RecId) (n : Bool) (t : State) : KeepsForm t (retire (endTakeAt id .result (finalize id n t))) :=
    .of_frame (by simp) (by simp)
  unfold resultWriteDone
  split
  · exact (keepsForm_engineWrite _ s).trans (ends _ _ _)
  · exact .refl s

theorem keepsForm_otherWriteDone (s : State) : KeepsForm s (otherWriteDone s) := by
  unfold otherWriteDone
  split
  · exact keepsForm_engineWrite _ s
  · exact keepsForm_engineWrite _ s
  · exact keepsForm_engineWrite _ s
  · exact .refl s

theorem keepsForm_countOut (e : Option (Fin 16)) (s : State) : KeepsForm s (countOut e s) :=
  .of_frame (by simp) (by simp)

theorem keepsForm_accessStore (a : AccessReq) (s : State) : KeepsForm s (accessStore a s) := by
  unfold accessStore
  split
  · exact .refl s
  · exact keepsForm_storeAndEvaluate _ _ s

theorem keepsForm_setHolder (h : Option Holder) (s : State) : KeepsForm s (setHolder h s) := .of_frame rfl rfl

theorem keepsForm_portAccessDone (p : Fin 4) (s : State) : KeepsForm s (portAccessDone p s) := by
  unfold portAccessDone
  split
  · exact .refl s
  · next a e _ => exact ((keepsForm_countOut e s).trans (keepsForm_accessStore a _)).andFrame (by simp) (by simp)

theorem keepsForm_accessDone (s : State) : KeepsForm s (accessDone s) := by
  unfold accessDone
  split
  · exact (keepsForm_setHolder none s).trans (keepsForm_portAccessDone _ _)
  · exact .refl s

/-! ### Bursts (R84 to R86, R94) -/

theorem keepsForm_afterBurst (t : Transfer) (finished : Bool) (rest : List Transfer) (s : State) :
    KeepsForm s (afterBurst t finished rest s) := .of_frame (by simp) (by simp)

theorem keepsForm_fillBurstDone (t : Transfer) (b : Burst) (pattern : Word) (rest : List Transfer) (s : State) :
    KeepsForm s (fillBurstDone t b pattern rest s) :=
  ((keepsForm_countOut b.entry s).trans (keepsForm_storeAndEvaluate _ _ _)).trans (keepsForm_afterBurst _ _ _ _)

theorem keepsForm_copyReadDone (t : Transfer) (b : Burst) (rest : List Transfer) (s : State) :
    KeepsForm s (copyReadDone t b rest s) := (keepsForm_countOut b.entry s).trans (keepsForm_afterBurst _ _ _ _)

theorem keepsForm_copyWriteDone (t : Transfer) (b : Burst) (rest : List Transfer) (s : State) :
    KeepsForm s (copyWriteDone t b rest s) :=
  ((keepsForm_countOut b.entry s).trans (keepsForm_storeAndEvaluate _ _ _)).trans (keepsForm_afterBurst _ _ _ _)

theorem keepsForm_scanBurstDone (t : Transfer) (b : Burst) (pattern mask : Word) (rest : List Transfer) (s : State) :
    KeepsForm s (scanBurstDone t b pattern mask rest s) :=
  (keepsForm_countOut b.entry s).trans (keepsForm_afterBurst _ _ _ _)

theorem keepsForm_fillBurst (s : State) : KeepsForm s (fillBurst s) := by
  unfold fillBurst
  split
  · split
    · exact (keepsForm_setHolder none s).trans (keepsForm_fillBurstDone _ _ _ _ _)
    all_goals exact .refl s
  · exact (keepsForm_setHolder none s).trans (keepsForm_storeAndEvaluate _ _ _)
  · exact .refl s

theorem keepsForm_copyReadBurst (s : State) : KeepsForm s (copyReadBurst s) := by
  unfold copyReadBurst
  split
  · split
    · exact (keepsForm_setHolder none s).trans (keepsForm_copyReadDone _ _ _ _)
    · exact .refl s
  · exact keepsForm_setHolder none s
  · exact .refl s

theorem keepsForm_copyWriteBurst (s : State) : KeepsForm s (copyWriteBurst s) := by
  unfold copyWriteBurst
  split
  · split
    · exact (keepsForm_setHolder none s).trans (keepsForm_copyWriteDone _ _ _ _)
    · exact .refl s
  · exact (keepsForm_setHolder none s).trans (keepsForm_storeAndEvaluate _ _ _)
  · exact .refl s

theorem keepsForm_scanBurst (s : State) : KeepsForm s (scanBurst s) := by
  unfold scanBurst
  split
  · split
    · exact (keepsForm_setHolder none s).trans (keepsForm_scanBurstDone _ _ _ _ _ _)
    all_goals exact .refl s
  · exact keepsForm_setHolder none s
  · exact .refl s

/-! ### Takes (R102, R103)

A take stores nothing at once: its writes join the operation list. -/

theorem keepsForm_instant (id : RecId) (c : ResultCode) (rw : Replies) (s : State) : KeepsForm s (instant id c rw s) :=
  .of_frame (by simp) (by simp)

theorem KeepsForm.answers {s u : State} (h : KeepsForm s u) (id : RecId) (c : ResultCode) (rw : Replies) :
    KeepsForm s (instant id c rw u) := h.trans (keepsForm_instant id c rw u)

theorem keepsForm_enterActive (id : RecId) (b : Block) (s : State) : KeepsForm s (enterActive id b s) :=
  .of_frame rfl rfl

theorem keepsForm_endEntry (i : Fin 16) (c : EndCause) (q : Option RecId) (s : State) :
    KeepsForm s (endEntry i c q s) := .of_frame (by simp) (by simp)

theorem keepsForm_defineEntry (i : Fin 16) (st : EntryStatus) (s : State) : KeepsForm s (defineEntry i st s) :=
  .of_frame rfl rfl

theorem keepsForm_setStatus (i : Fin 16) (st : EntryStatus) (s : State) : KeepsForm s (s.setStatus i st) :=
  .of_frame rfl rfl

theorem keepsForm_takeOpen (id : RecId) (r : Request) (s : State) : KeepsForm s (takeOpen id r s) := by
  unfold takeOpen
  split
  · exact keepsForm_instant id _ _ s
  split
  · exact keepsForm_instant id _ _ s
  split
  · exact keepsForm_instant id _ _ s
  split
  · exact keepsForm_instant id _ _ s
  · exact (keepsForm_defineEntry _ _ s).answers id _ _

theorem keepsForm_takeClose (id : RecId) (r : Request) (s : State) : KeepsForm s (takeClose id r s) := by
  unfold takeClose
  split
  · exact keepsForm_instant id _ _ s
  split
  · split
    · exact keepsForm_instant id _ _ s
    split
    · exact (keepsForm_endEntry _ _ none s).answers id _ _
    · exact (keepsForm_endEntry _ _ (some id) s).trans (keepsForm_enterActive id _ _)
  all_goals exact keepsForm_instant id _ _ s

theorem keepsForm_takeLock (id : RecId) (r : Request) (s : State) : KeepsForm s (takeLock id r s) := by
  unfold takeLock
  split
  · exact keepsForm_instant id _ _ s
  split
  · exact (keepsForm_setStatus _ _ s).answers id _ _
  all_goals exact keepsForm_instant id _ _ s

theorem keepsForm_takeLook (id : RecId) (r : Request) (s : State) : KeepsForm s (takeLook id r s) := by
  unfold takeLook
  split
  · exact keepsForm_instant id _ _ s
  split
  · exact keepsForm_instant id _ _ s
  split
  · exact keepsForm_instant id _ _ s
  split
  · exact keepsForm_instant id _ _ s
  split
  · split <;> exact keepsForm_instant id _ _ s
  · refine KeepsForm.answers ?_ id _ _
    split
    · exact .of_frame (by simp) (by simp)
    · exact .refl s

theorem keepsForm_takeLease (id : RecId) (r : Request) (s : State) : KeepsForm s (takeLease id r s) := by
  have granted (i : Fin 16) (m : LeaseMode) : KeepsForm s (grantLease i r m s) := .of_frame (by simp) (by simp)
  unfold takeLease
  split
  · split
    · exact keepsForm_instant id _ _ s
    split
    · exact keepsForm_instant id _ _ s
    split
    · exact keepsForm_instant id _ _ s
    split
    · exact keepsForm_instant id _ _ s
    split
    · exact keepsForm_instant id _ _ s
    split
    · exact keepsForm_instant id _ _ s
    · exact (granted _ _).answers id _ _
  · exact keepsForm_instant id _ _ s
  · exact keepsForm_instant id _ _ s

theorem keepsForm_takeRenew (id : RecId) (r : Request) (s : State) : KeepsForm s (takeRenew id r s) := by
  unfold takeRenew
  split
  · exact keepsForm_instant id _ _ s
  split
  · exact keepsForm_instant id _ _ s
  split
  · exact (keepsForm_setStatus _ _ s).answers id _ _
  all_goals exact keepsForm_instant id _ _ s

theorem keepsForm_takeFree (id : RecId) (r : Request) (s : State) : KeepsForm s (takeFree id r s) := by
  unfold takeFree
  split
  · exact keepsForm_instant id _ _ s
  split
  · split
    · exact (keepsForm_endEntry _ _ none s).answers id _ _
    · exact (keepsForm_endEntry _ _ (some id) s).trans (keepsForm_enterActive id _ _)
  all_goals exact keepsForm_instant id _ _ s

theorem keepsForm_takePolicy (id : RecId) (r : Request) (s : State) : KeepsForm s (takePolicy id r s) := by
  have single (c : Bool) : KeepsForm s (raiseIf c .cls (setPolicy .single (demoteOthers s))) :=
    .of_frame (by simp) (by simp)
  unfold takePolicy
  split
  · exact keepsForm_instant id _ _ s
  split
  · exact (keepsForm_instant id _ _ _).after (.of_frame rfl rfl)
  split
  · exact keepsForm_instant id _ _ s
  · exact (single _).answers id _ _

theorem keepsForm_takeWait (id : RecId) (r : Request) (s : State) : KeepsForm s (takeWait id r s) := by
  unfold takeWait
  split
  · exact keepsForm_instant id _ _ s
  split
  · exact keepsForm_instant id _ _ s
  · exact .of_frame (by simp) (by simp)

theorem keepsForm_startTransfer (id : RecId) (j : Job) (p : Fin 4) (n : Nat) (s : State) :
    KeepsForm s (startTransfer id j p n s) := .of_frame (by simp) (by simp)

theorem keepsForm_takeFill (id : RecId) (r : Request) (s : State) : KeepsForm s (takeFill id r s) := by
  unfold takeFill
  split
  · exact keepsForm_instant id _ _ s
  split
  · exact keepsForm_instant id _ _ s
  split
  · exact keepsForm_instant id _ _ s
  · exact keepsForm_startTransfer id _ _ _ s

theorem keepsForm_takeCopy (id : RecId) (r : Request) (s : State) : KeepsForm s (takeCopy id r s) := by
  unfold takeCopy
  split
  · exact keepsForm_instant id _ _ s
  split
  · exact keepsForm_instant id _ _ s
  split
  · exact keepsForm_instant id _ _ s
  split
  · exact keepsForm_instant id _ _ s
  · exact keepsForm_startTransfer id _ _ _ s

theorem keepsForm_takeScan (id : RecId) (r : Request) (s : State) : KeepsForm s (takeScan id r s) := by
  unfold takeScan
  split
  · exact keepsForm_instant id _ _ s
  split
  · exact keepsForm_instant id _ _ s
  split
  · exact keepsForm_instant id _ _ s
  · exact keepsForm_startTransfer id _ _ _ s

theorem keepsForm_takeAbort (id : RecId) (r : Request) (s : State) : KeepsForm s (takeAbort id r s) := by
  have cancelled (a : ActiveRequest) : KeepsForm s (cancelRequest a s) := .of_frame (by simp) (by simp)
  unfold takeAbort
  split
  · exact keepsForm_instant id _ _ s
  split
  · exact keepsForm_instant id _ _ s
  split
  · exact keepsForm_instant id _ _ s
  · exact (cancelled _).answers id _ _

theorem keepsForm_takePort (id : RecId) (r : Request) (s : State) : KeepsForm s (takePort id r s) := by
  have disabled (p : Fin 4) : KeepsForm s (disablePort p s) := .of_frame (by simp) (by simp)
  have set (p : Fin 4) (st : PortState) : KeepsForm s (setPortState p st s) := .of_frame rfl rfl
  unfold takePort
  split
  · split
    · exact keepsForm_instant id _ _ s
    split
    · exact keepsForm_instant id _ _ s
    · split
      · exact (disabled _).answers id _ _
      · exact (set _ _).answers id _ _
    · split
      · exact (disabled _).answers id _ _
      · exact (set _ _).answers id _ _
    · exact (set _ _).answers id _ _
  · exact keepsForm_instant id _ _ s
  · exact keepsForm_instant id _ _ s

theorem keepsForm_takePortReset (id : RecId) (r : Request) (s : State) : KeepsForm s (takePortReset id r s) := by
  have reset (p : Fin 4) (f : FormerState) : KeepsForm s (resetPort id p f s) := .of_frame (by simp) (by simp)
  unfold takePortReset
  split
  · exact keepsForm_instant id _ _ s
  split
  · exact keepsForm_instant id _ _ s
  split
  · exact keepsForm_instant id _ _ s
  · exact keepsForm_instant id _ _ s
  · exact reset _ _
  · exact reset _ _

theorem keepsForm_takeRefreshInterval (id : RecId) (r : Request) (s : State) :
    KeepsForm s (takeRefreshInterval id r s) := by
  unfold takeRefreshInterval
  split
  · exact keepsForm_instant id _ _ s
  · exact (keepsForm_instant id _ _ _).after (.of_frame rfl rfl)

theorem keepsForm_takeSpeed (id : RecId) (r : Request) (s : State) : KeepsForm s (takeSpeed id r s) := by
  have down : KeepsForm s (startDown id s) := .of_frame (by simp) (by simp)
  unfold takeSpeed
  split
  · exact keepsForm_instant id _ _ s
  split
  · split
    · exact (keepsForm_instant id _ _ s).trans (keepsForm_raise _ _)
    · exact (keepsForm_enterActive id _ _).after (.of_frame rfl rfl)
  · split
    · exact (keepsForm_instant id _ _ s).trans (keepsForm_raise _ _)
    · exact down.trans (keepsForm_enterActive id _ _)
  all_goals exact keepsForm_instant id _ _ s

theorem keepsForm_takeSleep (id : RecId) (r : Request) (s : State) : KeepsForm s (takeSleep id r s) := by
  unfold takeSleep
  split
  · exact keepsForm_instant id _ _ s
  split
  · exact keepsForm_instant id _ _ s
  split
  · exact keepsForm_instant id _ _ s
  · exact (keepsForm_instant id _ _ _).after (.of_frame rfl rfl)

theorem keepsForm_handOff (c : Option Code) (id : RecId) (r : Request) (s : State) :
    KeepsForm s (handOff c id r s) := by
  cases c with
  | none => exact keepsForm_instant id _ _ s
  | some c =>
    cases c with
    | openWindow => exact keepsForm_takeOpen id r s
    | closeWindow => exact keepsForm_takeClose id r s
    | lock => exact keepsForm_takeLock id r s
    | look => exact keepsForm_takeLook id r s
    | lease => exact keepsForm_takeLease id r s
    | renew => exact keepsForm_takeRenew id r s
    | freeLease => exact keepsForm_takeFree id r s
    | policy => exact keepsForm_takePolicy id r s
    | waitWord => exact keepsForm_takeWait id r s
    | fill => exact keepsForm_takeFill id r s
    | copy => exact keepsForm_takeCopy id r s
    | scan => exact keepsForm_takeScan id r s
    | abort => exact keepsForm_takeAbort id r s
    | noop => exact keepsForm_instant id _ _ s
    | port => exact keepsForm_takePort id r s
    | portReset => exact keepsForm_takePortReset id r s
    | refreshInterval => exact keepsForm_takeRefreshInterval id r s
    | speed => exact keepsForm_takeSpeed id r s
    | sleep => exact keepsForm_takeSleep id r s

/-! ### The engine's reads (R63, R70, R101) -/

theorem keepsForm_arbitrate (s : State) : KeepsForm s (arbitrate s) := .of_frame (by simp) (by simp)

theorem keepsForm_readComplete (s : State) : KeepsForm s (readComplete s) := by
  have finished : KeepsForm s (finishOp { s with arb := { s.arb with reads := s.arb.reads + 1 } }) := .of_frame rfl rfl
  unfold readComplete
  dsimp only
  split
  · exact finished
  split
  · exact finished.trans (keepsForm_arbitrate _)
  · exact finished

theorem keepsForm_examine (rec : Record) (a : Word) (s : State) : KeepsForm s (examine rec a s) := by
  have taken : KeepsForm s (takeRecord a rec.code rec.req s) := .of_frame (by simp) (by simp)
  unfold examine
  split
  · exact .of_frame (by simp) (by simp)
  split
  · exact .of_frame (by simp) (by simp)
  split
  · exact .of_frame (by simp) (by simp)
  · exact taken.trans (keepsForm_handOff _ _ _ _)

theorem keepsForm_recordReadReturns (rec : Option Record) (s : State) : KeepsForm s (recordReadReturns rec s) := by
  unfold recordReadReturns
  split
  · exact (keepsForm_readComplete s).trans (keepsForm_examine _ _ _)
  · exact keepsForm_finishOp s
  · exact .refl s

theorem keepsForm_waitArmingDone (s : State) : KeepsForm s (waitArmingDone s) := by
  unfold waitArmingDone
  split
  · exact (keepsForm_finishOp s).andFrame (by simp) (by simp)
  · exact keepsForm_finishOp s
  · exact .refl s

theorem keepsForm_tailArmingDone (s : State) : KeepsForm s (tailArmingDone s) := by
  unfold tailArmingDone
  split
  · exact (keepsForm_finishOp s).andFrame (by simp) (by simp)
  · exact keepsForm_finishOp s
  · exact .refl s

/-! ### Register writes and resets (R27, R28, R119, R121, R180 to R185) -/

theorem keepsForm_softReset (s : State) : KeepsForm s (softReset s) := by
  have blocks : KeepsForm s (softResetBlocks s) := .of_frame rfl rfl
  have answered : KeepsForm (softResetBlocks s) (softReset s) :=
    .of_frame (foldl_keeps State.mem (fun t p => by simp) portIndices _)
      (foldl_keeps State.pending (fun t p => by simp) portIndices _)
  exact blocks.trans answered

theorem keepsForm_ctrlWsize (w : Word) (s : State) : KeepsForm s (ctrlWsize w s) := by
  unfold ctrlWsize
  split <;> exact .of_frame rfl rfl

theorem keepsForm_ctrlAction (w : Word) (s : State) : KeepsForm s (ctrlAction w s) := by
  unfold ctrlAction
  split
  · exact .of_frame (by simp) (by simp)
  split
  · exact .of_frame (by simp) (by simp)
  · exact .refl s

theorem keepsForm_ctrlWrite (w : Word) (s : State) : KeepsForm s (ctrlWrite w s) := by
  unfold ctrlWrite
  split
  · exact keepsForm_softReset s
  split
  · exact .refl s
  · exact (keepsForm_ctrlWsize w s).trans (keepsForm_ctrlAction w _)

theorem keepsForm_anchStore (v : Word) (s : State) : KeepsForm s (anchStore v s) := by
  unfold anchStore
  split <;> exact .of_frame rfl rfl

theorem keepsForm_regWrite (offset v : Word) (s : State) : KeepsForm s (regWrite offset v s) := by
  unfold regWrite
  split
  · exact .refl s
  split
  · exact keepsForm_ctrlWrite v s
  split
  · exact keepsForm_anchStore v s
  split
  · exact .of_frame rfl rfl
  split
  · exact .of_frame rfl rfl
  · exact .refl s

/-- A full reset leaves nothing listed (R145; log 2), and the queue of commands is not part of the part (log 22). -/
theorem keepsForm_fullReset (pins : Straps) (s : State) : KeepsForm s (fullReset pins s) := ⟨fun _ => wf_reset, rfl⟩

theorem keepsForm_fullResetEnds (pins : Straps) (s : State) : KeepsForm s (fullResetEnds pins s) := by
  unfold fullResetEnds
  split <;> exact .of_frame rfl rfl

/-! ### Speed control (R165 to R168) -/

theorem keepsForm_finishSpeed (c : ResultCode) (rw : Replies) (s : State) : KeepsForm s (finishSpeed c rw s) :=
  .of_frame (by simp) (by simp)

theorem keepsForm_setSpeed (s : State) (v : SpeedControl) : KeepsForm s { s with speed := v } := .of_frame rfl rfl

theorem keepsForm_endRaising (s : State) : KeepsForm s (endRaising s) := by
  unfold endRaising
  split
  · exact keepsForm_setSpeed s _
  · exact .refl s

theorem keepsForm_endLocking (present : Bool) (s : State) : KeepsForm s (endLocking present s) := by
  unfold endLocking
  split
  · split
    · exact keepsForm_setSpeed s _
    · exact (keepsForm_setSpeed s _).trans (keepsForm_finishSpeed _ _ _)
  · exact .refl s

theorem keepsForm_endLowering (s : State) : KeepsForm s (endLowering s) := by
  unfold endLowering
  split
  · exact (keepsForm_setSpeed s _).trans (keepsForm_finishSpeed _ _ _)
  · exact .refl s

theorem keepsForm_switchUpDone (s : State) : KeepsForm s (switchUpDone s) := by
  unfold switchUpDone
  split
  · exact ((keepsForm_setSpeed s _).trans (keepsForm_setHolder none _)).trans (keepsForm_finishSpeed _ _ _)
  · exact .refl s

theorem keepsForm_switchDownDone (s : State) : KeepsForm s (switchDownDone s) := by
  unfold switchDownDone
  split
  · exact (keepsForm_setSpeed s _).trans (keepsForm_setHolder none _)
  · exact .refl s

/-! ### The controller (R145 to R149, R174, R177) -/

theorem keepsForm_setCtl (s : State) (c : Controller) : KeepsForm s { s with ctl := c } := .of_frame rfl rfl

theorem keepsForm_handoff (s : State) : KeepsForm s (handoff s) := by
  unfold handoff releaseHeldRead
  split
  · split
    · exact .of_frame (by simp) (by simp)
    · exact .of_frame rfl rfl
  · exact .refl s

theorem keepsForm_refreshInterval (s : State) : KeepsForm s (refreshInterval s) := by
  unfold refreshInterval
  split
  · exact .refl s
  · exact keepsForm_setCtl s _

theorem keepsForm_refreshDone (s : State) : KeepsForm s (refreshDone s) := by
  unfold refreshDone
  split
  · exact keepsForm_setHolder none s
  · exact .refl s

theorem keepsForm_wakeCycleDone (s : State) : KeepsForm s (wakeCycleDone s) := by
  unfold wakeCycleDone
  split
  · exact keepsForm_setCtl s _
  · exact .refl s

theorem keepsForm_finalRefreshDone (s : State) : KeepsForm s (finalRefreshDone s) := by
  unfold finalRefreshDone
  split
  · exact keepsForm_setCtl s _
  · exact .refl s

theorem keepsForm_selfRefreshEntered (s : State) : KeepsForm s (selfRefreshEntered s) := by
  unfold selfRefreshEntered
  split
  · split <;> exact keepsForm_setCtl s _
  · exact .refl s

theorem keepsForm_selfRefreshLeft (s : State) : KeepsForm s (selfRefreshLeft s) := by
  unfold selfRefreshLeft
  split
  · exact keepsForm_setCtl s _
  · exact .refl s

theorem keepsForm_exitRefreshDone (s : State) : KeepsForm s (exitRefreshDone s) := by
  unfold exitRefreshDone
  split
  · exact (keepsForm_setCtl s _).trans (keepsForm_raise _ _)
  · exact .refl s

/-! ### Every command -/

/-- The command's state is the answer. -/
theorem KeepsForm.next {s u : State} (k : KeepsForm s u) :
    ∃ t, (.next u : Host.Outcome State Fault Refusal) = .next t ∧ KeepsForm s t := ⟨u, rfl, k⟩

/-- The answer is the arbiter's choice on the command's state (R151). -/
theorem KeepsForm.answered {s u : State} (k : KeepsForm s u) : ∃ t, answerNext u = .next t ∧ KeepsForm s t :=
  (k.trans (keepsForm_arbitrate u)).next

/-- Every command answers a next state, which keeps the form. -/
theorem exec_next_keepsForm (c : Instr) (s : State) : ∃ t, exec c s = .next t ∧ KeepsForm s t := by
  cases c with
  | openWindow r | closeWindow r | lock r | look r | lease r | renew r | freeLease r | policy r | waitWord r | fill r
  | copy r | scan r | abort r | noop r | port r | portReset r | refreshInterval r | speed r | sleep r | unknown code r
  | recordReadComplete => exact (keepsForm_recordReadReturns _ s).answered
  | waitArmingReadComplete => exact (keepsForm_waitArmingDone s).answered
  | chainWatchArmingReadComplete => exact (keepsForm_tailArmingDone s).answered
  | headerWriteComplete => exact (keepsForm_headerWriteDone s).answered
  | resultWriteComplete => exact (keepsForm_resultWriteDone s).answered
  | engineWriteComplete => exact (keepsForm_otherWriteDone s).answered
  | go w | stop w | softReset w | wset w => exact (keepsForm_regWrite _ _ s).answered
  | registerWriteOther offset v => exact (keepsForm_regWrite offset v s).answered
  | anchWrite v | emskWrite v | eclrWrite v => exact (keepsForm_regWrite _ v s).next
  | fullReset pins => exact (keepsForm_fullReset pins s).next
  | fullResetEnd pins => exact (keepsForm_fullResetEnds pins s).next
  | accessArrival p a =>
    have presented : KeepsForm s (present p a s) := .of_frame (by simp) (by simp)
    exact presented.answered
  | accessComplete => exact (keepsForm_accessDone s).answered
  | fillBurstComplete => exact (keepsForm_fillBurst s).answered
  | copyReadBurstComplete => exact (keepsForm_copyReadBurst s).answered
  | copyWriteBurstComplete => exact (keepsForm_copyWriteBurst s).answered
  | scanBurstComplete => exact (keepsForm_scanBurst s).answered
  | leaseTick =>
    have ticked : KeepsForm s (tickTimers s) := .of_frame rfl rfl
    exact ticked.next
  | leaseExpiry i =>
    have expired : KeepsForm s (expireLease i s) := .of_frame (by simp) (by simp)
    exact expired.next
  | watchTimeout k =>
    have timedOut : KeepsForm s (timeoutSlot k s) := .of_frame (by simp) (by simp)
    exact timedOut.answered
  | raisingEnd => exact (keepsForm_endRaising s).next
  | lockingEnd present => exact (keepsForm_endLocking present s).answered
  | loweringEnd => exact (keepsForm_endLowering s).answered
  | switchUpComplete => exact (keepsForm_switchUpDone s).answered
  | switchDownComplete => exact (keepsForm_switchDownDone s).answered
  | refreshIntervalEnd => exact (keepsForm_refreshInterval s).answered
  | refreshComplete => exact (keepsForm_refreshDone s).answered
  | wakeCycleComplete => exact (keepsForm_wakeCycleDone s).answered
  | standbyHandoff => exact (keepsForm_handoff s).answered
  | finalRefreshComplete => exact (keepsForm_finalRefreshDone s).next
  | selfRefreshEntryComplete => exact (keepsForm_selfRefreshEntered s).next
  | selfRefreshExitComplete => exact (keepsForm_selfRefreshLeft s).next
  | exitRefreshComplete => exact (keepsForm_exitRefreshDone s).answered
  | prstDrainComplete p =>
    have drained : KeepsForm s (drainPort p s) := .of_frame (by simp) (by simp)
    exact drained.answered
  | entryRetired i =>
    have settled : KeepsForm s (settleEntry i s) := .of_frame (by simp) (by simp)
    exact settled.answered
  | stallEnd =>
    have ended : KeepsForm s (endStall s) := .of_frame (by simp) (by simp)
    exact ended.answered

/-! ### The step -/

theorem step_cons (c : Instr) (rest : List Instr) (s : State) :
    step { s with pending := c :: rest } = exec c { s with pending := rest } := rfl

/-- An empty queue idles (log 1). -/
theorem step_nil {s : State} (h : s.pending = []) : step s = .next s := by rw [step, h]

/-- Settles O56: every command keeps the form, an idle step changes nothing, and the queue is not in the DRAM's list. -/
theorem memoryStaysCanonical : Obligations.MemoryStaysCanonical := by
  intro s t canonical h
  cases hp : s.pending with
  | nil =>
    rw [step_nil hp] at h
    cases h
    exact canonical
  | cons c rest =>
    obtain ⟨u, hu, kept⟩ := exec_next_keepsForm c { s with pending := rest }
    have front : step s = exec c { s with pending := rest } := by rw [step, hp]
    cases (hu.symm.trans front.symm).trans h
    exact kept.canonical canonical

/-- Settles O54: the step by its queue, and every command answers a next state with the queue as it was. -/
theorem stepRunsFrontCommand : Obligations.StepRunsFrontCommand :=
  ⟨step_cons, fun _ => step_nil, fun c s =>
    have ⟨t, ht, kept⟩ := exec_next_keepsForm c s
    ⟨t, ht, kept.pending⟩⟩

end Sys2Proof.Proofs
end
